-- ==== Sys2Proof/Word.lean ====
section
/-! DEFINITION. The word types, and the two small records that instructions carry. -/

namespace Sys2Proof

/-- A 64-bit register value (R238). -/
abbrev Word := BitVec 64

/-- One byte of memory (R1). -/
abbrev Byte := BitVec 8

/-- Who makes an access to a device register: the core of a package cluster, or one of the three masters of R424
(0 host link 0, 1 host link 1, 2 the management controller). -/
inductive Agent where
  | core (c : Nat)
  | master (m : Nat)
  deriving DecidableEq, Repr

/-- The fields of an engine command's extension word (R59). With x = 0 every field is zero (R55). -/
structure EngExt where
  bar : BitVec 5
  fe : Bool
  scope : BitVec 3
  red : BitVec 4
  sfx : BitVec 4
  deriving DecidableEq, Repr

/-- Every extension field zero: what an engine word with x = 0 carries (R55). -/
def EngExt.zero : EngExt := { bar := 0, fe := false, scope := 0, red := 0, sfx := 0 }

end Sys2Proof
end

