-- ==== Sys2Proof/Config.lean ====
section
/-! DEFINITION. What an implementation fixes and what the spec leaves open: constants with no body, so that nothing in
Lean can evaluate them and every statement holds whatever they are (log 7, log 8). -/

namespace Sys2Proof.Config

/-- A free value: applied to the state's counter it is a value nothing constrains (log 7). -/
opaque freeWord : Nat → Word

/-- The detail word of T_MATRIX_BIN: a function of the run's tile and context and of the offending entry's context and
operation, which it names; its layout is not given (R168, log 7). -/
opaque binDetail : Nat → Nat → Nat → Nat → Word

/-- The number that the DORMOUSE markers of a die's n-th pre-emption request carry: how requests are numbered is not stated
(R99, log 7). -/
opaque requestNumber : Nat → BitVec 32

/-- The stepping %devid reports: true for B (0x0B), false for A (0x0A) (R23, log 7). -/
opaque steppingB : Bool

/-- The device serial, fused and unique to each device (R426, log 7). -/
opaque deviceSerial : Word

/-- The fused secret of R429 and R433 (log 8). -/
opaque fusedSecret : List Byte

/-- SHAKE256 as an output stream: byte i of the output over a message; FIPS 202 is outside the spec (log 8). -/
opaque shake256 : List Byte → Nat → Byte

/-- ML-DSA-65 verification of a signature over a digest under a public key; FIPS 204 is outside the spec (log 8). -/
opaque mldsaVerify : List Byte → List Byte → List Byte → Bool

/-- Byte i of the ML-DSA-65 signature over a digest by the identity key derived from a seed (log 8). -/
opaque mldsaSign : List Byte → List Byte → Nat → Byte

/-- Byte i of the public key of the identity derived from a seed (log 8). -/
opaque mldsaPublic : List Byte → Nat → Byte

/-- The public key of the first firmware, and the signature that it carries over its digest: the firmware's own (R428, log 8). -/
opaque firmwareKey : List Byte
opaque firmwareSig : List Byte → List Byte

/-- The SHAKE256 digest of that key which is fused into the device (R428, log 8). -/
opaque fusedKeyDigest : List Byte

/-- The package's own number in a peer entry (R278), and the package at the far end of each kin link (R423, log 14). -/
opaque packageNo : Nat
opaque kinPackage : Nat → Nat

/-- The body bytes of a save record: their layout is that of the writer's stepping (R233, log 12). -/
opaque saveByte : Nat → Byte
/-- The body length of a save record of each kind (R233, log 12): a body's items come to fewer than 2^24 bytes. -/
opaque saveLen : Nat → BitVec 24

/-- The value and flags of an approximate floating operation: the spec states no result, only that it is a function of
the configuration and the operands (R25, R49, log 11). -/
opaque approx : Nat → Nat → Nat → Nat → Nat × BitVec 6

/-- The engines of a die beyond the first that take tasks of kind 1, copies, or 2, collectives (R296, log 77). -/
opaque spareEngines : Nat → Nat

end Sys2Proof.Config
end

