-- ==== Sys2Proof/Syntax.lean ====
section
/-! DEFINITION. The instructions: one constructor per row of the opcode table. The first 166 are control-core
instructions (R52 to R60), with the fields R53 gives them; the rest are the device's steps, whose arguments say which
unit takes the step and, where the step is an input from outside, what the input carries. In a step's arguments `c` is a
package cluster (R5), `p` a site value with absolute die (R84), `j` a port index (R67), `d` a die, `z` a zone, `t` a task
key, `g` a group index or region number, `k` an entry number, `n` a number the rule names, `x` a context, `m` a master
(R424), `pa` a physical address. -/

namespace Sys2Proof

/-- One constructor per row of the opcode table, in its order; the docstring names the rule. -/
inductive Instr where
  | add (d a b : BitVec 5) -- ADD R252
  | sub (d a b : BitVec 5) -- SUB R252
  | and (d a b : BitVec 5) -- AND R252
  | or (d a b : BitVec 5) -- OR R252
  | xor (d a b : BitVec 5) -- XOR R252
  | andn (d a b : BitVec 5) -- ANDN R252
  | sll (d a b : BitVec 5) -- SLL R252
  | srl (d a b : BitVec 5) -- SRL R252
  | sra (d a b : BitVec 5) -- SRA R252
  | minS (d a b : BitVec 5) -- MIN_S R252
  | minN (d a b : BitVec 5) -- MIN_N R252
  | maxS (d a b : BitVec 5) -- MAX_S R252
  | maxN (d a b : BitVec 5) -- MAX_N R252
  | mul (d a b : BitVec 5) -- MUL R252
  | mulhS (d a b : BitVec 5) -- MULH_S R252
  | mulhN (d a b : BitVec 5) -- MULH_N R252
  | divS (d a b : BitVec 5) -- DIV_S R253
  | divN (d a b : BitVec 5) -- DIV_N R253
  | remS (d a b : BitVec 5) -- REM_S R253
  | remN (d a b : BitVec 5) -- REM_N R253
  | clz (d a : BitVec 5) -- CLZ R252
  | ctz (d a : BitVec 5) -- CTZ R252
  | popc (d a : BitVec 5) -- POPC R252
  | sel (d a b c : BitVec 5) -- SEL R252
  | msgrd (d a : BitVec 5) -- MSGRD R252
  | addi (d a : BitVec 5) (imm : BitVec 16) -- ADDI R254
  | andi (d a : BitVec 5) (imm : BitVec 16) -- ANDI R254
  | ori (d a : BitVec 5) (imm : BitVec 16) -- ORI R254
  | xori (d a : BitVec 5) (imm : BitVec 16) -- XORI R254
  | slli (d a : BitVec 5) (sh : BitVec 6) -- SLLI R254
  | srli (d a : BitVec 5) (sh : BitVec 6) -- SRLI R254
  | srai (d a : BitVec 5) (sh : BitVec 6) -- SRAI R254
  | rori (d a : BitVec 5) (sh : BitVec 6) -- RORI R254
  | ins16 (d : BitVec 5) (h : BitVec 2) (imm : BitVec 16) -- INS16 R254
  | ltiS (d a : BitVec 5) (imm : BitVec 16) -- LTI_S R254
  | ltiN (d a : BitVec 5) (imm : BitVec 16) -- LTI_N R254
  | cmpEq (d a b : BitVec 5) -- CMP_EQ R255
  | cmpNe (d a b : BitVec 5) -- CMP_NE R255
  | cmpLtS (d a b : BitVec 5) -- CMP_LT_S R255
  | cmpLtN (d a b : BitVec 5) -- CMP_LT_N R255
  | cmpLeS (d a b : BitVec 5) -- CMP_LE_S R255
  | cmpLeN (d a b : BitVec 5) -- CMP_LE_N R255
  | br (a b : BitVec 5) (cond : BitVec 3) (off : BitVec 13) -- BR R256
  | jmp (off : BitVec 26) -- JMP R256
  | call (off : BitVec 26) -- CALL R256
  | jr (d a : BitVec 5) (imm : BitVec 16) -- JR R256
  | fadd (d a b : BitVec 5) (rm : BitVec 3) -- FADD R258
  | fsub (d a b : BitVec 5) (rm : BitVec 3) -- FSUB R258
  | fmul (d a b : BitVec 5) (rm : BitVec 3) -- FMUL R258
  | fdiv (d a b : BitVec 5) (rm : BitVec 3) -- FDIV R258
  | fsqrt (d a : BitVec 5) (rm : BitVec 3) -- FSQRT R258
  | fmin (d a b : BitVec 5) -- FMIN R258
  | fmax (d a b : BitVec 5) -- FMAX R258
  | fneg (d a : BitVec 5) -- FNEG R258
  | fabs (d a : BitVec 5) -- FABS R258
  | fkey (d a : BitVec 5) -- FKEY R259
  | fcmpEq (d a b : BitVec 5) -- FCMP_EQ R258
  | fcmpLt (d a b : BitVec 5) -- FCMP_LT R258
  | fcmpLe (d a b : BitVec 5) -- FCMP_LE R258
  | fcvtS32F32 (d a : BitVec 5) (rm : BitVec 3) -- FCVT_S32_F32 R260
  | fcvtN32F32 (d a : BitVec 5) (rm : BitVec 3) -- FCVT_N32_F32 R260
  | fcvtF32S32 (d a : BitVec 5) (rm : BitVec 3) -- FCVT_F32_S32 R258
  | fcvtF32N32 (d a : BitVec 5) (rm : BitVec 3) -- FCVT_F32_N32 R258
  | fmvS (d a : BitVec 5) -- FMV_S R258
  | fmvF (d a : BitVec 5) -- FMV_F R258
  | fcvtBf16F32 (d a : BitVec 5) (rm : BitVec 3) -- FCVT_BF16_F32 R258
  | fcvtF32Bf16 (d a : BitVec 5) -- FCVT_F32_BF16 R258
  | fcvtF16F32 (d a : BitVec 5) (rm : BitVec 3) -- FCVT_F16_F32 R258
  | fcvtF32F16 (d a : BitVec 5) -- FCVT_F32_F16 R258
  | fma (d a b c : BitVec 5) (rm : BitVec 3) -- FMA R261
  | fms (d a b c : BitVec 5) (rm : BitVec 3) -- FMS R261
  | fnma (d a b c : BitVec 5) (rm : BitVec 3) -- FNMA R261
  | fnms (d a b c : BitVec 5) (rm : BitVec 3) -- FNMS R261
  | ldS8 (d a : BitVec 5) (imm : BitVec 16) -- LD_S8 R263
  | ldN8 (d a : BitVec 5) (imm : BitVec 16) -- LD_N8 R263
  | ldS16 (d a : BitVec 5) (imm : BitVec 16) -- LD_S16 R263
  | ldN16 (d a : BitVec 5) (imm : BitVec 16) -- LD_N16 R263
  | ldS32 (d a : BitVec 5) (imm : BitVec 16) -- LD_S32 R263
  | ldN32 (d a : BitVec 5) (imm : BitVec 16) -- LD_N32 R263
  | ldB64 (d a : BitVec 5) (imm : BitVec 16) -- LD_B64 R263
  | fld (d a : BitVec 5) (imm : BitVec 16) -- FLD R263
  | stB8 (d a : BitVec 5) (imm : BitVec 16) -- ST_B8 R264
  | stB16 (d a : BitVec 5) (imm : BitVec 16) -- ST_B16 R264
  | stB32 (d a : BitVec 5) (imm : BitVec 16) -- ST_B32 R264
  | stB64 (d a : BitVec 5) (imm : BitVec 16) -- ST_B64 R264
  | fst (d a : BitVec 5) (imm : BitVec 16) -- FST R264
  | ldAcqB32 (d a b : BitVec 5) -- LD_ACQ_B32 R266
  | ldAcqB64 (d a b : BitVec 5) -- LD_ACQ_B64 R266
  | stRelB32 (d a b : BitVec 5) -- ST_REL_B32 R266
  | stRelB64 (d a b : BitVec 5) -- ST_REL_B64 R266
  | fence (sc : BitVec 5) -- FENCE R267
  | amoAddB64 (d a b : BitVec 5) (ord : BitVec 2) -- AMO_ADD_B64 R269
  | amoMinSB64 (d a b : BitVec 5) (ord : BitVec 2) -- AMO_MIN_S_B64 R269
  | amoMinNB64 (d a b : BitVec 5) (ord : BitVec 2) -- AMO_MIN_N_B64 R269
  | amoMaxSB64 (d a b : BitVec 5) (ord : BitVec 2) -- AMO_MAX_S_B64 R269
  | amoMaxNB64 (d a b : BitVec 5) (ord : BitVec 2) -- AMO_MAX_N_B64 R269
  | amoAndB64 (d a b : BitVec 5) (ord : BitVec 2) -- AMO_AND_B64 R269
  | amoOrB64 (d a b : BitVec 5) (ord : BitVec 2) -- AMO_OR_B64 R269
  | amoXorB64 (d a b : BitVec 5) (ord : BitVec 2) -- AMO_XOR_B64 R269
  | amoSwapB64 (d a b : BitVec 5) (ord : BitVec 2) -- AMO_SWAP_B64 R269
  | amoCasB64 (d a b c : BitVec 5) (ord : BitVec 2) -- AMO_CAS_B64 R269
  | amoAddB32 (d a b : BitVec 5) (ord : BitVec 2) -- AMO_ADD_B32 R269
  | amoMinSB32 (d a b : BitVec 5) (ord : BitVec 2) -- AMO_MIN_S_B32 R269
  | amoMinNB32 (d a b : BitVec 5) (ord : BitVec 2) -- AMO_MIN_N_B32 R269
  | amoMaxSB32 (d a b : BitVec 5) (ord : BitVec 2) -- AMO_MAX_S_B32 R269
  | amoMaxNB32 (d a b : BitVec 5) (ord : BitVec 2) -- AMO_MAX_N_B32 R269
  | amoAndB32 (d a b : BitVec 5) (ord : BitVec 2) -- AMO_AND_B32 R269
  | amoOrB32 (d a b : BitVec 5) (ord : BitVec 2) -- AMO_OR_B32 R269
  | amoXorB32 (d a b : BitVec 5) (ord : BitVec 2) -- AMO_XOR_B32 R269
  | amoSwapB32 (d a b : BitVec 5) (ord : BitVec 2) -- AMO_SWAP_B32 R269
  | amoCasB32 (d a b c : BitVec 5) (ord : BitVec 2) -- AMO_CAS_B32 R269
  | ticket (d a b : BitVec 5) -- TICKET R270
  | copy (x : Bool) (tok a b c : BitVec 5) (e : EngExt) -- COPY R275
  | gather (x : Bool) (tok a b c : BitVec 5) (e : EngExt) -- GATHER R276
  | scatter (x : Bool) (tok a b c : BitVec 5) (e : EngExt) -- SCATTER R276
  | fill (x : Bool) (tok a b c : BitVec 5) (e : EngExt) -- FILL R275
  | copyChain (x : Bool) (tok a b c : BitVec 5) (e : EngExt) -- COPY_CHAIN R277
  | collBcast (x : Bool) (tok a b c : BitVec 5) (e : EngExt) -- COLL_BCAST R278
  | collReduce (x : Bool) (tok a b c : BitVec 5) (e : EngExt) -- COLL_REDUCE R278
  | collAllreduce (x : Bool) (tok a b c : BitVec 5) (e : EngExt) -- COLL_ALLREDUCE R278
  | collAllgather (x : Bool) (tok a b c : BitVec 5) (e : EngExt) -- COLL_ALLGATHER R278
  | collA2a (x : Bool) (tok a b c : BitVec 5) (e : EngExt) -- COLL_A2A R278
  | wait (cls : BitVec 5) (lim : BitVec 16) -- WAIT R272
  | sspec (x : Bool) (tok a b c : BitVec 5) (ahead : BitVec 16) -- SSPEC R280
  | sbar (x : Bool) (tok a b c : BitVec 5) -- SBAR R281
  | scond (x : Bool) (tok a b : BitVec 5) (ahead : BitVec 16) -- SCOND R282
  | cfgLoad (d a b c : BitVec 5) -- CFG_LOAD R222
  | cfgArm (d a b c : BitVec 5) -- CFG_ARM R224
  | cfgSwap (d b c : BitVec 5) -- CFG_SWAP R230
  | cfgDrain (d b c : BitVec 5) -- CFG_DRAIN R228
  | cfgSave (d a b c : BitVec 5) -- CFG_SAVE R232
  | cfgRest (d a b c : BitVec 5) -- CFG_REST R234
  | cfgQuery (d b c : BitVec 5) -- CFG_QUERY R235
  | launch (d a : BitVec 5) -- LAUNCH R302
  | tspawn (d a b c : BitVec 5) -- TSPAWN R351
  | trig -- TRIG R303
  | exit (a b how : BitVec 5) -- EXIT R304
  | parkWord (a b c : BitVec 5) -- PARK_WORD R247
  | parkBar (a b c : BitVec 5) -- PARK_BAR R359
  | parkChan (a b c : BitVec 5) -- PARK_CHAN R247
  | msgSend (d a c : BitVec 5) -- MSG_SEND R306
  | incInit (d a b c : BitVec 5) -- INC_INIT R345
  | incRd (d a : BitVec 5) -- INC_RD R346
  | incOffer (a b c : BitVec 5) -- INC_OFFER R347
  | incOfferI (d a b c : BitVec 5) -- INC_OFFER_I R348
  | killpt (a : BitVec 5) -- KILLPT R349
  | boundSet (a b : BitVec 5) -- BOUND_SET R350
  | barInit (a b : BitVec 5) -- BAR_INIT R354
  | barExpect (a b : BitVec 5) -- BAR_EXPECT R354
  | barArrive (d a b : BitVec 5) -- BAR_ARRIVE R356
  | barTest (d a : BitVec 5) -- BAR_TEST R356
  | xprobe (d a : BitVec 5) -- XPROBE R371
  | xhintMig (d a b c : BitVec 5) -- XHINT_MIG R373
  | xhintPref (d a b : BitVec 5) -- XHINT_PREF R372
  | xinv (d a b c : BitVec 5) -- XINV R374
  | trap (code : BitVec 10) -- TRAP R283
  | tret -- TRET R286
  | sysrd (d : BitVec 5) (reg : BitVec 10) -- SYSRD R287
  | syswr (a : BitVec 5) (reg : BitVec 10) -- SYSWR R287
  | halt -- HALT R288
  | brk -- BRK R283
  | nop -- NOP R288
  | zreqQuery (d a : BitVec 5) -- ZREQ_QUERY R406
  | zreqRaise (d a : BitVec 5) (cls : BitVec 4) -- ZREQ_RAISE R406
  | zreqDrop (d a : BitVec 5) -- ZREQ_DROP R406
  | li (d mode : BitVec 5) (ext : BitVec 32) -- LI R57
  | handlerBudget (c : Nat) -- HANDLER_BUDGET R242
  | stallLimit (c : Nat) -- STALL_LIMIT R251
  | stallFault (c : Nat) -- STALL_FAULT R251
  | loadReturn (c k : Nat) -- LOAD_RETURN R250
  | storePerformed (c k : Nat) -- STORE_PERFORMED R264
  | engineComplete (k : Nat) -- ENGINE_COMPLETE R273
  | streamCmdComplete (k : Nat) -- STREAM_CMD_COMPLETE R280
  | xlateCmdComplete (k : Nat) -- XLATE_CMD_COMPLETE R370
  | cfgComplete (k : Nat) -- CFG_COMPLETE R219
  | handlerStart (c : Nat) -- HANDLER_START R242
  | coreSwitch (c : Nat) -- CORE_SWITCH R245
  | parkPost (c k : Nat) -- PARK_POST R248
  | ctxOpen (who : Agent) (x : Nat) -- CTX_OPEN R236
  | ctxQuiesce (who : Agent) (x : Nat) -- CTX_QUIESCE R236
  | ctxResume (who : Agent) (x : Nat) -- CTX_RESUME R236
  | ctxClose (who : Agent) (x : Nat) -- CTX_CLOSE R236
  | ctxQuiesced (x : Nat) -- CTX_QUIESCED R236
  | registerWrite (who : Agent) (pa : Nat) (v : Word) -- REGISTER_WRITE R8
  | frbaseWrite (who : Agent) (pa : Nat) (v : Word) -- FRBASE_WRITE R44
  | streamFill (c w : Nat) -- STREAM_FILL R47
  | packetHop (p j : Nat) (ok : Bool) -- PACKET_HOP R94
  | switchForward (p r : Nat) -- SWITCH_FORWARD R113
  | packetAccept (p j : Nat) -- PACKET_ACCEPT R103
  | antiTokenHop (p j : Nat) (ok : Bool) -- ANTI_TOKEN_HOP R107
  | antiTokenProducer (p j : Nat) -- ANTI_TOKEN_PRODUCER R108
  | forkAntiToken (p j : Nat) -- FORK_ANTI_TOKEN R110
  | ceFire (p : Nat) -- CE_FIRE R122
  | firingResult (p : Nat) -- FIRING_RESULT R123
  | eosForward (p : Nat) -- EOS_FORWARD R129
  | earlyJoinFire (p : Nat) -- EARLY_JOIN_FIRE R131
  | steerFire (p : Nat) -- STEER_FIRE R134
  | lcmergeStep (p : Nat) -- LCMERGE_STEP R135
  | cntEmit (p : Nat) -- CNT_EMIT R136
  | rngEmit (p : Nat) -- RNG_EMIT R152
  | bcvtBlock (p : Nat) -- BCVT_BLOCK R153
  | redResult (p : Nat) -- RED_RESULT R154
  | markerArrive (p j : Nat) -- MARKER_ARRIVE R142
  | markerComplete (p : Nat) -- MARKER_COMPLETE R142
  | matrixEntryPlace (p : Nat) -- MATRIX_ENTRY_PLACE R158
  | mmaExecute (p : Nat) -- MMA_EXECUTE R166
  | matrixEosExecute (p : Nat) -- MATRIX_EOS_EXECUTE R167
  | accReadExecute (p : Nat) -- ACC_READ_EXECUTE R170
  | accClrExecute (p : Nat) -- ACC_CLR_EXECUTE R171
  | cbkLdExecute (p : Nat) -- CBK_LD_EXECUTE R172
  | lutFire (p : Nat) -- LUT_FIRE R176
  | tileCountReached (g s : Nat) -- TILE_COUNT_REACHED R225
  | mtRequest (p : Nat) -- MT_REQUEST R181
  | mtEntryRetire (p k : Nat) -- MT_ENTRY_RETIRE R182
  | ldfeWake (p k : Nat) -- LDFE_WAKE R183
  | amoFire (p : Nat) -- AMO_FIRE R190
  | qpush (p : Nat) -- QPUSH R191
  | qpop (p : Nat) -- QPOP R191
  | queueDry (p : Nat) -- QUEUE_DRY R318
  | doneFire (p : Nat) -- DONE_FIRE R193
  | tileLd (p : Nat) -- TILE_LD R195
  | blockRelease (p k : Nat) -- BLOCK_RELEASE R196
  | committedStoreAnti (p j : Nat) -- COMMITTED_STORE_ANTI R198
  | tileGatherElement (k : Nat) -- TILE_GATHER_ELEMENT R201
  | streamRequest (p : Nat) -- STREAM_REQUEST R205
  | streamResponse (p : Nat) -- STREAM_RESPONSE R205
  | streamWrite (p : Nat) -- STREAM_WRITE R208
  | feedbackEmit (p : Nat) -- FEEDBACK_EMIT R209
  | xltFire (p : Nat) -- XLT_FIRE R210
  | ownHandover (p : Nat) -- OWN_HANDOVER R211
  | barArrFire (p : Nat) -- BAR_ARR_FIRE R357
  | barrierStep (pa : Nat) (e y : BitVec 32) (n : Nat) -- BARRIER_STEP R353
  | slotDrained (g : Nat) -- SLOT_DRAINED R227
  | swapTakesEffect (g : Nat) -- SWAP_TAKES_EFFECT R230
  | hostSlotWrite (m x d j o : Nat) (bytes : List Byte) -- HOST_SLOT_WRITE R290
  | qctlWrite (who : Agent) (d j : Nat) (v : Word) -- QCTL_WRITE R289
  | jobIntake (d : Nat) -- JOB_INTAKE R292
  | taskReady (d t : Nat) -- TASK_READY R294
  | taskDispatch (d : Nat) -- TASK_DISPATCH R297
  | taskRelease (d t : Nat) -- TASK_RELEASE R300
  | jobComplete (d n : Nat) -- JOB_COMPLETE R295
  | groupDispatch (d t g : Nat) -- GROUP_DISPATCH R313
  | groupRunning (d t g : Nat) -- GROUP_RUNNING R313
  | gpreqMarker (d t g : Nat) -- GPREQ_MARKER R321
  | gpreqStep (d t g : Nat) -- GPREQ_STEP R321
  | quietPoint (d t g : Nat) -- QUIET_POINT R321
  | stepDeadline (d t g : Nat) -- STEP_DEADLINE R321
  | preemptSaved (d t g : Nat) -- PREEMPT_SAVED R313
  | groupRestore (d t g : Nat) -- GROUP_RESTORE R323
  | groupFree (d t g : Nat) -- GROUP_FREE R324
  | specCommit (d t : Nat) -- SPEC_COMMIT R331
  | specIrrevocable (d t : Nat) -- SPEC_IRREVOCABLE R333
  | offerArrive (n : Nat) -- OFFER_ARRIVE R335
  | incUpdateCopy (n d : Nat) -- INC_UPDATE_COPY R336
  | lynxSweep (d : Nat) -- LYNX_SWEEP R338
  | kernelKill (d t : Nat) -- KERNEL_KILL R341
  | beaverInterval (d : Nat) (sens : List Word) (press : Nat) -- BEAVER_INTERVAL R393
  | primeTimeout (d z : Nat) -- PRIME_TIMEOUT R396
  | allocTimeout (d z : Nat) -- ALLOC_TIMEOUT R396
  | alarmLockTimeout (d z : Nat) -- ALARM_LOCK_TIMEOUT R396
  | alarmRecover (d z : Nat) -- ALARM_RECOVER R396
  | evacStepEnd (d z : Nat) -- EVAC_STEP_END R397
  | dryDetect (d z : Nat) -- DRY_DETECT R396
  | pressureExcursion (d : Nat) -- PRESSURE_EXCURSION R400
  | zcmdPrime (who : Agent) (d z : Nat) -- ZCMD_PRIME R396
  | zcmdEvacuate (who : Agent) (d z : Nat) -- ZCMD_EVACUATE R396
  | zcmdLock (who : Agent) (d z : Nat) -- ZCMD_LOCK R396
  | zcmdUnlock (who : Agent) (d z : Nat) -- ZCMD_UNLOCK R396
  | zbudgetWrite (who : Agent) (d : Nat) (v : Word) -- ZBUDGET_WRITE R404
  | powerStep (d watts supply : Nat) (temps : List Nat) -- POWER_STEP R410
  | currentWindow (d amps : Nat) -- CURRENT_WINDOW R410
  | meterWindow (n : Nat) -- METER_WINDOW R407
  | pcapWrite (who : Agent) (d : Nat) (v : Word) -- PCAP_WRITE R412
  | faultPost (c : Nat) -- FAULT_POST R416
  | fltresResume (c n : Nat) -- FLTRES_RESUME R417
  | fltresEnd (c n : Nat) -- FLTRES_END R417
  | eccScrubError (d : Nat) (bad : Bool) (pa : Nat) -- ECC_SCRUB_ERROR R419
  | pgateGate (who : Agent) (c : Nat) -- PGATE_GATE R421
  | pgateUngate (who : Agent) (c : Nat) -- PGATE_UNGATE R421
  | gateDraining (c : Nat) -- GATE_DRAINING R421
  | gateOff (c : Nat) -- GATE_OFF R421
  | gateTimeout (c : Nat) -- GATE_TIMEOUT R421
  | reset -- RESET R8
  | boot (digests : List (List Byte)) -- BOOT R428
  | hostWrite (m x va : Nat) (bytes : List Byte) -- HOST_WRITE R383
  | ownClaim (m : Nat) -- OWN_CLAIM R424
  | ownOffer (m o : Nat) -- OWN_OFFER R424
  | hostLinkDown (m : Nat) -- HOST_LINK_DOWN R424
  | runResume (m c : Nat) -- RUN_RESUME R424
  | evqheadWrite (m : Nat) (v : Word) -- EVQHEAD_WRITE R427
  | accessRefused (m x o : Nat) (wr : Bool) -- ACCESS_REFUSED R425
  | attestStart (m : Nat) (v : Word) -- ATTEST_START R429
  | attestDone -- ATTEST_DONE R429
  | pwbaseWrite (who : Agent) (i n : Nat) (v : Word) -- PWBASE_WRITE R432
  | readoutRequest (m x len : Nat) -- READOUT_REQUEST R434
  | readoutDone (i : Nat) -- READOUT_DONE R433
  | manifestSign (m x : Nat) (v : Word) -- MANIFEST_SIGN R433
  | cutStart (who : Agent) (d : Nat) -- CUT_START R440
  | cutComplete (d : Nat) -- CUT_COMPLETE R440
  | cutRelease (who : Agent) (d : Nat) -- CUT_RELEASE R440
  | profWrite (who : Agent) (d : Nat) (v : Word) -- PROF_WRITE R442
  | traceDrain (c : Nat) -- TRACE_DRAIN R444
  | trctlWrite (who : Agent) (c : Nat) (v : Word) -- TRCTL_WRITE R444
  | enginePageFault (k : Nat) -- ENGINE_PAGE_FAULT R279
  | incWithdrawCopy (n d : Nat) -- INC_WITHDRAW_COPY R345
  | pageRequestResponse (m : Nat) (ok : Bool) -- PAGE_REQUEST_RESPONSE R422
  | kinLinkDown (l : Nat) -- KIN_LINK_DOWN R423
  deriving DecidableEq, Repr

end Sys2Proof
end

