-- ==== Sys2Proof/WellFormed.lean ====
section
/-! DEFINITION. Which instructions a word can encode: the limits that R54, R57, R58, R59 and R304 set on the fields,
each as a Bool. A device step (a constructor from `handlerBudget` on) is encoded by no word and has no limit. -/

namespace Sys2Proof

/-- A field that names an f-register holds 0 to 15 (R54). -/
def isF (r : BitVec 5) : Bool := decide (r.toNat < 16)

/-- A field that names an m-register holds 0 to 7 (R54). -/
def isM (r : BitVec 5) : Bool := decide (r.toNat < 8)

/-- The rounding modes a control core may name: rne, rtz, rdn, rup (R33). -/
def isRm (rm : BitVec 3) : Bool := decide (rm.toNat < 4)

/-- The formats coll.reduce and coll.allreduce accept: .f32 .f16 .bf16 .s32 .n32 .s64 .n64 (R278). -/
def isRedSfx (sfx : BitVec 4) : Bool := [0, 1, 2, 8, 9, 10, 11].contains sfx.toNat

/-- The extension of an engine command that is no reduction: scope 0 to 4, red and sfx zero, and all zero when x = 0
(R55, R59). -/
def EngExt.wfPlain (x : Bool) (e : EngExt) : Bool :=
  decide (e.scope.toNat < 5) && decide (e.red = 0) && decide (e.sfx = 0) && (x || decide (e = EngExt.zero))

/-- The extension of coll.reduce and coll.allreduce: red 0 to 2 and an sfx of R278. -/
def EngExt.wfRed (x : Bool) (e : EngExt) : Bool :=
  decide (e.scope.toNat < 5) && decide (e.red.toNat < 3) && isRedSfx e.sfx && (x || decide (e = EngExt.zero))

/-- The extension of a stream command: ahead 0 to 256, zero when x = 0 (R55, R59). -/
def wfAhead (x : Bool) (ahead : BitVec 16) : Bool := decide (ahead.toNat ≤ 256) && (x || decide (ahead = 0))

/-- Well-formed: some word (or word pair) encodes the instruction. -/
def Instr.wf : Instr → Bool
  | .msgrd _ a => isM a
  | .br _ _ cond _ => decide (cond.toNat < 6)
  | .fadd d a b rm | .fsub d a b rm | .fmul d a b rm | .fdiv d a b rm => isF d && isF a && isF b && isRm rm
  | .fsqrt d a rm | .fcvtBf16F32 d a rm | .fcvtF16F32 d a rm => isF d && isF a && isRm rm
  | .fmin d a b | .fmax d a b => isF d && isF a && isF b
  | .fneg d a | .fabs d a | .fcvtF32Bf16 d a | .fcvtF32F16 d a => isF d && isF a
  | .fkey _ a | .fmvS _ a => isF a
  | .fcmpEq _ a b | .fcmpLt _ a b | .fcmpLe _ a b => isF a && isF b
  | .fcvtS32F32 _ a rm | .fcvtN32F32 _ a rm => isF a && isRm rm
  | .fcvtF32S32 d _ rm | .fcvtF32N32 d _ rm => isF d && isRm rm
  | .fmvF d _ => isF d
  | .fma d a b c rm | .fms d a b c rm | .fnma d a b c rm | .fnms d a b c rm =>
    isF d && isF a && isF b && isF c && isRm rm
  | .fld d _ _ | .fst d _ _ => isF d
  | .fence sc => decide (sc.toNat < 5)
  | .copy x _ _ _ _ e | .gather x _ _ _ _ e | .scatter x _ _ _ _ e | .fill x _ _ _ _ e | .copyChain x _ _ _ _ e
  | .collBcast x _ _ _ _ e | .collAllgather x _ _ _ _ e | .collA2a x _ _ _ _ e => e.wfPlain x
  | .collReduce x _ _ _ _ e | .collAllreduce x _ _ _ _ e => e.wfRed x
  | .wait cls _ => decide (cls.toNat < 4)
  | .sspec x _ _ _ _ ahead => wfAhead x ahead
  | .scond x _ _ _ ahead => wfAhead x ahead
  | .exit a b how => decide (how.toNat < 3) && (decide (how.toNat ≠ 0) || (decide (a = 0) && decide (b = 0)))
  | .li _ mode _ => decide (mode.toNat < 3)
  | _ => true

/-- A device step: a row of the opcode table that no word encodes (rows 166 to 306). -/
def Instr.isEvent : Instr → Bool
  | .handlerBudget _ | .stallLimit _ | .stallFault _ | .loadReturn _ _ | .storePerformed _ _ | .engineComplete _
  | .streamCmdComplete _ | .xlateCmdComplete _ | .cfgComplete _ | .handlerStart _ | .coreSwitch _
  | .parkPost _ _ | .ctxOpen _ _ | .ctxQuiesce _ _ | .ctxResume _ _ | .ctxClose _ _ | .ctxQuiesced _
  | .registerWrite _ _ _ | .frbaseWrite _ _ _ | .streamFill _ _ | .packetHop _ _ _ | .switchForward _ _
  | .packetAccept _ _ | .antiTokenHop _ _ _ | .antiTokenProducer _ _ | .forkAntiToken _ _ | .ceFire _
  | .firingResult _ | .eosForward _ | .earlyJoinFire _ | .steerFire _ | .lcmergeStep _ | .cntEmit _ | .rngEmit _
  | .bcvtBlock _ | .redResult _ | .markerArrive _ _ | .markerComplete _ | .matrixEntryPlace _ | .mmaExecute _
  | .matrixEosExecute _ | .accReadExecute _ | .accClrExecute _ | .cbkLdExecute _ | .lutFire _
  | .tileCountReached _ _ | .mtRequest _ | .mtEntryRetire _ _ | .ldfeWake _ _ | .amoFire _ | .qpush _ | .qpop _
  | .queueDry _ | .doneFire _ | .tileLd _ | .blockRelease _ _ | .committedStoreAnti _ _ | .tileGatherElement _
  | .streamRequest _ | .streamResponse _ | .streamWrite _ | .feedbackEmit _ | .xltFire _ | .ownHandover _
  | .barArrFire _ | .barrierStep _ _ _ _ | .slotDrained _ | .swapTakesEffect _ | .hostSlotWrite _ _ _ _ _ _
  | .qctlWrite _ _ _ _ | .jobIntake _ | .taskReady _ _ | .taskDispatch _ | .taskRelease _ _ | .jobComplete _ _
  | .groupDispatch _ _ _ | .groupRunning _ _ _ | .gpreqMarker _ _ _ | .gpreqStep _ _ _ | .quietPoint _ _ _
  | .stepDeadline _ _ _ | .preemptSaved _ _ _ | .groupRestore _ _ _ | .groupFree _ _ _ | .specCommit _ _
  | .specIrrevocable _ _ | .offerArrive _ | .incUpdateCopy _ _ | .lynxSweep _ | .kernelKill _ _
  | .beaverInterval _ _ _ | .primeTimeout _ _ | .allocTimeout _ _ | .alarmLockTimeout _ _ | .alarmRecover _ _
  | .evacStepEnd _ _ | .dryDetect _ _ | .pressureExcursion _ | .zcmdPrime _ _ _ | .zcmdEvacuate _ _ _
  | .zcmdLock _ _ _ | .zcmdUnlock _ _ _ | .zbudgetWrite _ _ _ | .powerStep _ _ _ _ | .currentWindow _ _
  | .meterWindow _ | .pcapWrite _ _ _ | .faultPost _ | .fltresResume _ _ | .fltresEnd _ _ | .eccScrubError _ _ _
  | .pgateGate _ _ | .pgateUngate _ _ | .gateDraining _ | .gateOff _ | .gateTimeout _ | .reset | .boot _
  | .hostWrite _ _ _ _ | .ownClaim _ | .ownOffer _ _ | .hostLinkDown _ | .runResume _ _ | .evqheadWrite _ _
  | .accessRefused _ _ _ _ | .attestStart _ _ | .attestDone | .pwbaseWrite _ _ _ _ | .readoutRequest _ _ _
  | .readoutDone _ | .manifestSign _ _ _ | .cutStart _ _ | .cutComplete _ | .cutRelease _ _ | .profWrite _ _ _
  | .traceDrain _ | .trctlWrite _ _ _ | .enginePageFault _ | .incWithdrawCopy _ _ | .pageRequestResponse _ _
  | .kinLinkDown _ => true
  | _ => false

end Sys2Proof
end

