-- ==== Sys2Proof/Decode.lean ====
section
/-! DEFINITION. Bit fields, the decoder and the encoder of control-core words (R52 to R60). The decoder is total: a
word is an instruction, needs its extension word, or is rejected by name. -/

namespace Sys2Proof

/-- Bits [hi:lo] of a word, as a number (R1). -/
def fld {n : Nat} (x : BitVec n) (hi lo : Nat) : Nat := x.toNat / 2 ^ lo % 2 ^ (hi + 1 - lo)

/-- One bit of a word (R1). -/
def bit {n : Nat} (x : BitVec n) (i : Nat) : Bool := x.getLsbD i

/-- Word with bits [hi:lo] replaced by the low bits of `v` (R1). -/
def setFld {n : Nat} (x : BitVec n) (hi lo : Nat) (v : Nat) : BitVec n :=
  BitVec.ofNat n (x.toNat % 2 ^ lo + (v % 2 ^ (hi + 1 - lo)) * 2 ^ lo + x.toNat / 2 ^ (hi + 1) * 2 ^ (hi + 1))

/-- The bytes of the number `v`, `k` of them, lowest first (R1). -/
def bytesLE (k v : Nat) : List Byte := (List.range k).map fun i => BitVec.ofNat 8 (v / 2 ^ (8 * i))

/-- The number whose bytes, lowest first, are `bs` (R1). -/
def natLE : List Byte → Nat
  | [] => 0
  | b :: bs => b.toNat + 256 * natLE bs

/-! The fields of the word formats (R53). -/

def wMaj (w : BitVec 32) : BitVec 6 := w.extractLsb' 26 6
def wD (w : BitVec 32) : BitVec 5 := w.extractLsb' 21 5
def wA (w : BitVec 32) : BitVec 5 := w.extractLsb' 16 5
def wB (w : BitVec 32) : BitVec 5 := w.extractLsb' 11 5
def wC (w : BitVec 32) : BitVec 5 := w.extractLsb' 6 5
def wMin (w : BitVec 32) : BitVec 6 := w.extractLsb' 0 6
def wImm (w : BitVec 32) : BitVec 16 := w.extractLsb' 0 16

/-- What a first word is: T_ILLEGAL, T_UNDEF_OP, a whole instruction, or one whose extension word follows (R60). -/
inductive First where
  | illegal
  | undef
  | one (i : Instr)
  | two
  deriving DecidableEq, Repr

/-- Keep an instruction that meets the field limits of R54, R57, R58, R304. -/
def checked (i : Instr) : First := if i.wf then .one i else .undef

/-- A word with fields d, a, b whose c is zero. -/
def ifC0 (w : BitVec 32) (i : Instr) : First := if wC w = 0 then checked i else .undef

/-- A word with fields d, a whose b and c are zero. -/
def ifBC0 (w : BitVec 32) (i : Instr) : First := if wB w = 0 ∧ wC w = 0 then checked i else .undef

/-- A word whose d is zero. -/
def ifD0 (w : BitVec 32) (f : First) : First := if wD w = 0 then f else .undef

/-- A word whose a is zero. -/
def ifA0 (w : BitVec 32) (f : First) : First := if wA w = 0 then f else .undef

/-- ALU minors of major 0x01 (R58). -/
def decodeAlu (w : BitVec 32) : First :=
  match (wMin w).toNat with
  | 0x00 => ifC0 w (.add (wD w) (wA w) (wB w))
  | 0x01 => ifC0 w (.sub (wD w) (wA w) (wB w))
  | 0x02 => ifC0 w (.and (wD w) (wA w) (wB w))
  | 0x03 => ifC0 w (.or (wD w) (wA w) (wB w))
  | 0x04 => ifC0 w (.xor (wD w) (wA w) (wB w))
  | 0x05 => ifC0 w (.andn (wD w) (wA w) (wB w))
  | 0x06 => ifC0 w (.sll (wD w) (wA w) (wB w))
  | 0x07 => ifC0 w (.srl (wD w) (wA w) (wB w))
  | 0x08 => ifC0 w (.sra (wD w) (wA w) (wB w))
  | 0x09 => ifC0 w (.minS (wD w) (wA w) (wB w))
  | 0x0A => ifC0 w (.minN (wD w) (wA w) (wB w))
  | 0x0B => ifC0 w (.maxS (wD w) (wA w) (wB w))
  | 0x0C => ifC0 w (.maxN (wD w) (wA w) (wB w))
  | 0x0D => ifC0 w (.mul (wD w) (wA w) (wB w))
  | 0x0E => ifC0 w (.mulhS (wD w) (wA w) (wB w))
  | 0x0F => ifC0 w (.mulhN (wD w) (wA w) (wB w))
  | 0x10 => ifC0 w (.divS (wD w) (wA w) (wB w))
  | 0x11 => ifC0 w (.divN (wD w) (wA w) (wB w))
  | 0x12 => ifC0 w (.remS (wD w) (wA w) (wB w))
  | 0x13 => ifC0 w (.remN (wD w) (wA w) (wB w))
  | 0x14 => ifBC0 w (.clz (wD w) (wA w))
  | 0x15 => ifBC0 w (.ctz (wD w) (wA w))
  | 0x16 => ifBC0 w (.popc (wD w) (wA w))
  | 0x17 => checked (.sel (wD w) (wA w) (wB w) (wC w))
  | 0x18 => ifBC0 w (.msgrd (wD w) (wA w))
  | _ => .undef

/-- Compare minors of major 0x0A (R58). -/
def decodeCmp (w : BitVec 32) : First :=
  match (wMin w).toNat with
  | 0x00 => ifC0 w (.cmpEq (wD w) (wA w) (wB w))
  | 0x01 => ifC0 w (.cmpNe (wD w) (wA w) (wB w))
  | 0x02 => ifC0 w (.cmpLtS (wD w) (wA w) (wB w))
  | 0x03 => ifC0 w (.cmpLtN (wD w) (wA w) (wB w))
  | 0x04 => ifC0 w (.cmpLeS (wD w) (wA w) (wB w))
  | 0x05 => ifC0 w (.cmpLeN (wD w) (wA w) (wB w))
  | _ => .undef

/-- The rounding mode of an FP word: c[2:0], with c[4:3] zero (R58). -/
def wRm (w : BitVec 32) : BitVec 3 := w.extractLsb' 6 3

/-- An FP word with rm and fields d, a, b: c[4:3] zero (R58). -/
def ifRm (w : BitVec 32) (i : Instr) : First := if w.extractLsb' 9 2 = 0 then checked i else .undef

/-- An FP word with rm and fields d, a: b and c[4:3] zero (R258). -/
def ifRmB0 (w : BitVec 32) (i : Instr) : First := if wB w = 0 then ifRm w i else .undef

/-- FP minors of major 0x14 (R58). -/
def decodeFp (w : BitVec 32) : First :=
  match (wMin w).toNat with
  | 0x00 => ifRm w (.fadd (wD w) (wA w) (wB w) (wRm w))
  | 0x01 => ifRm w (.fsub (wD w) (wA w) (wB w) (wRm w))
  | 0x02 => ifRm w (.fmul (wD w) (wA w) (wB w) (wRm w))
  | 0x03 => ifRm w (.fdiv (wD w) (wA w) (wB w) (wRm w))
  | 0x04 => ifRmB0 w (.fsqrt (wD w) (wA w) (wRm w))
  | 0x05 => ifC0 w (.fmin (wD w) (wA w) (wB w))
  | 0x06 => ifC0 w (.fmax (wD w) (wA w) (wB w))
  | 0x07 => ifBC0 w (.fneg (wD w) (wA w))
  | 0x08 => ifBC0 w (.fabs (wD w) (wA w))
  | 0x09 => ifBC0 w (.fkey (wD w) (wA w))
  | 0x0A => ifC0 w (.fcmpEq (wD w) (wA w) (wB w))
  | 0x0B => ifC0 w (.fcmpLt (wD w) (wA w) (wB w))
  | 0x0C => ifC0 w (.fcmpLe (wD w) (wA w) (wB w))
  | 0x0D => ifRmB0 w (.fcvtS32F32 (wD w) (wA w) (wRm w))
  | 0x0E => ifRmB0 w (.fcvtN32F32 (wD w) (wA w) (wRm w))
  | 0x0F => ifRmB0 w (.fcvtF32S32 (wD w) (wA w) (wRm w))
  | 0x10 => ifRmB0 w (.fcvtF32N32 (wD w) (wA w) (wRm w))
  | 0x11 => ifBC0 w (.fmvS (wD w) (wA w))
  | 0x12 => ifBC0 w (.fmvF (wD w) (wA w))
  | 0x13 => ifRmB0 w (.fcvtBf16F32 (wD w) (wA w) (wRm w))
  | 0x14 => ifBC0 w (.fcvtF32Bf16 (wD w) (wA w))
  | 0x15 => ifRmB0 w (.fcvtF16F32 (wD w) (wA w) (wRm w))
  | 0x16 => ifBC0 w (.fcvtF32F16 (wD w) (wA w))
  | _ => .undef

/-- FMA minors of major 0x15: minor [5:3] is rm, minor [2:0] the operation (R58). -/
def decodeFma (w : BitVec 32) : First :=
  let rm : BitVec 3 := w.extractLsb' 3 3
  match (w.extractLsb' 0 3).toNat with
  | 0 => checked (.fma (wD w) (wA w) (wB w) (wC w) rm)
  | 1 => checked (.fms (wD w) (wA w) (wB w) (wC w) rm)
  | 2 => checked (.fnma (wD w) (wA w) (wB w) (wC w) rm)
  | 3 => checked (.fnms (wD w) (wA w) (wB w) (wC w) rm)
  | _ => .undef

/-- MEMX minors of major 0x25 (R58). -/
def decodeMemx (w : BitVec 32) : First :=
  match (wMin w).toNat with
  | 0x00 => ifC0 w (.ldAcqB32 (wD w) (wA w) (wB w))
  | 0x01 => ifC0 w (.ldAcqB64 (wD w) (wA w) (wB w))
  | 0x02 => ifC0 w (.stRelB32 (wD w) (wA w) (wB w))
  | 0x03 => ifC0 w (.stRelB64 (wD w) (wA w) (wB w))
  | 0x04 => if wD w = 0 ∧ wA w = 0 ∧ wB w = 0 then checked (.fence (wC w)) else .undef
  | _ => .undef

/-- AMO minors of major 0x26: minor [5:4] is the order, minor [3:0] the operation (R58). -/
def decodeAmoB64 (w : BitVec 32) : First :=
  let o : BitVec 2 := w.extractLsb' 4 2
  match (w.extractLsb' 0 4).toNat with
  | 0x0 => ifC0 w (.amoAddB64 (wD w) (wA w) (wB w) o)
  | 0x1 => ifC0 w (.amoMinSB64 (wD w) (wA w) (wB w) o)
  | 0x2 => ifC0 w (.amoMinNB64 (wD w) (wA w) (wB w) o)
  | 0x3 => ifC0 w (.amoMaxSB64 (wD w) (wA w) (wB w) o)
  | 0x4 => ifC0 w (.amoMaxNB64 (wD w) (wA w) (wB w) o)
  | 0x5 => ifC0 w (.amoAndB64 (wD w) (wA w) (wB w) o)
  | 0x6 => ifC0 w (.amoOrB64 (wD w) (wA w) (wB w) o)
  | 0x7 => ifC0 w (.amoXorB64 (wD w) (wA w) (wB w) o)
  | 0x8 => ifC0 w (.amoSwapB64 (wD w) (wA w) (wB w) o)
  | 0x9 => checked (.amoCasB64 (wD w) (wA w) (wB w) (wC w) o)
  | 0xA => if o = 0 then ifC0 w (.ticket (wD w) (wA w) (wB w)) else .undef
  | _ => .undef

/-- AMO minors of major 0x27: minor [5:4] is the order, minor [3:0] the operation (R58). -/
def decodeAmoB32 (w : BitVec 32) : First :=
  let o : BitVec 2 := w.extractLsb' 4 2
  match (w.extractLsb' 0 4).toNat with
  | 0x0 => ifC0 w (.amoAddB32 (wD w) (wA w) (wB w) o)
  | 0x1 => ifC0 w (.amoMinSB32 (wD w) (wA w) (wB w) o)
  | 0x2 => ifC0 w (.amoMinNB32 (wD w) (wA w) (wB w) o)
  | 0x3 => ifC0 w (.amoMaxSB32 (wD w) (wA w) (wB w) o)
  | 0x4 => ifC0 w (.amoMaxNB32 (wD w) (wA w) (wB w) o)
  | 0x5 => ifC0 w (.amoAndB32 (wD w) (wA w) (wB w) o)
  | 0x6 => ifC0 w (.amoOrB32 (wD w) (wA w) (wB w) o)
  | 0x7 => ifC0 w (.amoXorB32 (wD w) (wA w) (wB w) o)
  | 0x8 => ifC0 w (.amoSwapB32 (wD w) (wA w) (wB w) o)
  | 0x9 => checked (.amoCasB32 (wD w) (wA w) (wB w) (wC w) o)
  | _ => .undef

/-- CFG minors of major 0x2B (R58, R218). -/
def decodeCfg (w : BitVec 32) : First :=
  match (wMin w).toNat with
  | 0x00 => checked (.cfgLoad (wD w) (wA w) (wB w) (wC w))
  | 0x01 => checked (.cfgArm (wD w) (wA w) (wB w) (wC w))
  | 0x02 => ifA0 w (checked (.cfgSwap (wD w) (wB w) (wC w)))
  | 0x03 => ifA0 w (checked (.cfgDrain (wD w) (wB w) (wC w)))
  | 0x04 => checked (.cfgSave (wD w) (wA w) (wB w) (wC w))
  | 0x05 => checked (.cfgRest (wD w) (wA w) (wB w) (wC w))
  | 0x06 => ifA0 w (checked (.cfgQuery (wD w) (wB w) (wC w)))
  | _ => .undef

/-- Task and queue minors of major 0x2C (R58, R246, R301, R343). -/
def decodeTask (w : BitVec 32) : First :=
  match (wMin w).toNat with
  | 0x00 => ifBC0 w (.launch (wD w) (wA w))
  | 0x01 => checked (.tspawn (wD w) (wA w) (wB w) (wC w))
  | 0x02 => ifD0 w (ifA0 w (ifBC0 w .trig))
  | 0x03 => ifD0 w (checked (.exit (wA w) (wB w) (wC w)))
  | 0x04 => ifD0 w (checked (.parkWord (wA w) (wB w) (wC w)))
  | 0x05 => ifD0 w (checked (.parkBar (wA w) (wB w) (wC w)))
  | 0x06 => ifD0 w (checked (.parkChan (wA w) (wB w) (wC w)))
  | 0x07 => if wB w = 0 then checked (.msgSend (wD w) (wA w) (wC w)) else .undef
  | _ => .undef

/-- Search minors of major 0x2D (R58, R343). -/
def decodeSearch (w : BitVec 32) : First :=
  match (wMin w).toNat with
  | 0x00 => checked (.incInit (wD w) (wA w) (wB w) (wC w))
  | 0x01 => ifBC0 w (.incRd (wD w) (wA w))
  | 0x02 => ifD0 w (checked (.incOffer (wA w) (wB w) (wC w)))
  | 0x03 => checked (.incOfferI (wD w) (wA w) (wB w) (wC w))
  | 0x04 => ifD0 w (ifBC0 w (.killpt (wA w)))
  | 0x05 => ifD0 w (ifC0 w (.boundSet (wA w) (wB w)))
  | _ => .undef

/-- Barrier minors of major 0x2E (R58, R356). -/
def decodeBarrier (w : BitVec 32) : First :=
  match (wMin w).toNat with
  | 0x00 => ifD0 w (ifC0 w (.barInit (wA w) (wB w)))
  | 0x01 => ifD0 w (ifC0 w (.barExpect (wA w) (wB w)))
  | 0x02 => ifC0 w (.barArrive (wD w) (wA w) (wB w))
  | 0x03 => ifBC0 w (.barTest (wD w) (wA w))
  | _ => .undef

/-- Translation minors of major 0x2F (R58, R370). -/
def decodeXlate (w : BitVec 32) : First :=
  match (wMin w).toNat with
  | 0x00 => ifBC0 w (.xprobe (wD w) (wA w))
  | 0x01 => checked (.xhintMig (wD w) (wA w) (wB w) (wC w))
  | 0x02 => ifC0 w (.xhintPref (wD w) (wA w) (wB w))
  | 0x03 => checked (.xinv (wD w) (wA w) (wB w) (wC w))
  | _ => .undef

/-- System minors of major 0x30: b and c together are the code or the register number (R58). -/
def decodeSystem (w : BitVec 32) : First :=
  match (wMin w).toNat with
  | 0x00 => ifD0 w (ifA0 w (checked (.trap (w.extractLsb' 6 10))))
  | 0x01 => ifD0 w (ifA0 w (ifBC0 w .tret))
  | 0x02 => ifA0 w (checked (.sysrd (wD w) (w.extractLsb' 6 10)))
  | 0x03 => ifD0 w (checked (.syswr (wA w) (w.extractLsb' 6 10)))
  | 0x04 => ifD0 w (ifA0 w (ifBC0 w .halt))
  | 0x05 => ifD0 w (ifA0 w (ifBC0 w .brk))
  | 0x06 => ifD0 w (ifA0 w (ifBC0 w .nop))
  | _ => .undef

/-- The extension word of an engine command (R59); a non-zero reserved bit is refused. -/
def engExt (ext : BitVec 32) : Option EngExt :=
  if ext.extractLsb' 0 15 = 0 then
    some { bar := ext.extractLsb' 27 5, fe := ext.getLsbD 26, scope := ext.extractLsb' 23 3,
           red := ext.extractLsb' 19 4, sfx := ext.extractLsb' 15 4 }
  else none

/-- The engine command of an EX word of major 0x28: minor [4:0] is the operation (R58). -/
def engineOf (w : BitVec 32) (x : Bool) (e : EngExt) : Option Instr :=
  match (w.extractLsb' 0 5).toNat with
  | 0x00 => some (.copy x (wD w) (wA w) (wB w) (wC w) e)
  | 0x01 => some (.gather x (wD w) (wA w) (wB w) (wC w) e)
  | 0x02 => some (.scatter x (wD w) (wA w) (wB w) (wC w) e)
  | 0x03 => some (.fill x (wD w) (wA w) (wB w) (wC w) e)
  | 0x04 => some (.copyChain x (wD w) (wA w) (wB w) (wC w) e)
  | 0x08 => some (.collBcast x (wD w) (wA w) (wB w) (wC w) e)
  | 0x09 => some (.collReduce x (wD w) (wA w) (wB w) (wC w) e)
  | 0x0A => some (.collAllreduce x (wD w) (wA w) (wB w) (wC w) e)
  | 0x0B => some (.collAllgather x (wD w) (wA w) (wB w) (wC w) e)
  | 0x0C => some (.collA2a x (wD w) (wA w) (wB w) (wC w) e)
  | _ => none

/-- The stream command of an EX word of major 0x2A; sbar takes no run-ahead limit (R281), scond no c (R282). -/
def streamOf (w : BitVec 32) (x : Bool) (ahead : BitVec 16) : Option Instr :=
  match (w.extractLsb' 0 5).toNat with
  | 0x00 => some (.sspec x (wD w) (wA w) (wB w) (wC w) ahead)
  | 0x01 => if ahead = 0 then some (.sbar x (wD w) (wA w) (wB w) (wC w)) else none
  | 0x02 => if wC w = 0 then some (.scond x (wD w) (wA w) (wB w) ahead) else none
  | _ => none

/-- An EX word: x = 1 calls for the extension word once the first word names an operation (R55). -/
def decodeEx (w : BitVec 32) (i : Option Instr) : First :=
  match i with
  | none => .undef
  | some i => if w.getLsbD 5 then .two else checked i

/-- The first word, by its major opcode (R57). -/
def decodeFirst (w : BitVec 32) : First :=
  match (wMaj w).toNat with
  | 0x00 => .illegal
  | 0x01 => decodeAlu w
  | 0x02 => checked (.addi (wD w) (wA w) (wImm w))
  | 0x03 => checked (.andi (wD w) (wA w) (wImm w))
  | 0x04 => checked (.ori (wD w) (wA w) (wImm w))
  | 0x05 => checked (.xori (wD w) (wA w) (wImm w))
  | 0x06 =>
    if w.extractLsb' 8 8 = 0 then
      match (w.extractLsb' 6 2).toNat with
      | 0 => checked (.slli (wD w) (wA w) (w.extractLsb' 0 6))
      | 1 => checked (.srli (wD w) (wA w) (w.extractLsb' 0 6))
      | 2 => checked (.srai (wD w) (wA w) (w.extractLsb' 0 6))
      | _ => checked (.rori (wD w) (wA w) (w.extractLsb' 0 6))
    else .undef
  | 0x07 => if w.extractLsb' 18 3 = 0 then checked (.ins16 (wD w) (w.extractLsb' 16 2) (wImm w)) else .undef
  | 0x08 => checked (.ltiS (wD w) (wA w) (wImm w))
  | 0x09 => checked (.ltiN (wD w) (wA w) (wImm w))
  | 0x0A => decodeCmp w
  | 0x10 => checked (.br (wD w) (wA w) (w.extractLsb' 13 3) (w.extractLsb' 0 13))
  | 0x11 => checked (.jmp (w.extractLsb' 0 26))
  | 0x12 => checked (.call (w.extractLsb' 0 26))
  | 0x13 => checked (.jr (wD w) (wA w) (wImm w))
  | 0x14 => decodeFp w
  | 0x15 => decodeFma w
  | 0x18 => checked (.ldS8 (wD w) (wA w) (wImm w))
  | 0x19 => checked (.ldN8 (wD w) (wA w) (wImm w))
  | 0x1A => checked (.ldS16 (wD w) (wA w) (wImm w))
  | 0x1B => checked (.ldN16 (wD w) (wA w) (wImm w))
  | 0x1C => checked (.ldS32 (wD w) (wA w) (wImm w))
  | 0x1D => checked (.ldN32 (wD w) (wA w) (wImm w))
  | 0x1E => checked (.ldB64 (wD w) (wA w) (wImm w))
  | 0x1F => checked (.fld (wD w) (wA w) (wImm w))
  | 0x20 => checked (.stB8 (wD w) (wA w) (wImm w))
  | 0x21 => checked (.stB16 (wD w) (wA w) (wImm w))
  | 0x22 => checked (.stB32 (wD w) (wA w) (wImm w))
  | 0x23 => checked (.stB64 (wD w) (wA w) (wImm w))
  | 0x24 => checked (.fst (wD w) (wA w) (wImm w))
  | 0x25 => decodeMemx w
  | 0x26 => decodeAmoB64 w
  | 0x27 => decodeAmoB32 w
  | 0x28 => decodeEx w (engineOf w false EngExt.zero)
  | 0x29 => ifA0 w (checked (.wait (wD w) (wImm w)))
  | 0x2A => decodeEx w (streamOf w false 0)
  | 0x2B => decodeCfg w
  | 0x2C => decodeTask w
  | 0x2D => decodeSearch w
  | 0x2E => decodeBarrier w
  | 0x2F => decodeXlate w
  | 0x30 => decodeSystem w
  | 0x31 =>
    if w.extractLsb' 4 10 = 0 then
      match (w.extractLsb' 14 2).toNat with
      | 0 => if w.extractLsb' 0 4 = 0 then checked (.zreqQuery (wD w) (wA w)) else .undef
      | 1 => checked (.zreqRaise (wD w) (wA w) (w.extractLsb' 0 4))
      | 2 => if w.extractLsb' 0 4 = 0 then checked (.zreqDrop (wD w) (wA w)) else .undef
      | _ => .undef
    else .undef
  | 0x3E => if wImm w = 0 ∧ (wA w).toNat < 3 then .two else .undef
  | _ => .undef

/-- The instruction of a first word and its extension word; none is T_UNDEF_OP for a cause the extension holds (R60). -/
def decodeTwo (w ext : BitVec 32) : Option Instr :=
  let i : Option Instr :=
    match (wMaj w).toNat with
    | 0x28 => (engExt ext).bind (engineOf w true)
    | 0x2A => if ext.extractLsb' 0 16 = 0 then streamOf w true (ext.extractLsb' 16 16) else none
    | 0x3E => some (.li (wD w) (wA w) ext)
    | _ => none
  match i with
  | some i => if i.wf then some i else none
  | none => none

/-- What a run of bytes decodes to: an instruction and its length in words, or the reason it is none. -/
inductive Decoded where
  /-- fewer bytes than the instruction has -/
  | short
  /-- T_ILLEGAL (R57) -/
  | illegal
  /-- T_UNDEF_OP (R54, R57 to R59) -/
  | undef
  | ok (i : Instr) (words : Nat)
  deriving DecidableEq, Repr

/-- The word at the front of a run of bytes, stored little-endian (R52). -/
def wordAt (bs : List Byte) : Option (BitVec 32) :=
  match bs with
  | b0 :: b1 :: b2 :: b3 :: _ => some (b3 ++ b2 ++ b1 ++ b0 : BitVec 32)
  | _ => none

/-- The decoder, total on any bytes. -/
def decode (bs : List Byte) : Decoded :=
  match wordAt bs with
  | none => .short
  | some w =>
    match decodeFirst w with
    | .illegal => .illegal
    | .undef => .undef
    | .one i => .ok i 1
    | .two =>
      match wordAt (bs.drop 4) with
      | none => .short
      | some ext => match decodeTwo w ext with
        | some i => .ok i 2
        | none => .undef

/-- The instruction the decoder reads from an instruction whose bits are `w`, numbered as the opcode table numbers them:
the first word is bits 31..0, an extension word bits 63..32, and every bit above `nbits` is 0. -/
def decodeTableWord (nbits w : Nat) : Option Instr :=
  match decode (bytesLE 8 (w % 2 ^ nbits)) with
  | .ok i _ => some i
  | _ => none

/-! The encoder, from the formats of R53 and the maps of R57 to R59. -/

def encRR (maj : BitVec 6) (d a b c : BitVec 5) (mn : BitVec 6) : BitVec 32 := maj ++ d ++ a ++ b ++ c ++ mn
def encRI (maj : BitVec 6) (d a : BitVec 5) (imm : BitVec 16) : BitVec 32 := maj ++ d ++ a ++ imm
/-- An EX word: minor bit 5 is x (R55). -/
def encEX (maj : BitVec 6) (x : Bool) (d a b c : BitVec 5) (op : BitVec 5) : BitVec 32 :=
  maj ++ d ++ a ++ b ++ c ++ (BitVec.ofBool x) ++ op
/-- The c field of an FP word: c[4:3] zero, c[2:0] = rm (R58). -/
def encRm (rm : BitVec 3) : BitVec 5 := (0 : BitVec 2) ++ rm
/-- The 10-bit code or register number as the fields b and c (R58). -/
def encSys (d a : BitVec 5) (n : BitVec 10) (mn : BitVec 6) : BitVec 32 := (0x30 : BitVec 6) ++ d ++ a ++ n ++ mn
def encExt (e : EngExt) : BitVec 32 := e.bar ++ (BitVec.ofBool e.fe) ++ e.scope ++ e.red ++ e.sfx ++ (0 : BitVec 15)
/-- The words of an engine command: its extension follows when x = 1. -/
def encEng (op : BitVec 5) (x : Bool) (tok a b c : BitVec 5) (e : EngExt) : List (BitVec 32) :=
  if x then [encEX 0x28 true tok a b c op, encExt e] else [encEX 0x28 false tok a b c op]
/-- The words of a stream command. -/
def encStr (op : BitVec 5) (x : Bool) (tok a b c : BitVec 5) (ahead : BitVec 16) : List (BitVec 32) :=
  if x then [encEX 0x2A true tok a b c op, (ahead ++ (0 : BitVec 16) : BitVec 32)]
  else [encEX 0x2A false tok a b c op]

/-- The words of an instruction; a device step has none. -/
def encode : Instr → List (BitVec 32)
  | .add d a b => [encRR 0x01 d a b 0 0x00]
  | .sub d a b => [encRR 0x01 d a b 0 0x01]
  | .and d a b => [encRR 0x01 d a b 0 0x02]
  | .or d a b => [encRR 0x01 d a b 0 0x03]
  | .xor d a b => [encRR 0x01 d a b 0 0x04]
  | .andn d a b => [encRR 0x01 d a b 0 0x05]
  | .sll d a b => [encRR 0x01 d a b 0 0x06]
  | .srl d a b => [encRR 0x01 d a b 0 0x07]
  | .sra d a b => [encRR 0x01 d a b 0 0x08]
  | .minS d a b => [encRR 0x01 d a b 0 0x09]
  | .minN d a b => [encRR 0x01 d a b 0 0x0A]
  | .maxS d a b => [encRR 0x01 d a b 0 0x0B]
  | .maxN d a b => [encRR 0x01 d a b 0 0x0C]
  | .mul d a b => [encRR 0x01 d a b 0 0x0D]
  | .mulhS d a b => [encRR 0x01 d a b 0 0x0E]
  | .mulhN d a b => [encRR 0x01 d a b 0 0x0F]
  | .divS d a b => [encRR 0x01 d a b 0 0x10]
  | .divN d a b => [encRR 0x01 d a b 0 0x11]
  | .remS d a b => [encRR 0x01 d a b 0 0x12]
  | .remN d a b => [encRR 0x01 d a b 0 0x13]
  | .clz d a => [encRR 0x01 d a 0 0 0x14]
  | .ctz d a => [encRR 0x01 d a 0 0 0x15]
  | .popc d a => [encRR 0x01 d a 0 0 0x16]
  | .sel d a b c => [encRR 0x01 d a b c 0x17]
  | .msgrd d a => [encRR 0x01 d a 0 0 0x18]
  | .addi d a imm => [encRI 0x02 d a imm]
  | .andi d a imm => [encRI 0x03 d a imm]
  | .ori d a imm => [encRI 0x04 d a imm]
  | .xori d a imm => [encRI 0x05 d a imm]
  | .ltiS d a imm => [encRI 0x08 d a imm]
  | .ltiN d a imm => [encRI 0x09 d a imm]
  | .jr d a imm => [encRI 0x13 d a imm]
  | .slli d a sh => [encRI 0x06 d a ((0 : BitVec 8) ++ (0 : BitVec 2) ++ sh)]
  | .srli d a sh => [encRI 0x06 d a ((0 : BitVec 8) ++ (1 : BitVec 2) ++ sh)]
  | .srai d a sh => [encRI 0x06 d a ((0 : BitVec 8) ++ (2 : BitVec 2) ++ sh)]
  | .rori d a sh => [encRI 0x06 d a ((0 : BitVec 8) ++ (3 : BitVec 2) ++ sh)]
  | .ins16 d h imm => [encRI 0x07 d ((0 : BitVec 3) ++ h) imm]
  | .cmpEq d a b => [encRR 0x0A d a b 0 0x00]
  | .cmpNe d a b => [encRR 0x0A d a b 0 0x01]
  | .cmpLtS d a b => [encRR 0x0A d a b 0 0x02]
  | .cmpLtN d a b => [encRR 0x0A d a b 0 0x03]
  | .cmpLeS d a b => [encRR 0x0A d a b 0 0x04]
  | .cmpLeN d a b => [encRR 0x0A d a b 0 0x05]
  | .br a b cond off => [encRI 0x10 a b (cond ++ off)]
  | .jmp off => [(0x11 : BitVec 6) ++ off]
  | .call off => [(0x12 : BitVec 6) ++ off]
  | .fadd d a b rm => [encRR 0x14 d a b (encRm rm) 0x00]
  | .fsub d a b rm => [encRR 0x14 d a b (encRm rm) 0x01]
  | .fmul d a b rm => [encRR 0x14 d a b (encRm rm) 0x02]
  | .fdiv d a b rm => [encRR 0x14 d a b (encRm rm) 0x03]
  | .fsqrt d a rm => [encRR 0x14 d a 0 (encRm rm) 0x04]
  | .fcvtS32F32 d a rm => [encRR 0x14 d a 0 (encRm rm) 0x0D]
  | .fcvtN32F32 d a rm => [encRR 0x14 d a 0 (encRm rm) 0x0E]
  | .fcvtF32S32 d a rm => [encRR 0x14 d a 0 (encRm rm) 0x0F]
  | .fcvtF32N32 d a rm => [encRR 0x14 d a 0 (encRm rm) 0x10]
  | .fcvtBf16F32 d a rm => [encRR 0x14 d a 0 (encRm rm) 0x13]
  | .fcvtF16F32 d a rm => [encRR 0x14 d a 0 (encRm rm) 0x15]
  | .fmin d a b => [encRR 0x14 d a b 0 0x05]
  | .fmax d a b => [encRR 0x14 d a b 0 0x06]
  | .fcmpEq d a b => [encRR 0x14 d a b 0 0x0A]
  | .fcmpLt d a b => [encRR 0x14 d a b 0 0x0B]
  | .fcmpLe d a b => [encRR 0x14 d a b 0 0x0C]
  | .fneg d a => [encRR 0x14 d a 0 0 0x07]
  | .fabs d a => [encRR 0x14 d a 0 0 0x08]
  | .fkey d a => [encRR 0x14 d a 0 0 0x09]
  | .fmvS d a => [encRR 0x14 d a 0 0 0x11]
  | .fmvF d a => [encRR 0x14 d a 0 0 0x12]
  | .fcvtF32Bf16 d a => [encRR 0x14 d a 0 0 0x14]
  | .fcvtF32F16 d a => [encRR 0x14 d a 0 0 0x16]
  | .fma d a b c rm => [encRR 0x15 d a b c (rm ++ (0 : BitVec 3))]
  | .fms d a b c rm => [encRR 0x15 d a b c (rm ++ (1 : BitVec 3))]
  | .fnma d a b c rm => [encRR 0x15 d a b c (rm ++ (2 : BitVec 3))]
  | .fnms d a b c rm => [encRR 0x15 d a b c (rm ++ (3 : BitVec 3))]
  | .ldS8 d a imm => [encRI 0x18 d a imm]
  | .ldN8 d a imm => [encRI 0x19 d a imm]
  | .ldS16 d a imm => [encRI 0x1A d a imm]
  | .ldN16 d a imm => [encRI 0x1B d a imm]
  | .ldS32 d a imm => [encRI 0x1C d a imm]
  | .ldN32 d a imm => [encRI 0x1D d a imm]
  | .ldB64 d a imm => [encRI 0x1E d a imm]
  | .fld d a imm => [encRI 0x1F d a imm]
  | .stB8 d a imm => [encRI 0x20 d a imm]
  | .stB16 d a imm => [encRI 0x21 d a imm]
  | .stB32 d a imm => [encRI 0x22 d a imm]
  | .stB64 d a imm => [encRI 0x23 d a imm]
  | .fst d a imm => [encRI 0x24 d a imm]
  | .ldAcqB32 d a b => [encRR 0x25 d a b 0 0x00]
  | .ldAcqB64 d a b => [encRR 0x25 d a b 0 0x01]
  | .stRelB32 d a b => [encRR 0x25 d a b 0 0x02]
  | .stRelB64 d a b => [encRR 0x25 d a b 0 0x03]
  | .fence sc => [encRR 0x25 0 0 0 sc 0x04]
  | .amoAddB64 d a b ord => [encRR 0x26 d a b 0 (ord ++ (0x0 : BitVec 4))]
  | .amoMinSB64 d a b ord => [encRR 0x26 d a b 0 (ord ++ (0x1 : BitVec 4))]
  | .amoMinNB64 d a b ord => [encRR 0x26 d a b 0 (ord ++ (0x2 : BitVec 4))]
  | .amoMaxSB64 d a b ord => [encRR 0x26 d a b 0 (ord ++ (0x3 : BitVec 4))]
  | .amoMaxNB64 d a b ord => [encRR 0x26 d a b 0 (ord ++ (0x4 : BitVec 4))]
  | .amoAndB64 d a b ord => [encRR 0x26 d a b 0 (ord ++ (0x5 : BitVec 4))]
  | .amoOrB64 d a b ord => [encRR 0x26 d a b 0 (ord ++ (0x6 : BitVec 4))]
  | .amoXorB64 d a b ord => [encRR 0x26 d a b 0 (ord ++ (0x7 : BitVec 4))]
  | .amoSwapB64 d a b ord => [encRR 0x26 d a b 0 (ord ++ (0x8 : BitVec 4))]
  | .amoCasB64 d a b c ord => [encRR 0x26 d a b c (ord ++ (0x9 : BitVec 4))]
  | .amoAddB32 d a b ord => [encRR 0x27 d a b 0 (ord ++ (0x0 : BitVec 4))]
  | .amoMinSB32 d a b ord => [encRR 0x27 d a b 0 (ord ++ (0x1 : BitVec 4))]
  | .amoMinNB32 d a b ord => [encRR 0x27 d a b 0 (ord ++ (0x2 : BitVec 4))]
  | .amoMaxSB32 d a b ord => [encRR 0x27 d a b 0 (ord ++ (0x3 : BitVec 4))]
  | .amoMaxNB32 d a b ord => [encRR 0x27 d a b 0 (ord ++ (0x4 : BitVec 4))]
  | .amoAndB32 d a b ord => [encRR 0x27 d a b 0 (ord ++ (0x5 : BitVec 4))]
  | .amoOrB32 d a b ord => [encRR 0x27 d a b 0 (ord ++ (0x6 : BitVec 4))]
  | .amoXorB32 d a b ord => [encRR 0x27 d a b 0 (ord ++ (0x7 : BitVec 4))]
  | .amoSwapB32 d a b ord => [encRR 0x27 d a b 0 (ord ++ (0x8 : BitVec 4))]
  | .amoCasB32 d a b c ord => [encRR 0x27 d a b c (ord ++ (0x9 : BitVec 4))]
  | .ticket d a b => [encRR 0x26 d a b 0 0x0A]
  | .copy x tok a b c e => encEng 0x00 x tok a b c e
  | .gather x tok a b c e => encEng 0x01 x tok a b c e
  | .scatter x tok a b c e => encEng 0x02 x tok a b c e
  | .fill x tok a b c e => encEng 0x03 x tok a b c e
  | .copyChain x tok a b c e => encEng 0x04 x tok a b c e
  | .collBcast x tok a b c e => encEng 0x08 x tok a b c e
  | .collReduce x tok a b c e => encEng 0x09 x tok a b c e
  | .collAllreduce x tok a b c e => encEng 0x0A x tok a b c e
  | .collAllgather x tok a b c e => encEng 0x0B x tok a b c e
  | .collA2a x tok a b c e => encEng 0x0C x tok a b c e
  | .wait cls lim => [encRI 0x29 cls 0 lim]
  | .sspec x tok a b c ahead => encStr 0x00 x tok a b c ahead
  | .sbar x tok a b c => encStr 0x01 x tok a b c 0
  | .scond x tok a b ahead => encStr 0x02 x tok a b 0 ahead
  | .cfgLoad d a b c => [encRR 0x2B d a b c 0x00]
  | .cfgArm d a b c => [encRR 0x2B d a b c 0x01]
  | .cfgSwap d b c => [encRR 0x2B d 0 b c 0x02]
  | .cfgDrain d b c => [encRR 0x2B d 0 b c 0x03]
  | .cfgSave d a b c => [encRR 0x2B d a b c 0x04]
  | .cfgRest d a b c => [encRR 0x2B d a b c 0x05]
  | .cfgQuery d b c => [encRR 0x2B d 0 b c 0x06]
  | .launch d a => [encRR 0x2C d a 0 0 0x00]
  | .tspawn d a b c => [encRR 0x2C d a b c 0x01]
  | .trig => [encRR 0x2C 0 0 0 0 0x02]
  | .exit a b how => [encRR 0x2C 0 a b how 0x03]
  | .parkWord a b c => [encRR 0x2C 0 a b c 0x04]
  | .parkBar a b c => [encRR 0x2C 0 a b c 0x05]
  | .parkChan a b c => [encRR 0x2C 0 a b c 0x06]
  | .msgSend d a c => [encRR 0x2C d a 0 c 0x07]
  | .incInit d a b c => [encRR 0x2D d a b c 0x00]
  | .incRd d a => [encRR 0x2D d a 0 0 0x01]
  | .incOffer a b c => [encRR 0x2D 0 a b c 0x02]
  | .incOfferI d a b c => [encRR 0x2D d a b c 0x03]
  | .killpt a => [encRR 0x2D 0 a 0 0 0x04]
  | .boundSet a b => [encRR 0x2D 0 a b 0 0x05]
  | .barInit a b => [encRR 0x2E 0 a b 0 0x00]
  | .barExpect a b => [encRR 0x2E 0 a b 0 0x01]
  | .barArrive d a b => [encRR 0x2E d a b 0 0x02]
  | .barTest d a => [encRR 0x2E d a 0 0 0x03]
  | .xprobe d a => [encRR 0x2F d a 0 0 0x00]
  | .xhintMig d a b c => [encRR 0x2F d a b c 0x01]
  | .xhintPref d a b => [encRR 0x2F d a b 0 0x02]
  | .xinv d a b c => [encRR 0x2F d a b c 0x03]
  | .trap code => [encSys 0 0 code 0x00]
  | .tret => [encSys 0 0 0 0x01]
  | .sysrd d reg => [encSys d 0 reg 0x02]
  | .syswr a reg => [encSys 0 a reg 0x03]
  | .halt => [encSys 0 0 0 0x04]
  | .brk => [encSys 0 0 0 0x05]
  | .nop => [encSys 0 0 0 0x06]
  | .zreqQuery d a => [encRI 0x31 d a 0]
  | .zreqRaise d a cls => [encRI 0x31 d a ((1 : BitVec 2) ++ (0 : BitVec 10) ++ cls)]
  | .zreqDrop d a => [encRI 0x31 d a ((2 : BitVec 2) ++ (0 : BitVec 14))]
  | .li d mode ext => [encRI 0x3E d mode 0, ext]
  | _ => []

/-- The bytes of an instruction as memory holds them: each word little-endian, the first at the lowest address (R52). -/
def encodeBytes (i : Instr) : List Byte := (encode i).flatMap fun w => bytesLE 4 w.toNat

end Sys2Proof
end

