-- ==== Sys2Proof/Machine/Table.lean ====
section
/-! DEFINITION. Sparse tables keyed by a number, and byte memory as one of them: the canonical form of Host.Cell lists
(addresses strictly rising, no entry equal to what an unlisted address reads as). -/

namespace Sys2Proof.Machine

/-- A sparse table: entry numbers with their contents; an unlisted entry holds the default its reader names. -/
abbrev Table (α : Type) := List (Nat × α)

/-- The entry `k`, or `dflt` where the table lists none. -/
def Table.get {α : Type} (dflt : α) : Table α → Nat → α
  | [], _ => dflt
  | (k', v) :: t, k => if k' = k then v else Table.get dflt t k

/-- Is entry `k` listed? -/
def Table.has {α : Type} : Table α → Nat → Bool
  | [], _ => false
  | (k', _) :: t, k => k' == k || Table.has t k

/-- The table with entry `k` set to `v`, in rising order of its keys. -/
def Table.put {α : Type} (t : Table α) (k : Nat) (v : α) : Table α :=
  t.filter (fun e => decide (e.1 < k)) ++ (k, v) :: t.filter (fun e => decide (k < e.1))

/-- The table without entry `k`. -/
def Table.del {α : Type} (t : Table α) (k : Nat) : Table α := t.filter (fun e => decide (e.1 ≠ k))

/-- Byte memory by physical address: plain data in one canonical form. -/
abbrev Memory := List Host.Cell

/-- What an address that memory does not list reads as: zero. The spec gives it for memory tiles (R177); for near and
far memory at power-on it gives no value, so that DESIGN CHOICE is the model's (log 2). -/
def Memory.unlisted (_a : Nat) : Byte := 0

/-- The byte at address `a`. -/
def Memory.read (m : Memory) (a : Nat) : Byte := Table.get (Memory.unlisted a) m a

/-- Memory with the byte at `a` set; a byte equal to what an unlisted address reads as is not listed. -/
def Memory.write (m : Memory) (a : Nat) (v : Byte) : Memory :=
  if v = Memory.unlisted a then Table.del m a else Table.put m a v

/-- `n` bytes from address `a` on. -/
def Memory.readBytes (m : Memory) (a : Nat) : Nat → List Byte
  | 0 => []
  | n + 1 => Memory.read m a :: Memory.readBytes m (a + 1) n

/-- Memory with the bytes `bs` stored from address `a` on. -/
def Memory.writeBytes (m : Memory) (a : Nat) : List Byte → Memory
  | [] => m
  | b :: bs => Memory.writeBytes (Memory.write m a b) (a + 1) bs

/-- The canonical form: addresses strictly rising, no entry equal to what an unlisted address reads as. -/
def Memory.wf : Memory → Bool
  | [] => true
  | [(a, v)] => decide (v ≠ Memory.unlisted a)
  | (a, v) :: (b, w) :: m => decide (v ≠ Memory.unlisted a) && decide (a < b) && Memory.wf ((b, w) :: m)

end Sys2Proof.Machine
end

