-- ==== Sys2Proof/Machine/State.lean ====
section
/-! DEFINITION. The state of the whole package as plain data: cores, contexts, sites, regions, engines, sequencers,
incumbents, zones, registers, memory, and the schedule that says which agent acts next (log 3). Each field's comment
names the rule of the spec that gives it; INVENTORY.md lists the reset values. -/

namespace Sys2Proof.Machine

/-! ## Control cores -/

/-- A message of one to eight words (R241). `trap` marks the fault message of a precise trap, which stands in the
position reserved for it on ch0 (R284). -/
structure Msg where
  words : List Word
  trap : Bool := false
  group : Option (Nat × Nat × Nat) := none
  deriving DecidableEq, Repr

/-- A handler channel (R240): its registers, its queue, and the group bound to it (R313) as die, task key and index; groups that
share a cluster bind one channel of its core, `also` holding those bound before `group`, latest first; `was` holds
the en and ctx that act until the core starts its next handler, where a write has changed them (log 69). -/
structure Chan where
  entry : Word := 0
  en : Bool := false
  priv : Bool := false
  ctx : Nat := 0
  prio : Nat := 0
  budget : Nat := 0
  queue : List Msg := []
  group : Option (Nat × Nat × Nat) := none
  also : List (Nat × Nat × Nat) := []
  was : Option (Bool × Nat) := none
  deriving DecidableEq, Repr

/-- Channel `n` after reset: ch0 is enabled and privileged (R240). -/
def Chan.reset (n : Nat) : Chan := { en := n == 0, priv := n == 0 }

/-- Where a result goes. -/
inductive Dest where
  | s (r : Nat)
  | f (r : Nat)
  | nowhere
  deriving DecidableEq, Repr

/-- What an outstanding access does when it is performed (R262 to R271, R354); `fixed` is a load whose value the place
gave when it was refused, `dropped` a store that the place drops (R425, R437, R438). -/
inductive OpKind where
  | load (signed : Bool)
  | fixed
  | store
  | dropped
  | amo (op : Nat)
  | ticket
  | barInit
  | barExpect
  deriving DecidableEq, Repr

/-- An outstanding load, atomic or store of a core, in issue order (R244, R250, R264), with the task it is made for
(R295); `fwd` holds the bytes that a load found in its task's buffer when it issued (R328). -/
structure MemOp where
  id : Nat
  kind : OpKind
  va : Word
  pa : Nat
  size : Nat
  data : Word
  cmp : Word
  dest : Dest
  acq : Bool
  rel : Bool
  priv : Bool
  ctx : Nat
  task : Option (Nat × Nat) := none
  fwd : Table Byte := []
  deriving DecidableEq, Repr

/-- What the instruction at pc waits for (R251): the counts of the registers `rs` that it reads, a pending register and such
counts, room in the count of a token register, room in a class counter, a class counter at or below a limit, a commit-buffer entry for
task `h` (R333), and the rest. -/
inductive Stall where
  | reg (rs : List Nat)
  | pending (rs : List Nat)
  | full (r : Nat)
  | counter (cls : Nat)
  | wait (cls lim : Nat)
  | drain
  | answer
  | blocked
  | commit (h : Nat × Nat)
  deriving DecidableEq, Repr

/-- A request whose answer a stalled instruction waits for (R345, R348). -/
inductive Req where
  | incInit (n : Nat)
  | offer
  | answered (v : Word)
  deriving DecidableEq, Repr

/-- A park slot (R247): the form's minor, its target, its channel, tag and context, the count a park.bar records,
the value of an event that has happened, and its place among the core's slots whose events have happened (R248). -/
structure Park where
  form : Nat
  target : Nat
  chan : Nat
  tag : Word
  ctx : Nat
  count : Nat
  fired : Option Word
  turn : Nat := 0
  group : Option (Nat × Nat × Nat) := none
  deriving DecidableEq, Repr

/-- A handler about to begin, or with `resumed` to go on: what R242 and R286 set when it starts. -/
structure Start where
  ctx : Nat
  chan : Nat
  m : Table Word
  pc : Word
  issued : Nat
  budget : Nat
  priv : Bool
  task : Option (Nat × Nat)
  group : Option (Nat × Nat × Nat) := none
  resumed : Bool := false
  deriving DecidableEq, Repr

/-- A control core (R238 to R248, R284, R285, R417, R419). `task` and `group` are the current task and the bound group of the
handler that runs, `ttask` and `tgroup` those of the trapped one (R303, R327). `next` is the handler that a core switch is to start, `nextHeld` says
that a fault holds the switch; `later` holds those that another switch has put off, each with whether a fault holds it (R245). -/
structure CoreSt where
  s : Table Word := []
  f : Table Word := []
  m : Table Word := []
  pc : Word := 0
  fflags : BitVec 6 := 0
  cseq : BitVec 48 := 0
  eseq : BitVec 48 := 0
  ocnt : Table Nat := []
  board : Table Nat := []
  pendS : List Nat := []
  pendF : List Nat := []
  ctx : Nat := 0
  priv : Bool := true
  running : Bool := false
  halted : Bool := false
  dead : Bool := false
  chan : Nat := 0
  issued : Nat := 0
  budget : Nat := 0
  stall : Option Stall := none
  req : Option Req := none
  chans : Table Chan := []
  tpc : Word := 0
  tcause : BitVec 7 := 0
  tval : Word := 0
  tvalid : Bool := false
  tchan : Nat := 0
  tctx : Nat := 0
  tm : Table Word := []
  tissued : Nat := 0
  ttask : Option (Nat × Nat) := none
  tgroup : Option (Nat × Nat × Nat) := none
  stallmax : BitVec 32 := 0x00100000
  parks : Table Park := []
  ops : List MemOp := []
  nextOp : Nat := 0
  arrival : Option (Nat × BitVec 32) := none
  task : Option (Nat × Nat) := none
  group : Option (Nat × Nat × Nat) := none
  fltErr : Bool := false
  fltDrop : BitVec 32 := 0
  eccThr : BitVec 16 := 1
  eccUnc : BitVec 16 := 0
  eccCorr : BitVec 32 := 0
  next : Option Start := none
  nextHeld : Bool := false
  later : List (Start × Bool) := []
  deriving DecidableEq, Repr

/-- A control core after reset. -/
def CoreSt.reset : CoreSt := {}

/-! ## Contexts -/

/-- The life cycle of a context (R236). -/
inductive CtxPhase where
  | free | opened | quiescing | quiesced
  deriving DecidableEq, Repr

/-- The per-context registers (R222, R237, R245, R363, R430, R442). -/
structure CtxSt where
  phase : CtxPhase := .free
  err : Bool := false
  ccrc : Word := 0
  csig : Word := 0
  csave : Word := 0
  ptroot : Word := 0
  imgpol : BitVec 9 := 0
  dbgevt : BitVec 11 := 0
  deriving DecidableEq, Repr

/-! ## Faults -/

/-- The agent that a fault holds (R416, R417). -/
inductive Holder where
  | site (p : Nat) (src : Nat)
  | ag (p : Nat) (slot : Nat)
  | cmd (k : Nat)
  | walk (d job : Nat)
  | coreSwitch (c : Nat)
  deriving DecidableEq, Repr

/-- A held fault: its cause and its agent, by its serial (R417). -/
structure Held where
  cause : Nat
  holder : Holder
  val : Word
  deriving DecidableEq, Repr

/-- The fields of a fault or report before it is posted (R415). -/
structure FaultMsg where
  src : Nat
  cause : Nat
  ctx : Nat
  slot : Nat := 0
  site : Nat := 0
  ord : Nat := 0
  loc : Nat := 0
  lane : Nat := 0
  val : Word := 0
  detail : Word := 0
  deriving DecidableEq, Repr

/-! ## Stream windows, engines and the loader -/

/-- A stream window of a cluster (R280, R361): the binding, the filled bytes with their side-band (R47), whole the elements
that lie across two segments (R378), by 16 times their address plus their size, and the coalescing buffer (R208). -/
structure Win where
  bound : Bool := false
  base : Nat := 0
  stop : Nat := 0
  head : Nat := 0
  tail : Nat := 0
  slice : Nat := 0
  cap : Nat := 0
  write : Bool := false
  ahead : Nat := 256
  ctx : Nat := 0
  owner : Option Nat := none
  fill : Table Byte := []
  side : Table Nat := []
  wide : Table (List Byte) := []
  cbuf : Table Byte := []
  deriving DecidableEq, Repr

/-- An asynchronous command (R219, R243, R273, R280, R370): `op` is the minor, with 0x20 added for stream, 0x30 for
translation and 0x40 for CFG commands. `stage` 0 is issued, 1 waits, 2 has its outcome in `cause` (0 for none); `bound` is the group of
the channel that issued a CFG command (R220), `issuer` the task that a command is made for (R295). `no` is its place in the
order of issue, which says whether it was in flight when a group exited (R324), `into` the clusters that it had begun to write
when it last stopped (R421). -/
structure Cmd where
  core : Nat
  ctx : Nat
  op : Nat
  tok : Nat
  a : Word
  b : Word
  c : Word
  bar : Option Word
  fe : Bool
  scope : Nat
  red : Nat
  sfx : Nat
  ahead : Option Nat
  seq : BitVec 48
  cls : Nat
  prog : Nat := 0
  bytes : Nat := 0
  stage : Nat := 0
  cause : Nat := 0
  held : Option Nat := none
  task : Option (Nat × Nat) := none
  bound : Option (Nat × Nat × Nat) := none
  issuer : Option (Nat × Nat) := none
  no : Nat := 0
  into : List Nat := []
  deriving DecidableEq, Repr

/-- The states of a slot (R217). -/
inductive SlotPhase where
  | empty | loaded | armed | active | suspended | drained
  deriving DecidableEq, Repr

/-- A slot of a region (R217, R225); `crossed` counts the times TC reached 0 whose messages are still to be posted. -/
structure SlotSt where
  phase : SlotPhase := .empty
  image : Nat := 0
  tc : BitVec 32 := 0
  limited : Bool := false
  heat : Nat := 0
  container : Word := 0
  cuts : List (BitVec 48) := []
  crossed : Nat := 0
  ending : Bool := false
  deriving DecidableEq, Repr

/-- A region: a fixed set of quads with four slots (R214, R215), the swap that waits for its quiescent point (R230), the quads
of the group that holds it, by their first sites (R220, R310). -/
structure Region where
  desc : Word := 0
  wq : Nat := 0
  hq : Nat := 0
  nd : Nat := 0
  slots : Table SlotSt := []
  cur : Option Nat := none
  swap : Option Nat := none
  group : Option (Nat × Nat × Nat) := none
  quads : List Nat := []
  deriving DecidableEq, Repr

/-! ## Sites -/

/-- A packet (R97, R98) with the slot it carries in side-band (R229). Kinds are those of R99. The header carries bits
[15:0] of `ord`, the ordinal in full of the channel it travels on; for a marker, the next ordinal. `off` lists the branches struck from the packet while
it stands in a fork's buffer (R110); `tag` is the model's own name of the live block that a TILE opened (R196); `bad` marks a
word that was damaged on a link, as its consumer will find (R96). -/
structure Pkt where
  kind : Nat
  elems : List (BitVec 32)
  last : Bool
  aux : BitVec 8
  ord : BitVec 48
  slot : Nat
  off : List Nat := []
  tag : Nat := 0
  bad : Bool := false
  deriving DecidableEq, Repr

/-- A packet before it takes its ordinal: what a firing sends. -/
structure Out where
  kind : Nat := 0
  elems : List (BitVec 32) := []
  last : Bool := false
  aux : BitVec 8 := 0
  tag : Nat := 0
  deriving DecidableEq, Repr

/-- An anti-token (R95) with the forward lane of its channel at this hop and its slot (R229); `bad` marks one that was damaged
on a link (R96). -/
structure Anti where
  ord : BitVec 16
  slot : Nat
  vl : Nat := 0
  bad : Bool := false
  deriving DecidableEq, Repr

/-- An input port's expected ordinal and cancel marks (R93, R103, R106). -/
structure InPort where
  exp : BitVec 48 := 0
  marks : List (BitVec 48) := []
  deriving DecidableEq, Repr

/-- An output port's ordinal, pending cancellations, held anti-tokens, and for each EOS level the ordinal after the last
EOS of that level (R93, R99, R108, R198). -/
structure OutPort where
  ord : BitVec 48 := 0
  pend : List (BitVec 48) := []
  held : List (BitVec 48) := []
  eosAt : Table (BitVec 48) := []
  deriving DecidableEq, Repr

/-- A stream request that has been issued (R205): the addresses of its elements (nibble addresses for .cb4), the last flag,
the levels of the EOS that follow it, the ERR in place of its data, and whether its ordinal is cancelled (R138). -/
structure AgReq where
  addrs : List Nat := []
  last : Bool := false
  eos : List Nat := []
  err : Option (BitVec 8 × BitVec 32) := none
  skip : Bool := false
  deriving DecidableEq, Repr

/-- A live block of a memory tile (R196); `id` is the name that its TILE's tag carries. -/
structure Block where
  id : Nat
  slot : Nat
  first : Nat
  size : Nat
  left : Nat
  deriving DecidableEq, Repr

/-- One configuration context of a site: its frames, constants, tables, flags, ports and operation state (R118, R143,
R154, R155, R200, R213). `due` holds the results of a firing that still wait for room, with the ports they go to (R122);
`skip` the computations that have cancelled their inputs ahead of their turn, by output ordinal, each with its in ports and
their ordinals (R138); `missed` the completions that
a watcher has still to emit and, in a saved context, `seen` its barrier's count at the save (R357); `inj` is the marker that an
element without a read port has been given (R144), `injs` those given after it that wait for it. -/
structure Cfg where
  elem : BitVec 256 := 0
  sw : BitVec 256 := 0
  k : Table (BitVec 32) := []
  q : Table (BitVec 32) := []
  q0 : Table (BitVec 32) := []
  lut : Table (BitVec 64) := []
  cbk : Table (BitVec 16) := []
  flags : BitVec 6 := 0
  discard : BitVec 32 := 0
  inp : Table InPort := []
  outp : Table OutPort := []
  skew : Bool := false
  run : Bool := false
  runErr : Option (BitVec 8 × BitVec 32) := none
  carry : List (BitVec 32) := []
  carryKind : Nat := 0
  todo : List Nat := []
  passes : Nat := 0
  emitted : Nat := 0
  stopped : Bool := false
  hold : Bool := false
  once : Nat := 0
  inj : Option Pkt := none
  injs : List Pkt := []
  pos : Nat := 0
  reqs : List AgReq := []
  gate : Bool := false
  decided : Nat := 0
  missed : List (BitVec 32) := []
  seen : Option (BitVec 32) := none
  killing : Bool := false
  due : List (List Nat × Out) := []
  skip : List (BitVec 48 × List (Nat × BitVec 48)) := []
  edge : Table (Nat × Nat) := []
  stopAt : Option Nat := none
  deriving DecidableEq, Repr, Inhabited

/-- The states of an element (R127). -/
inductive ElemPhase where
  | loading | wait | fire | block | hold | saved | stopped | idle | fault
  deriving DecidableEq, Repr

/-- A result in the pipeline (R123): the output port, its full ordinal, the packet. -/
structure Result where
  port : Nat
  ord : BitVec 48
  pkt : Pkt
  deriving DecidableEq, Repr

/-- A fork entry (R110): the source, the slot and ordinal, the cancelled destinations. -/
structure Fork where
  src : Nat
  slot : Nat
  ord : BitVec 16
  off : List Nat
  deriving DecidableEq, Repr

/-- An accumulator tile's state (R157). -/
structure AccTile where
  opened : Bool := false
  owner : Nat := 0
  err : Option (BitVec 8 × BitVec 32) := none
  deriving DecidableEq, Repr

/-- An entry of the matrix node's queue (R158): its context, its frame, the constant k0, the operand packets, the error of
R162, and the level of an EOS entry (R167); `left` holds the packets of an acc.rd or acc.wb that executes which still wait for
room, with their ports (R164). -/
structure MatEntry where
  slot : Nat
  frame : BitVec 256
  k0 : BitVec 32
  a : Option Pkt
  b : Option Pkt
  err : Option (BitVec 8 × BitVec 32)
  eos : Option Nat
  left : Option (List (List Nat × Out)) := none
  deriving DecidableEq, Repr

/-- The open bin run of a matrix node (R42, R166): per output and code the sum in units of 2^-9, used and NaN bits, and
each row's last scale bytes. -/
structure BinRun where
  tile : Nat
  slot : Nat
  bins : Table Int
  nans : List Nat
  sa : List Nat
  sw : List Nat
  deriving DecidableEq, Repr

/-- An entry of a memory tile's request queue (R181): its firing's slot, frame and packet, the words it touches, its data
and the operands it compares with, the ordinals its data and DONE take on their ports; `aside` marks one that stands
aside (R183). -/
structure MtEntry where
  id : Nat
  slot : Nat
  frame : BitVec 256
  src : Pkt
  words : List Nat
  data : List (BitVec 32)
  cmp : List (BitVec 32)
  last : Bool
  outs : List (Nat × BitVec 48)
  done : Option (Nat × BitVec 48)
  aside : Bool
  deriving DecidableEq, Repr

/-- The state of one site: its four contexts, the buffers of its switch and ports (packets and anti-tokens), its
element, its matrix node or memory-tile queue, and the debug unit's counts. Lane buffers are numbered as sources
(0 to 15 incoming nl0 to wl3); wires and reverse buffers as destinations (0 to 15 links, 16 to 19 in0 to in3). -/
structure Site where
  cfg : Table Cfg := []
  lane : Table (List Pkt) := []
  wire : Table (List Pkt) := []
  inb : Table (List Pkt) := []
  outb : Table (List Pkt) := []
  rev : Table (List Anti) := []
  forks : List Fork := []
  phase : ElemPhase := .idle
  before : ElemPhase := .idle
  faults : List Nat := []
  owed : Nat := 0
  freed : List (Nat × Nat) := []
  pipe : List Result := []
  matq : List MatEntry := []
  acc : Table AccTile := []
  bin : Option BinRun := none
  mtq : List MtEntry := []
  nextEntry : Nat := 0
  blocks : List Block := []
  dry : Table Nat := []
  admitted : Nat := 0
  missing : Nat := 0
  blocked : Nat := 0
  strayAnti : BitVec 32 := 0
  cancelledErr : BitVec 32 := 0
  strayTok : BitVec 32 := 0
  cycles : Table Word := []
  rec28 : Word := 0
  rec30 : Word := 0
  cut : Table Word := []
  deriving DecidableEq, Repr

/-! ## Clusters -/

/-- Power gating of a cluster (R421). -/
inductive GatePhase where
  | on | pending | draining | off
  deriving DecidableEq, Repr

/-- A trace record (R444): time, kind, context, data. -/
structure TraceRec where
  time : Word
  kind : Nat
  ctx : Nat
  data : Nat
  deriving DecidableEq, Repr

/-- The control counters of a coolant zone (R396, R397, R400): intervals in the present state and step, intervals good,
low-flow and hot in a row, the evacuation step. -/
structure Zone where
  time : Nat := 0
  good : Nat := 0
  low : Nat := 0
  hot : Nat := 0
  step : Nat := 0
  purge : Bool := false
  deriving DecidableEq, Repr

/-- What a cluster holds beside its core and sites (R280, R393, R416, R421, R444). -/
structure Cluster where
  queue : List Msg := []
  serial : BitVec 48 := 0
  held : Table Held := []
  owed : List (FaultMsg × Holder) := []
  wins : Table Win := []
  gate : GatePhase := .on
  trace : List TraceRec := []
  zone : Zone := {}
  junction : Nat := 0
  thermal : Nat := 256
  deriving DecidableEq, Repr

/-! ## Saved slots -/

/-- One saved slot (R232, R233): the contexts of its sites, the tiles, bins, blocks and residue that go with them, kept
beside the bytes that the save area holds. -/
structure SavedSite where
  site : Nat
  cfg : Cfg
  inb : Table (List Pkt)
  acc : Table AccTile
  words : Table (BitVec 32)
  bin : Option BinRun
  blocks : List Block
  forks : List Fork
  deriving DecidableEq, Repr, Inhabited

/-- A save area that this machine wrote, with the state that its bodies stand for (R233, log 12). -/
structure Saved where
  area : List Byte
  sites : List SavedSite
  tc : BitVec 32
  limited : Bool
  deriving DecidableEq, Repr

/-! ## Tasks, jobs and groups -/

/-- The states of a group (R313). -/
inductive GroupPhase where
  | pooled | loading | running | preempting | preempted | restoring | exiting | free
  deriving DecidableEq, Repr

/-- A group of a kernel task (R313, R320, R321, R406): while it is pre-empted, `fell`, the markers on their way, the slot that
was current and the areas saved so far; `ready` when its loads, or its restores, are done; `mark` the number of commands issued
when it went to EXITING (R324), `req` the number of the request that pre-empts it (R320). -/
structure Group where
  phase : GroupPhase := .pooled
  region : Option Nat := none
  desc : Word := 0
  rows : Nat := 0
  trig : Bool := false
  exited : Bool := false
  heat : Nat := 0
  zreq : Table (Nat × Nat) := []
  killSent : Bool := false
  mode : Nat := 0
  cause : Nat := 0
  fell : Bool := false
  started : Bool := false
  marked : Bool := false
  ready : Bool := false
  savedCur : Nat := 0
  areas : Table Saved := []
  order : Nat := 0
  mark : Nat := 0
  req : Nat := 0
  deriving DecidableEq, Repr

/-- What a kernel task's images ask of a placement (R307 to R309): quads, relative dies, heat class, cut edges, the containers
by slot, the live map, the images' ids. -/
structure Shape where
  wq : Nat
  hq : Nat
  nd : Nat
  heat : Nat
  edges : List (BitVec 48)
  images : List (Nat × Word)
  live : List Word
  deriving DecidableEq, Repr

/-- The states of a task (R300, R330). -/
inductive TaskPhase where
  | waiting | ready | pooled | running | done | finished
  deriving DecidableEq, Repr

/-- A task (R293, R326 to R333): its record's bytes, its numbers, its bound word, its speculative state and its groups. -/
structure Task where
  ctx : Nat
  job : Nat
  idx : Nat
  spawned : Bool
  recAddr : Word
  bytes : List Byte := []
  id : Nat := 0
  serial : Nat := 0
  age : Nat := 0
  bound : Word := 0
  phase : TaskPhase := .waiting
  aborts : Nat := 0
  irrev : Bool := false
  core : Option Nat := none
  slice : Nat := 0
  wbuf : Table Byte := []
  rlines : List Nat := []
  kids : List (Word × Word) := []
  offer : Option (Nat × BitVec 32 × Word) := none
  groups : Table Group := []
  released : Bool := false
  walked : Bool := false
  walk : Nat := 0
  failed : Bool := false
  cause : Nat := 0
  killed : Bool := false
  minTs : Nat := 0
  shape : Option Shape := none
  deriving DecidableEq, Repr

/-- A job (R291, R292, R295); `at_` is the record that its walk has reached (R294). -/
structure Job where
  ctx : Nat
  desc : List Byte
  ntask : Nat := 0
  taken : Bool := false
  at_ : Nat := 0
  left : Nat := 0
  cause : Nat := 0
  failed : Bool := false
  broken : Bool := false
  held : Option Nat := none
  deriving DecidableEq, Repr

/-! ## Incumbents -/

/-- An incumbent slot (R334). -/
structure Inc where
  key : BitVec 32 := 0
  payload : Word := 0
  count : BitVec 32 := 0
  dir : Bool := false
  valid : Bool := false
  owner : Nat := 0
  deriving DecidableEq, Repr

/-- An offer on its way to a slot's home (R335, R347, R348). -/
structure Offer where
  slot : Nat
  key : BitVec 32
  payload : Word
  ctx : Nat
  die : Nat
  cluster : Nat
  reply : Bool
  deriving DecidableEq, Repr

/-- An INC.INIT at a slot's home (R345): the core that waits, the new state, the copies that have acknowledged the
withdrawal and those that hold the new state. -/
structure IncInit where
  core : Nat
  next : Inc
  acks : List Nat
  done : List Nat
  deriving DecidableEq, Repr

/-- One die's local copy of an incumbent slot (R334, R345). -/
structure IncCopy where
  inc : Inc := {}
  withdrawn : Bool := false
  deriving DecidableEq, Repr

/-! ## Dies -/

/-- A ticket counter (R271). -/
structure Tick where
  bc : Bool := false
  word : BitVec 17 := 0
  value : BitVec 32 := 0
  deriving DecidableEq, Repr

/-- What a compute die holds (R289 to R297, R327, R334, R338, R400, R407 to R412, R440, R442). -/
structure Die where
  full : List Nat := []
  jobCtr : BitVec 48 := 0
  serial : BitVec 48 := 0
  dispatches : Nat := 0
  idCtr : BitVec 48 := 0
  grids : List (Nat × Nat) := []
  rr : Nat := 0
  jobs : Table Job := []
  tasks : Table Task := []
  nextTask : Nat := 0
  clock : Nat := 0
  launches : List (Word × Nat) := []
  ticks : Table Tick := []
  incs : Table IncCopy := []
  sweeps : List Nat := []
  bandTime : Nat := 0
  pressHeld : Bool := false
  curCeil : Nat := 256
  overWin : Bool := false
  capCeils : Table Nat := []
  ilim : Nat := 4000
  cap : Nat := 1800
  stepDue : Bool := false
  requests : Nat := 0
  prof : Option (Word × Nat) := none
  profTo : List Nat := []
  cutRegion : Option Nat := none
  cutSlot : Nat := 0
  deriving DecidableEq, Repr

/-- What an I/O die's mark unit holds, per context (R433 to R435). While busy, `word` and `offs` are how far the search for the
frame's offsets has come (log 54). -/
structure Mark where
  off : Word := 0
  luma : Word := 0
  count : BitVec 48 := 0
  busy : Bool := false
  refused : Bool := false
  cur : BitVec 48 := 0
  len : Nat := 0
  y : Nat := 0
  window : Nat := 0
  start : Nat := 0
  word : Nat := 0
  offs : List Nat := []
  frame : List Byte := []
  pending : List (List Byte) := []
  first : BitVec 48 := 0
  manifest : List Byte := []
  digests : Nat := 0
  deriving DecidableEq, Repr

/-- Where a host's write goes: through the aperture BAR3 of a function (R383), the write-and-fill window of a queue as die and
number (R290), or to a register. -/
inductive HostPort where
  | aperture
  | slots (d j : Nat)
  | register
  deriving DecidableEq, Repr

/-- A host write that waits for the answer to a page request, or behind one that does (R383, R422): its context, its address,
offset or physical address, its bytes. -/
structure HostWait where
  ctx : Nat
  va : Nat
  bytes : List Byte
  port : HostPort := .aperture
  deriving DecidableEq, Repr

/-- A cached translation (R366): the context, the page's virtual and physical base, the log2 of its size, its leaf. -/
structure TlbEnt where
  ctx : Nat
  vbase : Nat
  pbase : Nat
  lg : Nat
  leaf : BitVec 64
  deriving DecidableEq, Repr

/-- A read by a master from outside (R422, R425): through the aperture BAR3 of context `x`, of a write-and-fill window (R290), of
the readout aperture BAR4 (R434), of a register at an offset of BAR0 (R426), of the cause of a halted boot (R428). -/
inductive HostRead where
  | aperture (x va n : Nat)
  | slots (x d j o : Nat)
  | readout (x o n : Nat)
  | register (o : Nat)
  | bootCause
  deriving DecidableEq, Repr

/-- Whose turn it is: a control core's, a step of another unit, a read by a master, or an access by cluster `c` that finds an
ECC error, corrected or not, at `pa` (R419, log 3). -/
inductive Turn where
  | core (c : Nat)
  | event (i : Instr)
  | read (m : Nat) (r : HostRead)
  | found (c : Nat) (bad : Bool) (pa : Nat)
  deriving DecidableEq, Repr

/-- The package. `agenda` and `cur` are the schedule, `fresh` the free-value counter (log 3, log 7), `hostAns` what the masters'
reads returned, oldest first (log 55): the model's own. `collBad` names the participants, by context, tag and cluster, of
collectives that a mismatch has ended before their commands came (R278); `hostReads` holds a master's reads that wait for the
answer to a page request (R422), `bootCause` why boot halted (R428). -/
structure State where
  agenda : List Turn := []
  cur : Nat := 0
  fresh : Nat := 0
  mem : Memory := []
  fullBits : Table Bool := []
  accWords : Table (BitVec 32) := []
  cores : Table CoreSt := []
  ctxs : Table CtxSt := []
  clusters : Table Cluster := []
  sites : Table Site := []
  regions : Table Region := []
  nextRegion : Nat := 0
  cmds : Table Cmd := []
  nextCmd : Nat := 0
  collBad : List (Nat × Nat × Nat) := []
  dies : Table Die := []
  groupCtr : Nat := 0
  dregs : Table Word := []
  incs : Table Inc := []
  inits : Table IncInit := []
  offers : List Offer := []
  updates : List (Nat × Nat × Inc × Bool) := []
  tlbs : Table (List TlbEnt) := []
  saved : List Saved := []
  quadCtx : Table Nat := []
  marks : Table Mark := []
  attest : Option (List Byte) := none
  hostWait : Table (List HostWait) := []
  hostReads : Table (List HostRead) := []
  hostAns : List (Nat × List Byte) := []
  bootCause : Option Nat := none
  kinUp : Table Bool := []
  poison : List Nat := []
  interrupts : List (Nat × Nat) := []
  deriving DecidableEq, Repr

/-- Why a step stops with a fault. The spec gives every access and every encoding an effect (a trap, a fault message or a
status), so no meaning stops the machine; the type has no value. -/
inductive Fault where
  deriving DecidableEq, Repr

/-- Why a step is refused. -/
inductive Refusal where
  /-- the instruction has no meaning yet: raised by an arm of exec, never by a meaning; safe -/
  | notModelled (mnemonic : String)
  deriving DecidableEq, Repr

/-- The outcome of a step of this machine. -/
abbrev Res := Host.Outcome State Fault Refusal

/-- The package right after reset: every register at its after-reset value (R8), every core idle with ch0 enabled and
privileged (R239, R240), every context FREE (R237), every slot EMPTY, tiles zero and empty (R177, R157), memory with
nothing listed; the values the spec does not give are those of log 1. -/
def State.reset : State := {}

end Sys2Proof.Machine
end

