-- ==== Sys2Proof/Machine/Ops.lean ====
section
/-! DEFINITION. Operations every meaning shares: reading and updating the parts of the state, registers with s0, the
issue of an instruction, free values, messages, faults and reports, the owner's event queue, taking a trap (R284) and
returning from one (R286). -/

namespace Sys2Proof.Machine

/-! ## Cause codes (R413) -/

def tIllegal : Nat := 0x01
def tUndefOp : Nat := 0x02
def tPriv : Nat := 0x03
def tAlign : Nat := 0x04
def tTrap : Nat := 0x05
def tBrk : Nat := 0x06
def tDouble : Nat := 0x07
def tTretState : Nat := 0x08
def tHandlerBudget : Nat := 0x09
def tStallFault : Nat := 0x0A
def tStallLimit : Nat := 0x0B
def tAtomicTarget : Nat := 0x0C
def tEngineArg : Nat := 0x0D
def tPageFault : Nat := 0x10
def tRemoteRefused : Nat := 0x11
def tStreamBounds : Nat := 0x12
def tXltRefused : Nat := 0x13
def tIndexRange : Nat := 0x14
def tLinkParity : Nat := 0x20
def tTokenKind : Nat := 0x21
def tOrdinalWindow : Nat := 0x22
def tStrayToken : Nat := 0x23
def tStreamSkew : Nat := 0x24
def tLengthSkew : Nat := 0x25
def tCfgKind : Nat := 0x30
def tCfgOrder : Nat := 0x31
def tCfgField : Nat := 0x32
def tCfgBounds : Nat := 0x33
def tCfgCrc : Nat := 0x34
def tCfgSig : Nat := 0x35
def tCfgState : Nat := 0x36
def tMatrixBin : Nat := 0x37
def tGroupFit : Nat := 0x38
def tSaveSpace : Nat := 0x39
def tJobArg : Nat := 0x40
def tTaskState : Nat := 0x41
def tSpecOp : Nat := 0x42
def tIncArg : Nat := 0x43
def tIncOwner : Nat := 0x44
def tCollMismatch : Nat := 0x45
def tCtxState : Nat := 0x50
def tParkArg : Nat := 0x51
def tParkFull : Nat := 0x52
def tBarOver : Nat := 0x53
def tBarArg : Nat := 0x54
def tZoneFlow : Nat := 0x60
def tZoneTemp : Nat := 0x61
def tZoneDry : Nat := 0x62
def tZonePressure : Nat := 0x63
def tZoneLocked : Nat := 0x64
def tZoneArg : Nat := 0x65
def tGateDrop : Nat := 0x66
def tEccCorr : Nat := 0x70
def tEccUncorr : Nat := 0x71
def tAccess : Nat := 0x72
def tBreakToken : Nat := 0x73
def tCutDone : Nat := 0x74

/-! ## Parts of the state -/

def State.core (s : State) (c : Nat) : CoreSt := Table.get CoreSt.reset s.cores c
def State.setCore (s : State) (c : Nat) (k : CoreSt) : State := { s with cores := Table.put s.cores c k }
def State.modCore (s : State) (c : Nat) (f : CoreSt → CoreSt) : State := s.setCore c (f (s.core c))

def State.ctx (s : State) (x : Nat) : CtxSt := Table.get {} s.ctxs x
def State.setCtx (s : State) (x : Nat) (v : CtxSt) : State := { s with ctxs := Table.put s.ctxs x v }
def State.modCtx (s : State) (x : Nat) (f : CtxSt → CtxSt) : State := s.setCtx x (f (s.ctx x))

def State.cluster (s : State) (c : Nat) : Cluster := Table.get {} s.clusters c
def State.setCluster (s : State) (c : Nat) (v : Cluster) : State := { s with clusters := Table.put s.clusters c v }
def State.modCluster (s : State) (c : Nat) (f : Cluster → Cluster) : State := s.setCluster c (f (s.cluster c))

def State.site (s : State) (p : Nat) : Site := Table.get {} s.sites p
def State.setSite (s : State) (p : Nat) (v : Site) : State := { s with sites := Table.put s.sites p v }
def State.modSite (s : State) (p : Nat) (f : Site → Site) : State := s.setSite p (f (s.site p))

def State.region (s : State) (g : Nat) : Region := Table.get {} s.regions g
def State.setRegion (s : State) (g : Nat) (v : Region) : State := { s with regions := Table.put s.regions g v }
def State.modRegion (s : State) (g : Nat) (f : Region → Region) : State := s.setRegion g (f (s.region g))

def State.die (s : State) (d : Nat) : Die := Table.get {} s.dies d
def State.setDie (s : State) (d : Nat) (v : Die) : State := { s with dies := Table.put s.dies d v }
def State.modDie (s : State) (d : Nat) (f : Die → Die) : State := s.setDie d (f (s.die d))

def emptyTask : Task := { ctx := 0, job := 0, idx := 0, spawned := false, recAddr := 0 }

def State.task? (s : State) (h : Nat × Nat) : Option Task :=
  if Table.has (s.die h.1).tasks h.2 then some (Table.get emptyTask (s.die h.1).tasks h.2) else none
def State.setTask (s : State) (h : Nat × Nat) (t : Task) : State :=
  s.modDie h.1 fun d => { d with tasks := Table.put d.tasks h.2 t }

/-- The configuration context of slot `n` of site `p`. -/
def Site.slot (t : Site) (n : Nat) : Cfg := Table.get {} t.cfg n
def Site.setSlot (t : Site) (n : Nat) (v : Cfg) : Site := { t with cfg := Table.put t.cfg n v }

/-- The slot `n` of a region. -/
def Region.slot (g : Region) (n : Nat) : SlotSt := Table.get {} g.slots n
def Region.setSlot (g : Region) (n : Nat) (v : SlotSt) : Region := { g with slots := Table.put g.slots n v }

/-! ## Places (R5, R84, R16) -/

/-- The compute die of a package cluster. -/
def dieOf (c : Nat) : Nat := c / 32

/-- The coordinates and die of a site value (R84). -/
def siteDie (p : Nat) : Nat := p / 2048 % 4
def siteX (p : Nat) : Nat := p / 32 % 64
def siteY (p : Nat) : Nat := p % 32

/-- The site value of a site (R84). -/
def siteAt (d x y : Nat) : Nat := d * 2048 + x * 32 + y

/-- The package cluster of a site (R5). -/
def siteCluster (p : Nat) : Nat := siteDie p * 32 + siteY p / 8 * 8 + siteX p / 8

/-- The kinds of site (R16). -/
inductive SiteKind where
  | ce | mt | ag
  deriving DecidableEq, Repr

/-- The kind of a site by its place in its quad (R16). -/
def siteKind (p : Nat) : SiteKind :=
  let x := siteX p % 4
  let y := siteY p % 4
  if x = 0 ∧ y = 0 then .ag else if x = y then .mt else .ce

/-! ## Free values (log 7) -/

/-- A free value of the spec's, and the state after it is drawn. -/
def State.draw (s : State) : Word × State := (Config.freeWord s.fresh, { s with fresh := s.fresh + 1 })

/-! ## Scalar registers (R54, R238) -/

/-- s-register `r`; s0 reads zero (R54). -/
def CoreSt.rd (k : CoreSt) (r : Nat) : Word := if r = 0 then 0 else Table.get 0 k.s r

/-- Write s-register `r`; a write to s0 is discarded (R54). -/
def CoreSt.wr (k : CoreSt) (r : Nat) (v : Word) : CoreSt :=
  if r = 0 then k else { k with s := Table.put k.s r v }

/-- f-register `r` (R257). -/
def CoreSt.rdF (k : CoreSt) (r : Nat) : Word := Table.get 0 k.f r
def CoreSt.wrF (k : CoreSt) (r : Nat) (v : Word) : CoreSt := { k with f := Table.put k.f r v }

/-- m-register `r` (R238). -/
def CoreSt.rdM (k : CoreSt) (r : Nat) : Word := Table.get 0 k.m r

/-- The scoreboard count of s-register `r` (R243). -/
def CoreSt.count (k : CoreSt) (r : Nat) : Nat := Table.get 0 k.board r

/-- The outstanding counter of class `cls` (R244). -/
def CoreSt.out (k : CoreSt) (cls : Nat) : Nat := Table.get 0 k.ocnt cls
def CoreSt.outUp (k : CoreSt) (cls : Nat) : CoreSt := { k with ocnt := Table.put k.ocnt cls (k.out cls + 1) }
def CoreSt.outDown (k : CoreSt) (cls : Nat) : CoreSt := { k with ocnt := Table.put k.ocnt cls (k.out cls - 1) }

/-- A result written to its destination. -/
def CoreSt.put (k : CoreSt) (d : Dest) (v : Word) : CoreSt :=
  match d with
  | .s r => k.wr r v
  | .f r => k.wrF r v
  | .nowhere => k

/-! ## Issue (R249 to R251) -/

/-- What the register operands of an instruction wait for: a pending register that it reads or writes (R250), and the registers
that it reads with a count (R243). -/
def CoreSt.waits (k : CoreSt) (rs rf ws wf : List Nat) : Option Stall :=
  let counted := rs.filter fun r => r ≠ 0 && k.count r ≠ 0
  if (rs ++ ws).any (fun r => r ≠ 0 && k.pendS.contains r) ∨ (rf ++ wf).any (k.pendF.contains ·) then some (.pending counted)
  else if counted = [] then none
  else some (.reg counted)

/-- The instruction at pc does not issue: it waits for `w` (R251). -/
def State.stallCore (s : State) (c : Nat) (w : Stall) : State := s.modCore c fun k => { k with stall := some w }

/-- The core after an instruction of `len` bytes has issued: the pc past it, one more issued (R242). -/
def CoreSt.issue (k : CoreSt) (len : Nat) : CoreSt :=
  { k with pc := k.pc + BitVec.ofNat 64 len, issued := k.issued + 1, stall := none, req := none }

/-- The core after a control transfer has issued (R256). -/
def CoreSt.issueTo (k : CoreSt) (t : Word) : CoreSt :=
  { k with pc := t, issued := k.issued + 1, stall := none, req := none }

/-- The handler ends: the core runs none (R242). -/
def CoreSt.endHandler (k : CoreSt) : CoreSt :=
  { k with running := false, stall := none, req := none, task := none, group := none }

/-! ## Trace records (R444) -/

/-- The physical base of cluster block `c`, of die window `d` (4 and 5 are the I/O dies) and of debug registers
(R360, R361). -/
def clusterBase (c : Nat) : Nat := 0xF000000000000 + c * 0x2000000
def dieBase (d : Nat) : Nat := 0xF000100000000 + d * 0x1000000
def debugBase (c : Nat) : Nat := clusterBase c + 0xC80000
def iodN : Nat := dieBase 4

/-- A device register as it stands; one that no step has written holds its after-reset value `dflt`. -/
def State.dreg (s : State) (pa : Nat) (dflt : Word := 0) : Word := Table.get dflt s.dregs pa
def State.setDreg (s : State) (pa : Nat) (v : Word) : State := { s with dregs := Table.put s.dregs pa v }
def State.modDreg (s : State) (pa : Nat) (dflt : Word) (f : Word → Word) : State := s.setDreg pa (f (s.dreg pa dflt))

/-- Add 1 to bits [hi:lo], saturating. -/
def incSat {n : Nat} (w : BitVec n) (hi lo k : Nat) : BitVec n :=
  setFld w hi lo (min (fld w hi lo + k) (2 ^ (hi + 1 - lo) - 1))

/-- Keep a trace record, if the cluster's trace is enabled for the context; a record that finds 256 is dropped and
counted (R444). The time is %cycle, a free value (log 5). -/
def State.trace (s : State) (c kind ctx data : Nat) : State :=
  let ctl := s.dreg (debugBase c + 0x4100)
  if bit ctl 63 ∧ fld ctl 62 57 = ctx then
    if (s.cluster c).trace.length < 256 then
      let (t, s) := s.draw
      s.modCluster c fun u => { u with trace := u.trace ++ [{ time := t, kind, ctx, data }] }
    else s.modDreg (debugBase c + 0x4100) 0 fun w => incSat w 15 0 1
  else s

/-! ## Messages to channels (R240, R241) -/

def CoreSt.channel (k : CoreSt) (n : Nat) : Chan := Table.get (Chan.reset n) k.chans n
def CoreSt.setChannel (k : CoreSt) (n : Nat) (h : Chan) : CoreSt := { k with chans := Table.put k.chans n h }

/-- The en and ctx of a channel that act now: a write of %hctlN takes effect at the next handler start (R240, log 69). -/
def Chan.actEn (h : Chan) : Bool := match h.was with | some w => w.1 | none => h.en
def Chan.actCtx (h : Chan) : Nat := match h.was with | some w => w.2 | none => h.ctx

/-- What has been written to a core's channels takes effect. -/
def CoreSt.settle (k : CoreSt) : CoreSt := { k with chans := k.chans.map fun e => (e.1, { e.2 with was := none }) }

/-- A channel's queue has room for a message: eight, not counting a trap's fault message in its reserved position
(R240, R284). -/
def Chan.room (h : Chan) : Bool := decide ((h.queue.filter fun m => !m.trap).length < 8)

/-- A channel takes a message: it is enabled and has room (R240). -/
def Chan.takes (h : Chan) : Bool := h.actEn && h.room

/-- Append a message to a channel's queue. -/
def State.enqueue (s : State) (c n : Nat) (m : Msg) : State :=
  s.modCore c fun k => k.setChannel n { k.channel n with queue := (k.channel n).queue ++ [m] }

/-- The group bound to channel `h` for a message or a handler of group `g?`: that group while it is bound, else the one that
bound the channel last (R303, R313). -/
def Chan.bound (h : Chan) (g? : Option (Nat × Nat × Nat)) : Option (Nat × Nat × Nat) :=
  match h.group, g? with
  | none, _ => none
  | some b, none => some b
  | some b, some g => if h.also.contains g then some g else some b

/-- Post a message to a channel: one that names no group is for the group bound to the channel, a fault message for none (R240,
R313). -/
def State.postTo (s : State) (c n : Nat) (m : Msg) : State :=
  s.enqueue c n { m with group := m.group.orElse fun _ => if m.trap then none else ((s.core c).channel n).group }

/-! ## Faults and reports (R415, R416) -/

/-- m0 of a fault message (R415). -/
def faultWord0 (src : Nat) (held : Bool) (cause ctx slot site : Nat) : Word :=
  BitVec.ofNat 64 (3 * 2 ^ 56 + src * 2 ^ 54 + (if held then 2 ^ 53 else 0) + cause % 128 * 2 ^ 46 + ctx % 64 * 2 ^ 40
    + slot % 4 * 2 ^ 38 + site % 8192)

/-- The next fault serial of a cluster, and the state after it is taken (R415). -/
def State.nextSerial (s : State) (c : Nat) : Nat × State :=
  let n := (s.cluster c).serial + 1
  (n.toNat, s.modCluster c fun u => { u with serial := n })

/-- The message of a fault or report (R415). -/
def FaultMsg.words (f : FaultMsg) (held : Bool) (serial : Nat) : List Word :=
  [faultWord0 f.src held f.cause f.ctx f.slot f.site, BitVec.ofNat 64 serial, BitVec.ofNat 64 (f.ord % 2 ^ 48),
    BitVec.ofNat 64 (f.loc % 128 + f.lane % 4 * 128), f.val, f.detail]

/-- Write an event to the owner's event queue; with 256 entries waiting it is dropped and counted in %fltstat.drop of
cluster 0 (R424, R427). With EVQCTL.en set, the MSI-X message goes to the owner's link. -/
def State.ownerEvent (s : State) (w0 w2 w4 : Word) (cl m : Nat) : State :=
  let tail := fld (s.dreg (iodN + 0x20020)) 31 0
  let head := fld (s.dreg (iodN + 0x20018)) 31 0
  if (tail + 2 ^ 32 - head) % 2 ^ 32 = 256 then
    s.modCore 0 fun k => { k with fltDrop := incSat k.fltDrop 31 0 1 }
  else
    let e := iodN + 0x22000 + 0x20 * (tail % 256)
    let s := (((s.setDreg e w0).setDreg (e + 8) w2).setDreg (e + 16) w4).setDreg (e + 24)
      (BitVec.ofNat 64 (cl % 128 + m % 4 * 256))
    let s := s.setDreg (iodN + 0x20020) (BitVec.ofNat 64 ((tail + 1) % 2 ^ 32))
    let ctl := s.dreg (iodN + 0x20010)
    if bit ctl 63 then
      { s with interrupts := s.interrupts ++ [(fld (s.dreg (iodN + 0x20000) 0xF0) 7 6, fld ctl 15 0)] }
    else s

/-- A T_ACCESS event: the context of the target, the offset of the refused access, the master (R425, R427). -/
def State.accessEvent (s : State) (ctx off cl m : Nat) : State :=
  s.ownerEvent (faultWord0 3 false tAccess ctx 0 0) (BitVec.ofNat 64 off) 0 cl m

/-- Which causes are also reported to the owner master (R400, R419). -/
def toOwner (cause : Nat) : Bool := cause == tZoneLocked || cause == tEccUncorr

/-- Post a report, which holds nothing; with the fault queue full it is dropped and counted (R416). -/
def State.report (s : State) (c : Nat) (f : FaultMsg) : State :=
  let (n, s) := s.nextSerial c
  let ws := f.words false n
  let s := if toOwner f.cause then s.ownerEvent (ws.getD 0 0) (ws.getD 2 0) (ws.getD 4 0) c 0 else s
  if (s.cluster c).queue.length < 16 then
    (s.modCluster c fun u => { u with queue := u.queue ++ [{ words := ws }] }).trace c 2 f.ctx f.cause
  else s.modCore c fun k => { k with fltDrop := incSat k.fltDrop 31 0 1 }

/-- An agent takes the serial of its posted fault; serial 0 stands for one that waits for room in the fault queue
(R416). -/
def State.attach (s : State) (h : Holder) (n : Nat) : State :=
  match h with
  | .site p _ =>
    s.modSite p fun t => if n = 0 then { t with owed := t.owed + 1 } else { t with faults := t.faults ++ [n] }
  | .cmd k =>
    if Table.has s.cmds k then { s with cmds := s.cmds.map fun e => if e.1 = k then (k, { e.2 with held := some n }) else e }
    else s
  | .walk d j => s.modDie d fun u => { u with jobs := u.jobs.map fun e => if e.1 = j then (j, { e.2 with held := some n }) else e }
  | .ag _ _ | .coreSwitch _ => s

/-- A fault enters the fault queue of cluster `c` (R416). -/
def State.enterFault (s : State) (c : Nat) (f : FaultMsg) (h : Holder) : State :=
  let (n, s) := s.nextSerial c
  let ws := f.words true n
  let s := if toOwner f.cause then s.ownerEvent (ws.getD 0 0) (ws.getD 2 0) (ws.getD 4 0) c 0 else s
  let s := s.modCluster c fun u =>
    { u with queue := u.queue ++ [{ words := ws }], held := Table.put u.held n { cause := f.cause, holder := h, val := f.val } }
  (s.attach h n).trace c 2 f.ctx f.cause

/-- Raise a fault, which holds its agent; while the fault queue is full it waits at its agent (R416). -/
def State.holdFault (s : State) (c : Nat) (f : FaultMsg) (h : Holder) : State :=
  if (s.cluster c).queue.length < 16 ∧ (s.cluster c).owed = [] then s.enterFault c f h
  else (s.modCluster c fun u => { u with owed := u.owed ++ [(f, h)] }).attach h 0

/-! ## Speculative tasks (R328, R330) -/

/-- The kind of a task (R293). -/
def Task.kind (t : Task) : Nat := (t.bytes.getD 8 0).toNat % 8
/-- An ordered task (R326). -/
def Task.ordered (t : Task) : Bool := (t.kind == 3 || t.kind == 4) && bit (t.bytes.getD 28 0) 0
/-- A task that runs speculatively (R328). -/
def Task.spec (t : Task) : Bool := t.kind == 4 || (t.kind == 3 && t.ordered)

/-- The current speculative task of a core that is not irrevocable, if there is one (R327, R328). -/
def State.specOf (s : State) (c : Nat) : Option ((Nat × Nat) × Task) :=
  match (s.core c).task with
  | none => none
  | some h =>
    match s.task? h with
    | none => none
    | some t => if t.spec ∧ t.phase = .running ∧ ¬ t.irrev then some (h, t) else none

/-- A task that ends: its speculative state discarded, released and completed (R300, R330). -/
def Task.finish (t : Task) : Task :=
  { t with phase := .finished, released := true, wbuf := [], rlines := [], kids := [], offer := none, core := none }

/-- A task marked failed with a cause; the first cause stays (R305, R313). -/
def Task.fail (t : Task) (cause : Nat) : Task := if t.failed then t else { t with failed := true, cause }

def emptyJob : Job := { ctx := 0, desc := [] }

/-- Complete task `h`, now `t`: it ends, and its job counts one task fewer and takes the cause of its first failing task
in completion order (R295, R300). -/
def State.complete (s : State) (h : Nat × Nat) (t : Task) : State :=
  (s.setTask h t.finish).modDie h.1 fun d =>
    let j := Table.get emptyJob d.jobs t.job
    let j := { j with left := j.left - 1 }
    let j := if t.failed ∧ ¬ j.failed then { j with failed := true, cause := t.cause } else j
    { d with jobs := Table.put d.jobs t.job j }

/-- A trap fails the speculative task that runs (R330), irrevocable or not. -/
def State.failSpec (s : State) (c cause : Nat) : State :=
  match (s.core c).task with
  | none => s
  | some h =>
    match s.task? h with
    | none => s
    | some t => if t.spec ∧ t.phase = .running then s.complete h (t.fail cause) else s

/-! ## Taking a trap and returning from one (R284, R286) -/

/-- Core `c` takes a precise trap (R284): it ends the handler; with a frame held it raises T_DOUBLE, which stops the core
and goes to the owner; otherwise it fills the frame, keeps the message, budget count and task of the handler, and posts
the fault message to ch0 in its reserved position. A speculative task fails (R330). -/
def State.trap (s : State) (c cause : Nat) (val : Word) : State :=
  let k := s.core c
  let s := s.failSpec c cause
  if k.tvalid then
    let s := s.setCore c { k.endHandler with dead := true }
    s.ownerEvent (faultWord0 0 false tDouble k.ctx 0 0) (BitVec.ofNat 64 (k.tpc.toNat % 2 ^ 48)) k.tval c 0
  else
    let (n, s) := s.nextSerial c
    let k' := { k.endHandler with
      tpc := k.pc, tcause := BitVec.ofNat 7 cause, tval := val, tvalid := true, tchan := k.chan, tctx := k.ctx,
      tm := k.m, tissued := k.issued, ttask := k.task, tgroup := k.group }
    let f : FaultMsg := { src := 0, cause, ctx := k.ctx, ord := k.pc.toNat, loc := k.chan, val }
    let s := (s.setCore c k').postTo c 0 { words := f.words false n, trap := true }
    if toOwner cause then
      s.ownerEvent (faultWord0 0 false cause k.ctx 0 0) (BitVec.ofNat 64 (k.pc.toNat % 2 ^ 48)) val c 0
    else s

/-- The handler of `st` begins or resumes on a core whose resident context is its own (R242, R286): the message, the
privilege, the pc, the budget; where it begins the arrival record is cleared (R356). -/
def CoreSt.begin (k : CoreSt) (st : Start) : CoreSt :=
  { k with running := true, chan := st.chan, m := st.m, pc := st.pc, issued := st.issued, budget := st.budget,
           priv := st.priv, task := st.task, group := st.group, stall := none, req := none, arrival := if st.resumed then k.arrival else none }

/-- The handler `st` begins, which the trace records; one that a tret resumes is no start (R286, R444). -/
def State.traceStart (s : State) (c : Nat) (st : Start) : State := if st.resumed then s else s.trace c 1 st.ctx st.chan

/-- Start `st` on core `c`: at once if its context is resident, otherwise after a core switch, which puts off one that still
waits (R242, R245). -/
def State.startOn (s : State) (c : Nat) (st : Start) : State :=
  if st.ctx = (s.core c).ctx then
    (s.modCore c fun k => k.begin st).traceStart c st
  else s.modCore c fun k =>
    { k with next := some st, nextHeld := false,
             later := k.later ++ match k.next with | some old => [(old, k.nextHeld)] | none => [] }

/-- Return from a trap (R286), the handler being privileged and the frame held by an OPEN context: it ends the running
handler, clears %tstat.valid, restores the message, budget count and task of the trapped handler and its channel's privilege
and budget, and resumes it at %tpc, after a core switch where its context is not resident. -/
def State.trapReturn (s : State) (c : Nat) : State :=
  let k := s.core c
  let st : Start :=
    { ctx := k.tctx, chan := k.tchan, m := k.tm, pc := k.tpc, issued := k.tissued, budget := (k.channel k.tchan).budget,
      priv := (k.channel k.tchan).priv, task := k.ttask, group := k.tgroup, resumed := true }
  (s.setCore c { k.endHandler with tvalid := false }).startOn c st

/-! ## In-place instructions -/

/-- Run an in-place instruction of the current core: wait for its registers (R250), or apply `f`. -/
def State.inPlace (s : State) (rs rf ws wf : List Nat) (f : CoreSt → CoreSt) : State :=
  match (s.core s.cur).waits rs rf ws wf with
  | some w => s.stallCore s.cur w
  | none => s.modCore s.cur f

/-- As `inPlace`, where the instruction may also trap or change more than its core. -/
def State.whenReady (s : State) (rs rf ws wf : List Nat) (f : CoreSt → State) : State :=
  match (s.core s.cur).waits rs rf ws wf with
  | some w => s.stallCore s.cur w
  | none => f (s.core s.cur)

/-- The words of an instruction as %tval holds them: the first in [31:0], the extension in [63:32] (R285). -/
def instrWords (i : Instr) : Word :=
  match encode i with
  | [w] => w.zeroExtend 64
  | [w, e] => e.zeroExtend 64 <<< 32 ||| w.zeroExtend 64
  | _ => 0

/-- The instruction of the current core raises T_UNDEF_OP (R60). -/
def State.undef (s : State) (i : Instr) : State := s.trap s.cur tUndefOp (instrWords i)

end Sys2Proof.Machine
end

