-- ==== Sys2Proof/Machine/Operands.lean ====
section
/-! DEFINITION. Operand forms of control-core words (R53 to R59): sign- and zero-extended immediates, branch targets, the
effective addresses of R262, and the register values an instruction reads at issue (R249). -/

namespace Sys2Proof.Machine

/-- sext(imm16) and zext(imm16) (R55). -/
def sext16 (imm : BitVec 16) : Word := imm.signExtend 64
def zext16 (imm : BitVec 16) : Word := imm.zeroExtend 64

/-- 4 * sext13(off) and 4 * sext26(off) (R256). -/
def brOffset (off : BitVec 13) : Word := off.signExtend 64 <<< 2
def jmpOffset (off : BitVec 26) : Word := off.signExtend 64 <<< 2

/-- The effective address of a load or store in RI form, and in MEMX form (R262). -/
def addrImm (k : CoreSt) (a : BitVec 5) (imm : BitVec 16) : Word := k.rd a.toNat + sext16 imm
def addrReg (k : CoreSt) (a b : BitVec 5) : Word := k.rd a.toNat + k.rd b.toNat

/-- 1 where a relation holds, else 0 (R255). -/
def flag1 (b : Bool) : Word := if b then 1 else 0

/-- Does a branch condition hold between a and b: eq, ne, lt.s, ge.s, lt.n, ge.n (R57)? -/
def brHolds (cond : Nat) (x y : Word) : Bool :=
  match cond with
  | 0 => x == y
  | 1 => x != y
  | 2 => x.slt y
  | 3 => !x.slt y
  | 4 => x.ult y
  | _ => !x.ult y

end Sys2Proof.Machine
end

