-- ==== Sys2Proof/Machine/Alu.lean ====
section
/-! DEFINITION. Integer and immediate instructions, compares and control transfers (R252 to R256, R288). -/

namespace Sys2Proof.Machine

/-! ## Shared forms -/

/-- d := f a b, in place (R250, R252). -/
def State.alu2 (s : State) (d a b : BitVec 5) (f : Word → Word → Word) : State :=
  s.inPlace [a.toNat, b.toNat] [] [d.toNat] [] fun k => (k.wr d.toNat (f (k.rd a.toNat) (k.rd b.toNat))).issue 4

/-- d := f a, in place. -/
def State.alu1 (s : State) (d a : BitVec 5) (f : Word → Word) : State :=
  s.inPlace [a.toNat] [] [d.toNat] [] fun k => (k.wr d.toNat (f (k.rd a.toNat))).issue 4

/-- Signed and unsigned minimum and maximum (R252). -/
def minSigned (x y : Word) : Word := if y.slt x then y else x
def minUnsigned (x y : Word) : Word := if y.ult x then y else x
def maxSigned (x y : Word) : Word := if x.slt y then y else x
def maxUnsigned (x y : Word) : Word := if x.ult y then y else x

/-- Bits [127:64] of the exact product (R252). -/
def mulhSigned (x y : Word) : Word := BitVec.ofInt 64 ((x.toInt * y.toInt) / 2 ^ 64)
def mulhUnsigned (x y : Word) : Word := BitVec.ofNat 64 (x.toNat * y.toNat / 2 ^ 64)

/-- Quotients and remainders with the edge cases of R253. -/
def divSigned (x y : Word) : Word := if y = 0 then BitVec.allOnes 64 else BitVec.ofInt 64 (x.toInt.tdiv y.toInt)
def divUnsigned (x y : Word) : Word := if y = 0 then BitVec.allOnes 64 else BitVec.ofNat 64 (x.toNat / y.toNat)
def remSigned (x y : Word) : Word := if y = 0 then x else BitVec.ofInt 64 (x.toInt.tmod y.toInt)
def remUnsigned (x y : Word) : Word := if y = 0 then x else BitVec.ofNat 64 (x.toNat % y.toNat)

/-- Leading zeros, trailing zeros and set bits; 64 for a zero operand of the first two (R252). -/
def countLead (x : Word) : Nat := ((List.range 64).find? fun i => x.getLsbD (63 - i)).getD 64
def countTrail (x : Word) : Nat := ((List.range 64).find? fun i => x.getLsbD i).getD 64
def countOnes (x : Word) : Nat := ((List.range 64).filter fun i => x.getLsbD i).length

/-! ## Meanings -/

/-- add (R252). -/
def execAdd (d a b : BitVec 5) (s : State) : Res := .next (s.alu2 d a b (fun x y => x + y))
/-- sub (R252). -/
def execSub (d a b : BitVec 5) (s : State) : Res := .next (s.alu2 d a b (fun x y => x - y))
/-- and (R252). -/
def execAnd (d a b : BitVec 5) (s : State) : Res := .next (s.alu2 d a b (fun x y => x &&& y))
/-- or (R252). -/
def execOr (d a b : BitVec 5) (s : State) : Res := .next (s.alu2 d a b (fun x y => x ||| y))
/-- xor (R252). -/
def execXor (d a b : BitVec 5) (s : State) : Res := .next (s.alu2 d a b (fun x y => x ^^^ y))
/-- andn (R252). -/
def execAndn (d a b : BitVec 5) (s : State) : Res := .next (s.alu2 d a b (fun x y => x &&& ~~~y))
/-- sll (R252). -/
def execSll (d a b : BitVec 5) (s : State) : Res := .next (s.alu2 d a b (fun x y => x <<< (y.toNat % 64)))
/-- srl (R252). -/
def execSrl (d a b : BitVec 5) (s : State) : Res := .next (s.alu2 d a b (fun x y => x >>> (y.toNat % 64)))
/-- sra (R252). -/
def execSra (d a b : BitVec 5) (s : State) : Res := .next (s.alu2 d a b (fun x y => x.sshiftRight (y.toNat % 64)))
/-- minS (R252). -/
def execMinS (d a b : BitVec 5) (s : State) : Res := .next (s.alu2 d a b minSigned)
/-- minN (R252). -/
def execMinN (d a b : BitVec 5) (s : State) : Res := .next (s.alu2 d a b minUnsigned)
/-- maxS (R252). -/
def execMaxS (d a b : BitVec 5) (s : State) : Res := .next (s.alu2 d a b maxSigned)
/-- maxN (R252). -/
def execMaxN (d a b : BitVec 5) (s : State) : Res := .next (s.alu2 d a b maxUnsigned)
/-- mul (R252). -/
def execMul (d a b : BitVec 5) (s : State) : Res := .next (s.alu2 d a b (fun x y => x * y))
/-- mulhS (R252). -/
def execMulhS (d a b : BitVec 5) (s : State) : Res := .next (s.alu2 d a b mulhSigned)
/-- mulhN (R252). -/
def execMulhN (d a b : BitVec 5) (s : State) : Res := .next (s.alu2 d a b mulhUnsigned)
/-- divS (R253). -/
def execDivS (d a b : BitVec 5) (s : State) : Res := .next (s.alu2 d a b divSigned)
/-- divN (R253). -/
def execDivN (d a b : BitVec 5) (s : State) : Res := .next (s.alu2 d a b divUnsigned)
/-- remS (R253). -/
def execRemS (d a b : BitVec 5) (s : State) : Res := .next (s.alu2 d a b remSigned)
/-- remN (R253). -/
def execRemN (d a b : BitVec 5) (s : State) : Res := .next (s.alu2 d a b remUnsigned)
/-- cmpEq (R255). -/
def execCmpEq (d a b : BitVec 5) (s : State) : Res := .next (s.alu2 d a b (fun x y => flag1 (x == y)))
/-- cmpNe (R255). -/
def execCmpNe (d a b : BitVec 5) (s : State) : Res := .next (s.alu2 d a b (fun x y => flag1 (x != y)))
/-- cmpLtS (R255). -/
def execCmpLtS (d a b : BitVec 5) (s : State) : Res := .next (s.alu2 d a b (fun x y => flag1 (x.slt y)))
/-- cmpLtN (R255). -/
def execCmpLtN (d a b : BitVec 5) (s : State) : Res := .next (s.alu2 d a b (fun x y => flag1 (x.ult y)))
/-- cmpLeS (R255). -/
def execCmpLeS (d a b : BitVec 5) (s : State) : Res := .next (s.alu2 d a b (fun x y => flag1 (!y.slt x)))
/-- cmpLeN (R255). -/
def execCmpLeN (d a b : BitVec 5) (s : State) : Res := .next (s.alu2 d a b (fun x y => flag1 (!y.ult x)))
/-- clz (R252). -/
def execClz (d a : BitVec 5) (s : State) : Res := .next (s.alu1 d a fun x => BitVec.ofNat 64 (countLead x))
/-- ctz (R252). -/
def execCtz (d a : BitVec 5) (s : State) : Res := .next (s.alu1 d a fun x => BitVec.ofNat 64 (countTrail x))
/-- popc (R252). -/
def execPopc (d a : BitVec 5) (s : State) : Res := .next (s.alu1 d a fun x => BitVec.ofNat 64 (countOnes x))
/-- addi (R254). -/
def execAddi (d a : BitVec 5) (imm : BitVec 16) (s : State) : Res := .next (s.alu1 d a fun x => x + sext16 imm)
/-- andi (R254). -/
def execAndi (d a : BitVec 5) (imm : BitVec 16) (s : State) : Res := .next (s.alu1 d a fun x => x &&& zext16 imm)
/-- ori (R254). -/
def execOri (d a : BitVec 5) (imm : BitVec 16) (s : State) : Res := .next (s.alu1 d a fun x => x ||| zext16 imm)
/-- xori (R254). -/
def execXori (d a : BitVec 5) (imm : BitVec 16) (s : State) : Res := .next (s.alu1 d a fun x => x ^^^ zext16 imm)
/-- slli (R254). -/
def execSlli (d a : BitVec 5) (sh : BitVec 6) (s : State) : Res := .next (s.alu1 d a fun x => x <<< sh.toNat)
/-- srli (R254). -/
def execSrli (d a : BitVec 5) (sh : BitVec 6) (s : State) : Res := .next (s.alu1 d a fun x => x >>> sh.toNat)
/-- srai (R254). -/
def execSrai (d a : BitVec 5) (sh : BitVec 6) (s : State) : Res := .next (s.alu1 d a fun x => x.sshiftRight sh.toNat)
/-- rori (R254). -/
def execRori (d a : BitVec 5) (sh : BitVec 6) (s : State) : Res := .next (s.alu1 d a fun x => x.rotateRight sh.toNat)
/-- ltiS (R254). -/
def execLtiS (d a : BitVec 5) (imm : BitVec 16) (s : State) : Res := .next (s.alu1 d a fun x => flag1 (x.slt (sext16 imm)))
/-- ltiN (R254). -/
def execLtiN (d a : BitVec 5) (imm : BitVec 16) (s : State) : Res := .next (s.alu1 d a fun x => flag1 (x.ult (sext16 imm)))
/-- sel: a if c is not zero, else b (R252). -/
def execSel (d a b c : BitVec 5) (s : State) : Res :=
  .next (s.inPlace [a.toNat, b.toNat, c.toNat] [] [d.toNat] [] fun k =>
    (k.wr d.toNat (if k.rd c.toNat ≠ 0 then k.rd a.toNat else k.rd b.toNat)).issue 4)

/-- msgrd: an m-register (R252). -/
def execMsgrd (d a : BitVec 5) (s : State) : Res :=
  .next (s.inPlace [] [] [d.toNat] [] fun k => (k.wr d.toNat (k.rdM a.toNat)).issue 4)

/-- ins16: replaces halfword h of d (R254). -/
def execIns16 (d : BitVec 5) (h : BitVec 2) (imm : BitVec 16) (s : State) : Res :=
  .next (s.inPlace [d.toNat] [] [d.toNat] [] fun k =>
    (k.wr d.toNat (setFld (k.rd d.toNat) (16 * h.toNat + 15) (16 * h.toNat) imm.toNat)).issue 4)

/-- li: mode 0 sign-extends, mode 1 zero-extends, mode 2 replaces d[63:32] and reads d (R57, R254). -/
def execLi (d mode : BitVec 5) (ext : BitVec 32) (s : State) : Res :=
  .next (s.inPlace (if mode.toNat = 2 then [d.toNat] else []) [] [d.toNat] [] fun k =>
    (k.wr d.toNat (match mode.toNat with
      | 0 => ext.signExtend 64
      | 1 => ext.zeroExtend 64
      | _ => setFld (k.rd d.toNat) 63 32 ext.toNat)).issue 8)

/-- br (R256). -/
def execBr (a b : BitVec 5) (cond : BitVec 3) (off : BitVec 13) (s : State) : Res :=
  .next (s.inPlace [a.toNat, b.toNat] [] [] [] fun k =>
    if brHolds cond.toNat (k.rd a.toNat) (k.rd b.toNat) then k.issueTo (k.pc + brOffset off) else k.issue 4)

/-- jmp (R256). -/
def execJmp (off : BitVec 26) (s : State) : Res := .next (s.inPlace [] [] [] [] fun k => k.issueTo (k.pc + jmpOffset off))

/-- call: s31 := pc + 4 (R256). -/
def execCall (off : BitVec 26) (s : State) : Res :=
  .next (s.inPlace [] [] [31] [] fun k => (k.wr 31 (k.pc + 4)).issueTo (k.pc + jmpOffset off))

/-- jr: the target is checked, then d := pc + 4 (R256). -/
def execJr (d a : BitVec 5) (imm : BitVec 16) (s : State) : Res :=
  .next (s.whenReady [a.toNat] [] [d.toNat] [] fun k =>
    let t := k.rd a.toNat + sext16 imm
    if fld t 1 0 ≠ 0 then s.trap s.cur tAlign t
    else s.setCore s.cur ((k.wr d.toNat (k.pc + 4)).issueTo t))

/-- nop (R288). -/
def execNop (s : State) : Res := .next (s.inPlace [] [] [] [] fun k => k.issue 4)

end Sys2Proof.Machine
end

