-- ==== Sys2Proof/Machine/Map.lean ====
section
/-! DEFINITION. The physical map (R360 to R362, R179, R436), the numbering of tiles and elements, and for every device
register its after-reset value, the bits a write sets and the bits a write of 1 clears (R8). -/

namespace Sys2Proof.Machine

/-! ## Tiles and elements of a cluster (R361) -/

/-- The north-west site of a package cluster (R5). -/
def clusterOrigin (c : Nat) : Nat := siteAt (c / 32) (c % 32 % 8 * 8) (c % 32 / 8 * 8)

/-- The site of memory tile `m` of cluster `c` (R361). -/
def tileSite (c m : Nat) : Nat :=
  let o := clusterOrigin c
  let q := m / 3
  siteAt (siteDie o) (siteX o + q % 2 * 4 + m % 3 + 1) (siteY o + q / 2 * 4 + m % 3 + 1)

/-- The number of a memory tile in its cluster (R361). -/
def tileIndex (p : Nat) : Nat := 3 * (2 * (siteY p / 4 % 2) + siteX p / 4 % 2) + siteX p % 4 - 1

/-- The physical base of a memory tile's window (R361, R179). -/
def tileBase (p : Nat) : Nat := clusterBase (siteCluster p) + 0x100000 * tileIndex p

/-- The physical address of word `w` of a memory tile (R177, R179). -/
def wordAddr (p w : Nat) : Nat := tileBase p + 4 * w

/-- The compute elements of a cluster in order of y, then x (R361). -/
def clusterCes (c : Nat) : List Nat :=
  let o := clusterOrigin c
  ((List.range 64).map fun i => siteAt (siteDie o) (siteX o + i % 8) (siteY o + i / 8)).filter fun p => siteKind p = .ce

/-- The number of a compute element in its cluster. -/
def ceIndex (p : Nat) : Nat := (clusterCes (siteCluster p)).findIdx (· = p)

/-- The physical address of word `i` of accumulator tile `t` of a compute element (R361, R157). -/
def accAddr (p t i : Nat) : Nat := clusterBase (siteCluster p) + 0x1000000 + 0x40000 * ceIndex p + 0x2000 * t + 4 * i

/-- The sites of a cluster. -/
def clusterSites (c : Nat) : List Nat :=
  let o := clusterOrigin c
  (List.range 64).map fun i => siteAt (siteDie o) (siteX o + i % 8) (siteY o + i / 8)

/-! ## Registers of the windows -/

/-- Bits [hi:lo] set. -/
def mask (hi lo : Nat) : Nat := (2 ^ (hi + 1 - lo) - 1) * 2 ^ lo

/-- What R8 says of a register: its after-reset value, its RW bits, its W1C bits. A bit in neither reads as the step that
owns it left it, or zero. -/
structure RegInfo where
  reset : Nat
  rw : Nat
  w1c : Nat := 0
  deriving DecidableEq, Repr

/-- A format-range entry's registers (R43). -/
def frReg (r : Nat) : Option RegInfo :=
  match r with
  | 0 => some { reset := 0, rw := mask 51 16 + 1 }
  | 8 => some { reset := 0, rw := mask 51 16 }
  | 16 => some { reset := 0, rw := mask 63 0 }
  | _ => some { reset := 0, rw := mask 51 5 + mask 3 0 }

/-- The registers of a compute-die window (R289, R320, R342, R43, R402, R403, R412, R421, R440, R442). -/
def dieReg (o : Nat) : Option RegInfo :=
  if o % 8 ≠ 0 then none
  else if o < 0x1000 then
    match o % 0x40 with
    | 0 => some { reset := 0, rw := mask 55 12 }
    | 8 => some { reset := 0, rw := mask 63 63 + mask 47 36 }
    | 16 => some { reset := 0, rw := 0, w1c := mask 33 32 }
    | _ => none
  else if o = 0x1000 then some { reset := 0, rw := mask 47 0 }
  else if o = 0x1008 ∨ o = 0x1010 then some { reset := 0, rw := 0 }
  else if o = 0x1018 then some { reset := 2000, rw := mask 19 0 }
  else if 0x2000 ≤ o ∧ o ≤ 0x2018 then some { reset := 0, rw := mask 31 0 }
  else if 0x10000 ≤ o ∧ o < 0x10200 then frReg (o % 0x20)
  else if 0x20000 ≤ o ∧ o < 0x20200 then
    if o % 16 = 0 then some { reset := 0x7F * 2 ^ 48 + 8 * 2 ^ 44 + 400 * 2 ^ 35, rw := mask 47 35 }
    else some { reset := 0, rw := 0, w1c := mask 43 41 }
  else if o = 0x20200 then some { reset := 4000, rw := mask 13 0 }
  else if 0x20208 ≤ o ∧ o ≤ 0x20220 then
    let k := (o - 0x20208) / 8
    some { reset := (List.range 4).foldl (fun a i => a + 25 * (4 * k + i) * 2 ^ (16 * i)) 0
           rw := mask 8 0 + mask 24 16 + mask 40 32 + mask 56 48 }
  else if o = 0x20228 then
    some { reset := 520 * 2 ^ 54 + 50 * 2 ^ 44 + 400 * 2 ^ 34 + 10 * 2 ^ 20, rw := mask 63 20 }
  else if o = 0x20230 then some { reset := 0, rw := 0, w1c := mask 12 11 }
  else if o = 0x20238 then some { reset := 0, rw := 0 }
  else if 0x30000 ≤ o ∧ o < 0x30040 then some { reset := 1250 * 2 ^ 32 + 1250 * 2 ^ 16 + 1250, rw := mask 15 0 }
  else if o = 0x30040 then some { reset := 1800, rw := mask 15 0 }
  else if o = 0x30048 then some { reset := 4000, rw := mask 15 0 }
  else if o = 0x30050 then some { reset := 840, rw := mask 9 0 }
  else if o = 0x30058 then some { reset := 0, rw := 0 }
  else if 0x30100 ≤ o ∧ o < 0x30200 then
    some { reset := 256 * 2 ^ 16 + 256, rw := mask 8 0, w1c := mask 63 59 }
  else if 0x30200 ≤ o ∧ o < 0x30300 then some { reset := 0, rw := mask 63 32, w1c := 4 }
  else if o = 0x40000 then some { reset := 0, rw := mask 44 0, w1c := mask 63 62 }
  else if o = 0x40008 then some { reset := 0, rw := 0 }
  else if o = 0x40010 then some { reset := 0, rw := mask 63 62 + mask 47 32 }
  else none

/-- The registers of an I/O-die window; those of R426 lie on IOD-N alone (R362, R426, R432). -/
def iodReg (north : Bool) (o : Nat) : Option RegInfo :=
  if o % 8 ≠ 0 then none
  else if 0x10000 ≤ o ∧ o < 0x10200 then frReg (o % 0x20)
  else if 0x30000 ≤ o ∧ o < 0x30100 then
    match o % 0x20 with
    | 0 => some { reset := 0, rw := mask 51 16 + 1 }
    | 8 => some { reset := 0, rw := mask 51 16 }
    | 16 => some { reset := 0, rw := mask 5 0 }
    | _ => none
  else if north then
    if o = 0x20000 then some { reset := 0xF0, rw := mask 5 4, w1c := 8 }
    else if o = 0x20010 then some { reset := 0, rw := mask 63 63 + mask 15 0 }
    else if o = 0x20018 then some { reset := 0, rw := mask 31 0 }
    else if o = 0x20020 then some { reset := 0, rw := 0 }
    else if 0x20400 ≤ o ∧ o < 0x20600 then some { reset := 0x15, rw := mask 5 0 }
    else if 0x20800 ≤ o ∧ o < 0x20A00 then some { reset := 0, rw := mask 63 61 }
    else if 0x20C00 ≤ o ∧ o < 0x21000 then some { reset := 0, rw := 0 }
    else if 0x21000 ≤ o ∧ o < 0x21020 then some { reset := 0, rw := 0 }
    else if o = 0x21020 ∨ o = 0x21028 then some { reset := 0, rw := 0 }
    else if 0x21200 ≤ o ∧ o < 0x21400 then some { reset := 0, rw := 0 }
    else if 0x22000 ≤ o ∧ o < 0x24000 then some { reset := 0, rw := 0 }
    else if 0x24000 ≤ o ∧ o < 0x247A0 then some { reset := 0, rw := 0 }
    else if 0x26000 ≤ o ∧ o < 0x28000 then some { reset := 0, rw := 0 }
    else if 0x28000 ≤ o ∧ o < 0x2C000 then
      if o % 0x800 < 1960 then some { reset := 0, rw := mask 63 0 } else some { reset := 0, rw := 0 }
    else none
  else none

/-- The registers of a cluster's debug window beyond the site records (R438, R444). -/
def debugReg (o : Nat) : Option RegInfo :=
  if o % 8 ≠ 0 then none
  else if 0x4000 ≤ o ∧ o < 0x4040 then
    if o % 16 = 0 then some { reset := 0, rw := mask 63 62 + mask 20 16 + mask 12 0 } else some { reset := 0, rw := mask 47 0 }
  else if o = 0x4100 then some { reset := 0, rw := mask 63 57 + mask 39 0 }
  else if o = 0x4108 then some { reset := 0, rw := 0, w1c := mask 63 63 }
  else none

/-! ## The map -/

/-- What lies at a physical address (R360 to R362). A place that every access is refused at is `outside`; `hole` is a
tile's reserved range, refused as R184 gives (R179). -/
inductive Place where
  | ram
  | tile (c m : Nat)
  | fullWords (c m g : Nat)
  | mtstat (c m : Nat)
  | hole (c : Nat)
  | cregs (c r : Nat)
  | l2 (c w k : Nat)
  | record (c i o : Nat)
  | debug (c o : Nat)
  | acc (c e i : Nat)
  | die (d o : Nat)
  | outside
  deriving DecidableEq, Repr

/-- Memory or a tile's data words. -/
def Place.plain : Place → Bool
  | .ram | .tile _ _ => true
  | _ => false

/-- Near or far memory (R360). -/
def isRam (pa : Nat) : Bool := decide (pa < 0x4000000000) || (decide (0x10000000000 ≤ pa) && decide (pa < 0x28000000000))

/-- The place in cluster block `c` at offset `o` (R361). -/
def placeInCluster (c o : Nat) : Place :=
  if o < 0xC00000 then
    let m := o / 0x100000
    let t := o % 0x100000
    if t < 0x80000 then .tile c m
    else if t < 0x84000 then .fullWords c m ((t - 0x80000) / 4)
    else if t < 0x84008 then .mtstat c m
    else .hole c
  else if o < 0xC00180 then .cregs c ((o - 0xC00000) / 8)
  else if 0xC10000 ≤ o ∧ o < 0xC16000 then
    if (o - 0xC10000) % 0x1000 < 0x400 then .l2 c ((o - 0xC10000) % 0x1000 / 0x20) ((o - 0xC10000) / 0x1000 * 4 + o % 0x20 / 8)
    else .outside
  else if 0xC80000 ≤ o ∧ o < 0xC84000 then .record c ((o - 0xC80000) / 0x100) (o % 0x100)
  else if 0xC84000 ≤ o ∧ o < 0xC84110 then .debug c (o - 0xC80000)
  else if 0x1000000 ≤ o ∧ o < 0x1C00000 then
    if o % 0x40000 < 0x10000 then .acc c ((o - 0x1000000) / 0x40000) (o % 0x40000 / 4) else .outside
  else .outside

/-- The place at a physical address. -/
def placeOf (pa : Nat) : Place :=
  if isRam pa then .ram
  else if 0xF000000000000 ≤ pa ∧ pa < 0xF000100000000 then
    placeInCluster ((pa - 0xF000000000000) / 0x2000000) (pa % 0x2000000)
  else if 0xF000100000000 ≤ pa ∧ pa < 0xF000106000000 then
    let d := (pa - 0xF000100000000) / 0x1000000
    let o := pa % 0x1000000
    let r := o / 8 * 8
    if (if d < 4 then dieReg r else iodReg (d == 4) r).isSome then .die d o else .outside
  else .outside

/-- What R8 says of the register at a physical address, if a register lies there. -/
def regInfo (pa : Nat) : Option RegInfo :=
  match placeOf pa with
  | .die d o => if d < 4 then dieReg o else iodReg (d == 4) o
  | .debug _ o => debugReg o
  | _ => none

/-- The register at a physical address as it stands. -/
def State.reg (s : State) (pa : Nat) : Word :=
  Table.get (BitVec.ofNat 64 (match regInfo pa with | some r => r.reset | none => 0)) s.dregs pa

/-- A register after a write of `v` (R8): RW bits take it, W1C bits written 1 clear, the others stay. -/
def RegInfo.write (r : RegInfo) (old v : Word) : Word :=
  let rw := BitVec.ofNat 64 r.rw
  let w1c := BitVec.ofNat 64 r.w1c
  (old &&& ~~~rw &&& ~~~(w1c &&& v)) ||| (v &&& rw)

/-- The far-memory channel of a physical address, and the controller (compute die 0 to 3, or 4, 5 for the I/O dies) that
serves it (R360, R43). -/
def controllerOf (pa : Nat) : Nat :=
  if pa < 0x4000000000 then pa / 0x1000000000
  else if (pa - 0x10000000000) / 0x600000000 < 32 then 4 else 5

end Sys2Proof.Machine
end

