-- ==== Sys2Proof/Machine/Fabric.lean ====
section
/-! DEFINITION. What every element and switch shares: the fields of the pattern frames (R63 to R68), which slot of a site
is current (R217), the buffers of ports and lanes with the slots their packets carry (R229), output ordinals and EOS
counts (R99, R102), results on their way to the output buffers (R123), and fabric faults (R127, R415). -/

namespace Sys2Proof.Machine

/-! ## Pattern frames -/

def frKind (f : BitVec 256) : Nat := fld f 255 252

/-! CE frames (R63). -/
def ceOp (f : BitVec 256) : Nat := fld f 251 246
def ceSfx (f : BitVec 256) : Nat := fld f 245 242
def ceRm (f : BitVec 256) : Nat := fld f 241 239
def ceJoin (f : BitVec 256) : Bool := bit f 238
def ceApprox (f : BitVec 256) : Bool := bit f 237
def ceFf (f : BitVec 256) : Bool := bit f 236
def ceEos (f : BitVec 256) : Nat := fld f 235 234
def ceA (f : BitVec 256) : Nat := fld f 233 230
def ceB (f : BitVec 256) : Nat := fld f 229 226
def ceC (f : BitVec 256) : Nat := fld f 225 222
def ceOm (f : BitVec 256) : Nat := fld f 221 218
def ceSub (f : BitVec 256) : Nat := fld f 217 210

/-! MT frames (R66). -/
def mtOp (f : BitVec 256) : Nat := fld f 251 247
def mtSfx (f : BitVec 256) : Nat := fld f 246 243
def mtCommit (f : BitVec 256) : Bool := bit f 242
def mtScope (f : BitVec 256) : Nat := fld f 241 239
def mtDe (f : BitVec 256) : Bool := bit f 238
def mtDport (f : BitVec 256) : Nat := fld f 237 236
def mtA (f : BitVec 256) : Nat := fld f 235 232
def mtB (f : BitVec 256) : Nat := fld f 231 228
def mtOm (f : BitVec 256) : Nat := fld f 227 224
def mtBase (f : BitVec 256) : Nat := fld f 223 207
def mtLen (f : BitVec 256) : Nat := fld f 206 190
def mtAmo (f : BitVec 256) : Nat := fld f 189 186

/-! AG frames (R68). -/
def agOp (f : BitVec 256) : Nat := fld f 251 249
def agSfx (f : BitVec 256) : Nat := fld f 248 245
def agNd (f : BitVec 256) : Nat := fld f 244 243
def agDir (f : BitVec 256) : Bool := bit f 242
def agCount (f : BitVec 256) (d : Nat) : Nat := fld f (241 - 40 * d) (226 - 40 * d)
def agStride (f : BitVec 256) (d : Nat) : Int := (BitVec.ofNat 24 (fld f (225 - 40 * d) (202 - 40 * d))).toInt
def agBase (f : BitVec 256) : Nat := fld f 81 26
def agWin (f : BitVec 256) : Nat := fld f 22 18

/-! Switch frames (R67). -/
def swSelect (f : BitVec 256) (j : Nat) : Nat := fld f (251 - 5 * j) (247 - 5 * j)
def swBridge (f : BitVec 256) (j : Nat) : Bool := bit f (149 - j)

/-- The operand selectors that a CE operation reads (R64). -/
def ceSelectors (f : BitVec 256) : List Nat :=
  let a := ceA f
  let b := ceB f
  let c := ceC f
  match ceOp f with
  | 0x01 | 0x02 | 0x03 | 0x05 | 0x07 | 0x08 | 0x0B | 0x0C | 0x0D | 0x0E | 0x10 | 0x11 | 0x13 | 0x15 | 0x19 | 0x23 | 0x30 => [a, b]
  | 0x04 | 0x12 | 0x1C | 0x1D => [a, b, c]
  | 0x06 | 0x09 | 0x0A | 0x0F | 0x14 | 0x16 | 0x17 | 0x18 | 0x1A | 0x20 | 0x21 | 0x24 | 0x33 | 0x34 => [a]
  | 0x1B | 0x1E => [a, c]
  | _ => []

/-- The selectors that an MT operation reads (R188). -/
def mtSelectors (f : BitVec 256) : List Nat :=
  match mtOp f with
  | 0x01 | 0x03 | 0x05 | 0x0A => [mtA f]
  | 0x02 | 0x04 | 0x06 | 0x07 | 0x0B => [mtA f, mtB f]
  | 0x08 => [mtB f]
  | _ => []

/-- Drop repeats, keeping first places. -/
def dedup : List Nat → List Nat
  | [] => []
  | x :: xs => x :: (dedup xs).filter (· ≠ x)

/-- The in ports an element's pattern reads; an AG stream reads its gate only where the switch selects in3 (R203). -/
def readPorts (c : Cfg) : List Nat :=
  let f := c.elem
  match frKind f with
  | 1 => dedup ((ceSelectors f).filter (· < 4))
  | 2 => dedup ((mtSelectors f).filter (· < 4))
  | 4 =>
    let gate := if swSelect c.sw 19 ≠ 0 then [3] else []
    match agOp f with
    | 1 => (if agDir f then [0] else []) ++ gate
    | 2 => (if agDir f then [0, 1] else [0]) ++ gate
    | 3 | 4 | 5 => [0]
    | _ => []
  | _ => []

/-- The ports set in a mask. -/
def maskPorts (m : Nat) : List Nat := (List.range 4).filter fun i => m / 2 ^ i % 2 = 1

/-- The out ports an element drives (R63, R66, R203). -/
def drivenPorts (f : BitVec 256) : List Nat :=
  match frKind f with
  | 1 => maskPorts (ceOm f)
  | 2 => maskPorts (mtOm f)
  | 4 => if agOp f = 0 then [] else [0]
  | _ => []

/-- The data ports of an MT pattern: those of om but for dport when de = 1 (R186). -/
def mtDataPorts (f : BitVec 256) : List Nat := (maskPorts (mtOm f)).filter fun i => !(mtDe f && i == mtDport f)

/-! ## Regions -/

/-- The origin of relative die `d` in a region descriptor (R214). -/
def descOrg (w : Word) (d : Nat) : Nat := fld w (12 + 13 * d) (13 * d)

/-- Does a footprint of wq by hq quads at an origin hold a site (R215)? -/
def inFootprint (org wq hq p : Nat) : Bool :=
  siteDie org == siteDie p && decide (siteX org ≤ siteX p) && decide (siteX p < siteX org + 4 * wq)
    && decide (siteY org ≤ siteY p) && decide (siteY p < siteY org + 4 * hq)

/-- The sites of a footprint on one die in order of y, then x. -/
def footprintSites (org wq hq : Nat) : List Nat :=
  (List.range (4 * hq)).flatMap fun y => (List.range (4 * wq)).map fun x =>
    siteAt (siteDie org) (siteX org + x) (siteY org + y)

/-- Does a region hold a site? -/
def Region.holds (g : Region) (p : Nat) : Bool := (List.range (g.nd + 1)).any fun d => inFootprint (descOrg g.desc d) g.wq g.hq p

/-- The sites of a region, in the order of a save area: die, then y, then x (R233). -/
def Region.sites (g : Region) : List Nat :=
  (List.range (g.nd + 1)).flatMap fun d => footprintSites (descOrg g.desc d) g.wq g.hq

/-- Two lists have the same members. -/
def sameMembers (a b : List Nat) : Bool := a.all b.contains && b.all a.contains

/-- Does a descriptor name a region: by its origins, in whichever order its relative dies take them (R214, R215)? -/
def Region.named (r : Region) (desc : Word) : Bool :=
  let orgs (w : Word) : List Nat := (List.range (r.nd + 1)).map (descOrg w)
  r.desc == desc || (sameMembers (orgs r.desc) (orgs desc) && ([1, 2, 3].all fun d => decide (d ≤ r.nd) || descOrg desc d == 0))

/-- A descriptor names region `g`. -/
def State.ofRegion (s : State) (g : Nat) (desc : Word) : Bool := (s.region g).named desc

/-- The site value of R84 of a site of a region: its relative die, its coordinates from that die's origin. -/
def Region.relSite (r : Region) (p : Nat) : Nat :=
  let d := ((List.range (r.nd + 1)).find? fun i => siteDie (descOrg r.desc i) == siteDie p).getD 0
  let o := descOrg r.desc d
  siteAt d (siteX p - siteX o) (siteY p - siteY o)

/-- The first site of a site's quad. -/
def quadOf (p : Nat) : Nat := siteAt (siteDie p) (siteX p / 4 * 4) (siteY p / 4 * 4)

/-- A site of a region or of a quad that its group holds: a load may give a region another footprint in them (R215). -/
def Region.owns (g : Region) (p : Nat) : Bool := g.holds p || g.quads.contains (quadOf p)

/-- The sites of every quad of a region's group. -/
def Region.land (g : Region) : List Nat := if g.quads = [] then g.sites else g.quads.flatMap fun q => footprintSites q 1 1

/-- The region that holds a site, else one of the group that holds its quad. -/
def State.regionOf (s : State) (p : Nat) : Option Nat :=
  match s.regions.find? fun e => e.2.holds p with
  | some e => some e.1
  | none => (s.regions.find? fun e => e.2.owns p).map (·.1)

/-- The regions of the group that holds region `g`. -/
def State.regionsOf (s : State) (g : Nat) : List Nat :=
  match (s.region g).group with
  | none => [g]
  | some h => (s.regions.filter fun (e : Nat × Region) => e.2.group == some h).map fun e => e.1

/-- The current slot at a site: that of its region (R217). -/
def State.curSlot (s : State) (p : Nat) : Option Nat :=
  match s.regionOf p with
  | none => none
  | some g => (s.region g).cur

/-- The context whose group or load holds a region: that of the group's task, else ctx 0. -/
def State.regionCtx (s : State) (g : Nat) : Nat :=
  match (s.region g).group with
  | some (d, t, _) => match s.task? (d, t) with | some k => k.ctx | none => 0
  | none => 0

def State.siteCtx (s : State) (p : Nat) : Nat := match s.regionOf p with | some g => s.regionCtx g | none => 0

/-! ## Buffers (R94, R118, R229) -/

def emptyPkt : Pkt := { kind := 0, elems := [], last := false, aux := 0, ord := 0, slot := 0 }

/-- A kind that takes an ordinal (R99). -/
def Pkt.counts (k : Pkt) : Bool := decide (k.kind < 6)
/-- A marker (R99). -/
def Pkt.marker (k : Pkt) : Bool := decide (6 ≤ k.kind ∧ k.kind ≤ 8)

/-- The header of a packet (R98). -/
def Pkt.header (k : Pkt) : BitVec 32 :=
  BitVec.ofNat 32 (k.kind % 16 * 2 ^ 28 + (k.elems.length + 7) % 8 * 2 ^ 25 + (if k.last then 2 ^ 24 else 0)
    + k.aux.toNat * 2 ^ 16 + k.ord.toNat % 2 ^ 16)

/-- The head of a buffer for a slot: its oldest packet of that slot (R229). -/
def headOf (b : List Pkt) (slot : Nat) : Option Pkt := b.find? fun k => k.slot == slot

/-- A buffer without the head of a slot. -/
def dropHead : List Pkt → Nat → List Pkt
  | [], _ => []
  | k :: b, slot => if k.slot = slot then b else k :: dropHead b slot

def Site.inHead (t : Site) (slot j : Nat) : Option Pkt := headOf (Table.get [] t.inb j) slot
def Site.takeIn (t : Site) (slot j : Nat) : Site := { t with inb := Table.put t.inb j (dropHead (Table.get [] t.inb j) slot) }

/-- The source buffers of a switch: 0 to 15 incoming lanes, 16 to 19 out0 to out3. -/
def Site.source (t : Site) (r : Nat) : List Pkt := if r < 16 then Table.get [] t.lane r else Table.get [] t.outb (r - 16)
def Site.setSource (t : Site) (r : Nat) (b : List Pkt) : Site :=
  if r < 16 then { t with lane := Table.put t.lane r b } else { t with outb := Table.put t.outb (r - 16) b }

def Cfg.inPort (c : Cfg) (j : Nat) : InPort := Table.get {} c.inp j
def Cfg.setIn (c : Cfg) (j : Nat) (v : InPort) : Cfg := { c with inp := Table.put c.inp j v }
def Cfg.outPort (c : Cfg) (j : Nat) : OutPort := Table.get {} c.outp j
def Cfg.setOut (c : Cfg) (j : Nat) (v : OutPort) : Cfg := { c with outp := Table.put c.outp j v }

/-! ## Output (R99, R102, R122, R123) -/

/-- Is there room on an out port for `n` more results, counting those in the pipeline and those
that queued tile entries owe (R122)? -/
def Site.roomOut (t : Site) (n j : Nat) : Bool :=
  let owed := t.mtq.filter fun e => (e.outs.any (·.1 == j)) || (e.done.any (·.1 == j))
  decide ((Table.get [] t.outb j).length + (t.pipe.filter fun r => r.port = j).length + owed.length + n ≤ 4)

/-- The count an EOS of a level carries: ordinals taken after the previous EOS of this level or a lower one, or after
the arm, and before it (R99). -/
def OutPort.eosCount (o : OutPort) (level : Nat) : Nat :=
  let since := (o.eosAt.filter fun e => e.1 ≤ level).map (·.2)
  match since with
  | [] => (o.ord - Table.get 0 o.eosAt 256).toNat
  | x :: xs => xs.foldl (fun a b => min a (o.ord - b).toNat) (o.ord - x).toNat

/-- Send one packet on a port of slot `n`: it takes the port's next ordinal and enters the pipeline. An EOS carries the
count of R99 in place of its elements. -/
def Site.emit (t : Site) (n j : Nat) (o : Out) : Site :=
  let c := t.slot n
  let q := c.outPort j
  let elems := if o.kind = 1 then [BitVec.ofNat 32 (q.eosCount o.aux.toNat)] else o.elems
  let k : Pkt := { kind := o.kind, elems, last := o.last, aux := o.aux, ord := q.ord, slot := n, tag := o.tag }
  if k.counts then
    let q := { q with ord := q.ord + 1 }
    let q := if o.kind = 1 then { q with eosAt := Table.put q.eosAt o.aux.toNat q.ord } else q
    { t.setSlot n (c.setOut j q) with pipe := t.pipe ++ [{ port := j, ord := k.ord, pkt := k }] }
  else { t with pipe := t.pipe ++ [{ port := j, ord := k.ord, pkt := k }] }

/-- Send one packet on every port of a list. -/
def Site.emitAll (t : Site) (n : Nat) (js : List Nat) (o : Out) : Site := js.foldl (fun t j => t.emit n j o) t

/-- The ERR packet of a class and originating site (R99, R101). -/
def errOut (cls : BitVec 8) (site : BitVec 32) : Out := { kind := 2, elems := [site], aux := cls }

/-- The ERR that a site itself originates. -/
def ownErr (cls : Nat) (p : Nat) : Out := errOut (BitVec.ofNat 8 cls) (BitVec.ofNat 32 p)

def clsStreamSkew : Nat := 1
def clsIndexRange : Nat := 2
def clsTranslation : Nat := 3
def clsRemoteRefused : Nat := 4
def clsLengthSkew : Nat := 5

/-! ## Fabric faults (R127, R415, R417) -/

/-- A site that holds no fabric fault: its packets move (R127). -/
def Site.live (t : Site) : Bool := t.phase ≠ .fault

/-- Raise a fabric fault at site `p`: the site enters FAULT and holds its packets (R127); `loc` is the port index of R415
and names what the fault holds. -/
def State.siteFault (s : State) (p cause slot ord loc : Nat) (val : Word) (detail : Word := 0) : State :=
  let f : FaultMsg := { src := 1, cause, ctx := s.siteCtx p, slot, site := p, ord, loc,
                        lane := if loc < 16 then loc % 4 else 0, val, detail }
  (s.holdFault (siteCluster p) f (.site p loc)).modSite p fun t =>
    { t with phase := .fault, before := if t.phase = .fault then t.before else t.phase }

/-- With no fault left a site returns to its state before the first (R127). -/
def Site.settle (t : Site) : Site :=
  if t.faults = [] ∧ t.owed = 0 ∧ t.phase = .fault then { t with phase := t.before } else t

/-- Free the faults of site `p` that `hit` names, as a kill or a purge does: a later %fltres that names one sets err
(R417, R418). -/
def State.freeFaults (s : State) (p : Nat) (hit : Nat → Nat → Bool) : State :=
  let c := siteCluster p
  let u := s.cluster c
  let gone := (u.held.filter fun e => match e.2.holder with | .site q l => q == p && hit e.2.cause l | _ => false).map (·.1)
  let drop (o : FaultMsg × Holder) : Bool := match o.2 with | .site q l => q == p && hit o.1.cause l | _ => false
  let n := (u.owed.filter drop).length
  (s.setCluster c { u with held := u.held.filter (fun e => !gone.contains e.1), owed := u.owed.filter fun o => !drop o }).modSite p
    fun t => { t with faults := t.faults.filter (fun k => !gone.contains k), owed := t.owed - n }.settle

/-- The current configuration of a site whose packets move, with its slot number. -/
def State.active (s : State) (p : Nat) : Option (Nat × Cfg) :=
  match s.curSlot p with
  | none => none
  | some n => if (s.site p).live then some (n, (s.site p).slot n) else none

/-- May the element of a site go on firing: it is in WAIT, BLOCK or FIRE, or in HOLD with packets ahead of its markers
(R127, R142)? -/
def Site.mayFire (t : Site) : Bool := t.phase == .wait || t.phase == .block || t.phase == .fire || t.phase == .hold

end Sys2Proof.Machine
end

