-- ==== Sys2Proof/Machine/Page.lean ====
section
/-! DEFINITION. Translation (R363 to R366): the four-level walk, the reasons it fails for, and the translation caches,
which hold only walks that succeeded and keep them until xinv drops them (log 6). -/

namespace Sys2Proof.Machine

/-- The permission bits an access needs (R364). -/
structure Need where
  r : Bool := false
  w : Bool := false
  x : Bool := false
  deriving DecidableEq, Repr

def Need.load : Need := { r := true }
def Need.store : Need := { w := true }
def Need.atomic : Need := { r := true, w := true }
def Need.fetch : Need := { x := true }

/-- A walk's answer before permission: a leaf, the reason it failed (R365: 0 not present, 1 permission, 2 format, 3 outside), or
the entry in a protected window at which it stopped. -/
inductive WalkRes where
  | leaf (e : TlbEnt)
  | fail (reason : Nat)
  | shut (at_ : Nat)
  deriving DecidableEq, Repr

/-- The protected window of an I/O die that holds an address, as its owning context (R431, R432). -/
def State.protectedBy (s : State) (pa : Nat) : Option Nat :=
  let d := controllerOf pa
  if ¬ isRam pa ∨ d < 4 then none
  else
    ((List.range 8).find? fun n =>
      let b := s.reg (dieBase d + 0x30000 + 0x20 * n)
      bit b 0 && decide (fld b 51 16 ≤ pa / 0x10000) && decide (pa / 0x10000 ≤ fld (s.reg (dieBase d + 0x30008 + 0x20 * n)) 51 16)).map
    fun n => fld (s.reg (dieBase d + 0x30010 + 0x20 * n)) 5 0

/-- Protection keeps an agent of context `x` from a byte of `ps`: from any read, and from a write by another context (R431). -/
def State.shut (s : State) (x : Nat) (n : Need) (ps : List Nat) : Bool :=
  ps.any fun p => match s.protectedBy p with
    | some y => n.r || n.x || y != x
    | none => false

/-- One 64-bit entry of a page table, read at system scope (R364). -/
def readEntry (m : Memory) (pa : Nat) : BitVec 64 := BitVec.ofNat 64 (natLE (m.readBytes pa 8))

/-- A table of 2^lg bytes at `a` lies in near or far memory (R364). -/
def tableOk (a lg : Nat) : Bool := a % 2 ^ lg == 0 && isRam a && isRam (a + 2 ^ lg - 1)

/-- Is a page at `a` of 2^lg bytes in part in a cluster block or a die window (R365)? -/
def inWindows (a lg : Nat) : Bool := decide (a < 0xF000106000000) && decide (a + 2 ^ lg > 0xF000000000000)

/-- The log2 of the page that a leaf at a level maps, and of the table at each level (R364). -/
def leafLg (lvl : Nat) : Nat := match lvl with | 0 => 16 | 1 => 21 | _ => 30
def tableLg (lvl : Nat) : Nat := match lvl with | 0 => 8 | 1 => 12 | 2 => 17 | _ => 15

/-- The table index of a virtual address at a level (R364). -/
def tableIndex (lvl va : Nat) : Nat :=
  match lvl with
  | 0 => va / 2 ^ 16 % 2 ^ 5
  | 1 => va / 2 ^ 21 % 2 ^ 9
  | 2 => va / 2 ^ 30 % 2 ^ 14
  | _ => va / 2 ^ 44 % 2 ^ 12

/-- The format test of an entry at a level (R365): reserved bits, a leaf where none may be or none where one must, low
address bits, a table outside memory, x on a window page. -/
def entryOk (lvl : Nat) (e : BitVec 64) : Bool :=
  let addr := fld e 51 8 * 256
  fld e 63 52 == 0 && fld e 7 6 == 0 &&
    if bit e 1 then
      lvl != 3 && addr % 2 ^ leafLg lvl == 0 && !(bit e 4 && inWindows addr (leafLg lvl))
    else lvl != 0 && tableOk addr (tableLg (lvl - 1))

/-- The walk from a table at level `lvl` on (R364, R365); an entry that lies in a protected window is not read:
its refused read gives ones, which break the format (R425, R431, log 6). -/
def State.walkFrom (s : State) (x va : Nat) : Nat → Nat → WalkRes
  | lvl, table =>
    let at_ := table + 8 * tableIndex lvl va
    let e := readEntry s.mem at_
    if (s.protectedBy at_).isSome then .shut at_
    else if ¬ bit e 0 then .fail 0
    else if ¬ entryOk lvl e then .fail 2
    else if bit e 1 then
      let lg := leafLg lvl
      .leaf { ctx := x, vbase := va / 2 ^ lg * 2 ^ lg, pbase := fld e 51 8 * 256, lg := lg, leaf := e }
    else match lvl with
      | 0 => .fail 2
      | n + 1 => s.walkFrom x va n (fld e 51 8 * 256)

/-- The walk of context `x` for a virtual address (R363 to R365). -/
def State.walk (s : State) (x va : Nat) : WalkRes :=
  let root := (s.ctx x).ptroot
  let base := fld root 51 15 * 2 ^ 15
  if va ≥ 2 ^ 56 then .fail 3
  else if ¬ bit root 0 then .fail 0
  else if ¬ tableOk base 15 then .fail 2
  else s.walkFrom x va 3 base

/-- The cached leaf of a place for an address, if it holds one. -/
def State.cached (s : State) (place x va : Nat) : Option TlbEnt :=
  (Table.get [] s.tlbs place).find? fun e => e.ctx == x && va / 2 ^ e.lg * 2 ^ e.lg == e.vbase

/-- The leaf an agent at a place uses: its cached translation if it holds one, else the walk's (R366). -/
def State.leafFor (s : State) (place x va : Nat) : WalkRes :=
  if va ≥ 2 ^ 56 then .fail 3
  else match s.cached place x va with
    | some e => .leaf e
    | none => s.walk x va

/-- The physical address of `va` under a leaf. -/
def TlbEnt.pa (e : TlbEnt) (va : Nat) : Nat := e.pbase + va % 2 ^ e.lg

/-- The permissions of a leaf meet a need (R364). -/
def TlbEnt.allows (e : TlbEnt) (n : Need) : Bool :=
  (!n.r || bit e.leaf 2) && (!n.w || bit e.leaf 3) && (!n.x || bit e.leaf 4)

/-- A translation's answer: the physical address, or the reason it failed. -/
inductive Tr where
  | ok (pa : Nat)
  | fault (reason : Nat)
  deriving DecidableEq, Repr

/-- Is the page's physical address, or the byte's, one that the map refuses (R365)? -/
def TlbEnt.isOutside (e : TlbEnt) (va : Nat) : Bool := placeOf e.pbase == .outside || placeOf (e.pa va) == .outside

/-- The translation of `va` in context `x` by an agent at a place; at the leaf, outside is tested before permission
(R365). -/
def State.translate (s : State) (place x va : Nat) (n : Need) : Tr :=
  match s.leafFor place x va with
  | .fail r => .fault r
  | .shut _ => .fault 2
  | .leaf e => if e.isOutside va then .fault 3 else if e.allows n then .ok (e.pa va) else .fault 1

/-- A place's cache after a translation that succeeded (R366); a translation that failed is never cached. -/
def State.fillTlb (s : State) (place x va : Nat) (n : Need) : State :=
  match s.leafFor place x va, s.translate place x va n, s.cached place x va with
  | .leaf e, .ok _, none => { s with tlbs := Table.put s.tlbs place (e :: Table.get [] s.tlbs place) }
  | _, _, _ => s

/-- The first address of each 64 KiB page that `n` bytes from `va` on touch. -/
def pageHeads (va n : Nat) : List Nat :=
  if n = 0 then [] else va :: ((List.range ((va + n - 1) / 0x10000 - va / 0x10000)).map fun i => (va / 0x10000 + 1 + i) * 0x10000)

/-- The translations that an access to `n` bytes from `va` on used stay in the place's cache (R366). -/
def State.cacheRun (s : State) (place x : Nat) (need : Need) (va n : Nat) : State :=
  (pageHeads va n).foldl (fun s a => s.fillTlb place x a need) s

/-- The place of a cluster's core and elements, of a die's sequencer and loader, of a host link (R375). -/
def seqPlace (d : Nat) : Nat := 128 + d
def hostPlace (l : Nat) : Nat := 136 + l

/-- `n` bytes of virtual memory of context `x` from `va` on, translated page by page; none at the first byte that fails,
which is named with its reason. -/
def State.vaddrs (s : State) (place x : Nat) (need : Need) (va : Nat) : Nat → List Nat × Option (Nat × Nat)
  | 0 => ([], none)
  | n + 1 =>
    match s.translate place x va need with
    | .fault r => ([], some (va, r))
    | .ok pa =>
      let (t, e) := s.vaddrs place x need (va + 1) n
      (pa :: t, e)

/-- Drop the cached translations of `x` (or of every context) that overlap [base, base + len), len = 0 for the whole
space (R374). -/
def State.dropTlbs (s : State) (x : Option Nat) (base len : Nat) : State :=
  let hit (e : TlbEnt) : Bool :=
    (match x with | some c => e.ctx == c | none => true) &&
      (len == 0 || (decide (e.vbase < base + len) && decide (base < e.vbase + 2 ^ e.lg)))
  { s with tlbs := s.tlbs.map fun (p, es) => (p, es.filter fun e => !hit e) }

end Sys2Proof.Machine
end

