-- ==== Sys2Proof/Machine/Access.lean ====
section
/-! DEFINITION. What an access does at its place: memory and tile words with their full-empty bits (R177 to R180), the
wake-ups of park slots (R248), the barrier step (R353) and its watchers (R357), accumulator and register windows (R361),
and what a control core may read and write there (R184, R402, R425, R437). -/

namespace Sys2Proof.Machine

/-! ## Words of memory and tiles -/

/-- The number that `n` bytes from `pa` hold in memory or a tile's data words. -/
def State.memNum (s : State) (pa n : Nat) : Nat := natLE (s.mem.readBytes pa n)

/-- The words that `n` bytes from `pa` cover whole: a write of them clears their poison (R419). -/
def wholeWords (pa n : Nat) : List Nat :=
  (List.range (n / 4 + 1)).map (fun i => (pa + 3) / 4 * 4 + 4 * i) |>.filter fun a => a + 4 ≤ pa + n

/-- Store bytes at `pa` in memory or a tile's data words (R1, R419). -/
def State.storeBytes (s : State) (pa : Nat) (bs : List Byte) : State :=
  let w := wholeWords pa bs.length
  { s with mem := s.mem.writeBytes pa bs, poison := s.poison.filter fun a => !w.contains a }

def State.storeNum (s : State) (pa n v : Nat) : State := s.storeBytes pa (bytesLE n v)

/-- A tile or memory word. -/
def State.word (s : State) (pa : Nat) : BitVec 32 := BitVec.ofNat 32 (s.memNum pa 4)
def State.setWord (s : State) (pa : Nat) (v : BitVec 32) : State := s.storeNum pa 4 v.toNat

/-- The full-empty bit of the word at `pa` (R178). -/
def State.isFull (s : State) (pa : Nat) : Bool := Table.get false s.fullBits pa

/-- The events that the park slots of core `k` await have happened, where `hit` gives a value: each slot holds its value until
it posts, after those whose events came before (R248). -/
def CoreSt.firePark (k : CoreSt) (hit : Park → Option Word) : CoreSt :=
  let turn := 1 + k.parks.foldl (fun n e => if e.2.fired.isSome then max n e.2.turn else n) 0
  { k with parks := k.parks.map fun (i, p) =>
      (i, if p.fired.isSome then p else match hit p with | some v => { p with fired := some v, turn } | none => p) }

/-- The events that park slots await have happened (R248). -/
def State.firePark (s : State) (hit : Park → Option Word) : State :=
  { s with cores := s.cores.map fun (c, k) => (c, k.firePark hit) }

/-- Set the full-empty bit of the word at `pa`; a word set full wakes the park.word slots that wait for it (R178, R183,
R248). -/
def State.setFull (s : State) (pa : Nat) (b : Bool) : State :=
  if b then
    let s := { s with fullBits := Table.put s.fullBits pa true }
    let v := (s.word pa).zeroExtend 64
    s.firePark fun p => if p.form = 4 ∧ p.target = pa then some v else none
  else { s with fullBits := Table.del s.fullBits pa }

/-! ## Barriers (R352, R353) -/

/-- The count, remaining arrivals, bytes and arrivals per phase of the barrier at `pa` (R352). -/
def State.barBytes (s : State) (pa : Nat) : BitVec 32 := s.word pa
def State.barRem (s : State) (pa : Nat) : BitVec 32 := s.word (pa + 4)
def State.barInitW (s : State) (pa : Nat) : BitVec 32 := s.word (pa + 8)
def State.barCount (s : State) (pa : Nat) : BitVec 32 := s.word (pa + 12)

/-- The state word of a barrier (R356). -/
def State.barState (s : State) (pa : Nat) : Word :=
  BitVec.ofNat 64 ((s.barBytes pa).toNat * 2 ^ 32 + (s.barRem pa).toNat % 2 ^ 16 * 2 ^ 16 + (s.barCount pa).toNat % 2 ^ 16)

/-- A watcher of a barrier: slot `n` of the tile's element is a bar.arr on the barrier's words (R357). -/
def isWatcher (c : Cfg) (x : Nat) : Bool := frKind c.elem == 2 && mtOp c.elem == 0x0A && mtBase c.elem == x

/-- A phase of the barrier at word `x` of tile `p` completed with `count`: a current watcher emits one packet, a watcher
of another slot keeps it until it is swapped in (R357). -/
def State.notifyWatchers (s : State) (p x : Nat) (count : BitVec 32) : State :=
  let cur := s.curSlot p
  (List.range 4).foldl (fun s n =>
    let t := s.site p
    let c := t.slot n
    if ¬ isWatcher c x then s
    else if cur = some n then s.setSite p (t.emitAll n (mtDataPorts c.elem) { elems := [count] })
    else s.setSite p (t.setSlot n { c with missed := c.missed ++ [count] })) s

/-- The site and word of a tile address. -/
def tileOf (pa : Nat) : Option (Nat × Nat) :=
  match placeOf pa with
  | .tile c m => some (tileSite c m, pa % 0x80000 / 4)
  | _ => none

/-- Wake every park.bar on the barrier whose recorded count differs from its count; m2 is bit 0 of the recorded count
(R359). -/
def State.wakeBar (s : State) (pa : Nat) : State :=
  let n := (s.barCount pa).toNat
  s.firePark fun p => if p.form = 5 ∧ p.target = pa ∧ p.count ≠ n then some (BitVec.ofNat 64 (p.count % 2)) else none

/-- One barrier step: `e` bytes expected, `y` bytes arrived, `n` arrivals; none when it is refused as an over-arrival
(R353). -/
def State.barStep (s : State) (pa : Nat) (e y : BitVec 32) (n : Nat) : Option State :=
  let rem := (s.barRem pa).toNat
  if n > rem then none
  else
    let bytes := s.barBytes pa + e - y
    let s := (s.setWord pa bytes).setWord (pa + 4) (BitVec.ofNat 32 (rem - n))
    if rem - n = 0 ∧ bytes = 0 then
      let s := (s.setWord (pa + 12) (s.barCount pa + 1)).setWord (pa + 4) (s.barInitW pa)
      let s := s.wakeBar pa
      some (match tileOf pa with
        | some (p, x) => s.notifyWatchers p x (s.barCount pa)
        | none => s)
    else some s

/-- bar.init's step: bytes 0, rem and init the arrivals per phase, count 0; it completes nothing (R354). -/
def State.barInitStep (s : State) (pa n : Nat) : State :=
  (((s.setWord pa 0).setWord (pa + 4) (BitVec.ofNat 32 n)).setWord (pa + 8) (BitVec.ofNat 32 n)).setWord (pa + 12) 0

/-! ## What stands aside at a tile (R183, R196) -/

/-- A word lies in a live block: a write to it stands aside (R196). -/
def Site.inLive (t : Site) (w : Nat) : Bool := t.blocks.any fun b => decide (b.first ≤ w) && decide (w < b.first + b.size)

/-- A queue entry of qpush (0x08) or qpop (0x09). -/
def MtEntry.isRing (e : MtEntry) : Bool := mtOp e.frame == 0x08 || mtOp e.frame == 0x09

/-- The ring of a qpush or qpop entry (R191): its capacity, the word of the head or tail offset, and the ring word at an
offset from it. -/
def MtEntry.ringCap (e : MtEntry) : Nat := mtLen e.frame - 1
def State.ringOff (s : State) (p : Nat) (e : MtEntry) (tail : Bool) : Nat :=
  (s.word (wordAddr p (mtBase e.frame + if tail then 1 else 0))).toNat
def MtEntry.ringWord (e : MtEntry) (o i : Nat) : Nat := mtBase e.frame + 2 + (o + i) % max 1 e.ringCap

/-- The ring words that an entry waits for and then touches: those of its record, from the tail or the head offset (R191). -/
def State.ringWords (s : State) (p : Nat) (e : MtEntry) : List Nat :=
  if mtOp e.frame = 0x08 then
    (List.range (e.src.elems.length + 1)).map (e.ringWord (s.ringOff p e true))
  else
    let h := s.ringOff p e false
    let hdr := e.ringWord h 0
    let n := if s.isFull (wordAddr p hdr) then fld (s.word (wordAddr p hdr)) 27 25 + 1 else 0
    (List.range (n + 1)).map (e.ringWord h)

/-- May a ring entry take effect: the record's words are empty, for qpush, or full, for qpop (R191). -/
def State.ringReady (s : State) (p : Nat) (e : MtEntry) : Bool :=
  let want := mtOp e.frame == 0x09
  (s.ringWords p e).all fun w => s.isFull (wordAddr p w) == want

/-- The words that an entry touches. -/
def State.entryWords (s : State) (p : Nat) (e : MtEntry) : List Nat :=
  if e.isRing then [mtBase e.frame, mtBase e.frame + 1] ++ s.ringWords p e else e.words

/-- An operation that writes words. -/
def MtEntry.writes (e : MtEntry) : Bool :=
  let op := mtOp e.frame
  op == 0x02 || op == 0x04 || op == 0x06 || op == 0x07 || op == 0x08 || op == 0x09 || op == 0x0A

/-- An entry stands aside: later entries pass it (R183, R191, R196); so does one whose packet a fault of its site holds
(R354, R127). -/
def State.standsAside (s : State) (p : Nat) (e : MtEntry) : Bool :=
  (e.writes && (s.entryWords p e).any (s.site p).inLive) || (e.aside && !(s.site p).faults.isEmpty) ||
    (if e.isRing then !s.ringReady p e
     else mtOp e.frame == 0x03 && e.aside && !e.words.all fun w => s.isFull (wordAddr p w))

/-- An entry of the tile's queue that a later access to the words `ws` must follow (R183). -/
def State.blockedBy (s : State) (p : Nat) (e : MtEntry) (ws : List Nat) : Bool :=
  (s.entryWords p e).any (ws.contains ·) && !s.standsAside p e

/-- May an access from outside the element touch these words of tile `p` now: the queue has room for it, no entry that it
must follow holds one of them, and a write meets no live block (R181, R183, R196)? -/
def State.tileFree (s : State) (p : Nat) (ws : List Nat) (write : Bool) : Bool :=
  let t := s.site p
  decide (t.mtq.length < 64) && !(t.mtq.any fun e => s.blockedBy p e ws) && !(write && ws.any t.inLive)

/-- The words of a tile that an access touches, with the tile's site; an access through the full-empty alias touches those
whose bits it reads or writes (R179). -/
def tileWords (pa n : Nat) : Option (Nat × List Nat) :=
  match placeOf pa with
  | .tile c m => some (tileSite c m, dedup ((List.range n).map fun i => (pa + i) % 0x80000 / 4))
  | .fullWords c m g => some (tileSite c m, (List.range (8 * n)).map (32 * g + ·))
  | _ => none

/-- A tile's queue lets the access through (R183). -/
def State.accessFree (s : State) (pa n : Nat) (write : Bool) : Bool :=
  match tileWords pa n with
  | some (p, ws) => s.tileFree p ws write
  | none => true

/-! ## Register reads -/

/-- The identity seed: the fused secret with MR0 (R429). -/
def State.identSeed (s : State) : List Byte :=
  Config.fusedSecret ++ (List.range 8).flatMap fun i => bytesLE 8 (s.reg (iodN + 0x21200 + 8 * i)).toNat

/-- MTSTAT of a tile (R180). -/
def State.mtstat (s : State) (p : Nat) : Word :=
  let t := s.site p
  let g := if (s.cluster (siteCluster p)).gate = .on then 0 else 2 ^ 8
  BitVec.ofNat 64 (t.blocks.length * 2 ^ 16 + g + t.mtq.length)

/-- A site record of the debug window (R436). -/
def State.recordWord (s : State) (p o : Nat) : Word :=
  let t := s.site p
  if o < 0x28 then Table.get 0 t.cycles (o / 8)
  else if o = 0x28 then t.rec28
  else if o = 0x30 then t.rec30
  else Table.get 0 t.cut o

/-- The 64-bit register at an 8-byte-aligned physical address, as a read returns it. -/
def State.regRead (s : State) (pa : Nat) : Word :=
  match placeOf pa with
  | .cregs c r =>
    if r < 32 then (s.core c).rd r else (s.core c).rdF (r - 32)
  | .mtstat c m => s.mtstat (tileSite c m)
  | .l2 c w k =>
    let u := Table.get {} (s.cluster c).wins w
    if u.bound ∧ u.slice = k / 4 then
      BitVec.ofNat 64 (match k % 4 with | 0 => u.base | 1 => u.stop - 1 | 2 => u.head | _ => u.tail)
    else 0
  | .record c i o => s.recordWord (siteAt (siteDie (clusterOrigin c)) (siteX (clusterOrigin c) + i % 8) (siteY (clusterOrigin c) + i / 8)) o
  | .debug _ _ => s.reg pa
  | .die d o =>
    if d < 4 then
      if o = 0x2018 then
        s.reg pa ||| (if (s.die d).sweeps = [] then 0 else BitVec.ofNat 64 (2 ^ 32))
      else s.reg pa
    else if d = 4 ∧ 0x21000 ≤ o ∧ o < 0x21020 then 0
    else if d = 4 ∧ o = 0x21028 then Config.deviceSerial
    else if d = 4 ∧ 0x24000 ≤ o ∧ o < 0x247A0 then
      BitVec.ofNat 64 (natLE ((List.range 8).map fun i => Config.mldsaPublic s.identSeed (o - 0x24000 + i)))
    else s.reg pa
  | _ => 0

/-- One byte as a read of its place returns it. -/
def State.byteAt (s : State) (pa : Nat) : Byte :=
  match placeOf pa with
  | .ram | .tile _ _ => s.mem.read pa
  | .fullWords c m g =>
    let p := tileSite c m
    BitVec.ofNat 8 ((List.range 8).foldl (fun a i =>
      a + if s.isFull (wordAddr p (32 * g + 8 * (pa % 4) + i)) then 2 ^ i else 0) 0)
  | .acc _ _ _ => BitVec.ofNat 8 ((Table.get 0 s.accWords (pa / 4 * 4)).toNat / 2 ^ (8 * (pa % 4)))
  | .outside | .hole _ => 0
  | _ => BitVec.ofNat 8 ((s.regRead (pa / 8 * 8)).toNat / 2 ^ (8 * (pa % 8)))

/-- The bytes that an access at a place performs as one: a byte of memory or of a tile, four of the full-empty alias and of an
accumulator, a register (R179, R361). -/
def unitAt (pa : Nat) : Nat :=
  match placeOf pa with
  | .ram | .tile _ _ => 1
  | .fullWords _ _ _ | .acc _ _ _ => 4
  | _ => 8

/-- The bytes of an access. -/
def State.bytesAt (s : State) (pa n : Nat) : List Byte := (List.range n).map fun i => s.byteAt (pa + i)

/-- Write `n` bytes of `v` at a place that is no device register: memory, tile words, the full-empty words (R179) or a
control core's register window (R361, R243). -/
def State.writePlace (s : State) (pa n : Nat) (v : Nat) : State :=
  match placeOf pa with
  | .ram | .tile _ _ => s.storeNum pa n v
  | .fullWords c m g =>
    (List.range (8 * n)).foldl (fun s i => s.setFull (wordAddr (tileSite c m) (32 * g + i)) (v / 2 ^ i % 2 = 1)) s
  | .cregs c r =>
    s.modCore c fun k => if r < 32 then k.wr r (BitVec.ofNat 64 v) else k.wrF (r - 32) (BitVec.ofNat 64 v)
  | _ => s

/-! ## Refusals (R184, R324, R361, R402, R425, R431, R437, R438) -/

/-- The offset of a refused access within its window, as its T_ACCESS event names it (R427): a register's in its window, a
byte's in its protected window. -/
def State.accessOff (s : State) (pa : Nat) : Nat :=
  match placeOf pa with
  | .die _ o => o
  | .ram =>
    let d := controllerOf pa
    match (List.range 8).find? fun n =>
        bit (s.reg (dieBase d + 0x30000 + 0x20 * n)) 0 && decide (fld (s.reg (dieBase d + 0x30000 + 0x20 * n)) 51 16 ≤ pa / 0x10000)
          && decide (pa / 0x10000 ≤ fld (s.reg (dieBase d + 0x30008 + 0x20 * n)) 51 16) with
    | some n => pa - fld (s.reg (dieBase d + 0x30000 + 0x20 * n)) 51 16 * 0x10000
    | none => pa
  | _ => pa

/-- The context of the target of a refused access (R427): that of a protected window or of its registers, that of a queue of a
die, that of an ACCT or OBSG entry, the one resident where a register window lies; 0 for a target of none. -/
def State.targetCtx (s : State) (pa : Nat) : Nat :=
  match placeOf pa with
  | .ram => (s.protectedBy pa).getD 0
  | .cregs c _ => (s.core c).ctx
  | .die d o =>
    if d < 4 then (if o < 0x1000 then fld (s.reg (dieBase d + o / 0x40 * 0x40 + 8)) 47 42 else 0)
    else if 0x30000 ≤ o ∧ o < 0x30100 then fld (s.reg (dieBase d + o / 0x20 * 0x20 + 16)) 5 0
    else if d = 4 ∧ ((0x20400 ≤ o ∧ o < 0x20600) ∨ (0x20800 ≤ o ∧ o < 0x20A00)) then o % 0x400 / 8
    else 0
  | _ => 0

/-- An access to `pa` that a core, an engine or a stream of cluster `c` made is refused: T_ACCESS goes to the owner (R425,
R427, R431, R432). -/
def State.denied (s : State) (c pa : Nat) : State := s.accessEvent (s.targetCtx pa) (s.accessOff pa) c 3

/-- Where the walk for `va` stops at an entry in a protected window, the owner hears of the refused read (R425, R431). -/
def State.walkDenied (s : State) (c place x va : Nat) : State :=
  match s.leafFor place x va with
  | .shut a => s.denied c a
  | .leaf _ | .fail _ => s

/-- A cluster that is gate-pending, draining or off refuses what comes from others (R184, R421). -/
def State.gated (s : State) (c : Nat) : Bool := (s.cluster c).gate ≠ .on

/-- The EXITING group that holds a site (R324). -/
def State.exitingGroup (s : State) (p : Nat) : Option Group :=
  match s.regionOf p with
  | none => none
  | some g =>
    match (s.region g).group with
    | none => none
    | some (d, t, i) => (s.task? (d, t)).bind fun k => some (Table.get {} k.groups i) |>.filter fun v => v.phase == .exiting

/-- A tile of an EXITING group refuses remote accesses and new engine commands (R324). -/
def State.exiting (s : State) (p : Nat) : Bool := (s.exitingGroup p).isSome

/-- The observation grant of a context (R437). -/
def State.obs (s : State) (x : Nat) : Bool := bit (s.reg (iodN + 0x20800 + 8 * x)) 63

/-- A group of context `x` holds the site (R437). -/
def State.holdsSite (s : State) (x p : Nat) : Bool :=
  match s.regionOf p with
  | none => false
  | some g => (s.region g).group.isSome && s.regionCtx g == x

/-- The grant lets context `x` observe cluster `c`: one of its groups holds a quad there (R437). -/
def State.observes (s : State) (x c : Nat) : Bool := s.obs x && (clusterSites c).any fun p => s.holdsSite x p

/-- What a place answers to a core's access: it is performed, it traps, a read returns zeros or ones, a write is
dropped; `deny` also posts T_ACCESS to the owner. -/
inductive Verdict where
  | ok
  | trap (cause : Nat)
  | zero
  | deny
  | drop
  deriving DecidableEq, Repr

/-- Is an offset of the IOD-N window one of the owner's registers (R426)? -/
def ownerReg (d o : Nat) : Bool := d == 4 && decide (0x20000 ≤ o ∧ o < 0x30000)

/-- A tile refuses a core's access from another cluster, or an atomic from any core, while gated; and a remote access
while its group exits (R184, R324). -/
def State.tileRefuses (s : State) (c c' m : Nat) (atomic : Bool) : Bool :=
  (s.gated c' && (c != c' || atomic)) || (c != c' && s.exiting (tileSite c' m))

/-- A load of `n` bytes at `pa` by core `c` under context `x`. -/
def State.coreRead (s : State) (c x : Nat) (priv : Bool) (pa n : Nat) : Verdict :=
  match placeOf pa with
  | .ram => match s.protectedBy pa with | some _ => .deny | none => .ok
  | .tile c' m => if s.tileRefuses c c' m false then .trap tRemoteRefused else .ok
  | .fullWords c' m _ => if (n = 4 ∨ n = 8) ∧ ¬ s.tileRefuses c c' m false then .ok else .trap tRemoteRefused
  | .mtstat c' m => if n = 8 ∧ ¬ s.tileRefuses c c' m false then .ok else .trap tRemoteRefused
  | .hole _ | .outside => .trap tRemoteRefused
  | .cregs c' _ =>
    if n = 8 ∧ (s.core c').ctx = x ∧ ¬ (c ≠ c' ∧ s.gated c') then .ok else .trap tRemoteRefused
  | .l2 _ _ _ => if n = 8 then .ok else .trap tRemoteRefused
  | .record c' i _ =>
    if n ≠ 8 then .trap tRemoteRefused
    else if priv ∧ s.obs x ∧ s.holdsSite x ((clusterSites c').getD i 0) then .ok else .zero
  | .debug c' _ => if n ≠ 8 then .trap tRemoteRefused else if priv ∧ s.observes x c' then .ok else .zero
  | .acc _ _ _ => if n = 4 then .ok else .trap tRemoteRefused
  | .die d o =>
    if n ≠ 8 then .trap tRemoteRefused
    else if ownerReg d o ∧ o ≠ 0x20000 ∧ o ≠ 0x21028 then .deny else .ok

/-- A store of `n` bytes at `pa` by core `c` under context `x`. -/
def State.coreWrite (s : State) (c x : Nat) (priv : Bool) (pa n : Nat) (atomic : Bool := false) : Verdict :=
  match placeOf pa with
  | .ram => match s.protectedBy pa with | some y => if y = x then .ok else .deny | none => .ok
  | .tile c' m => if s.tileRefuses c c' m atomic then .trap tRemoteRefused else .ok
  | .fullWords c' m _ => if (n = 4 ∨ n = 8) ∧ ¬ s.tileRefuses c c' m false then .ok else .trap tRemoteRefused
  | .mtstat c' m => if n = 8 ∧ ¬ s.tileRefuses c c' m false then .drop else .trap tRemoteRefused
  | .hole _ | .outside | .l2 _ _ _ | .record _ _ _ | .acc _ _ _ => .trap tRemoteRefused
  | .cregs c' _ =>
    if n = 8 ∧ (s.core c').ctx = x ∧ ¬ (c ≠ c' ∧ s.gated c') then .ok else .trap tRemoteRefused
  | .debug c' _ => if n ≠ 8 then .trap tRemoteRefused else if priv ∧ s.observes x c' then .ok else .drop
  | .die d o =>
    if n ≠ 8 then .trap tRemoteRefused
    else if d < 4 then
      if ¬ priv ∨ (o ≥ 0x40000 ∧ ¬ bit (s.reg (iodN + 0x20800 + 8 * x)) 62) then .trap tPriv else .ok
    else if 0x10000 ≤ o ∧ o < 0x10200 then if priv then .ok else .trap tPriv
    else .deny

end Sys2Proof.Machine
end

