-- ==== Sys2Proof/Machine/Mem.lean ====
section
/-! DEFINITION. The issue of a core's loads, stores, atomics, tickets and fences (R262 to R272): the checks at issue, the
speculative buffers of R328, and the outstanding accesses that LOAD_RETURN and STORE_PERFORMED perform. -/

namespace Sys2Proof.Machine

/-! ## Commit buffers (R328, R329, R333) -/

/-- The 64-byte lines that the bytes of a table touch. -/
def linesOf (b : Table Byte) : List Nat := dedup (b.map fun e => e.1 / 64)

/-- The commit-buffer entries a task takes: write lines, read lines, held children (R329). -/
def Task.entries (t : Task) : Nat := (linesOf t.wbuf).length + t.rlines.length + t.kids.length

/-- The entries taken in the commit buffer that a task uses: slice `t.slice` of its core's cluster (R329). -/
def State.bufferUse (s : State) (d : Nat) (t : Task) : Nat :=
  ((s.die d).tasks.filter fun e => e.2.core == t.core && e.2.slice == t.slice && e.2.core.isSome).foldl
    (fun a e => a + e.2.entries) 0

/-- Does the buffer of a task have room for one more entry (R329)? -/
def State.bufferRoom (s : State) (h : Nat × Nat) (t : Task) : Bool := decide (s.bufferUse h.1 t < 768)

/-- A task's own buffered byte, if it has one. -/
def Task.byte? (t : Task) (pa : Nat) : Option Byte := if Table.has t.wbuf pa then some (Table.get 0 t.wbuf pa) else none

/-- Does the task hold every byte of an access in its buffer (R328)? -/
def Task.holdsAll (t : Task) (pa n : Nat) : Bool := (List.range n).all fun i => Table.has t.wbuf (pa + i)

/-- Buffer a store of a task (R328). -/
def Task.buffer (t : Task) (pa : Nat) (bs : List Byte) : Task :=
  { t with wbuf := (bs.foldl (fun (a : Nat × Table Byte) b => (a.1 + 1, Table.put a.2 a.1 b)) (pa, t.wbuf)).2 }

/-- The task's own buffered bytes of an access (R328). -/
def Task.forward (t : Task) (pa n : Nat) : Table Byte :=
  (List.range n).filterMap fun i => (t.byte? (pa + i)).map fun b => (pa + i, b)

/-! ## Program order at one byte (R265) -/

def MemOp.overlaps (o : MemOp) (pa n : Nat) : Bool := decide (o.pa < pa + n) && decide (pa < o.pa + o.size)

/-- An access of the core's own to a byte of the `n` from `pa` on is outstanding (R265). -/
def CoreSt.pendingAt (k : CoreSt) (pa n : Nat) : Bool := k.ops.any (·.overlaps pa n)

def MemOp.isStore (o : MemOp) : Bool := match o.kind with | .store => true | _ => false

/-- An outstanding access that writes. -/
def MemOp.writes (o : MemOp) : Bool :=
  match o.kind with | .store | .amo _ | .ticket | .barInit | .barExpect => true | .load _ | .fixed | .dropped => false

/-- The outstanding accesses before the one numbered `k`, and it. -/
def splitOps (k : Nat) : List MemOp → Option (List MemOp × MemOp)
  | [] => none
  | o :: os => if o.id = k then some ([], o) else (splitOps k os).map fun e => (o :: e.1, e.2)

/-- The byte at `pa` as the youngest of the stores in `os` that covers it left it. -/
def storedByte (os : List MemOp) (pa : Nat) : Option Byte :=
  os.foldl (fun r o => if o.isStore && o.overlaps pa 1 then some (BitVec.ofNat 8 (o.data.toNat / 2 ^ (8 * (pa - o.pa)))) else r) none

/-! ## Issue -/

/-- An acquire is outstanding: no later load, store, atomic or asynchronous command issues (R266). -/
def CoreSt.acqWait (k : CoreSt) : Bool := k.ops.any (·.acq)

/-- A result register marked pending (R250). -/
def CoreSt.markPending (k : CoreSt) (d : Dest) : CoreSt :=
  match d with
  | .s r => if r = 0 then k else { k with pendS := r :: k.pendS }
  | .f r => { k with pendF := r :: k.pendF }
  | .nowhere => k

/-- An access handed to the memory system: outstanding, counted in its class (R244), its result register pending. -/
def CoreSt.pushOp (k : CoreSt) (cls : Nat) (o : MemOp) : CoreSt :=
  ({ k with ops := k.ops ++ [{ o with id := k.nextOp, task := k.task }], nextOp := k.nextOp + 1 }.outUp cls).markPending o.dest

/-- A word of the access is poisoned (R419). -/
def State.poisoned (s : State) (pa n : Nat) : Bool := s.poison.any fun a => decide (a < pa + n) && decide (pa < a + 4)

/-- An uncorrected error in the data of a load: a byte of it lies in a poisoned word and comes neither from the task's buffer
nor from an earlier store of the core's (R265, R328, R419). -/
def State.hurts (s : State) (k : CoreSt) (fwd : Table Byte) (pa n : Nat) : Bool :=
  s.poisoned pa n && (List.range n).any fun i =>
    s.poisoned (pa + i) 1 && !Table.has fwd (pa + i) && (storedByte k.ops (pa + i)).isNone

/-- The checks of R262 at issue, in their order: a page fault, then alignment; `f` runs on the physical address, with the
translation cached (R366). -/
def State.checked (s : State) (k : CoreSt) (va : Word) (size : Nat) (need : Need) (f : State → Nat → State) : State :=
  match s.translate s.cur k.ctx va.toNat need with
  | .fault _ => (s.walkDenied s.cur s.cur k.ctx va.toNat).trap s.cur tPageFault va
  | .ok pa =>
    if va.toNat % size ≠ 0 then s.trap s.cur tAlign va
    else f (s.fillTlb s.cur k.ctx va.toNat need) pa

/-- An ordered speculative task records the line of a load that reads memory (R328, R332); none when its buffer is full
and the load must wait (R333). -/
def State.recordRead (s : State) (pa size : Nat) : Option State :=
  match s.specOf s.cur with
  | none => some s
  | some (h, t) =>
    if ¬ t.ordered ∨ t.holdsAll pa size ∨ t.rlines.contains (pa / 64) then some s
    else if s.bufferRoom h t then some (s.setTask h { t with rlines := t.rlines ++ [pa / 64] })
    else none

/-- Issue a load of `size` bytes at `va` (R262, R263, R266). -/
def State.load (s : State) (k : CoreSt) (va : Word) (size : Nat) (signed : Bool) (dest : Dest) (acq : Bool) : State :=
  if k.acqWait then s.stallCore s.cur .drain
  else if k.out 0 ≥ 1023 then s.stallCore s.cur (.counter 0)
  else s.checked k va size .load fun s pa =>
    let fwd := match s.specOf s.cur with | some (_, t) => t.forward pa size | none => []
    let op : MemOp := { id := 0, kind := .load signed, va, pa, size, data := 0, cmp := 0, dest, acq, rel := false,
                        priv := k.priv, ctx := k.ctx, fwd }
    match s.coreRead s.cur k.ctx k.priv pa size with
    | .trap t => s.trap s.cur t va
    | .ok =>
      if s.hurts k fwd pa size then s.trap s.cur tEccUncorr va
      else match s.recordRead pa size with
        | none => s.stallCore s.cur (.commit (k.task.getD (0, 0)))
        | some s => s.modCore s.cur fun k => (k.pushOp 0 op).issue 4
    | .deny =>
      (s.denied s.cur pa).modCore s.cur fun k =>
        (k.pushOp 0 { op with kind := .fixed, data := BitVec.allOnes 64 }).issue 4
    | _ => s.modCore s.cur fun k => (k.pushOp 0 { op with kind := .fixed }).issue 4

/-- Issue a store of the low `size` bytes of `v` at `va` (R262, R264, R266); a speculative task buffers it (R328). -/
def State.store (s : State) (k : CoreSt) (va : Word) (size : Nat) (v : Word) (rel : Bool) : State :=
  if k.acqWait then s.stallCore s.cur .drain
  else if k.out 1 ≥ 1023 then s.stallCore s.cur (.counter 1)
  else s.checked k va size .store fun s pa =>
    let op : MemOp := { id := 0, kind := .store, va, pa, size, data := v, cmp := 0, dest := .nowhere, acq := false, rel,
                        priv := k.priv, ctx := k.ctx }
    match s.coreWrite s.cur k.ctx k.priv pa size with
    | .trap t => s.trap s.cur t va
    | .ok =>
      match s.specOf s.cur with
      | none => s.modCore s.cur fun k => (k.pushOp 1 op).issue 4
      | some (h, t) =>
        if (linesOf t.wbuf).contains (pa / 64) || s.bufferRoom h t then
          (s.setTask h (t.buffer pa (bytesLE size v.toNat))).modCore s.cur fun k => k.issue 4
        else s.stallCore s.cur (.commit h)
    | .deny =>
      (s.denied s.cur pa).modCore s.cur fun k => (k.pushOp 1 { op with kind := .dropped }).issue 4
    | _ => s.modCore s.cur fun k => (k.pushOp 1 { op with kind := .dropped }).issue 4

/-- T_SPEC_OP in a speculative task that is not irrevocable, else `f` (R328). DESIGN CHOICE (log 78): it comes before the trap that
a refused operand raises. -/
def State.noSpec (s : State) (f : State) : State :=
  match s.specOf s.cur with
  | some _ => s.trap s.cur tSpecOp 0
  | none => f

/-- Issue an atomic (R268, R269). -/
def State.atomic (s : State) (k : CoreSt) (op size : Nat) (d : BitVec 5) (va b cmp : Word) (ord : BitVec 2) : State :=
  s.noSpec <|
  if k.acqWait then s.stallCore s.cur .drain
  else if k.out 0 ≥ 1023 then s.stallCore s.cur (.counter 0)
  else s.checked k va size .atomic fun s pa =>
    let o : MemOp := { id := 0, kind := .amo op, va, pa, size, data := b, cmp, dest := .s d.toNat, acq := bit ord 0,
                       rel := bit ord 1, priv := k.priv, ctx := k.ctx }
    match placeOf pa with
    | .ram | .tile _ _ =>
      match s.coreWrite s.cur k.ctx k.priv pa size true, s.protectedBy pa with
      | .trap t, _ => s.trap s.cur t va
      | _, none =>
        if s.hurts k [] pa size then s.trap s.cur tEccUncorr va
        else s.modCore s.cur fun k => (k.pushOp 0 o).issue 4
      | _, some _ =>
        (s.denied s.cur pa).modCore s.cur fun k =>
          (k.pushOp 0 { o with kind := .fixed, data := BitVec.allOnes 64 }).issue 4
    | _ => s.trap s.cur tAtomicTarget va

/-- A plain load in RI form. -/
def State.loadImm (s : State) (d a : BitVec 5) (imm : BitVec 16) (size : Nat) (signed : Bool) : State :=
  s.whenReady [a.toNat] [] [d.toNat] [] fun k => s.load k (addrImm k a imm) size signed (.s d.toNat) false

/-- A plain store in RI form. -/
def State.storeImm (s : State) (d a : BitVec 5) (imm : BitVec 16) (size : Nat) : State :=
  s.whenReady [a.toNat, d.toNat] [] [] [] fun k => s.store k (addrImm k a imm) size (k.rd d.toNat) false

/-- An atomic that reads b. -/
def State.amo2 (s : State) (op size : Nat) (d a b : BitVec 5) (ord : BitVec 2) : State :=
  s.whenReady [a.toNat, b.toNat] [] [d.toNat] [] fun k => s.atomic k op size d (k.rd a.toNat) (k.rd b.toNat) 0 ord

/-- A compare-and-swap. -/
def State.amo3 (s : State) (size : Nat) (d a b c : BitVec 5) (ord : BitVec 2) : State :=
  s.whenReady [a.toNat, b.toNat, c.toNat] [] [d.toNat] [] fun k =>
    s.atomic k 9 size d (k.rd a.toNat) (k.rd b.toNat) (k.rd c.toNat) ord

/-! ## Meanings -/

/-- ld.s8 (R263). -/
def execLdS8 (d a : BitVec 5) (imm : BitVec 16) (s : State) : Res := .next (s.loadImm d a imm 1 true)
/-- ld.n8 (R263). -/
def execLdN8 (d a : BitVec 5) (imm : BitVec 16) (s : State) : Res := .next (s.loadImm d a imm 1 false)
/-- ld.s16 (R263). -/
def execLdS16 (d a : BitVec 5) (imm : BitVec 16) (s : State) : Res := .next (s.loadImm d a imm 2 true)
/-- ld.n16 (R263). -/
def execLdN16 (d a : BitVec 5) (imm : BitVec 16) (s : State) : Res := .next (s.loadImm d a imm 2 false)
/-- ld.s32 (R263). -/
def execLdS32 (d a : BitVec 5) (imm : BitVec 16) (s : State) : Res := .next (s.loadImm d a imm 4 true)
/-- ld.n32 (R263). -/
def execLdN32 (d a : BitVec 5) (imm : BitVec 16) (s : State) : Res := .next (s.loadImm d a imm 4 false)
/-- ld.b64 (R263). -/
def execLdB64 (d a : BitVec 5) (imm : BitVec 16) (s : State) : Res := .next (s.loadImm d a imm 8 false)
/-- fld: 32 bits, zero above (R263). -/
def execFld (d a : BitVec 5) (imm : BitVec 16) (s : State) : Res :=
  .next (s.whenReady [a.toNat] [] [] [d.toNat] fun k => s.load k (addrImm k a imm) 4 false (.f d.toNat) false)
/-- st.b8 (R264). -/
def execStB8 (d a : BitVec 5) (imm : BitVec 16) (s : State) : Res := .next (s.storeImm d a imm 1)
/-- st.b16 (R264). -/
def execStB16 (d a : BitVec 5) (imm : BitVec 16) (s : State) : Res := .next (s.storeImm d a imm 2)
/-- st.b32 (R264). -/
def execStB32 (d a : BitVec 5) (imm : BitVec 16) (s : State) : Res := .next (s.storeImm d a imm 4)
/-- st.b64 (R264). -/
def execStB64 (d a : BitVec 5) (imm : BitVec 16) (s : State) : Res := .next (s.storeImm d a imm 8)
/-- fst: f-register d[31:0] (R264). -/
def execFst (d a : BitVec 5) (imm : BitVec 16) (s : State) : Res :=
  .next (s.whenReady [a.toNat] [d.toNat] [] [] fun k => s.store k (addrImm k a imm) 4 (k.rdF d.toNat) false)
/-- ld.acq.b32 (R266). -/
def execLdAcqB32 (d a b : BitVec 5) (s : State) : Res :=
  .next (s.whenReady [a.toNat, b.toNat] [] [d.toNat] [] fun k => s.load k (addrReg k a b) 4 false (.s d.toNat) true)
/-- ld.acq.b64 (R266). -/
def execLdAcqB64 (d a b : BitVec 5) (s : State) : Res :=
  .next (s.whenReady [a.toNat, b.toNat] [] [d.toNat] [] fun k => s.load k (addrReg k a b) 8 false (.s d.toNat) true)
/-- st.rel.b32 (R266). -/
def execStRelB32 (d a b : BitVec 5) (s : State) : Res :=
  .next (s.whenReady [a.toNat, b.toNat, d.toNat] [] [] [] fun k => s.store k (addrReg k a b) 4 (k.rd d.toNat) true)
/-- st.rel.b64 (R266). -/
def execStRelB64 (d a b : BitVec 5) (s : State) : Res :=
  .next (s.whenReady [a.toNat, b.toNat, d.toNat] [] [] [] fun k => s.store k (addrReg k a b) 8 (k.rd d.toNat) true)

/-- fence: scope 0 completes at issue; any other waits until every earlier load and atomic has written its d and every
earlier store and atomic has been performed (R267). -/
def execFence (sc : BitVec 5) (s : State) : Res :=
  .next (if sc = 0 ∨ (s.core s.cur).ops = [] then s.modCore s.cur fun k => k.issue 4 else s.stallCore s.cur .drain)

/-- wait: until the class counter is at or below lim (R272). -/
def execWait (cls : BitVec 5) (lim : BitVec 16) (s : State) : Res :=
  .next (if lim.toNat ≥ 1023 ∨ (s.core s.cur).out cls.toNat ≤ lim.toNat then s.modCore s.cur fun k => k.issue 4
    else s.stallCore s.cur (.wait cls.toNat lim.toNat))

/-- ticket: a value of a above 63 raises T_UNDEF_OP (R270). -/
def execTicket (d a b : BitVec 5) (s : State) : Res :=
  .next (s.whenReady [a.toNat, b.toNat] [] [d.toNat] [] fun k =>
    s.noSpec <|
    if k.acqWait then s.stallCore s.cur .drain
    else if k.rd a.toNat > 63 then s.undef (.ticket d a b)
    else if k.out 0 ≥ 1023 then s.stallCore s.cur (.counter 0)
    else s.setCore s.cur ((k.pushOp 0
      { id := 0, kind := .ticket, va := k.rd a.toNat, pa := 0, size := 0, data := k.rd b.toNat, cmp := 0,
        dest := .s d.toNat, acq := false, rel := false, priv := k.priv, ctx := k.ctx }).issue 4))

/-- amo.add on 64 bits (R269). -/
def execAmoAddB64 (d a b : BitVec 5) (ord : BitVec 2) (s : State) : Res := .next (s.amo2 0 8 d a b ord)
/-- amo.mins on 64 bits (R269). -/
def execAmoMinSB64 (d a b : BitVec 5) (ord : BitVec 2) (s : State) : Res := .next (s.amo2 1 8 d a b ord)
/-- amo.minn on 64 bits (R269). -/
def execAmoMinNB64 (d a b : BitVec 5) (ord : BitVec 2) (s : State) : Res := .next (s.amo2 2 8 d a b ord)
/-- amo.maxs on 64 bits (R269). -/
def execAmoMaxSB64 (d a b : BitVec 5) (ord : BitVec 2) (s : State) : Res := .next (s.amo2 3 8 d a b ord)
/-- amo.maxn on 64 bits (R269). -/
def execAmoMaxNB64 (d a b : BitVec 5) (ord : BitVec 2) (s : State) : Res := .next (s.amo2 4 8 d a b ord)
/-- amo.and on 64 bits (R269). -/
def execAmoAndB64 (d a b : BitVec 5) (ord : BitVec 2) (s : State) : Res := .next (s.amo2 5 8 d a b ord)
/-- amo.or on 64 bits (R269). -/
def execAmoOrB64 (d a b : BitVec 5) (ord : BitVec 2) (s : State) : Res := .next (s.amo2 6 8 d a b ord)
/-- amo.xor on 64 bits (R269). -/
def execAmoXorB64 (d a b : BitVec 5) (ord : BitVec 2) (s : State) : Res := .next (s.amo2 7 8 d a b ord)
/-- amo.swap on 64 bits (R269). -/
def execAmoSwapB64 (d a b : BitVec 5) (ord : BitVec 2) (s : State) : Res := .next (s.amo2 8 8 d a b ord)
/-- amo.cas on 64 bits (R269). -/
def execAmoCasB64 (d a b c : BitVec 5) (ord : BitVec 2) (s : State) : Res := .next (s.amo3 8 d a b c ord)
/-- amo.add on 32 bits (R269). -/
def execAmoAddB32 (d a b : BitVec 5) (ord : BitVec 2) (s : State) : Res := .next (s.amo2 0 4 d a b ord)
/-- amo.mins on 32 bits (R269). -/
def execAmoMinSB32 (d a b : BitVec 5) (ord : BitVec 2) (s : State) : Res := .next (s.amo2 1 4 d a b ord)
/-- amo.minn on 32 bits (R269). -/
def execAmoMinNB32 (d a b : BitVec 5) (ord : BitVec 2) (s : State) : Res := .next (s.amo2 2 4 d a b ord)
/-- amo.maxs on 32 bits (R269). -/
def execAmoMaxSB32 (d a b : BitVec 5) (ord : BitVec 2) (s : State) : Res := .next (s.amo2 3 4 d a b ord)
/-- amo.maxn on 32 bits (R269). -/
def execAmoMaxNB32 (d a b : BitVec 5) (ord : BitVec 2) (s : State) : Res := .next (s.amo2 4 4 d a b ord)
/-- amo.and on 32 bits (R269). -/
def execAmoAndB32 (d a b : BitVec 5) (ord : BitVec 2) (s : State) : Res := .next (s.amo2 5 4 d a b ord)
/-- amo.or on 32 bits (R269). -/
def execAmoOrB32 (d a b : BitVec 5) (ord : BitVec 2) (s : State) : Res := .next (s.amo2 6 4 d a b ord)
/-- amo.xor on 32 bits (R269). -/
def execAmoXorB32 (d a b : BitVec 5) (ord : BitVec 2) (s : State) : Res := .next (s.amo2 7 4 d a b ord)
/-- amo.swap on 32 bits (R269). -/
def execAmoSwapB32 (d a b : BitVec 5) (ord : BitVec 2) (s : State) : Res := .next (s.amo2 8 4 d a b ord)
/-- amo.cas on 32 bits (R269). -/
def execAmoCasB32 (d a b c : BitVec 5) (ord : BitVec 2) (s : State) : Res := .next (s.amo3 4 d a b c ord)

end Sys2Proof.Machine
end

