-- ==== Sys2Proof/Machine/Cmd.lean ====
section
/-! DEFINITION. The issue of asynchronous commands (R219, R243, R244, R273): engine commands (R273 to R278), stream
commands (R280 to R282), CFG commands (R218 to R220) and translation commands (R370 to R374), with the checks that trap
precisely. -/

namespace Sys2Proof.Machine

/-! ## Shared issue -/

/-- A command before it is issued: everything but its sequence number. -/
def freshCmd (c : Nat) (k : CoreSt) (op tok : Nat) (a b d : Word) : Cmd :=
  { core := c, ctx := k.ctx, op, tok, a, b, c := d, bar := none, fe := false, scope := 0, red := 0, sfx := 0,
    ahead := none, seq := 0, cls := 2 }

/-- Issue an asynchronous command of `len` bytes (R219, R243, R244, R273): it waits for an outstanding acquire (R266), for
its token's count below 15 and its class counter below 1,023; then it takes the next sequence number of its counter. -/
def State.issueCmd (s : State) (k : CoreSt) (len : Nat) (isCfg : Bool) (m : Cmd) : State :=
  if k.acqWait then s.stallCore s.cur .drain
  else if m.tok ≠ 0 ∧ k.count m.tok ≥ 15 then s.stallCore s.cur (.full m.tok)
  else if k.out m.cls ≥ 1023 then s.stallCore s.cur (.counter m.cls)
  else
    let seq := if isCfg then k.cseq + 1 else k.eseq + 1
    let k := if isCfg then { k with cseq := seq } else { k with eseq := seq }
    let k := if m.tok = 0 then k else { k with board := Table.put k.board m.tok (k.count m.tok + 1) }
    let s := { s with cmds := Table.put s.cmds s.nextCmd { m with seq := seq, issuer := k.task, no := s.nextCmd }, nextCmd := s.nextCmd + 1 }
    s.setCore s.cur ((k.outUp m.cls).issue len)

/-! ## Engine commands (R273 to R278) -/

/-- Do two ranges of `n` bytes overlap (R275)? -/
def overlaps (a b n : Nat) : Bool := decide (n ≠ 0) && decide (a < b + n) && decide (b < a + n)

/-- The place a virtual address names in the core's context whatever its permissions, if it is mapped. -/
def State.placeAt (s : State) (c x : Nat) (va : Word) : Option Place :=
  match s.leafFor c x va.toNat with
  | .fail _ | .shut _ => none
  | .leaf e => some (placeOf (e.pa va.toNat))

def Place.isTileData : Place → Bool
  | .tile _ _ => true
  | _ => false

/-- The class of an engine command by its destination (R244, R273). -/
def State.engineClass (s : State) (c x op : Nat) (a : Word) : Nat :=
  if op ≥ 4 then 2
  else match s.placeAt c x a with
    | some (.tile _ _) | some (.cregs _ _) => 3
    | _ => 2

/-- The destination lies in a tile of a group that is exiting: such a new command is refused (R324). -/
def State.intoExiting (s : State) (c x op : Nat) (a : Word) : Bool :=
  decide (op < 4) &&
    match s.placeAt c x a with
    | some (.tile c' t) => s.exiting (tileSite c' t)
    | _ => false

/-- The register operands of an engine command that T_ENGINE_ARG refuses at issue (R274 to R278). -/
def engineBad (op : Nat) (a b c : Word) (fe : Bool) (bf cf : BitVec 5) : Bool :=
  match op with
  | 0x00 => decide (fld c 63 32 ≠ 0) || overlaps a.toNat b.toNat c.toNat || (fe && (decide (fld a 1 0 ≠ 0) || decide (fld c 1 0 ≠ 0)))
  | 0x03 => decide (fld c 63 32 ≠ 0) || (fe && (decide (fld a 1 0 ≠ 0) || decide (fld c 1 0 ≠ 0)))
  | 0x01 | 0x02 => decide (fld c 2 0 ≠ 0) || decide (fld a 1 0 ≠ 0) || decide (fld b 1 0 ≠ 0)
  | 0x04 => decide (bf ≠ 0) || decide (cf ≠ 0) || decide (fld a 4 0 ≠ 0)
  | _ => decide (fld c 5 0 ≠ 0)

/-- With fe = 1 the registers of an engine command name a destination outside the data windows of tiles (R274): the pages of copy's
and fill's range, where another's begins; one that is not mapped is checked when written, as is what memory names. -/
def State.offTiles (s : State) (op : Nat) (x : Nat) (a c : Word) : Bool :=
  op != 4 && (if op = 0 ∨ op = 3 then pageHeads a.toNat (fld c 31 0) else [a.toNat]).any fun va =>
    match s.placeAt s.cur x (BitVec.ofNat 64 va) with
    | some p => !p.isTileData
    | none => false

/-- Issue an engine command (R273): the checks on its registers, with fe = 1 a destination in a tile's data window
(R274), then the common issue. -/
def State.engine (s : State) (op : Nat) (x : Bool) (tok a b c : BitVec 5) (e : EngExt) : State :=
  s.whenReady [a.toNat, b.toNat, c.toNat, e.bar.toNat] [] [tok.toNat] [] fun k =>
    s.noSpec <|
    let va := k.rd a.toNat
    let fe := e.fe
    let off := fe && s.offTiles op k.ctx va (k.rd c.toNat)
    if engineBad op va (k.rd b.toNat) (k.rd c.toNat) fe b c || off then s.trap s.cur tEngineArg 0
    else
      s.issueCmd k (if x then 8 else 4) false
        { freshCmd s.cur k op tok.toNat va (k.rd b.toNat) (k.rd c.toNat) with
          bar := if e.bar = 0 then none else some (k.rd e.bar.toNat), fe, scope := e.scope.toNat, red := e.red.toNat,
          sfx := e.sfx.toNat, cls := s.engineClass s.cur k.ctx op va,
          stage := if s.intoExiting s.cur k.ctx op va then 2 else 0,
          cause := if s.intoExiting s.cur k.ctx op va then tRemoteRefused else 0 }

/-- copy (R275). -/
def execCopy (x : Bool) (tok a b c : BitVec 5) (e : EngExt) (s : State) : Res :=
  .next (s.engine 0x00 x tok a b c e)
/-- gather (R276). -/
def execGather (x : Bool) (tok a b c : BitVec 5) (e : EngExt) (s : State) : Res :=
  .next (s.engine 0x01 x tok a b c e)
/-- scatter (R276). -/
def execScatter (x : Bool) (tok a b c : BitVec 5) (e : EngExt) (s : State) : Res :=
  .next (s.engine 0x02 x tok a b c e)
/-- fill (R275). -/
def execFill (x : Bool) (tok a b c : BitVec 5) (e : EngExt) (s : State) : Res :=
  .next (s.engine 0x03 x tok a b c e)
/-- copyChain (R277). -/
def execCopyChain (x : Bool) (tok a b c : BitVec 5) (e : EngExt) (s : State) : Res :=
  .next (s.engine 0x04 x tok a b c e)
/-- collBcast (R278). -/
def execCollBcast (x : Bool) (tok a b c : BitVec 5) (e : EngExt) (s : State) : Res :=
  .next (s.engine 0x08 x tok a b c e)
/-- collReduce (R278). -/
def execCollReduce (x : Bool) (tok a b c : BitVec 5) (e : EngExt) (s : State) : Res :=
  .next (s.engine 0x09 x tok a b c e)
/-- collAllreduce (R278). -/
def execCollAllreduce (x : Bool) (tok a b c : BitVec 5) (e : EngExt) (s : State) : Res :=
  .next (s.engine 0x0A x tok a b c e)
/-- collAllgather (R278). -/
def execCollAllgather (x : Bool) (tok a b c : BitVec 5) (e : EngExt) (s : State) : Res :=
  .next (s.engine 0x0B x tok a b c e)
/-- collA2a (R278). -/
def execCollA2a (x : Bool) (tok a b c : BitVec 5) (e : EngExt) (s : State) : Res :=
  .next (s.engine 0x0C x tok a b c e)

/-! ## Stream commands (R280 to R282) -/

/-- The limits of a stream length (R280). -/
def streamLenOk (b : Word) : Bool := b.toNat % 128 == 0 && decide (128 ≤ b.toNat) && decide (b.toNat ≤ 2 ^ 40)

/-- The limits of sspec's operands (R280). -/
def sspecOk (a b c : Word) : Bool :=
  a.toNat % 128 == 0 && fld a 63 56 == 0 && streamLenOk b && decide (fld c 7 5 ≤ 5) && decide (fld c 14 8 ≤ 127)
    && fld c 63 16 == 0

/-- sspec: binds a stream window (R280). -/
def execSspec (x : Bool) (tok a b c : BitVec 5) (ahead : BitVec 16) (s : State) : Res :=
  .next (s.whenReady [a.toNat, b.toNat, c.toNat] [] [tok.toNat] [] fun k =>
    s.noSpec <|
    if ¬ sspecOk (k.rd a.toNat) (k.rd b.toNat) (k.rd c.toNat) then s.trap s.cur tEngineArg 0
    else s.issueCmd k (if x then 8 else 4) false
      { freshCmd s.cur k 0x20 tok.toNat (k.rd a.toNat) (k.rd b.toNat) (k.rd c.toNat) with
        ahead := some (if ahead = 0 then 256 else ahead.toNat) })

/-- sbar: orders a read window after a write window (R281). -/
def execSbar (x : Bool) (tok a b c : BitVec 5) (s : State) : Res :=
  .next (s.whenReady [a.toNat, b.toNat, c.toNat] [] [tok.toNat] [] fun k =>
    s.noSpec <|
    if (k.rd a.toNat).toNat > 31 ∨ (k.rd b.toNat).toNat > 31 ∨ (k.rd c.toNat).toNat > 4 then s.trap s.cur tEngineArg 0
    else s.issueCmd k (if x then 8 else 4) false
      { freshCmd s.cur k 0x21 tok.toNat (k.rd a.toNat) (k.rd b.toNat) (k.rd c.toNat) with
        scope := (k.rd c.toNat).toNat })

/-- scond: changes a window's extent (R282). -/
def execScond (x : Bool) (tok a b : BitVec 5) (ahead : BitVec 16) (s : State) : Res :=
  .next (s.whenReady [a.toNat, b.toNat] [] [tok.toNat] [] fun k =>
    s.noSpec <|
    if (k.rd a.toNat).toNat > 31 ∨ ¬ streamLenOk (k.rd b.toNat) then s.trap s.cur tEngineArg 0
    else s.issueCmd k (if x then 8 else 4) false
      { freshCmd s.cur k 0x22 tok.toNat (k.rd a.toNat) (k.rd b.toNat) 0 with
        ahead := if x then some (if ahead = 0 then 256 else ahead.toNat) else none })

/-! ## CFG commands (R218 to R220) -/

/-- The relative dies that a region descriptor names: die 0, and each other whose origin is not zero (R214). -/
def descDies (w : Word) : List Nat := 0 :: [1, 2, 3].filter fun d => descOrg w d ≠ 0

/-- The descriptor checks of R214 and R220: reserved bits, origins on multiples of 4, different dies. -/
def descOk (w : Word) : Bool :=
  let os := (descDies w).map (descOrg w)
  fld w 63 52 == 0 && os.all (fun o => siteX o % 4 == 0 && siteY o % 4 == 0) && (dedup (os.map siteDie)).length == os.length

/-- The group bound to the running handler's channel (R303). -/
def State.boundGroup (s : State) (c : Nat) : Option (Nat × Nat × Nat) :=
  ((s.core c).channel (s.core c).chan).bound (s.core c).group

/-- A quad belongs to the issuing handler's group: that of its channel where one is bound, else one of its context (R220,
R310). -/
def State.quadMine (s : State) (x : Nat) (bound : Option (Nat × Nat × Nat)) (q : Nat) : Bool :=
  match s.regionOf q with
  | none => false
  | some g =>
    match (s.region g).group, bound with
    | none, _ => false
    | some h, some m => h == m
    | some _, none => s.regionCtx g == x

/-- The quads at the origins of a descriptor belong to the group of core `c`'s handler. -/
def State.descMine (s : State) (c : Nat) (w : Word) : Bool :=
  (descDies w).all fun d => s.quadMine (s.core c).ctx (s.boundGroup c) (descOrg w d)

/-- The checks of a CFG instruction at issue (R220), T_PRIV first (R60): `m` masks the bits of c that its fields use. -/
def State.cfgChecked (s : State) (b c : Word) (m : Nat) (f : State) : State :=
  if ¬ s.descMine s.cur b then s.trap s.cur tPriv 0
  else if c.toNat / (m + 1) ≠ 0 ∨ ¬ descOk b then s.trap s.cur tCfgField 0
  else f

/-- Issue an asynchronous CFG command (R218, R219). -/
def State.cfgCmd (s : State) (op m : Nat) (d b c : BitVec 5) (a : Option (BitVec 5)) : State :=
  s.whenReady ([b.toNat, c.toNat] ++ (a.map (·.toNat)).toList) [] [d.toNat] [] fun k =>
    s.noSpec <|
    s.cfgChecked (k.rd b.toNat) (k.rd c.toNat) m <|
    s.issueCmd k 4 true { freshCmd s.cur k (0x40 + op) d.toNat (match a with | some r => k.rd r.toNat | none => 0)
      (k.rd b.toNat) (k.rd c.toNat) with bound := s.boundGroup s.cur }

/-- cfg.load (R222). -/
def execCfgLoad (d a b c : BitVec 5) (s : State) : Res := .next (s.cfgCmd 0 3 d b c (some a))
/-- cfg.arm (R224). -/
def execCfgArm (d a b c : BitVec 5) (s : State) : Res := .next (s.cfgCmd 1 3 d b c (some a))
/-- cfg.swap (R230). -/
def execCfgSwap (d b c : BitVec 5) (s : State) : Res := .next (s.cfgCmd 2 3 d b c none)
/-- cfg.drain: the mode in c[3:2] (R228). -/
def execCfgDrain (d b c : BitVec 5) (s : State) : Res := .next (s.cfgCmd 3 15 d b c none)
/-- cfg.save (R232). -/
def execCfgSave (d a b c : BitVec 5) (s : State) : Res := .next (s.cfgCmd 4 3 d b c (some a))
/-- cfg.rest (R234). -/
def execCfgRest (d a b c : BitVec 5) (s : State) : Res := .next (s.cfgCmd 5 3 d b c (some a))

/-! ## Translation commands (R370 to R374) -/

/-- Multiples of 64 KiB (R372 to R374). -/
def page64 (w : Word) : Bool := w.toNat % 0x10000 == 0

/-- xhint.mig: privileged (R370, R373). -/
def execXhintMig (d a b c : BitVec 5) (s : State) : Res :=
  .next (if ¬ (s.core s.cur).priv then s.trap s.cur tPriv 0 else
    s.whenReady [a.toNat, b.toNat, c.toNat] [] [d.toNat] [] fun k =>
      s.noSpec <|
      let n := (k.rd b.toNat).toNat
      if ¬ page64 (k.rd a.toNat) ∨ ¬ page64 (k.rd b.toNat) ∨ n = 0 ∨ n > 2 ^ 28 ∨ fld (k.rd c.toNat) 2 0 ≠ 0 then
        s.trap s.cur tEngineArg 0
      else s.issueCmd k 4 false (freshCmd s.cur k 0x31 d.toNat (k.rd a.toNat) (k.rd b.toNat) (k.rd c.toNat)))

/-- xhint.pref (R372). -/
def execXhintPref (d a b : BitVec 5) (s : State) : Res :=
  .next (s.whenReady [a.toNat, b.toNat] [] [d.toNat] [] fun k =>
    s.noSpec <|
    let n := (k.rd b.toNat).toNat
    if ¬ page64 (k.rd a.toNat) ∨ ¬ page64 (k.rd b.toNat) ∨ n = 0 ∨ n > 2 ^ 30 then s.trap s.cur tEngineArg 0
    else s.issueCmd k 4 false (freshCmd s.cur k 0x32 d.toNat (k.rd a.toNat) (k.rd b.toNat) 0))

/-- xinv: privileged (R370, R374). -/
def execXinv (d a b c : BitVec 5) (s : State) : Res :=
  .next (if ¬ (s.core s.cur).priv then s.trap s.cur tPriv 0 else
    s.whenReady [a.toNat, b.toNat, c.toNat] [] [d.toNat] [] fun k =>
      s.noSpec <|
      if ¬ page64 (k.rd a.toNat) ∨ ¬ page64 (k.rd b.toNat) ∨ (k.rd c.toNat).toNat > 127 then s.trap s.cur tEngineArg 0
      else s.issueCmd k 4 false (freshCmd s.cur k 0x33 d.toNat (k.rd a.toNat) (k.rd b.toNat) (k.rd c.toNat)))

/-- xprobe: walks the resident context's tables as a read would, without faulting; a cached translation is used and a walk
that succeeds is cached (R371). It waits for an outstanding acquire. -/
def execXprobe (d a : BitVec 5) (s : State) : Res :=
  .next (s.whenReady [a.toNat] [] [d.toNat] [] fun k =>
    if k.acqWait then s.stallCore s.cur .drain
    else if k.out 0 ≥ 1023 then s.stallCore s.cur (.counter 0)
    else
      let va := (k.rd a.toNat).toNat
      let info (e : TlbEnt) : Nat :=
        (match e.lg with | 16 => 0 | 21 => 1 | _ => 2) * 2 ^ 59 + fld e.leaf 4 4 * 2 ^ 58 + fld e.leaf 3 3 * 2 ^ 57
          + fld e.leaf 2 2 * 2 ^ 56 + fld e.leaf 5 5 * 2 ^ 55
      let fail (r : Nat) : Nat := 2 ^ 63 + r * 2 ^ 61 + 3 * 2 ^ 59
      let v : Nat := match s.leafFor s.cur k.ctx va with
        | .fail r => fail r
        | .shut _ => fail 2
        | .leaf e =>
          if e.isOutside va then fail 3
          else if e.allows .load then info e + e.pa va
          else 2 ^ 63 + 2 ^ 61 + info e
      ((s.walkDenied s.cur s.cur k.ctx va).fillTlb s.cur k.ctx va .load).modCore s.cur fun k => (k.wr d.toNat (BitVec.ofNat 64 v)).issue 4)

end Sys2Proof.Machine
end

