-- ==== Sys2Proof/Machine/Zone.lean ====
section
/-! DEFINITION. Coolant zones: the fields of their registers (R402, R403), allocation and its minimum (R399), the state
changes it brings (R396), and admission (R398). Zone `c` is the one of package cluster `c` (R393). -/

namespace Sys2Proof.Machine

/-! ## Register fields -/

def zallocPa (c : Nat) : Nat := dieBase (dieOf c) + 0x20000 + 16 * (c % 32)
def zsensPa (c : Nat) : Nat := dieBase (dieOf c) + 0x20008 + 16 * (c % 32)
def State.zalloc (s : State) (c : Nat) : Word := s.reg (zallocPa c)
def State.zsens (s : State) (c : Nat) : Word := s.reg (zsensPa c)

/-- Set bits [hi:lo] of the register at `pa`. -/
def State.setRegFld (s : State) (pa hi lo v : Nat) : State := s.setDreg pa (setFld (s.reg pa) hi lo v)

/-- The states of a zone, as ZALLOC numbers them (R402). -/
def zDry : Nat := 0
def zPriming : Nat := 1
def zWetIdle : Nat := 2
def zAllocated : Nat := 3
def zFlowing : Nat := 4
def zAlarm : Nat := 5
def zEvac : Nat := 6
def zLocked : Nat := 7

def State.zState (s : State) (c : Nat) : Nat := fld (s.zalloc c) 63 61
def State.zValve (s : State) (c : Nat) : Nat := fld (s.zalloc c) 60 57
def State.zAttempts (s : State) (c : Nat) : Nat := fld (s.zalloc c) 56 55
def State.zMax (s : State) (c : Nat) : Nat := min 400 (fld (s.zalloc c) 43 35)
def State.zMin (s : State) (c : Nat) : Nat := fld (s.zalloc c) 34 26
def State.zTarget (s : State) (c : Nat) : Nat := fld (s.zalloc c) 25 17

def State.setZState (s : State) (c v : Nat) : State := s.setRegFld (zallocPa c) 63 61 v
def State.setZValve (s : State) (c v : Nat) : State := s.setRegFld (zallocPa c) 60 57 v
def State.setZAttempts (s : State) (c v : Nat) : State := s.setRegFld (zallocPa c) 56 55 v

/-- Enter a state: its interval counts start at zero; the run of hot intervals goes on. -/
def State.enterZ (s : State) (c v : Nat) : State :=
  (s.setZState c v).modCluster c fun u => { u with zone := { hot := u.zone.hot } }

/-- The flow of a heat class on a die (R403). -/
def State.zheat (s : State) (d h : Nat) : Nat :=
  min 400 (fld (s.reg (dieBase d + 0x20208 + 8 * (h / 4))) (16 * (h % 4) + 8) (16 * (h % 4)))

def State.zbudget (s : State) (d : Nat) : Nat := fld (s.reg (dieBase d + 0x20200)) 13 0
def State.zlimit (s : State) (d : Nat) : Word := s.reg (dieBase d + 0x20228)
def State.tlim (s : State) (d : Nat) : Nat := min 640 (fld (s.zlimit d) 63 54)

/-- A state in which the Beaver proposes a ceiling of zero (R396). -/
def zCeiling (st : Nat) : Bool := st == zAllocated || st == zAlarm || st == zEvac || st == zLocked

/-- The position that a state change sets; while the die's pressure holds its valves, a valve stays (R396, R400). -/
def State.tableValve (s : State) (c v : Nat) : State := if (s.die (dieOf c)).pressHeld then s else s.setZValve c v

/-! ## Allocation (R399) -/

/-- A claim on a zone: its flow, when it was set, its context. -/
structure Claim where
  flow : Nat
  order : Nat
  ctx : Nat
  deriving DecidableEq, Repr

/-- Does a region, or a quad of its group, lie in a cluster? -/
def Region.inCluster (g : Region) (c : Nat) : Bool := (clusterSites c).any g.owns

/-- A group that holds its quads. -/
def GroupPhase.resident (p : GroupPhase) : Bool := !(p == .pooled || p == .preempted || p == .free)

/-- The claims of one group of a task on zone `c`: the class of the group, and its reservation there. -/
def State.groupClaims (s : State) (c ctx : Nat) (g : Group) : List Claim :=
  let d := dieOf c
  let held := match g.region with
    | some r => if g.phase.resident ∧ (s.region r).inCluster c then [{ flow := s.zheat d g.heat, order := g.order, ctx }] else []
    | none => []
  held ++ ((g.zreq.filter fun e => e.1 = c).map fun e => { flow := s.zheat d e.2.1, order := e.2.2, ctx })

/-- Every claim on zone `c`. -/
def State.claims (s : State) (c : Nat) : List Claim :=
  s.dies.flatMap fun e => e.2.tasks.flatMap fun t => t.2.groups.flatMap fun g => s.groupClaims c t.2.ctx g.2

/-- The largest flow of a list of claims, and of those that give it the one set earliest. -/
def topClaim : List Claim → Option Claim
  | [] => none
  | x :: xs =>
    match topClaim xs with
    | none => some x
    | some y => if y.flow < x.flow ∨ (y.flow = x.flow ∧ x.order ≤ y.order) then some x else some y

/-- Compute a zone's min and owner afresh and make the state change that follows (R396, R399). -/
def State.reMin (s : State) (c : Nat) : State :=
  let st := s.zState c
  match topClaim (s.claims c) with
  | none =>
    let s := (s.setRegFld (zallocPa c) 34 26 0).setRegFld (zallocPa c) 54 48 0x7F
    if st = zAllocated ∨ st = zFlowing then (s.enterZ c zWetIdle).tableValve c 1 else s
  | some k =>
    let s := (s.setRegFld (zallocPa c) 34 26 k.flow).setRegFld (zallocPa c) 54 48 (if k.flow = 0 then 0x7F else k.ctx)
    if st = zWetIdle then s.enterZ c (if k.flow = 0 then zFlowing else zAllocated) else s

/-- Compute every zone under a list of clusters afresh. -/
def State.reMins (s : State) (cs : List Nat) : State := cs.foldl State.reMin s

/-- The sum of a die's mins (R398). -/
def State.sumMins (s : State) (d : Nat) : Nat := (List.range 32).foldl (fun a z => a + s.zMin (32 * d + z)) 0

/-- A zone that can be allocated: WET-IDLE, ALLOCATED or FLOWING (R398). -/
def State.zUsable (s : State) (c : Nat) : Bool :=
  let st := s.zState c
  st == zWetIdle || st == zAllocated || st == zFlowing

/-- The flow fields that ZREQ returns (R406). -/
def State.zreqWord (s : State) (c status : Nat) : Word :=
  BitVec.ofNat 64 (status * 2 ^ 62 + s.zState c * 2 ^ 59 + s.zValve c * 2 ^ 55 + fld (s.zsens c) 63 54 * 2 ^ 45
    + fld (s.zsens c) 53 45 * 2 ^ 36 + s.zMin c * 2 ^ 27)

end Sys2Proof.Machine
end

