-- ==== Sys2Proof/Machine/Tasks.lean ====
section
/-! DEFINITION. Tasks and groups as every instruction and step uses them: handles (R299, R327), the group's counts (R300),
bound words (R344), the ready pool's room (R296), kills (R337 to R341), the group's exit (R313, R324). -/

namespace Sys2Proof.Machine

/-! ## Records and handles -/

/-- `n` bytes of a task record at `o`, as a number. -/
def Task.fieldAt (t : Task) (o n : Nat) : Nat := natLE ((t.bytes.drop o).take n)

/-- The groups of a kernel task (R293). -/
def Task.ngrp (t : Task) : Nat := t.fieldAt 24 4
def Task.group (t : Task) (g : Nat) : Group := Table.get {} t.groups g
def Task.setGroup (t : Task) (g : Nat) (v : Group) : Task := { t with groups := Table.put t.groups g v }

def State.setGroup (s : State) (h : Nat × Nat) (g : Nat) (v : Group) : State :=
  match s.task? h with
  | none => s
  | some t => s.setTask h (t.setGroup g v)

/-- The handle of a task of die `d` (R299). -/
def handleWord (d serial : Nat) : Word := BitVec.ofNat 64 (d * 2 ^ 62 + serial)

/-- The dispatched, uncompleted task of context `x` that a handle names (R305). -/
def State.handle? (s : State) (w : Word) (x : Nat) : Option ((Nat × Nat) × Task) :=
  let d := fld w 63 62
  if fld w 61 48 ≠ 0 then none
  else
    ((s.die d).tasks.find? fun e =>
      e.2.serial == fld w 47 0 && e.2.ctx == x && (e.2.phase == .running || e.2.phase == .done)).map fun e => ((d, e.1), e.2)

/-! ## Bound words (R344) -/

def bBounded (w : Word) : Bool := bit w 40
def bSlot (w : Word) : Nat := fld w 39 32
def bKey (w : Word) : BitVec 32 := w.truncate 32
def bOk (w : Word) : Bool := fld w 63 41 == 0 && (bBounded w || fld w 39 0 == 0)

/-- The local copy of an incumbent slot on a die (R334). -/
def State.incCopy (s : State) (d n : Nat) : IncCopy := Table.get {} (s.die d).incs n

/-- The slot as a core of the die reads it: one not owned by the context, or withdrawn, is none (R345, R346). -/
def State.ownInc (s : State) (d n x : Nat) : Option Inc :=
  let u := s.incCopy d n
  if u.inc.valid ∧ ¬ u.withdrawn ∧ u.inc.owner = x then some u.inc else none

/-- Is key x better than y (R335)? -/
def better (dir : Bool) (x y : BitVec 32) : Bool := if dir then y.ult x else x.ult y

/-- A task that the copies of die `d` show killable (R337). -/
def State.killable (s : State) (d : Nat) (t : Task) : Bool :=
  bBounded t.bound &&
    match s.ownInc d (bSlot t.bound) t.ctx with
    | none => false
    | some u => !better u.dir (bKey t.bound) u.key

/-! ## The ready pool (R296, R329) -/

/-- A task that takes an entry of its die's ready pool: one POOLED, a child on its way in, and one that may yet return to the
pool, which keeps its entry (log 67): a speculative ordered task that can be aborted, a kernel task with a group that has not
left. -/
def Task.inPool (t : Task) : Bool :=
  t.phase == .pooled || (t.spawned && t.phase == .ready)
    || (t.phase == .running && t.kind == 0 && !t.killed
        && (List.range t.ngrp).any fun g => let v := (t.group g).phase; v != .exiting && v != .free)
    || ((t.phase == .running || t.phase == .done) && t.spec && t.ordered && !t.irrev)

/-- The groups of a kernel task that are in the pool. -/
def Task.poolGroups (t : Task) : List Nat :=
  (List.range t.ngrp).filter fun g => (t.group g).phase == .pooled || (t.group g).phase == .preempted

/-- A task with something in the pool to dispatch: itself, or groups that have not been dispatched or were pre-empted. -/
def Task.queued (t : Task) : Bool :=
  t.phase == .pooled || (t.kind == 0 && t.phase == .running && !t.killed && !t.poolGroups.isEmpty)

/-- The pool entries of a die in use: those of its tasks, and those reserved for held children. -/
def State.poolUse (s : State) (d : Nat) : Nat :=
  (s.die d).tasks.foldl (fun a e => a + e.2.kids.length + (if e.2.inPool then 1 else 0)) 0

/-- The timestamp of an ordered task, else 0 (R297, R326). -/
def Task.ts (t : Task) : Nat := if t.ordered then t.fieldAt 40 8 else 0

/-- A child enters the pool: it takes its id and its age now, and counts in its job; its record is read in a step of its own, before
it can be dispatched (R327, R351). -/
def State.addChild (s : State) (d job x minTs : Nat) (recAddr bound : Word) : State :=
  s.modDie d fun u =>
    let j := Table.get emptyJob u.jobs job
    { u with
      tasks := Table.put u.tasks u.nextTask
        { ctx := x, job, idx := 0, spawned := true, recAddr, bound, minTs, phase := .ready, id := (u.idCtr + 1).toNat, age := u.clock }
      nextTask := u.nextTask + 1
      idCtr := u.idCtr + 1
      clock := u.clock + 1
      jobs := Table.put u.jobs job { j with left := j.left + 1 } }

/-- Hand a list of held children to the pool in spawn order (R331). -/
def State.addChildren (s : State) (d job x minTs : Nat) : List (Word × Word) → State
  | [] => s
  | (a, b) :: ks => (s.addChild d job x minTs a b).addChildren d job x minTs ks

/-- Job `n` of a die, and the die with it replaced. -/
def State.job? (s : State) (d n : Nat) : Option Job :=
  if Table.has (s.die d).jobs n then some (Table.get emptyJob (s.die d).jobs n) else none
def State.setJob (s : State) (d n : Nat) (j : Job) : State := s.modDie d fun u => { u with jobs := Table.put u.jobs n j }

/-- Add 1 to a search counter of a die: 0x2000 KILLQ, 0x2008 KILLR, 0x2010 ABORT, 0x2018 SWEEP (R342). -/
def State.tally (s : State) (d o : Nat) : State :=
  let pa := dieBase d + o
  s.setRegFld pa 31 0 ((fld (s.reg pa) 31 0 + 1) % 2 ^ 32)

/-! ## Groups (R300, R313) -/

/-- The clusters of a region's quads. -/
def Region.clusters (g : Region) : List Nat := dedup (g.land.map siteCluster)

/-- The lead core's cluster: that of the origin at which the group was placed (R313). -/
def Region.lead (g : Region) : Nat := siteCluster (g.quads.headD (descOrg g.desc 0))

/-- The handler channel of a kernel task's groups (R307). -/
def Task.gch (t : Task) : Nat := (t.fieldAt 28 1) % 16

/-- A task released once every group is triggered (R300). -/
def Task.checkTrig (t : Task) : Task :=
  if (List.range t.ngrp).all fun g => (t.group g).trig then { t with released := true } else t

/-- Group `g` counts as triggered (R300, R303). -/
def Task.trigger (t : Task) (g : Nat) : Task := (t.setGroup g { t.group g with trig := true }).checkTrig

/-- Group `g` counts as exited and is FREE; with every group exited the task completes (R300, R313). -/
def State.groupExit (s : State) (h : Nat × Nat) (g : Nat) : State :=
  match s.task? h with
  | none => s
  | some t =>
    let t := (t.setGroup g { t.group g with phase := .free, exited := true, trig := true, region := none, zreq := [] }).checkTrig
    if (List.range t.ngrp).all fun i => (t.group i).exited then s.complete h t else s.setTask h t

/-- GPSTAT of a die (R320). -/
def gpstat (d : Nat) : Nat := dieBase d + 0x1010

/-- Request number `req` of a die is the pending one (R320). -/
def State.gpPending (s : State) (d req : Nat) : Bool := fld (s.reg (gpstat d)) 31 30 == 1 && (s.die d).requests == req

/-- Pre-emption request `req` of a die, while it is pending, fails with a cause; the first failure stays (R320). -/
def State.gpFail (s : State) (d req cause : Nat) : State :=
  if s.gpPending d req then (s.setRegFld (gpstat d) 31 30 3).setRegFld (gpstat d) 22 16 cause else s

/-- The group goes to EXITING (R313): one that was PREEMPTING abandons its save, and GPSTAT reports T_TASK_STATE. -/
def State.groupToExit (s : State) (h : Nat × Nat) (g : Nat) : State :=
  match s.task? h with
  | none => s
  | some t =>
    let v := t.group g
    let s := if v.phase = .preempting then s.gpFail h.1 v.req tTaskState else s
    s.setTask h (t.setGroup g { v with phase := .exiting, mark := s.nextCmd })

/-! ## Kills (R340, R341) -/

/-- Kill a kernel task: groups that hold quads go to EXITING, and KILL follows, but to one that was EXITING before; a pre-empted
or pooled group is free (R341). -/
def State.killGroups (s : State) (h : Nat × Nat) : Nat → State
  | 0 => s
  | n + 1 =>
    let s := s.killGroups h n
    match s.task? h with
    | none => s
    | some t =>
      match (t.group n).phase with
      | .running | .loading | .preempting | .restoring => s.groupToExit h n
      | .preempted | .pooled => s.groupExit h n
      | .exiting => s.setTask h (t.setGroup n { t.group n with killSent := true })
      | .free => s

/-- The handler that runs task `h` ends; a dispatch message of it that has not started, and a start of it that waits for a core
switch, are discarded (R330, R340). -/
def State.endTaskHandler (s : State) (h : Nat × Nat) (t : Task) : State :=
  match t.core with
  | none => s
  | some c =>
    let s := s.modCore c fun k =>
      let gone (st : Start) : Bool := st.task == some h
      { k with
        chans := k.chans.map fun (n, ch) =>
          (n, { ch with queue := ch.queue.filter fun m => !(m.words.getD 0 0 >>> 56 == 6 && m.words.getD 1 0 == handleWord h.1 t.serial) })
        next := k.next.filter fun st => !gone st
        nextHeld := k.nextHeld && !(k.next.any gone)
        later := k.later.filter fun e => !gone e.1 }
    if (s.core c).running ∧ (s.core c).task = some h then s.modCore c CoreSt.endHandler else s

/-! ## Aborts (R330 to R332) -/

/-- Does the ordered task `u` come before `t` in its job? -/
def Task.before (u t : Task) : Bool := decide (u.ts < t.ts) || (u.ts == t.ts && decide (u.id < t.id))

/-- Task `h`, now `t`, is in the pool again: its age is that of its return (R297, log 67). -/
def State.repool (s : State) (h : Nat × Nat) (t : Task) : State :=
  (s.modDie h.1 fun u => { u with clock := u.clock + 1 }).setTask h { t with age := (s.die h.1).clock }

/-- An ordered task is aborted (R330): its handler ends, its entries, pending offer and held children are discarded, and it
returns to the pool. -/
def State.abort (s : State) (h : Nat × Nat) (u : Task) : State :=
  ((s.endTaskHandler h u).repool h
    { u with phase := .pooled, wbuf := [], rlines := [], kids := [], offer := none, core := none, aborts := u.aborts + 1 }).tally h.1 0x2010

/-- The later ordered tasks of the job that read a line just written are aborted (R331, R332). -/
def State.abortReaders (s : State) (h : Nat × Nat) (t : Task) (lines : List Nat) : State :=
  (s.die h.1).tasks.foldl (fun s e =>
    let u := e.2
    if e.1 ≠ h.2 ∧ u.job = t.job ∧ u.ordered ∧ (u.phase = TaskPhase.running ∨ u.phase = TaskPhase.done) ∧ ¬ u.irrev ∧ t.before u
        ∧ u.rlines.any lines.contains then s.abort (h.1, e.1) u else s) s

/-- `n` bytes at `pa` that task `h?` wrote have been performed: where it is ordered and irrevocable, the later tasks of its job that
read a line of them are aborted (R331 to R333). -/
def State.judgeBytes (s : State) (h? : Option (Nat × Nat)) (pa n : Nat) : State :=
  match h?.bind fun h => (s.task? h).map fun t => (h, t) with
  | some (h, t) => if t.ordered ∧ t.irrev then s.abortReaders h t (dedup ((List.range n).map fun i => (pa + i) / 64)) else s
  | none => s

/-! ## Kill and completion -/

/-- Kill task `h` (R340, R341): one queued adds to KILLQ, one running to KILLR. A kernel task completes when its groups
have exited; any other is released and completed. -/
def State.kill (s : State) (h : Nat × Nat) : State :=
  match s.task? h with
  | none => s
  | some t =>
    if t.killed ∨ t.phase = .finished then s
    else
      let queued := decide (t.phase = .pooled)
      let s := s.tally h.1 (if queued then 0x2000 else 0x2008)
      if t.kind = 0 then (s.setTask h { t with killed := true }).killGroups h t.ngrp
      else (s.endTaskHandler h t).complete h { t with killed := true }

/-- A kill point of a running kernel task: relative die 0 of its region tests it (R339). -/
def State.killPoint (s : State) (g : Nat) : State :=
  match (s.region g).group with
  | none => s
  | some (d, k, _) =>
    match s.task? (d, k) with
    | none => s
    | some t => if s.killable (siteDie (descOrg (s.region g).desc 0)) t then s.kill (d, k) else s

/-! ## Incumbent offers (R335) -/

/-- Put the offer at the end of those on their way. -/
def State.sendOffer (s : State) (o : Offer) : State := { s with offers := s.offers ++ [o] }

end Sys2Proof.Machine
end

