-- ==== Sys2Proof/Machine/Barrier.lean ====
section
/-! DEFINITION. The barrier instructions (R354 to R356) and the three PARK forms (R246 to R248, R359). -/

namespace Sys2Proof.Machine

/-- The four words of the barrier at `pa`, as word indices of its tile. -/
def barWords (pa : Nat) : List Nat := (List.range 4).map fun i => pa % 0x80000 / 4 + i

/-- Words `pa` on as the current task of core `c` sees them: its own buffered bytes where it has any (R328). -/
def State.viewNum (s : State) (c pa n : Nat) : Nat :=
  match s.specOf c with
  | none => s.memNum pa n
  | some (_, t) => natLE ((List.range n).map fun i => (t.byte? (pa + i)).getD (s.mem.read (pa + i)))

/-- The checks of R356 on a barrier address, in order; `f` runs with its physical address, tile and site. -/
def State.barChecked (s : State) (k : CoreSt) (va : Word) (need : Need) (argOk : Bool) (write : Bool)
    (f : State → Nat → Nat → State) : State :=
  match s.translate s.cur k.ctx va.toNat need with
  | .fault _ => (s.walkDenied s.cur s.cur k.ctx va.toNat).trap s.cur tPageFault va
  | .ok pa =>
    if va.toNat % 16 ≠ 0 then s.trap s.cur tAlign va
    else match placeOf pa with
      | .tile c' m =>
        if ¬ argOk then s.trap s.cur tBarArg 0
        else if s.tileRefuses s.cur c' m write then s.trap s.cur tRemoteRefused va
        else f (s.fillTlb s.cur k.ctx va.toNat need) pa (tileSite c' m)
      | _ => s.trap s.cur tBarArg 0

/-- Issue bar.init or bar.expect: a step at the tile, in class 1 until it is performed (R356). -/
def State.barStore (s : State) (kind : OpKind) (a b : BitVec 5) (ok : Word → Bool) : State :=
  s.whenReady [a.toNat, b.toNat] [] [] [] fun k =>
    s.noSpec <|
    if k.acqWait then s.stallCore s.cur .drain
    else if k.out 1 ≥ 1023 then s.stallCore s.cur (.counter 1)
    else s.barChecked k (k.rd a.toNat) .atomic (ok (k.rd b.toNat)) true fun s pa _ =>
      s.modCore s.cur fun k => (k.pushOp 1
        { id := 0, kind, va := k.rd a.toNat, pa, size := 16, data := k.rd b.toNat, cmp := 0, dest := .nowhere,
          acq := false, rel := false, priv := k.priv, ctx := k.ctx }).issue 4

/-- bar.init: 1 to 65,535 arrivals (R354, R356). -/
def execBarInit (a b : BitVec 5) (s : State) : Res :=
  .next (s.barStore .barInit a b fun v => decide (1 ≤ v.toNat ∧ v.toNat ≤ 65535))

/-- bar.expect: b[63:32] zero (R354, R356). -/
def execBarExpect (a b : BitVec 5) (s : State) : Res := .next (s.barStore .barExpect a b fun v => fld v 63 32 == 0)

/-- bar.arrive: a release that takes one step, expecting b bytes and arriving once; d is the state after it, and the
arrival record the count before it. An over-arrival raises T_BAR_OVER (R354, R356). -/
def execBarArrive (d a b : BitVec 5) (s : State) : Res :=
  .next (s.whenReady [a.toNat, b.toNat] [] [d.toNat] [] fun k =>
    s.noSpec <|
    if k.out 0 ≥ 1023 then s.stallCore s.cur (.counter 0)
    else s.barChecked k (k.rd a.toNat) .atomic (fld (k.rd b.toNat) 63 32 == 0) true fun s pa p =>
      if k.ops ≠ [] then s.stallCore s.cur .drain
      else if ¬ s.tileFree p (barWords pa) true then s.stallCore s.cur .answer
      else
        let before := s.barCount pa
        match s.barStep pa ((k.rd b.toNat).truncate 32) 0 1 with
        | none => s.trap s.cur tBarOver 0
        | some s =>
          (s.judgeBytes k.task pa 16).modCore s.cur fun k =>
            { (k.wr d.toNat (s.barState pa)).issue 4 with arrival := some (pa, before) })

/-- bar.test: reads the four words in one access, orders later accesses as ld.acq does, and sets the arrival record
(R356). -/
def execBarTest (d a : BitVec 5) (s : State) : Res :=
  .next (s.whenReady [a.toNat] [] [d.toNat] [] fun k =>
    if k.acqWait then s.stallCore s.cur .drain
    else if k.out 0 ≥ 1023 then s.stallCore s.cur (.counter 0)
    else s.barChecked k (k.rd a.toNat) .load true false fun s pa p =>
      if k.pendingAt pa 16 ∨ ¬ s.tileFree p (barWords pa) false then
        s.stallCore s.cur .answer
      else match s.recordRead pa 16 with
        | none => s.stallCore s.cur (.commit (k.task.getD (0, 0)))
        | some s =>
          let w (i : Nat) : Nat := s.viewNum s.cur (pa + 4 * i) 4
          let v : Word := BitVec.ofNat 64 (w 0 * 2 ^ 32 + w 1 % 2 ^ 16 * 2 ^ 16 + w 3 % 2 ^ 16)
          s.modCore s.cur fun k =>
            { (k.wr d.toNat v).issue 4 with arrival := some (pa, BitVec.ofNat 32 (w 3)) })

/-! ## PARK -/

/-- Take a park slot and end the handler, once the channel of b is enabled for the resident context and a slot of the 32
is free (R247). -/
def State.parkIn (s : State) (form target : Nat) (b c : Word) (count : Nat) (fired : Option Word) : State :=
  let k := s.core s.cur
  let h := k.channel b.toNat
  if ¬ h.actEn ∨ h.actCtx ≠ k.ctx then s.trap s.cur tParkArg 0
  else
    match (List.range 32).find? fun i => !Table.has k.parks i with
    | none => s.trap s.cur tParkFull 0
    | some i =>
      s.setCore s.cur
        { (k.issue 4).endHandler with
          parks := Table.put k.parks i
            { form, target, chan := b.toNat, tag := c, ctx := k.ctx, count, fired, group := k.group,
              turn := 1 + k.parks.foldl (fun n e => if e.2.fired.isSome then max n e.2.turn else n) 0 } }

/-- The common head of the PARK forms: no speculative task (R328), b a channel number (R246). -/
def State.park (s : State) (a b c : BitVec 5) (f : CoreSt → State) : State :=
  s.whenReady [a.toNat, b.toNat, c.toNat] [] [] [] fun k =>
    s.noSpec <| if (k.rd b.toNat).toNat / 16 ≠ 0 then s.trap s.cur tParkArg 0 else f k

/-- park.word: a word of a tile's data window; it stands at the tile as an ld.fe does, behind the core's own accesses to the word
(R246, R247, R265). DESIGN CHOICE (log 86): it parks at a gate-pending tile and at one of an EXITING group too. -/
def execParkWord (a b c : BitVec 5) (s : State) : Res :=
  .next (s.park a b c fun k =>
    let va := k.rd a.toNat
    match s.translate s.cur k.ctx va.toNat .load with
    | .fault _ => (s.walkDenied s.cur s.cur k.ctx va.toNat).trap s.cur tPageFault va
    | .ok pa =>
      match placeOf pa with
      | .tile c' m =>
        if va.toNat % 4 ≠ 0 then s.trap s.cur tParkArg 0
        else if k.pendingAt pa 4 ∨ ¬ s.tileFree (tileSite c' m) [pa % 0x80000 / 4] false then s.stallCore s.cur .blocked
        else
          let s := s.fillTlb s.cur k.ctx va.toNat .load
          s.parkIn 4 pa (k.rd b.toNat) (k.rd c.toNat) 0 (if s.isFull pa then some ((s.word pa).zeroExtend 64) else none)
      | _ => s.trap s.cur tParkArg 0)

/-- park.bar: an address that R356 would refuse is illegal; the recorded count is the arrival record's where it names this
barrier, else the barrier's, as the core's own earlier accesses to it left it (R265); it posts when the count differs (R359). DESIGN CHOICE (log 86): at a gated or an exiting tile too. -/
def execParkBar (a b c : BitVec 5) (s : State) : Res :=
  .next (s.park a b c fun k =>
    let va := k.rd a.toNat
    match s.translate s.cur k.ctx va.toNat .load with
    | .fault _ => s.trap s.cur tParkArg 0
    | .ok pa =>
      match placeOf pa with
      | .tile c' m =>
        if va.toNat % 16 ≠ 0 then s.trap s.cur tParkArg 0
        else if k.pendingAt pa 16 ∨ ¬ s.tileFree (tileSite c' m) (barWords pa) false then s.stallCore s.cur .blocked
        else
          let s := s.fillTlb s.cur k.ctx va.toNat .load
          let now := (s.barCount pa).toNat
          let cnt := match k.arrival with
            | some (x, n) => if x = pa then n.toNat else now
            | none => now
          s.parkIn 5 pa (k.rd b.toNat) (k.rd c.toNat) cnt
            (if now ≠ cnt then some (BitVec.ofNat 64 (cnt % 2)) else none)
      | _ => s.trap s.cur tParkArg 0)

/-- park.chan: notification 0, space in the die's pending-launch store, which has 512 entries (R246, R302). -/
def execParkChan (a b c : BitVec 5) (s : State) : Res :=
  .next (s.park a b c fun k =>
    if k.rd a.toNat ≠ 0 then s.trap s.cur tParkArg 0
    else s.parkIn 6 0 (k.rd b.toNat) (k.rd c.toNat) 0
      (if (s.die (dieOf s.cur)).launches.length < 512 then some 0 else none))

end Sys2Proof.Machine
end

