-- ==== Sys2Proof/Machine/Faults.lean ====
section
/-! DEFINITION. The end of a command (R219, R273, R279), packets left over by a swap or a new configuration (R114, R231),
and what %fltres does to a held fault (R417, R418). -/

namespace Sys2Proof.Machine

/-! ## Result words -/

/-- The result word of a command: err and cause, and its sequence number (R219, R273). -/
def Cmd.result (m : Cmd) (cause : Nat) : Word :=
  BitVec.ofNat 64 ((if cause = 0 then 0 else 2 ^ 63 + cause % 128 * 2 ^ 56) + m.seq.toNat)

def State.cmd? (s : State) (k : Nat) : Option Cmd := (s.cmds.find? fun e => e.1 = k).map (·.2)
def State.setCmd (s : State) (k : Nat) (m : Cmd) : State := { s with cmds := Table.put s.cmds k m }

/-- A command completes with a cause, 0 for none: its token register takes the result and loses one count, its class
counter falls (R219, R243, R244); a task's command completes its task (R300). A CFG completion is traced (R444). -/
def State.finishCmd (s : State) (k cause : Nat) : State :=
  match s.cmd? k with
  | none => s
  | some m =>
    let s := { s with cmds := Table.del s.cmds k }
    match m.task with
    | some h =>
      match s.task? h with
      | none => s
      | some t => s.complete h (if cause = 0 then t else t.fail cause)
    | none =>
      let s := s.modCore m.core fun c =>
        let c := if m.tok = 0 then c else { c.wr m.tok (m.result cause) with board := Table.put c.board m.tok (c.count m.tok - 1) }
        c.outDown m.cls
      if m.op ≥ 0x40 then s.trace m.core 3 m.ctx (m.op % 64 + fld m.c 1 0 * 256) else s

/-! ## Left-over packets -/

/-- The buffers of a site with their port index (R415): incoming lanes, in ports, out ports. -/
def Site.places (t : Site) : List (Nat × List Pkt) :=
  t.lane ++ (t.inb.map fun e => (16 + e.1, e.2)) ++ (t.outb.map fun e => (20 + e.1, e.2))

/-- Does a T_STRAY_TOKEN fault already cover buffer `loc` of site `p`? -/
def State.strayHeld (s : State) (p loc : Nat) : Bool :=
  let u := s.cluster (siteCluster p)
  (u.held.any fun e => e.2.cause == tStrayToken && e.2.holder == .site p loc)
    || u.owed.any fun o => o.1.cause == tStrayToken && o.2 == .site p loc

/-- Raise T_STRAY_TOKEN for a packet at buffer `loc` of site `p`, unless one is held there (R114, R231, R447). -/
def State.stray (s : State) (p loc : Nat) (k : Pkt) : State :=
  if s.strayHeld p loc then s
  else s.siteFault p tStrayToken k.slot k.ord.toNat loc (k.header.zeroExtend 64)

/-- Is a packet left over: its slot is neither current nor SUSPENDED (R228, R231)? -/
def Region.leftOver (g : Region) (k : Pkt) : Bool := g.cur != some k.slot && (g.slot k.slot).phase != .suspended

/-- Every buffer of site `p` of region `g` that holds a left-over packet raises its fault (R231). -/
def State.strays (s : State) (g p : Nat) : State :=
  (s.site p).places.foldl (fun s e =>
    match e.2.find? (s.region g).leftOver with
    | none => s
    | some k => s.stray p e.1 k) s

/-! ## Resume and end (R417) -/

/-- The held fault that a serial names in cluster `c`. -/
def State.heldAt (s : State) (c n : Nat) : Option Held := ((s.cluster c).held.find? fun e => e.1 = n).map (·.2)

def State.dropHeld (s : State) (c n : Nat) : State := s.modCluster c fun u => { u with held := Table.del u.held n }

/-- Resume the held fault `n` of cluster `c` (R417): the agent takes up its work, and a condition that still holds raises
a new fault. -/
def State.resume (s : State) (c n : Nat) (h : Held) : State :=
  let s := s.dropHeld c n
  match h.holder with
  | .site p loc =>
    let s := s.modSite p fun t => { t with faults := t.faults.filter (· ≠ n) }.settle
    if h.cause = tStrayToken then
      match s.regionOf p with
      | none => s
      | some g =>
        match (Table.get [] ((s.site p).places) loc).find? (s.region g).leftOver with
        | none => s
        | some k => s.stray p loc k
    else s
  | .ag p slot => s.modSite p fun t => t.setSlot slot { t.slot slot with stopAt := none }
  | .cmd k => { s with cmds := s.cmds.map fun e => if e.1 = k then (k, { e.2 with held := none }) else e }
  | .walk d j => s.modDie d fun u => { u with jobs := u.jobs.map fun e => if e.1 = j then (j, { e.2 with held := none }) else e }
  | .coreSwitch k => s.modCore k fun u =>
    match u.later.findIdx? (·.2) with
    | some i => { u with later := u.later.modify i fun e => (e.1, false) }
    | none => { u with nextHeld := false }

/-- Does the agent of a held fault admit act 2 (R417)? -/
def Held.admitsEnd (h : Held) : Bool :=
  match h.holder with
  | .cmd _ | .walk _ _ => true
  | _ => false

/-- End the held fault `n` of cluster `c` (R417): a command completes with err and the fault's cause, a sequencer walk's
job completes with err and that cause. -/
def State.endHeld (s : State) (c n : Nat) (h : Held) : State :=
  let s := s.dropHeld c n
  match h.holder with
  | .cmd k => s.finishCmd k h.cause
  | .walk d j =>
    s.modDie d fun u => { u with jobs := u.jobs.map fun e =>
      if e.1 = j then
        (j, { e.2 with held := none, broken := true, left := 0, failed := true,
                       cause := h.cause })
      else e }
  | _ => s

/-- A write of %fltres on core `c` (R417): err is W1C, and set by a serial that names no held fault or an act that the
fault does not admit. -/
def State.fltres (s : State) (c : Nat) (v : Word) : State :=
  let s := if bit v 48 then s.modCore c fun k => { k with fltErr := false } else s
  let bad := s.modCore c fun k => { k with fltErr := true }
  let n := fld v 47 0
  match fld v 63 62 with
  | 0 => s
  | 1 =>
    match s.heldAt c n with
    | none => bad
    | some h => s.resume c n h
  | 2 =>
    match s.heldAt c n with
    | none => bad
    | some h => if h.admitsEnd then s.endHeld c n h else bad
  | _ => bad

end Sys2Proof.Machine
end

