-- ==== Sys2Proof/Machine/Contexts.lean ====
section
/-! DEFINITION. The life cycle of a context (R236, R237), the save record and core switch (R245), and the steps that move a
context. -/

namespace Sys2Proof.Machine

/-! ## Who may write (R8, R424, R425) -/

/-- The owning master; 3 when none (R424). -/
def State.owner (s : State) : Nat := fld (s.reg (iodN + 0x20000)) 7 6

/-- A write of a master stands behind others of its own that wait for a page request: it has not reached the device yet
(R383, R422). -/
def State.behind (s : State) (who : Agent) : Bool :=
  match who with
  | .core _ => false
  | .master m => !(Table.get [] s.hostWait m).isEmpty

/-- The context of a %ctxctl register by its number; 0 for another system register (R236). -/
def ctlCtx (n : Nat) : Nat := if 0x60 ≤ n ∧ n < 0xA0 then n - 0x60 else 0

/-- A write by an agent to a register that only the owner master and privileged handlers write: a privileged handler's is
performed, another master's is dropped and posts T_ACCESS (R425), another handler's changes nothing. -/
def State.byWho (s : State) (who : Agent) (off : Nat) (f : State) : State :=
  match who with
  | .core c => if (s.core c).running ∧ (s.core c).priv then f else s
  | .master m => if s.behind who then s else if s.owner = m then f else s.accessEvent (ctlCtx off) off 0 m

/-! ## The save record (R245) -/

/-- The register state of a core as its 512-byte record. -/
def CoreSt.record (k : CoreSt) : List Byte :=
  ((List.range 31).flatMap fun i => bytesLE 8 (k.rd (i + 1)).toNat)
    ++ ((List.range 16).flatMap fun i => bytesLE 8 (k.rdF i).toNat)
    ++ bytesLE 8 k.fflags.toNat ++ bytesLE 8 k.cseq.toNat ++ bytesLE 8 k.eseq.toNat
    ++ [1] ++ List.replicate 111 0

/-- Word `i` of a record. -/
def recWord (bs : List Byte) (i : Nat) : Nat := natLE ((bs.drop (8 * i)).take 8)

/-- A core whose registers are those of a record; one whose valid byte is 0 loads zeros. -/
def CoreSt.loadRecord (k : CoreSt) (bs : List Byte) : CoreSt :=
  if bs.getD 400 0 = 0 then { k with s := [], f := [], fflags := 0, cseq := 0, eseq := 0 }
  else
    { k with
      s := (List.range 31).map fun i => (i + 1, BitVec.ofNat 64 (recWord bs i))
      f := (List.range 16).map fun i => (i, BitVec.ofNat 64 (recWord bs (31 + i)))
      fflags := BitVec.ofNat 6 (recWord bs 47), cseq := BitVec.ofNat 48 (recWord bs 48), eseq := BitVec.ofNat 48 (recWord bs 49) }

/-- The virtual address of core `c`'s record of context `x`. -/
def State.recordVa (s : State) (x c : Nat) : Nat := (s.ctx x).csave.toNat + 512 * c

/-- A range of a context's memory by place and need: its physical bytes, or the first address that fails. -/
def State.range (s : State) (place x : Nat) (need : Need) (va n : Nat) : Option (List Nat) :=
  match s.vaddrs place x need va n with
  | (ps, none) => some ps
  | (_, some _) => none

/-- The bytes of a range as a core's save, a sequencer or a loader reaches them, or the first address that does not translate, or
that protection closes or that is no memory, where all do (R431, log 36). -/
def State.openAddrs (s : State) (place x : Nat) (need : Need) (va n : Nat) : Except Nat (List Nat) :=
  match s.vaddrs place x need va n with
  | (_, some (a, _)) => .error a
  | (ps, none) =>
    match ps.findIdx? fun p => s.shut x need [p] || !(placeOf p).plain with
    | some i => .error (va + i)
    | none => .ok ps

/-- Why openAddrs answers the address `va`: protection closes its byte, or it does not translate (R365, R431). -/
def State.openCause (s : State) (place x : Nat) (need : Need) (va : Nat) : Nat :=
  match s.translate place x va need with
  | .ok pa => if s.shut x need [pa] then tAccess else tPageFault
  | .fault _ => tPageFault

/-- The owner hears of an address that protection closed to openAddrs, or to its walk (R425, R431). -/
def State.openDenied (s : State) (c place x : Nat) (need : Need) (va : Nat) : State :=
  match s.translate place x va need with
  | .ok pa => if s.shut x need [pa] then s.denied c pa else s
  | .fault _ => s.walkDenied c place x va

/-- Write bytes at a list of physical addresses. -/
def State.writeAt (s : State) : List Nat → List Byte → State
  | p :: ps, b :: bs => (s.storeBytes p [b]).writeAt ps bs
  | _, _ => s

/-- A byte of `ps` lies in a live block: a write there stands aside (R196). -/
def State.liveAt (s : State) (ps : List Nat) : Bool :=
  ps.any fun pa => match tileOf pa with
    | some (p, w) => (s.site p).inLive w
    | none => false

/-- Would `t`, which a step makes of `s`, change a byte of a block that is alive in `s` (R196)? -/
def State.harms (s t : State) : Bool :=
  s.sites.any fun e => e.2.blocks.any fun b =>
    (List.range (4 * b.size)).any fun i => t.mem.read (wordAddr e.1 b.first + i) != s.mem.read (wordAddr e.1 b.first + i)

/-- A step that would write into a live block stands aside as a whole (R196, log 33). -/
def State.heldBack (s t : State) : State := if s.harms t then s else t

/-- Write a core's registers to its record of its resident context; none when the record does not translate, or while a live block
holds it (R196). -/
def State.saveCore (s : State) (c : Nat) : Option State :=
  let k := s.core c
  (s.openAddrs c k.ctx .store (s.recordVa k.ctx c) 512).toOption.bind fun ps =>
    if s.liveAt ps then none else some ((s.cacheRun c k.ctx .store (s.recordVa k.ctx c) 512).writeAt ps k.record)

/-! ## Events (R236) -/

/-- Clear the valid bytes of the records of a context whose pages are mapped (R236). -/
def State.clearRecords (s : State) (x : Nat) : State :=
  (List.range 128).foldl (fun s c =>
    match s.translate c x (s.recordVa x c + 400) .store with
    | .ok pa =>
      if s.shut x .store [pa] ∨ ¬ (placeOf pa).plain then s
      else (s.fillTlb c x (s.recordVa x c + 400) .store).storeBytes pa [0]
    | .fault _ => s) s

/-- Empty the queues of a context's channels, discard its park slots (R236, R248). -/
def CoreSt.discard (k : CoreSt) (x : Nat) : CoreSt :=
  { k with chans := k.chans.map (fun e => if e.2.actCtx = x then (e.1, { e.2 with queue := [] }) else e),
           parks := k.parks.filter fun e => e.2.ctx ≠ x }

/-- The cores that hold state: every core when the context is the one resident after reset. -/
def State.allCores (s : State) (f : Nat → CoreSt → CoreSt) : State := (List.range 128).foldl (fun s c => s.modCore c (f c)) s

/-- open: clears the context's queues, park slots, counters and save areas' valid bits, and its frame counters (R236,
R433). -/
def State.openCtx (s : State) (x : Nat) : State :=
  let s := s.allCores fun _ k =>
    let k := k.discard x
    if k.ctx = x then { k with ocnt := [], cseq := 0, eseq := 0 } else k
  let s := (s.clearRecords x).modCtx x fun u => { u with phase := .opened }
  { s with marks := s.marks.map fun e => if e.1 % 64 = x then (e.1, { e.2 with count := 0 }) else e }

/-- Release the incumbent slots a context owns; every copy takes the new state (R334, R336). -/
def State.releaseIncs (s : State) (x : Nat) : State :=
  let mine := s.incs.filter fun e => e.2.valid && e.2.owner == x
  mine.foldl (fun s e =>
    let u := { e.2 with valid := false }
    { s with incs := Table.put s.incs e.1 u, updates := s.updates ++ (List.range 4).map fun d => (e.1, d, u, false) }) s

/-- Clear en of every protected window a context owns (R432). -/
def State.clearWindows (s : State) (x : Nat) : State :=
  (List.range 16).foldl (fun s i =>
    let b := dieBase (4 + i / 8) + 0x30000 + 0x20 * (i % 8)
    if fld (s.reg (b + 16)) 5 0 = x then s.setRegFld b 0 0 0 else s) s

/-- close: discards the context's messages and park slots, unbinds and disables its channels, releases its incumbent
slots and protected windows (R236, R334, R432). -/
def State.closeCtx (s : State) (x : Nat) : State :=
  let s := s.allCores fun _ k =>
    let k := k.discard x
    { k with chans := (List.range 16).foldl (fun t n =>
        let h := k.channel n
        if h.ctx = x ∨ h.actCtx = x then Table.put t n { h with en := h.ctx ≠ x && h.en, group := none, also := [], was := none } else t) k.chans }
  let s := ((s.releaseIncs x).clearWindows x).modCtx x fun u => { u with phase := .free }
  { s with marks := s.marks.map fun e => if e.1 % 64 = x then (e.1, { e.2 with pending := [] }) else e }

/-- An event on %ctxctl of context `x`: 1 open, 2 quiesce or resume, 3 close; one the state does not admit sets err
(R236, R237). -/
def State.ctxEvent (s : State) (x ev : Nat) : State :=
  match ev, (s.ctx x).phase with
  | 0, _ => s
  | 1, .free => s.heldBack (s.openCtx x)
  | 2, .opened => s.modCtx x fun u => { u with phase := .quiescing }
  | 2, .quiesced => s.modCtx x fun u => { u with phase := .opened }
  | 3, .quiesced => s.closeCtx x
  | _, _ => s.modCtx x fun u => { u with err := true }

/-- A write of %ctxctl: err is W1C, then the event (R237). -/
def State.ctxWrite (s : State) (x : Nat) (v : Word) : State :=
  (if bit v 7 then s.modCtx x fun u => { u with err := false } else s).ctxEvent x (fld v 1 0)

/-! ## Meanings -/

/-- CTX_OPEN (R236). -/
def execCtxOpen (who : Agent) (x : Nat) (s : State) : Res := .next (s.byWho who (0x60 + x) (s.ctxEvent x 1))

/-- CTX_QUIESCE: the quiesce event, where the context is OPEN (R236). -/
def execCtxQuiesce (who : Agent) (x : Nat) (s : State) : Res :=
  .next (if (s.ctx x).phase = .quiesced then s else s.byWho who (0x60 + x) (s.ctxEvent x 2))

/-- CTX_RESUME: the resume event, where the context is QUIESCED (R236). -/
def execCtxResume (who : Agent) (x : Nat) (s : State) : Res :=
  .next (if (s.ctx x).phase = .opened then s else s.byWho who (0x60 + x) (s.ctxEvent x 2))

/-- CTX_CLOSE (R236). -/
def execCtxClose (who : Agent) (x : Nat) (s : State) : Res := .next (s.byWho who (0x60 + x) (s.ctxEvent x 3))

/-- A core keeps a quiescing context from being QUIESCED (R236): a handler of it runs or is about to start, or it is
resident with a counter or a token count that is not zero. -/
def CoreSt.busyWith (k : CoreSt) (x : Nat) : Bool :=
  (k.running && k.ctx == x) || (match k.next with | some st => st.ctx == x | none => false) || (k.later.any fun e => e.1.ctx == x)
    || (k.ctx == x && ((k.ocnt.any fun e => e.2 != 0) || k.board.any fun e => e.2 != 0))

/-- Write the records of the cores that hold a context; none while a record does not translate. -/
def State.saveAll (s : State) (x : Nat) : List Nat → Option State
  | [] => some s
  | c :: cs =>
    if (s.core c).ctx = x then (s.saveCore c).bind fun s => s.saveAll x cs else s.saveAll x cs

/-- CTX_QUIESCED: no handler of the context runs and its counters and token registers are zero on every core; every
core's register state goes to its save area (R236, R245). -/
def execCtxQuiesced (x : Nat) (s : State) : Res :=
  .next (if (s.ctx x).phase ≠ .quiescing ∨ (List.range 128).any (fun c => (s.core c).busyWith x) then s
    else match s.saveAll x (List.range 128) with
      | none => s
      | some s => s.modCtx x fun u => { u with phase := .quiesced })

end Sys2Proof.Machine
end

