-- ==== Sys2Proof/Machine/Beaver.lean ====
section
/-! DEFINITION. The Beaver (R393 to R404): sensing, the state table of R396, the evacuation sequence (R397), traps (R400),
targets and valves (R394, R395), ZCMD, ZBUDGET, and who may write a die's registers (R402, R412, R425, R426). Durations are
counted in control intervals of 10 µs. -/

namespace Sys2Proof.Machine

/-! ## Who may write a device register -/

/-- May an agent write the device register at `pa` now: a core's running handler as R402, R437 and R442 say, or the owner
master, with no earlier write of its own that waits (R383, R424, R426). -/
def State.mayWrite (s : State) (who : Agent) (pa : Nat) : Bool :=
  match who with
  | .core c => (s.core c).running && s.coreWrite c (s.core c).ctx (s.core c).priv pa 8 == .ok
  | .master m => decide (m < 3) && s.owner == m && !s.behind who

/-- A write by an agent: performed where it may write; another master's is dropped and posts T_ACCESS (R425, R427), another
core's changes nothing, its trap being its own instruction's. -/
def State.regBy (s : State) (who : Agent) (pa : Nat) (f : State) : State :=
  if s.mayWrite who pa then f
  else match who with
    | .core _ => s
    | .master m => if s.behind who then s else s.accessEvent (s.targetCtx pa) (pa - 0xF000100000000) 0 m

/-! ## Reports and state changes -/

/-- A zone's trap (R400): a report to ch0 of its cluster with its sticky bit. -/
def State.zoneReport (s : State) (c cause : Nat) : State :=
  let s := if cause = tZoneDry then s.setRegFld (zsensPa c) 43 43 1
    else if cause = tZoneFlow then s.setRegFld (zsensPa c) 42 42 1
    else if cause = tZoneTemp then s.setRegFld (zsensPa c) 41 41 1 else s
  s.report c { src := 3, cause, ctx := 0 }

def State.zFlow (s : State) (c : Nat) : Nat := fld (s.zsens c) 53 45
def State.zTemp (s : State) (c : Nat) : Nat := fld (s.zsens c) 63 54
def State.zDryBit (s : State) (c : Nat) : Bool := bit (s.zsens c) 44

/-- Measured flow at or above min − 25. -/
def State.flowOk (s : State) (c : Nat) : Bool := decide (s.zMin c ≤ s.zFlow c + 25)

def State.zoneOf (s : State) (c : Nat) : Zone := (s.cluster c).zone
def State.modZone (s : State) (c : Nat) (f : Zone → Zone) : State := s.modCluster c fun u => { u with zone := f u.zone }

/-- To LOCKED from a failure: the valve closed, T_ZONE_LOCKED raised (R396). -/
def State.lockZone (s : State) (c : Nat) : State := ((s.enterZ c zLocked).tableValve c 0).zoneReport c tZoneLocked

/-- To ALARM with a trap: valve 15 (R396). -/
def State.alarmZone (s : State) (c cause : Nat) : State := ((s.enterZ c zAlarm).tableValve c 15).zoneReport c cause

/-- Out of ALARM or EVACUATING: FLOWING, or WET-IDLE when min is 0 (R396). -/
def State.recoverZone (s : State) (c : Nat) : State :=
  if s.zMin c = 0 then (s.enterZ c zWetIdle).tableValve c 1 else s.enterZ c zFlowing

/-- Start evacuating: step 1 of the first attempt (R397). -/
def State.evacuate (s : State) (c : Nat) : State :=
  let s := ((s.enterZ c zEvac).modZone c fun z => { z with step := 1 }).tableValve c 0
  (s.setZAttempts c ((s.zAttempts c + 1) % 4)).zoneReport c tZoneDry

/-- The states that a dry detector or an evacuate command takes to EVACUATING. -/
def zWet (st : Nat) : Bool := st == zWetIdle || st == zAllocated || st == zFlowing || st == zAlarm

/-! ## Conditions of the table -/

/-- The dry detector is asserted: EVACUATING (R396). -/
def State.dryDetect (s : State) (c : Nat) : State := if zWet (s.zState c) ∧ s.zDryBit c then s.evacuate c else s

/-- 250 ms pass in PRIMING: DRY with one more attempt, or LOCKED at the third (R396). -/
def State.primeTimeout (s : State) (c : Nat) : State :=
  if s.zState c = zPriming ∧ (s.zoneOf c).time ≥ 25000 then
    let s := s.setZAttempts c ((s.zAttempts c + 1) % 4)
    if s.zAttempts c ≥ 3 then s.lockZone c else (s.enterZ c zDry).tableValve c 0
  else s

/-- Dry clear with flow of 100 or more for 50 ms: WET-IDLE (R396). -/
def State.primed (s : State) (c : Nat) : State :=
  if s.zState c = zPriming ∧ (s.zoneOf c).good ≥ 5000 then ((s.enterZ c zWetIdle).setZAttempts c 0).tableValve c 1 else s

/-- ALLOCATED with its flow: FLOWING (R396). -/
def State.allocFlows (s : State) (c : Nat) : State :=
  if s.zState c = zAllocated ∧ s.flowOk c then s.enterZ c zFlowing else s

/-- 20 ms pass in ALLOCATED: ALARM with T_ZONE_FLOW (R396). -/
def State.allocTimeout (s : State) (c : Nat) : State :=
  if s.zState c = zAllocated ∧ (s.zoneOf c).time ≥ 2000 then s.alarmZone c tZoneFlow else s

/-- 50 ms of good flow and temperature in ALARM: FLOWING or WET-IDLE (R396). -/
def State.alarmRecover (s : State) (c : Nat) : State :=
  if s.zState c = zAlarm ∧ (s.zoneOf c).good ≥ 5000 then s.recoverZone c else s

/-- 500 ms in ALARM: LOCKED (R396). -/
def State.alarmLock (s : State) (c : Nat) : State :=
  if s.zState c = zAlarm ∧ (s.zoneOf c).time ≥ 50000 then s.lockZone c else s

/-- The temperature trap: two intervals above tlim (R400). -/
def State.tempTrap (s : State) (c : Nat) : State :=
  let st := s.zState c
  if (st = zWetIdle ∨ st = zAllocated ∨ st = zFlowing) ∧ (s.zoneOf c).hot ≥ 2 then s.alarmZone c tZoneTemp else s

/-- The flow trap: three intervals of low flow under power (R400). -/
def State.flowTrap (s : State) (c : Nat) : State :=
  if s.zState c = zFlowing ∧ (s.zoneOf c).low ≥ 3 then s.alarmZone c tZoneFlow else s

/-! ## Evacuation (R397) -/

/-- Go to a step of the sequence; step 3 and 4 set the valve. -/
def State.evacStep (s : State) (c n : Nat) : State :=
  let s := s.modZone c fun z => { z with step := n, time := 0, purge := n == 2 }
  match n with
  | 3 => s.tableValve c 15
  | 4 => s.tableValve c 8
  | _ => s

/-- An attempt fails: step 2 again while attempts is below 3, else LOCKED. -/
def State.evacFail (s : State) (c : Nat) : State :=
  if s.zAttempts c < 3 then (s.setZAttempts c (s.zAttempts c + 1)).evacStep c 2 else s.lockZone c

/-- The verify test of step 5, as the sensors stand. -/
def State.evacGood (s : State) (c : Nat) : Bool :=
  decide (100 ≤ s.zFlow c) && !s.zDryBit c && decide (s.zTemp c ≤ s.tlim (dieOf c))

/-- What the sequence does when its step's time or test ends it; nothing while the step goes on. -/
def State.evacEnd (s : State) (c : Nat) : State :=
  if s.zState c ≠ zEvac then s
  else
    let z := s.zoneOf c
    match z.step with
    | 1 => if z.time ≥ 1 then s.evacStep c 2 else s
    | 2 => if z.time ≥ 2000 then s.evacStep c 3 else s
    | 3 => if z.time ≥ 3000 then s.evacStep c 4 else s
    | 4 => if ¬ s.zDryBit c then s.evacStep c 5 else if z.time ≥ 20000 then s.evacFail c else s
    | _ =>
      if ¬ s.evacGood c then s.evacFail c
      else if z.time ≥ 5000 then (s.setZAttempts c 0).recoverZone c
      else s

/-! ## The control interval (R393, R401) -/

/-- Count one interval for a zone: the time in its state or step, and the good, low-flow and hot runs. -/
def State.countZone (s : State) (c : Nat) : State :=
  let st := s.zState c
  let d := dieOf c
  let hot := decide (s.zTemp c > s.tlim d)
  let good := if st = zPriming then !s.zDryBit c && decide (100 ≤ s.zFlow c) else s.flowOk c && !hot
  let low := !s.flowOk c && decide (fld (s.reg (dieBase d + 0x30100 + 8 * (c % 32))) 47 32 > fld (s.zlimit d) 33 20)
  s.modZone c fun z =>
    { z with time := z.time + 1, good := if good then z.good + 1 else 0, low := if low then z.low + 1 else 0,
             hot := if hot then z.hot + 1 else 0 }

/-- One zone's interval in the order of R401: the dry detector, the temperature trap, the flow trap, then what time brings. -/
def State.zoneInterval (s : State) (c : Nat) : State :=
  let st := s.zState c
  let s := s.countZone c
  let s := s.dryDetect c
  let s := s.tempTrap c
  let s := s.flowTrap c
  if s.zState c ≠ st then s
  else (((((((s.primed c).primeTimeout c).allocFlows c).allocTimeout c).alarmRecover c).alarmLock c).evacEnd c)

/-- The zones of a die in ascending prio, then ascending number (R395). -/
def State.zoneOrder (s : State) (d : Nat) : List Nat :=
  (List.range 16).flatMap fun q => ((List.range 32).map (32 * d + ·)).filter fun c => fld (s.zalloc c) 47 44 = q

/-- Does the Beaver set this zone's target (R395)? -/
def zRegulated (st : Nat) : Bool := st == zAllocated || st == zFlowing

/-- Hand the surplus to the zones in order, each up to its max. -/
def State.giveSurplus (s : State) (surplus : Nat) : List Nat → State
  | [] => s
  | c :: cs =>
    let extra := min surplus (s.zMax c - s.zMin c)
    (s.setRegFld (zallocPa c) 25 17 (s.zMin c + extra)).giveSurplus (surplus - extra) cs

/-- The targets of a die's ALLOCATED and FLOWING zones (R395). -/
def State.setTargets (s : State) (d : Nat) : State :=
  let zs := (s.zoneOrder d).filter fun c => zRegulated (s.zState c)
  s.giveSurplus (s.zbudget d - zs.foldl (fun a c => a + s.zMin c) 0) zs

/-- One zone's valve: regulated by one position (R394), or as its state or evacuation step sets it (R396, R397). -/
def State.setValve (s : State) (c : Nat) : State :=
  let st := s.zState c
  let v := s.zValve c
  if zRegulated st then
    if s.zFlow c < s.zTarget c ∧ v < 15 then s.setZValve c (v + 1)
    else if s.zFlow c > s.zTarget c + 25 ∧ v > 0 then s.setZValve c (v - 1) else s
  else if st = zPriming then s.setZValve c 8
  else if st = zWetIdle then s.setZValve c 1
  else if st = zAlarm then s.setZValve c 15
  else if st = zEvac then
    match (s.zoneOf c).step with
    | 1 => s.setZValve c 0
    | 3 => s.setZValve c (if (s.zoneOf c).time / 500 % 2 = 0 then 15 else 0)
    | 4 => s.setZValve c 8
    | _ => s
  else s.setZValve c 0

/-- The pressure lies outside plo to phi (R400). -/
def State.pressOut (s : State) (d : Nat) : Bool :=
  let p := fld (s.reg (dieBase d + 0x20230)) 9 0
  decide (p < fld (s.zlimit d) 53 44) || decide (p > fld (s.zlimit d) 43 34)

/-- PRESSURE_EXCURSION's condition (R400): out of band and not yet known so; T_ZONE_PRESSURE once, and holds. -/
def State.pressTrap (s : State) (d : Nat) : State :=
  if s.pressOut d ∧ ¬ bit (s.reg (dieBase d + 0x20230)) 10 then
    ((s.setRegFld (dieBase d + 0x20230) 10 10 1).modDie d fun u => { u with pressHeld := true, bandTime := 0 }).report (32 * d)
      { src := 3, cause := tZonePressure, ctx := 0 }
  else s

/-- The pressure's interval: an excursion, or one more interval in band; 50 ms in band release the hold. -/
def State.pressInterval (s : State) (d : Nat) : State :=
  if s.pressOut d then (s.pressTrap d).modDie d fun u => { u with bandTime := 0 }
  else (s.setRegFld (dieBase d + 0x20230) 10 10 0).modDie d fun u =>
    { u with bandTime := u.bandTime + 1, pressHeld := u.pressHeld && decide (u.bandTime + 1 < 5000) }

/-- The sensors of a die are sampled: per zone temperature, flow and dry detector as ZSENS lays them out, and the manifold
pressure (R393, R402, R403). -/
def State.sample (s : State) (d press : Nat) (sens : List Word) : State :=
  let s := s.setRegFld (dieBase d + 0x20230) 9 0 press
  (List.range 32).foldl (fun s z => s.setRegFld (zsensPa (32 * d + z)) 63 44 (fld (sens.getD z 0) 63 44)) s

def zonesOf (d : Nat) : List Nat := (List.range 32).map (32 * d + ·)

/-! ## Meanings -/

/-- BEAVER_INTERVAL: one control interval of a die (R393, R401), whose power step is due after it (R410). -/
def execBeaverInterval (d : Nat) (sens : List Word) (press : Nat) (s : State) : Res :=
  .next (if d ≥ 4 then s
    else
      let s := (s.sample d press sens).pressInterval d
      let s := (zonesOf d).foldl State.zoneInterval s
      let s := (s.setTargets d).modDie d fun u => { u with stepDue := true }
      if (s.die d).pressHeld then s else (zonesOf d).foldl State.setValve s)

/-- A step of one zone of a die, if there is one. -/
def State.onZone (s : State) (d z : Nat) (f : State → Nat → State) : State := if d < 4 ∧ z < 32 then f s (32 * d + z) else s

/-- PRIME_TIMEOUT (R396). -/
def execPrimeTimeout (d z : Nat) (s : State) : Res := .next (s.onZone d z State.primeTimeout)
/-- ALLOC_TIMEOUT (R396). -/
def execAllocTimeout (d z : Nat) (s : State) : Res := .next (s.onZone d z State.allocTimeout)
/-- ALARM_LOCK_TIMEOUT (R396). -/
def execAlarmLockTimeout (d z : Nat) (s : State) : Res := .next (s.onZone d z State.alarmLock)
/-- ALARM_RECOVER (R396). -/
def execAlarmRecover (d z : Nat) (s : State) : Res := .next (s.onZone d z State.alarmRecover)
/-- EVAC_STEP_END (R397). -/
def execEvacStepEnd (d z : Nat) (s : State) : Res := .next (s.onZone d z State.evacEnd)
/-- DRY_DETECT (R396). -/
def execDryDetect (d z : Nat) (s : State) : Res := .next (s.onZone d z State.dryDetect)
/-- PRESSURE_EXCURSION (R400). -/
def execPressureExcursion (d : Nat) (s : State) : Res := .next (if d < 4 then s.pressTrap d else s)

/-! ## Commands (R396, R403, R404) -/

/-- A command that the state does not admit sets cerr and is otherwise ignored. -/
def State.cerr (s : State) (d : Nat) : State := s.setRegFld (dieBase d + 0x20230) 12 12 1

/-- A ZCMD command on cluster `c`'s zone: 0 none, 1 prime, 2 evacuate, 3 lock, 4 unlock, others set cerr. -/
def State.zcmd (s : State) (c cmd : Nat) : State :=
  let st := s.zState c
  match cmd with
  | 0 => s
  | 1 => if st = zDry then (s.enterZ c zPriming).tableValve c 8 else s.cerr (dieOf c)
  | 2 => if zWet st then s.evacuate c else s.cerr (dieOf c)
  | 3 => if st ≠ zLocked then (s.enterZ c zLocked).tableValve c 0 else s.cerr (dieOf c)
  | 4 => if st = zLocked then (s.enterZ c zDry).setZAttempts c 0 else s.cerr (dieOf c)
  | _ => s.cerr (dieOf c)

def zcmdPa (d : Nat) : Nat := dieBase d + 0x20238

/-- A command by an agent that may write ZCMD. -/
def State.zcmdBy (s : State) (who : Agent) (d z cmd : Nat) : State :=
  s.regBy who (zcmdPa d) (s.onZone d z fun s c => s.zcmd c cmd)

/-- ZCMD_PRIME (R396). -/
def execZcmdPrime (who : Agent) (d z : Nat) (s : State) : Res := .next (s.zcmdBy who d z 1)
/-- ZCMD_EVACUATE (R396). -/
def execZcmdEvacuate (who : Agent) (d z : Nat) (s : State) : Res := .next (s.zcmdBy who d z 2)
/-- ZCMD_LOCK (R396). -/
def execZcmdLock (who : Agent) (d z : Nat) (s : State) : Res := .next (s.zcmdBy who d z 3)
/-- ZCMD_UNLOCK (R396). -/
def execZcmdUnlock (who : Agent) (d z : Nat) (s : State) : Res := .next (s.zcmdBy who d z 4)

def zbudgetPa (d : Nat) : Nat := dieBase d + 0x20200

/-- A ZBUDGET write takes effect if the four budgets then sum to at most 16,000 and the new one is at least the die's sum of
mins; otherwise berr is set (R404). -/
def State.setBudget (s : State) (d : Nat) (v : Word) : State :=
  let n := fld v 13 0
  let others := ((List.range 4).filter (· ≠ d)).foldl (fun a e => a + s.zbudget e) 0
  if n + others ≤ 16000 ∧ s.sumMins d ≤ n then s.setRegFld (zbudgetPa d) 13 0 n
  else s.setRegFld (dieBase d + 0x20230) 11 11 1

/-- ZBUDGET_WRITE (R404). -/
def execZbudgetWrite (who : Agent) (d : Nat) (v : Word) (s : State) : Res :=
  .next (if d < 4 then s.regBy who (zbudgetPa d) (s.setBudget d v) else s)

end Sys2Proof.Machine
end

