-- ==== Sys2Proof/Machine/Float.lean ====
section
/-! DEFINITION. Number formats and exact arithmetic (R25 to R42, R51): a value is decoded to an exact dyadic, computed
on exactly, and rounded once to a format, with the flags of R36. -/

namespace Sys2Proof.Machine

/-- A floating-point format (R26). -/
structure Fmt where
  eb : Nat
  mb : Nat
  bias : Nat
  e4m3 : Bool
  deriving DecidableEq, Repr

def Fmt.f32 : Fmt := ⟨8, 23, 127, false⟩
def Fmt.f16 : Fmt := ⟨5, 10, 15, false⟩
def Fmt.bf16 : Fmt := ⟨8, 7, 127, false⟩
def Fmt.e4m3f : Fmt := ⟨4, 3, 7, true⟩
def Fmt.e5m2 : Fmt := ⟨5, 2, 15, false⟩

/-- The format of a floating sfx code (R63). -/
def fmtOf (sfx : Nat) : Option Fmt :=
  match sfx with
  | 0 => some .f32
  | 1 => some .f16
  | 2 => some .bf16
  | 3 => some .e4m3f
  | 4 => some .e5m2
  | _ => none

/-- The width in bits of the values of an sfx code (R29, R63, R119). -/
def sfxBits (sfx : Nat) : Nat :=
  match sfx with
  | 0 | 8 | 9 | 12 => 32
  | 1 | 2 => 16
  | 3 | 4 | 6 | 7 => 8
  | 5 => 4
  | _ => 64

/-- Does the sfx code name a signed integer format (R29)? -/
def sfxSigned (sfx : Nat) : Bool := sfx == 6 || sfx == 8 || sfx == 10

/-- Is the sfx an FP8 format (R28)? -/
def sfxFp8 (sfx : Nat) : Bool := sfx == 3 || sfx == 4

/-- A decoded value: NaN, an infinity, or (-1)^neg * m * 2^e exactly. -/
inductive FVal where
  | nan
  | inf (neg : Bool)
  | fin (neg : Bool) (m : Nat) (e : Int)
  deriving DecidableEq, Repr

/-- The sticky flags (R36): BO NV DZ OF UF NX are bits 5 to 0. -/
abbrev Flags := BitVec 6
def fNX : Flags := 1
def fUF : Flags := 2
def fOF : Flags := 4
def fDZ : Flags := 8
def fNV : Flags := 16
def fBO : Flags := 32

/-- The value of a bit pattern (R26). -/
def FVal.decode (fm : Fmt) (x : Nat) : FVal :=
  let neg := x / 2 ^ (fm.eb + fm.mb) % 2 == 1
  let ex := x / 2 ^ fm.mb % 2 ^ fm.eb
  let m := x % 2 ^ fm.mb
  let special := if fm.e4m3 then ex == 15 && m == 7 else ex == 2 ^ fm.eb - 1
  if special then (if m = 0 then .inf neg else .nan)
  else if ex = 0 then .fin neg m (1 - (fm.bias : Int) - fm.mb)
  else .fin neg (2 ^ fm.mb + m) ((ex : Int) - fm.bias - fm.mb)

def Fmt.signBit (fm : Fmt) (neg : Bool) : Nat := if neg then 2 ^ (fm.eb + fm.mb) else 0
/-- The largest finite magnitude (R26). -/
def Fmt.maxFinite (fm : Fmt) : Nat := if fm.e4m3 then 0x7E else (2 ^ fm.eb - 1) * 2 ^ fm.mb - 1
/-- The infinity pattern; E4M3 has none (R26). -/
def Fmt.infBits (fm : Fmt) : Nat := (2 ^ fm.eb - 1) * 2 ^ fm.mb
/-- The canonical NaN (R26, R27). -/
def Fmt.nan (fm : Fmt) : Nat := if fm.e4m3 then 0x7F else (2 ^ fm.eb - 1) * 2 ^ fm.mb + 2 ^ (fm.mb - 1)

/-- The rounding modes (R33); a stochastic rounding carries bits [15:0] of its random element (R35). -/
inductive Rm where
  | rne | rtz | rdn | rup
  | rs (r : Nat)
  deriving DecidableEq, Repr

/-- The mode a 3-bit rm field names; 0b100 is stochastic with the random element `r` (R33). -/
def Rm.of (rm : Nat) (r : Nat := 0) : Rm :=
  match rm with
  | 1 => .rtz
  | 2 => .rdn
  | 3 => .rup
  | 4 => .rs (r % 2 ^ 16)
  | _ => .rne

/-- floor(log2(num / den)) for non-zero num and den. -/
def ilog2 (num den : Nat) : Int :=
  let k : Int := (num.log2 : Int) - den.log2
  let ge := if 0 ≤ k then decide (den * 2 ^ k.toNat ≤ num) else decide (den ≤ num * 2 ^ (-k).toNat)
  if ge then k else k - 1

/-- Does a magnitude with quotient `n` and remainder `rem` over `d` round away from zero? (R33, R35) -/
def roundsUp (rm : Rm) (neg : Bool) (n rem d : Nat) : Bool :=
  match rm with
  | .rne => decide (2 * rem > d) || (decide (2 * rem = d) && n % 2 == 1)
  | .rtz => false
  | .rdn => neg && rem != 0
  | .rup => !neg && rem != 0
  | .rs r => rem != 0 && decide (r < rem * 2 ^ 16 / d)

/-- The overflowed magnitude of R34. -/
def overflowed (fm : Fmt) (rm : Rm) (neg : Bool) : Nat :=
  if fm.e4m3 then fm.maxFinite
  else match rm with
    | .rne | .rs _ => fm.infBits
    | .rtz => fm.maxFinite
    | .rdn => if neg then fm.infBits else fm.maxFinite
    | .rup => if neg then fm.maxFinite else fm.infBits

/-- Round the exact value (-1)^neg * num / den to a format (R33 to R36). `flush` is the FP8 flush of R28 (it acts on FP8
only), `sat` the saturation of a block conversion, which sets NX and not OF (R38). -/
def roundRat (fm : Fmt) (rm : Rm) (flush sat neg : Bool) (num den : Nat) : Nat × Flags :=
  if num = 0 then (fm.signBit neg, 0) else
  let emin : Int := 1 - (fm.bias : Int)
  let ex := ilog2 num den
  let tiny := decide (ex < emin)
  if flush && tiny then (fm.signBit neg, fUF ||| fNX) else
  let q : Int := (if tiny then emin else ex) - fm.mb
  let n' := if 0 ≤ q then num else num * 2 ^ (-q).toNat
  let d' := if 0 ≤ q then den * 2 ^ q.toNat else den
  let n := n' / d'
  let rem := n' % d'
  let n2 := if roundsUp rm neg n rem d' then n + 1 else n
  let mag := if n2 < 2 ^ fm.mb then n2 else (q + fm.mb + fm.bias).toNat * 2 ^ fm.mb + (n2 - 2 ^ fm.mb)
  if mag > fm.maxFinite then
    if sat then (fm.signBit neg + fm.maxFinite, fNX) else (fm.signBit neg + overflowed fm rm neg, fOF ||| fNX)
  else
    (fm.signBit neg + mag, (if rem = 0 then 0 else fNX) ||| (if tiny && rem != 0 then fUF else 0))

/-- A dyadic m * 2^e as a fraction. -/
def dyadic (m : Nat) (e : Int) : Nat × Nat := if 0 ≤ e then (m * 2 ^ e.toNat, 1) else (m, 2 ^ (-e).toNat)

/-- Round a decoded value to a format; an infinity sent to E4M3 overflows (R34). -/
def FVal.round (fm : Fmt) (rm : Rm) (flush : Bool) : FVal → Nat × Flags
  | .nan => (fm.nan, 0)
  | .inf neg => if fm.e4m3 then (fm.signBit neg + fm.maxFinite, fOF ||| fNX) else (fm.signBit neg + fm.infBits, 0)
  | .fin neg m e => roundRat fm rm (flush && decide (fm.eb + fm.mb = 7)) false neg (dyadic m e).1 (dyadic m e).2

/-- FP8 subnormal inputs read as zero when the flush flag is set (R28). -/
def FVal.decodeFlush (fm : Fmt) (flush : Bool) (x : Nat) : FVal :=
  if flush && decide (fm.eb + fm.mb = 7) && x / 2 ^ fm.mb % 2 ^ fm.eb == 0 then
    .fin (x / 2 ^ (fm.eb + fm.mb) % 2 == 1) 0 0
  else .decode fm x

/-- The code of an FP8 input as an operation reads it: with the flush flag a subnormal is the zero of its sign (R28). -/
def flushCode (sfx : Nat) (flush : Bool) (x : Nat) : Nat :=
  match fmtOf sfx with
  | some fm =>
    if flush && decide (fm.eb + fm.mb = 7) && x / 2 ^ fm.mb % 2 ^ fm.eb == 0 then x / 2 ^ (fm.eb + fm.mb) % 2 * 2 ^ (fm.eb + fm.mb) else x
  | none => x

/-- A finite value as an integer multiple of 2^e0, for e0 at most its exponent. -/
def scaled (neg : Bool) (m : Nat) (e e0 : Int) : Int :=
  let v : Int := (m : Int) * 2 ^ (e - e0).toNat
  if neg then -v else v

def FVal.neg : FVal → FVal
  | .nan => .nan
  | .inf n => .inf (!n)
  | .fin n m e => .fin (!n) m e

/-- The exact sum of two values, and whether it is invalid; the sign of a zero sum is that of R28. -/
def FVal.add (rm : Rm) : FVal → FVal → FVal × Bool
  | .nan, _ => (.nan, false)
  | _, .nan => (.nan, false)
  | .inf a, .inf b => if a = b then (.inf a, false) else (.nan, true)
  | .inf a, .fin .. => (.inf a, false)
  | .fin .., .inf b => (.inf b, false)
  | .fin n1 m1 e1, .fin n2 m2 e2 =>
    let e0 := if e1 ≤ e2 then e1 else e2
    let v := scaled n1 m1 e1 e0 + scaled n2 m2 e2 e0
    if v = 0 then (.fin (if n1 = n2 then n1 else rm == .rdn) 0 0, false)
    else (.fin (decide (v < 0)) v.natAbs e0, false)

/-- The exact product, and whether it is invalid (0 times an infinity). -/
def FVal.mul : FVal → FVal → FVal × Bool
  | .nan, _ => (.nan, false)
  | _, .nan => (.nan, false)
  | .inf a, .inf b => (.inf (a != b), false)
  | .inf a, .fin b m _ => if m = 0 then (.nan, true) else (.inf (a != b), false)
  | .fin a m _, .inf b => if m = 0 then (.nan, true) else (.inf (a != b), false)
  | .fin a m1 e1, .fin b m2 e2 => (.fin (a != b) (m1 * m2) (e1 + e2), false)

/-- Round a value computed exactly; NV when an operation on non-NaN inputs made a NaN (R36). -/
def finish (fm : Fmt) (rm : Rm) (flush : Bool) (r : FVal × Bool) : Nat × Flags :=
  let (x, f) := r.1.round fm rm flush
  (x, if r.2 then f ||| fNV else f)

def fAdd (fm : Fmt) (rm : Rm) (x y : FVal) : Nat × Flags := finish fm rm false (x.add rm y)
def fMul (fm : Fmt) (rm : Rm) (x y : FVal) : Nat × Flags := finish fm rm false (x.mul y)

/-- x * y + z with one rounding (R145, R261). DESIGN CHOICE (log 80): 0 times infinity plus a NaN sets no NV. -/
def fFma (fm : Fmt) (rm : Rm) (x y z : FVal) : Nat × Flags :=
  let (p, inv) := x.mul y
  if inv then (fm.nan, if z = .nan then 0 else fNV) else finish fm rm false (p.add rm z)

/-- x / y with one rounding (R145): 0/0 and inf/inf set NV, a finite non-zero over zero sets DZ. -/
def fDiv (fm : Fmt) (rm : Rm) (x y : FVal) : Nat × Flags :=
  match x, y with
  | .nan, _ | _, .nan => (fm.nan, 0)
  | .inf _, .inf _ => (fm.nan, fNV)
  | .inf a, .fin b _ _ => (fm.signBit (a != b) + fm.infBits, 0)
  | .fin a _ _, .inf b => (fm.signBit (a != b), 0)
  | .fin a m1 e1, .fin b m2 e2 =>
    if m2 = 0 then (if m1 = 0 then (fm.nan, fNV) else (fm.signBit (a != b) + fm.infBits, fDZ))
    else
      let e := e1 - e2
      let num := if 0 ≤ e then m1 * 2 ^ e.toNat else m1
      let den := if 0 ≤ e then m2 else m2 * 2 ^ (-e).toNat
      roundRat fm rm false false (a != b) num den

/-- Integer square root, bit by bit. -/
def isqrtAux : Nat → Nat → Nat → Nat
  | 0, _, r => r
  | k + 1, n, r => isqrtAux k n (if (r + 2 ^ k) * (r + 2 ^ k) ≤ n then r + 2 ^ k else r)
def isqrt (n : Nat) : Nat := isqrtAux 72 n 0

/-- The square root with one rounding: of -0 it is -0, below zero NaN with NV (R145). -/
def fSqrt (fm : Fmt) (rm : Rm) : FVal → Nat × Flags
  | .nan => (fm.nan, 0)
  | .inf neg => if neg then (fm.nan, fNV) else (fm.infBits, 0)
  | .fin neg m e =>
    if m = 0 then (fm.signBit neg, 0)
    else if neg then (fm.nan, fNV)
    else
      let k : Int := if e % 2 = 0 then 64 else 65
      let n := m * 2 ^ k.toNat
      let r := isqrt n
      let sticky := if r * r = n then 0 else 1
      let (num, den) := dyadic (2 * r + sticky) ((e - k) / 2 - 1)
      roundRat fm rm false false false num den

/-- Magnitude order of two finite or infinite values: -1, 0 or 1; -0 equals +0. -/
def FVal.cmp (x y : FVal) : Option Int :=
  match x, y with
  | .nan, _ | _, .nan => none
  | .inf a, .inf b => some (if a = b then 0 else if a then -1 else 1)
  | .inf a, .fin .. => some (if a then -1 else 1)
  | .fin .., .inf b => some (if b then 1 else -1)
  | .fin n1 m1 e1, .fin n2 m2 e2 =>
    let e0 := if e1 ≤ e2 then e1 else e2
    let v := scaled n1 m1 e1 e0 - scaled n2 m2 e2 e0
    some (if v = 0 then 0 else if v < 0 then -1 else 1)

def FVal.isNeg : FVal → Bool
  | .nan => false
  | .inf n | .fin n _ _ => n

/-- min and max of two patterns: -0 below +0; one NaN gives the other, two the canonical NaN; no flag (R146). -/
def fMinMax (fm : Fmt) (isMax : Bool) (x y : Nat) : Nat :=
  let a := FVal.decode fm x
  let b := FVal.decode fm y
  match a.cmp b with
  | none => if a = .nan then (if b = .nan then fm.nan else y) else x
  | some o =>
    let xLess := if o = 0 then a.isNeg && !b.isNeg else decide (o < 0)
    if xLess = isMax then y else x

/-- eq, ne, lt, le (0 to 3): a NaN gives 0, 1, and for lt and le 0 with NV (R147). -/
def fCmp (fm : Fmt) (rel : Nat) (x y : Nat) : Bool × Flags :=
  match (FVal.decode fm x).cmp (.decode fm y), rel with
  | none, 0 => (false, 0)
  | none, 1 => (true, 0)
  | none, _ => (false, fNV)
  | some o, 0 => (decide (o = 0), 0)
  | some o, 1 => (decide (o ≠ 0), 0)
  | some o, 2 => (decide (o < 0), 0)
  | some o, _ => (decide (o ≤ 0), 0)

/-- Flip or clear the sign; a NaN gives the canonical NaN (R146). -/
def fNegAbs (fm : Fmt) (abs : Bool) (x : Nat) : Nat :=
  if FVal.decode fm x = .nan then fm.nan
  else
    let m := x % 2 ^ (fm.eb + fm.mb)
    if abs then m else fm.signBit (x / 2 ^ (fm.eb + fm.mb) % 2 == 0) + m

/-- Float to integer: rounded in rm, saturated to [lo, hi]; NaN gives 0; NaN, infinity and a value out of range before it is
rounded set NV alone, as R260's −0.75 does (R37, log 17). -/
def fToInt (rm : Rm) (lo hi : Int) : FVal → Int × Flags
  | .nan => (0, fNV)
  | .inf neg => (if neg then lo else hi, fNV)
  | .fin neg m e =>
    let (num, den) := dyadic m e
    let n := num / den
    let n2 := if roundsUp rm neg n (num % den) den then n + 1 else n
    let v : Int := if neg then -(n2 : Int) else n2
    if neg ∧ -lo * den < num then (lo, fNV) else if ¬ neg ∧ hi * den < num then (hi, fNV)
    else (v, if num % den = 0 then 0 else fNX)

/-- Integer to float with one rounding (R37). -/
def fOfInt (fm : Fmt) (rm : Rm) (flush : Bool) (v : Int) : Nat × Flags :=
  (FVal.fin (decide (v < 0)) v.natAbs 0).round fm rm flush

/-- The range of an integer sfx (R29). -/
def intLo (sfx : Nat) : Int := if sfxSigned sfx then -(2 ^ (sfxBits sfx - 1) : Int) else 0
def intHi (sfx : Nat) : Int := if sfxSigned sfx then 2 ^ (sfxBits sfx - 1) - 1 else 2 ^ sfxBits sfx - 1

/-- The integer a pattern of an integer sfx stands for (R29). -/
def intOf (sfx : Nat) (x : Nat) : Int :=
  let w := sfxBits sfx
  let u := x % 2 ^ w
  if sfxSigned sfx ∧ u ≥ 2 ^ (w - 1) then (u : Int) - 2 ^ w else u

/-- The pattern of an integer in w bits (R29). -/
def wrapInt (w : Nat) (v : Int) : Nat := (v % (2 ^ w : Int)).toNat

/-- A conversion between two sfx formats (R37, R150); `sat` asks integer narrowing to saturate, with OF (R170). -/
def convert (src dst : Nat) (rm : Rm) (flush sat : Bool) (x : Nat) : Nat × Flags :=
  match fmtOf src, fmtOf dst with
  | some f, some g => (FVal.decodeFlush f flush x).round g rm flush
  | some f, none =>
    let (v, fl) := fToInt rm (intLo dst) (intHi dst) (FVal.decodeFlush f flush x)
    (wrapInt (sfxBits dst) v, fl)
  | none, some g => fOfInt g rm flush (intOf src x)
  | none, none =>
    let v := intOf src x
    if sat then
      if v < intLo dst then (wrapInt (sfxBits dst) (intLo dst), fOF)
      else if v > intHi dst then (wrapInt (sfxBits dst) (intHi dst), fOF)
      else (wrapInt (sfxBits dst) v, 0)
    else (wrapInt (sfxBits dst) v, 0)

/-- The order-preserving key of an FP32 pattern (R259). -/
def fkeyOf (x : BitVec 32) : BitVec 32 :=
  if FVal.decode .f32 x.toNat = .nan then 0xFFFFFFFF
  else if x.getLsbD 31 then ~~~x else x ^^^ 0x80000000

/-- The value of an E8M0 block scale other than 0xFF, as a power of two (R31). -/
def FVal.scaleBy (v : FVal) (e : Nat) : FVal :=
  if e = 0xFF then .nan
  else match v with
    | .nan => .nan
    | .inf n => .inf n
    | .fin n m x => .fin n m (x + e - 127)

/-- A block conversion (R38): scale byte, codes, flags. `fm` is E4M3 or E5M2, `vs` the block's values. -/
def blockConvert (fm : Fmt) (rm : Rm) (flush : Bool) (vs : List FVal) : Nat × List Nat × Flags :=
  if vs.contains .nan then (0xFF, vs.map fun _ => 0, 0)
  else
    let mags := vs.filterMap fun v => match v with
      | .fin _ m e => if m = 0 then none else some (dyadic m e)
      | _ => none
    let exps := mags.map fun p => ilog2 p.1 p.2
    let emax : Int := if fm.e4m3 then 8 else 15
    let scale : Nat := match exps with
      | [] => 0
      | e :: es => ((max (es.foldl max e - emax) (-127)) + 127).toNat
    let zeros := mags.isEmpty && !vs.any fun v => match v with | .inf _ => true | _ => false
    let conv (v : FVal) : Nat × Flags := match v with
      | .nan => (0, 0)
      | .inf neg => if fm.e4m3 then (fm.signBit neg + 0x7E, fBO) else (fm.signBit neg + fm.infBits, 0)
      | .fin neg m e =>
        if zeros then (0, 0)
        else
          let (num, den) := dyadic m (e - ((scale : Int) - 127))
          roundRat fm rm flush true neg num den
    let rs := vs.map conv
    (scale, rs.map (·.1), rs.foldl (fun f r => f ||| r.2) 0)

/-- The exact sum of a k-group's products, and whether it sets NV (R39). -/
def dotExact (xs : List (FVal × FVal)) : FVal × Bool :=
  let ps := xs.map fun p => p.1.mul p.2
  let infs := ps.filterMap fun p => match p.1 with | .inf n => some n | _ => none
  let nv := ps.any (·.2) || (infs.contains true && infs.contains false)
  if nv || ps.any (fun p => p.1 == .nan) then (.nan, nv)
  else match infs with
    | n :: _ => (.inf n, false)
    | [] =>
      let e0 : Int := -1200
      let v := ps.foldl (fun acc p => match p.1 with | .fin n m e => acc + scaled n m e e0 | _ => acc) (0 : Int)
      (.fin (decide (v < 0)) v.natAbs e0, false)

/-- One k-group of a floating MMA: acc := round(acc + round(s)), both to nearest even (R39). -/
def mmaFloat (acc : Nat) (xs : List (FVal × FVal)) : Nat × Flags :=
  let (s, nv) := dotExact xs
  let (r, f1) := s.round .f32 .rne false
  let (a, f2) := fAdd .f32 .rne (.decode .f32 acc) (.decode .f32 r)
  (a, f1 ||| f2 ||| (if nv then fNV else 0))

/-- One k-group of an INT8 MMA: the exact sum added with saturation, OF when it saturates (R41). -/
def mmaInt (acc : Nat) (xs : List (Int × Int)) : Nat × Flags :=
  let v := intOf 8 acc + xs.foldl (fun s p => s + p.1 * p.2) 0
  if v < intLo 8 then (wrapInt 32 (intLo 8), fOF)
  else if v > intHi 8 then (wrapInt 32 (intHi 8), fOF)
  else (wrapInt 32 v, 0)

/-- One step of the bin combination: p := round(T[c] * bin * 2^-9 + p) (R42). -/
def binStep (t : Nat) (bin : Int) (isNan : Bool) (p : FVal) : FVal × Flags :=
  if isNan then (.nan, 0)
  else
    let (x, f) := fFma .f32 .rne (.decode .bf16 t) (.fin (decide (bin < 0)) bin.natAbs (-9)) p
    (.decode .f32 x, f)

/-- Close a bin run of one output: combine the used bins in code order, scale last, accumulate (R42). -/
def binClose (acc : Nat) (sa sw : Nat) (bins : List (Nat × Int × Bool)) : Nat × Flags :=
  let (p, f) := bins.foldl (fun (q : FVal × Flags) b =>
    let (v, g) := binStep b.1 b.2.1 b.2.2 q.1
    (v, q.2 ||| g)) (FVal.fin false 0 0, 0)
  let (x, f1) := ((p.scaleBy sa).scaleBy sw).round .f32 .rne false
  let (a, f2) := fAdd .f32 .rne (.decode .f32 acc) (.decode .f32 x)
  (a, f ||| f1 ||| f2)

/-- The exact path of an attention block: false when the block is skipped, b < round(m - knob) (R51). -/
def keepBlock (bound running knob : Nat) : Bool :=
  let (t, _) := fAdd .f32 .rne (.decode .f32 running) (FVal.neg (.decode .f32 knob))
  match (FVal.decode .f32 bound).cmp (.decode .f32 t) with
  | some o => decide (0 ≤ o)
  | none => true

end Sys2Proof.Machine
end

