-- ==== Sys2Proof/Machine/Element.lean ====
section
/-! DEFINITION. What the firings of every element share: operands and constants (R119, R120), lengths (R104), cancelling an
input (R106), pending cancellations (R138), end of stream and its mismatches (R129, R130). -/

namespace Sys2Proof.Machine

/-! ## Operands (R119, R120) -/

/-- The format `.n32`, in which control packets and indices are read (R134, R187). -/
def sfxN32 : Nat := 9

/-- A 64-bit format, whose values fill two elements. -/
def sfxWide (sfx : Nat) : Bool := sfxBits sfx == 64

/-- A constant slot as a packet of one value: `.s64` sign-extends, `.n64` and `.b64` zero-extend (R120). -/
def constElems (sfx : Nat) (w : BitVec 32) : List (BitVec 32) :=
  if sfxWide sfx then [w, if sfxSigned sfx && w.msb then BitVec.allOnes 32 else 0] else [w]

def Cfg.kAt (c : Cfg) (i : Nat) : BitVec 32 := Table.get 0 c.k i
def Cfg.qAt (c : Cfg) (i : Nat) : BitVec 32 := Table.get 0 c.q i
def Cfg.setQ (c : Cfg) (i : Nat) (v : BitVec 32) : Cfg := { c with q := Table.put c.q i v }

/-- The head of an in port when it is no marker: a marker stops its input (R142). -/
def Site.inData (t : Site) (n j : Nat) : Option Pkt := (t.inHead n j).filter fun k => !k.marker

/-- The packet a selector reads: an in port's head, a constant or a state register. -/
def Site.operand (t : Site) (n sfx sel : Nat) : Option Pkt :=
  let c := t.slot n
  if sel < 4 then t.inData n sel
  else
    let w := if sel < 12 then c.kAt (sel - 4) else c.qAt (sel - 12)
    some { emptyPkt with elems := constElems sfx w, slot := n }

/-- Pair up the words of 64-bit values, low word first; none for an odd length (R119). -/
def pairUp : List (BitVec 32) → Option (List Nat)
  | [] => some []
  | [_] => none
  | a :: b :: t => (pairUp t).map fun r => (a.toNat + b.toNat * 2 ^ 32) :: r

/-- The values of a packet's elements in a format; none where a 64-bit format has an odd length (R119). -/
def valuesOf (sfx : Nat) (es : List (BitVec 32)) : Option (List Nat) :=
  if sfxWide sfx then pairUp es else some (es.map fun e => e.toNat % 2 ^ sfxBits sfx)

/-- Values as packet elements (R119). -/
def elemsOf (sfx : Nat) (vs : List Nat) : List (BitVec 32) :=
  if sfxWide sfx then vs.flatMap fun v => [BitVec.ofNat 32 v, BitVec.ofNat 32 (v / 2 ^ 32)] else vs.map (BitVec.ofNat 32)

/-- The common length of a firing's operands from in ports: all equal, or all but one of length 1; none is a length-skew
(R104). A constant has length 1 and is repeated across whatever the ports bring (R120), so it is not among `ls` (log 60). -/
def commonLen (ls : List Nat) : Option Nat :=
  match ls.filter (· ≠ 1) with
  | [] => some 1
  | [l] => some l
  | l :: _ => if ls.all (· == l) then some l else none

/-- Element `i` of an operand, a lone element repeated (R104). -/
def pick (vs : List Nat) (i : Nat) : Nat := if vs.length = 1 then vs.getD 0 0 else vs.getD i 0

/-- Has a packet of a 64-bit format an odd length (R119)? An ERR carries no value of the format. -/
def Pkt.odd (k : Pkt) (sfx : Nat) : Bool := k.kind != 1 && k.kind != 2 && (valuesOf sfx k.elems).isNone

/-! ## What a firing attempt does -/

/-- The outcome of an element's attempt at a step: it waits for an operand, it has its operands and waits for room (R127's
BLOCK), it leaves the site as given, it would cancel ordinal `o` of in port `j` too far ahead, which is
T_ORDINAL_WINDOW (R106), or it reads a poisoned word for the packet `k` at in port `j` (R419). -/
inductive Act where
  | wait
  | block
  | run (t : Site)
  | over (j : Nat) (o : BitVec 48)
  | poisoned (j : Nat) (k : Pkt)

/-- An optional outcome: none waits. -/
def Act.of : Option Site → Act
  | some t => .run t
  | none => .wait

/-- What follows on a site, if the attempt leaves one. -/
def Act.then (a : Act) (f : Site → Site) : Act :=
  match a with
  | .run t => .run (f t)
  | x => x

/-- Room for one more result on each of some ports (R122). -/
def Site.room (t : Site) (out : List Nat) : Bool := out.all (t.roomOut 1)

/-- Run `f` where the ports have room, else be blocked (R122, R127). -/
def Site.ifRoom (t : Site) (out : List Nat) (f : Act) : Act := if t.room out then f else .block

/-! ## Results that wait for room (R122) -/

/-- Send the results of a firing in order, as far as their ports have room; the rest stays due. -/
def Site.sends (t : Site) (n : Nat) : List (List Nat × Out) → Site
  | [] => t.setSlot n { t.slot n with due := [] }
  | (js, o) :: r =>
    if t.room js then (t.emitAll n js o).sends n r else t.setSlot n { t.slot n with due := (js, o) :: r }

/-- One step of a firing whose results still wait. -/
def Site.sendDue (t : Site) (n : Nat) : Act :=
  match (t.slot n).due with
  | (js, _) :: _ => t.ifRoom js (.run (t.sends n (t.slot n).due))
  | [] => .wait

/-! ## Consuming, discarding, cancelling -/

def Site.consume (t : Site) (n : Nat) (js : List Nat) : Site := js.foldl (fun t j => t.takeIn n j) t

/-- Add to a slot's flags word; flags never stop a firing (R126). -/
def Site.raise (t : Site) (n : Nat) (f : Flags) : Site := t.setSlot n { t.slot n with flags := (t.slot n).flags ||| f }

/-- Add to a slot's discard count, saturating (R118). -/
def Site.discarded (t : Site) (n k : Nat) : Site :=
  let c := t.slot n
  t.setSlot n { c with discard := BitVec.ofNat 32 (min (c.discard.toNat + k) (2 ^ 32 - 1)) }

/-- The `m`-th unmarked ordinal from `e` on; the search takes at most `fuel` steps. -/
def nthFree (marks : List (BitVec 48)) : Nat → BitVec 48 → Nat → BitVec 48
  | 0, e, _ => e
  | fuel + 1, e, m =>
    if marks.contains e then nthFree marks fuel (e + 1) m
    else match m with
      | 0 => e
      | m + 1 => nthFree marks fuel (e + 1) m

/-- A buffer without the packet of a slot and ordinal. -/
def dropOrd (n : Nat) (o : BitVec 48) : List Pkt → List Pkt
  | [] => []
  | k :: b => if k.slot = n ∧ ¬ k.marker ∧ k.ord = o then b else k :: dropOrd n o b

/-- The tokens of slot `n` in in port `j`, in order. -/
def Site.waitingIn (t : Site) (n j : Nat) : List Pkt := (Table.get [] t.inb j).filter fun k => k.slot == n && !k.marker

/-- The ordinal of in port `j` that the firing `i` firings from now takes: a buffered packet's, else the next one that is not
marked. -/
def Site.ordAt (t : Site) (n j i : Nat) : BitVec 48 :=
  let b := t.waitingIn n j
  let q := (t.slot n).inPort j
  let m := i - b.length
  match b[i]? with
  | some k => k.ord
  | none => nthFree q.marks (q.marks.length + m + 1) q.exp m

/-- Cancel the packet of in port `j` that the firing `i` firings from now would take (R106, R138): one in the buffer is
discarded there; otherwise its ordinal is marked and an anti-token goes up the channel. An ordinal 2^15 or more past the
expected one is refused. An EOS is left where it is (R133). -/
def Site.cancelNth (t : Site) (n j i : Nat) : Act :=
  match (t.waitingIn n j)[i]? with
  | some k => .run (if k.kind = 1 then t else { t with inb := Table.put t.inb j (dropOrd n k.ord (Table.get [] t.inb j)) })
  | none =>
    let c := t.slot n
    let q := c.inPort j
    let o := t.ordAt n j i
    if (o - q.exp).toNat ≥ 2 ^ 15 then .over j o
    else
      let t := t.setSlot n (c.setIn j { q with marks := q.marks ++ [o] })
      .run { t with rev := Table.put t.rev (16 + j) (Table.get [] t.rev (16 + j) ++ [{ ord := o.truncate 16, slot := n }]) }

/-- Cancel the next packet of in port `j`. -/
def Site.cancelIn (t : Site) (n j : Nat) : Act := t.cancelNth n j 0

/-- Cancel, at each of several ports, the packet of the firing `i` firings from now: all of them, or none where one is
refused. -/
def Site.cancelAll (t : Site) (n i : Nat) : List Nat → Act
  | [] => .run t
  | j :: js =>
    match t.cancelNth n j i with
    | .run t => t.cancelAll n i js
    | x => x

/-! ## Pending cancellations (R138, R139) -/

/-- Every driven port holds a pending cancellation for the next ordinal. -/
def Cfg.cancelledNext (c : Cfg) (ports : List Nat) : Bool :=
  !ports.isEmpty && ports.all fun j => (c.outPort j).pend.contains (c.outPort j).ord

/-- Move each driven port past its next ordinal, freeing its pending cancellation. -/
def Site.skipOrd (t : Site) (n : Nat) (ports : List Nat) : Site :=
  ports.foldl (fun t j =>
    let c := t.slot n
    let o := c.outPort j
    t.setSlot n (c.setOut j { o with pend := o.pend.filter (· ≠ o.ord), ord := o.ord + 1 })) t

/-- How far ahead the first computation lies that every driven port has been told to cancel and that has not started
(R138). -/
def Cfg.cancelOff (c : Cfg) (ports : List Nat) : Option Nat :=
  match ports with
  | [] => none
  | p :: _ =>
    let o := c.outPort p
    o.pend.findSome? fun m =>
      let d := (m - o.ord).toNat
      if d < 2 ^ 15 ∧ ports.all (fun j => (c.outPort j).pend.contains ((c.outPort j).ord + BitVec.ofNat 48 d)) then some d
      else none

/-- The next ordinal of the first driven port. -/
def Cfg.nextOrd (c : Cfg) (ports : List Nat) : BitVec 48 := (c.outPort (ports.headD 0)).ord

/-- Has the next computation cancelled its inputs already (R138)? If so: does an in port show the EOS that stands at the
ordinal which it cancelled there? -/
def Site.skipHere (t : Site) (n : Nat) (ports : List Nat) : Option Bool :=
  let c := t.slot n
  if ports = [] then none
  else (c.skip.find? fun e => e.1 == c.nextOrd ports).map fun e =>
    e.2.any fun i => match t.inData n i.1 with | some k => k.kind == 1 && k.ord == i.2 | none => false

/-- The slot without the entry of its next computation. -/
def Cfg.dropSkip (c : Cfg) (ports : List Nat) : Cfg := { c with skip := c.skip.filter fun e => e.1 != c.nextOrd ports }

/-- No computation of the slot is to be cancelled, and no result of a firing waits: the next firing is a plain one. -/
def Cfg.plain (c : Cfg) (ports : List Nat) : Bool :=
  c.due.isEmpty && (c.skip.all fun e => ports.isEmpty || e.1 != c.nextOrd ports) && (c.cancelOff ports).isNone

/-- Cancel computation P + `d`: every read input at that firing's ordinal, freeing the entries; the next one is passed over
at once, a later one when its turn comes (R138). -/
def Site.cancelComp (t : Site) (n d : Nat) (js out : List Nat) : Act :=
  let c := t.slot n
  let p := c.nextOrd out
  let i := d - (c.skip.filter fun e => decide ((e.1 - p).toNat < d)).length
  let ords := js.map fun j => (j, t.ordAt n j i)
  (t.cancelAll n i js).then fun t =>
    if d = 0 then t.skipOrd n out
    else
      let t := out.foldl (fun t j =>
        let c := t.slot n
        let o := c.outPort j
        t.setSlot n (c.setOut j { o with pend := o.pend.filter (· ≠ o.ord + BitVec.ofNat 48 d) })) t
      t.setSlot n { t.slot n with skip := (t.slot n).skip ++ [(p + BitVec.ofNat 48 d, ords)] }

/-- The stray-anti-token counter of a site (R107, R108, R139); it saturates. -/
def Site.strayed (t : Site) : Site := { t with strayAnti := if t.strayAnti = BitVec.allOnes 32 then t.strayAnti else t.strayAnti + 1 }

/-- An annihilated ERR adds to the cancelled-error count (R109); it saturates. -/
def Site.annihilated (t : Site) (k : Pkt) : Site :=
  if k.kind = 2 then { t with cancelledErr := if t.cancelledErr = BitVec.allOnes 32 then t.cancelledErr else t.cancelledErr + 1 } else t

/-! ## The ports of a memory tile's element (R186, R193, R357) -/

/-- The DONE port of a pattern with de = 1, as a list (R186). -/
def mtDonePorts (f : BitVec 256) : List Nat := if mtDe f then [mtDport f] else []

/-- The port of a done pattern's DONE: dport, where the pattern drives it (R186, R193); with de = 0, dport is 0 (log 75). -/
def doneOut (f : BitVec 256) : List Nat := (drivenPorts f).filter (· == mtDport f)

/-- The ports whose cancellation cancels a firing: a bar.arr's watch ports absorb theirs (R357), and done sends on dport alone. -/
def cancelPorts (f : BitVec 256) : List Nat :=
  if frKind f ≠ 2 then drivenPorts f
  else match mtOp f with
    | 0x0A => mtDonePorts f
    | 0x0B => doneOut f
    | _ => drivenPorts f

/-! ## End of stream (R129, R130) -/

/-- What the heads of the ports that a firing reads show: the EOS of the smallest level, and the ports whose heads are
surplus to it (a DATA or ERR, or an EOS of a deeper level). -/
structure EosView where
  level : Nat
  ended : List Nat
  surplus : List Nat
  missing : Bool
  deriving DecidableEq, Repr

/-- The view of the ports `js` of slot `n`, if at least one shows an EOS. -/
def Site.eosView (t : Site) (n : Nat) (js : List Nat) : Option EosView :=
  let heads := js.map fun j => (j, t.inData n j)
  let levels := heads.filterMap fun h => match h.2 with | some k => if k.kind = 1 then some k.aux.toNat else none | none => none
  match levels with
  | [] => none
  | l :: ls =>
    let m := ls.foldl min l
    let isEnd (k : Pkt) : Bool := k.kind == 1 && k.aux.toNat == m
    some { level := m
           ended := (heads.filter fun h => match h.2 with | some k => isEnd k | none => false).map (·.1)
           surplus := (heads.filter fun h => match h.2 with | some k => !isEnd k | none => false).map (·.1)
           missing := heads.any fun h => h.2.isNone }

/-- A cancelled computation turns out to be an EOS: the cancellation is dropped and counted as stray (R139). -/
def Site.keepEos (t : Site) (n : Nat) (out : List Nat) : Site :=
  let c := t.slot n
  if (c.dropSkip out).skip = c.skip then t else (t.setSlot n (c.dropSkip out)).strayed

/-- Consume the EOS at every read port and send what the operation still held, then one EOS of the level on each driven port
(R129). -/
def Site.forwardAfter (t : Site) (n : Nat) (held : List Out) (js out : List Nat) (level : Nat) : Site :=
  let t := (t.consume n js).keepEos n (cancelPorts (t.slot n).elem)
  (t.setSlot n { t.slot n with skew := false }).sends n
    ((held.map fun o => (out, o)) ++ [(out, { kind := 1, aux := BitVec.ofNat 8 level })])

/-- Consume the EOS at every read port and send one of its level on each driven port (R129). -/
def Site.forwardEos (t : Site) (n : Nat) (js out : List Nat) (level : Nat) : Site := t.forwardAfter n [] js out level

/-- A step of the strict mismatch rule: one ERR of class stream-skew at the first surplus packet, then the surplus at the
ports' heads is discarded (R130). -/
def Site.strictSkew (t : Site) (p n : Nat) (out surplus : List Nat) : Site :=
  let c := t.slot n
  let t := if c.skew then t else (t.setSlot n { c with skew := true }).emitAll n out (ownErr clsStreamSkew p)
  t.consume n surplus

/-- After a step of a source at site `p`: an EOS of level 0 that it emitted in the current slot is a kill point of the group's
task (R339). -/
def State.afterSource (s : State) (p : Nat) (s' : State) : State :=
  match s.regionOf p with
  | none => s'
  | some g =>
    match (s.region g).cur with
    | none => s'
    | some n =>
      let seen (u : State) (j : Nat) : BitVec 48 := Table.get 0 (((u.site p).slot n).outPort j).eosAt 0
      let e := ((s.site p).slot n).elem
      if !(frKind e == 4 && agOp e == 2) && (drivenPorts e).any fun j => seen s j != seen s' j then s'.killPoint g else s'

/-- The first ERR among some packets, in their order (R124). -/
def firstErr : List Pkt → Option Pkt
  | [] => none
  | k :: ks => if k.kind = 2 then some k else firstErr ks

/-- The ERR that a firing passes on: the class and site of the input (R124). -/
def passErr (k : Pkt) : Out := errOut k.aux (k.elems.getD 0 0)

end Sys2Proof.Machine
end

