-- ==== Sys2Proof/Machine/Ce.lean ====
section
/-! DEFINITION. The compute element's element-wise operations (R119 to R126, R145 to R151, R155, R156), early joins (R131,
R132), end of stream (R129, R130, R133) and the results' way to the output buffers (R123). -/

namespace Sys2Proof.Machine

/-! ## Values -/

/-- Arithmetic on floating values by opcode: add, sub, mul, fma, div, sqrt (R145). -/
def floatOp (op : Nat) (fm : Fmt) (rm : Rm) (x y z : Nat) : Nat × Flags :=
  let dx := FVal.decode fm x
  let dy := FVal.decode fm y
  match op with
  | 1 => fAdd fm rm dx dy
  | 2 => fAdd fm rm dx dy.neg
  | 3 => fMul fm rm dx dy
  | 4 => fFma fm rm dx dy (FVal.decode fm z)
  | 5 => fDiv fm rm dx dy
  | _ => fSqrt fm rm dx

/-- Integer arithmetic by opcode: add, sub, mul, div (R145). -/
def intOp (op sfx : Nat) (x y : Nat) : Nat :=
  let w := sfxBits sfx
  let a := intOf sfx x
  let b := intOf sfx y
  match op with
  | 1 => wrapInt w (a + b)
  | 2 => wrapInt w (a - b)
  | 3 => wrapInt w (a * b)
  | _ => if b = 0 then 2 ^ w - 1 else wrapInt w (a.tdiv b)

/-- min and max of two values (R146). -/
def minMaxOp (isMax : Bool) (sfx x y : Nat) : Nat :=
  match fmtOf sfx with
  | some fm => fMinMax fm isMax x y
  | none => if (decide (intOf sfx x < intOf sfx y)) = isMax then y else x

/-- abs and neg of one value (R146). -/
def negAbsOp (isAbs : Bool) (sfx x : Nat) : Nat :=
  match fmtOf sfx with
  | some fm => fNegAbs fm isAbs x
  | none => let v := intOf sfx x; wrapInt (sfxBits sfx) (if isAbs then v.natAbs else -v)

/-- The relation of cmp: eq, ne, lt, le (R147). -/
def cmpOp (sfx rel x y : Nat) : Bool × Flags :=
  match fmtOf sfx with
  | some fm => fCmp fm rel x y
  | none =>
    let a := intOf sfx x
    let b := intOf sfx y
    (match rel with | 0 => decide (a = b) | 1 => decide (a ≠ b) | 2 => decide (a < b) | _ => decide (a ≤ b), 0)

/-- and, or, xor, not, shl, shr (R148). -/
def bitOp (op sfx sub x y : Nat) : Nat :=
  let w := sfxBits sfx
  match op with
  | 0x0C => x &&& y
  | 0x0D => x ||| y
  | 0x0E => x ^^^ y
  | 0x0F => 2 ^ w - 1 - x
  | 0x10 => x * 2 ^ (y % w) % 2 ^ w
  | _ =>
    if sub = 1 then wrapInt w ((if x ≥ 2 ^ (w - 1) then (x : Int) - 2 ^ w else x) / 2 ^ (y % w))
    else x / 2 ^ (y % w)

/-- The sfx of a CE operation's result. -/
def ceResultSfx (f : BitVec 256) : Nat :=
  match ceOp f with
  | 0x0B | 0x23 => 9
  | 0x14 | 0x15 => ceSub f % 16
  | _ => ceSfx f

/-- Does approx select the approximate path of this operation (R49)? The result is then open (log 11). -/
def ceOpen (f : BitVec 256) : Bool :=
  ceApprox f && (fmtOf (ceSfx f)).isSome && ((decide (1 ≤ ceOp f ∧ ceOp f ≤ 6)) || ceOp f == 0x14 || ceOp f == 0x15
    || ceOp f == 0x17 || ceOp f == 0x18)

/-- Does ff act: the operand format or the format converted to is FP8 (R28, R121)? -/
def ceFlushes (f : BitVec 256) : Bool :=
  ceFf f && (sfxFp8 (ceSfx f) || ((ceOp f == 0x14 || ceOp f == 0x15) && sfxFp8 (ceSub f % 16)))

/-- The configuration number that an approximate result depends on. -/
def ceKey (f : BitVec 256) : Nat := ceOp f + 64 * ceSfx f + 1024 * ceRm f + 8192 * ceSub f + (if ceFlushes f then 2 ^ 24 else 0)

/-- One value of an element-wise operation: `knob` is skip's constant. -/
def ceValue (f : BitVec 256) (knob : Nat) (x y z : Nat) : Nat × Flags :=
  let op := ceOp f
  let sfx := ceSfx f
  if ceOpen f then
    let r := Config.approx (ceKey f) x y z
    (r.1 % 2 ^ sfxBits (ceResultSfx f), r.2)
  else if op ≤ 6 then
    match fmtOf sfx with
    | some fm => floatOp op fm (Rm.of (ceRm f)) x y z
    | none => (intOp op sfx x y, 0)
  else
    let fx := flushCode sfx (ceFf f) x
    let fy := flushCode sfx (ceFf f) y
    match op with
    | 0x07 => (minMaxOp false sfx fx fy, 0)
    | 0x08 => (minMaxOp true sfx fx fy, 0)
    | 0x09 => (negAbsOp true sfx fx, 0)
    | 0x0A => (negAbsOp false sfx fx, 0)
    | 0x0B =>
      let (b, fl) := cmpOp sfx (ceSub f) fx fy
      (if b then 1 else 0, fl)
    | 0x12 => (if z ≠ 0 then x else y, 0)
    | 0x13 | 0x24 => (x, 0)
    | 0x14 => convert sfx (ceSub f % 16) (Rm.of (ceRm f)) (ceFf f) false x
    | 0x15 => convert sfx (ceSub f % 16) (Rm.of 4 y) (ceFf f) false x
    | 0x23 => (if ¬ ceApprox f ∨ keepBlock x y knob then 1 else 0, 0)
    | _ => (bitOp op sfx (ceSub f) x y, 0)

/-! ## A firing (R122, R124, R125) -/

/-- The operands of a CE operation that a firing reads, as selectors in the order a, b, c. -/
def Site.ceOperands (t : Site) (n : Nat) (pad : List Nat) : Option (List Pkt) :=
  let f := (t.slot n).elem
  (ceSelectors f).mapM fun sel =>
    if pad.contains sel then some { emptyPkt with elems := constElems (ceSfx f) ((t.slot n).kAt 7), slot := n }
    else t.operand n (ceSfx f) sel

/-- The values of an operand of op: cvt.sr's random token is words (R151). -/
def ceVals (f : BitVec 256) (i : Nat) (k : Pkt) : Option (List Nat) :=
  if ceOp f = 0x15 ∧ i = 1 then some (k.elems.map (·.toNat)) else valuesOf (ceSfx f) k.elems

/-- Which of sel's inputs c selects: all ones, all zeros, or both (R124, R149). -/
def selNeeds (cs : List Nat) : Bool × Bool := (cs.any (· ≠ 0), cs.any (· = 0))

/-- The operands whose ERR counts: sel ignores an input that no element of c selects (R124). -/
def ceCounted (f : BitVec 256) (ks : List Pkt) : List Pkt :=
  if ceOp f = 0x12 then
    match ks with
    | [a, b, c] =>
      if c.kind = 2 then [c]
      else
        let (na, nb) := selNeeds ((valuesOf (ceSfx f) c.elems).getD [])
        (if na then [a] else []) ++ (if nb then [b] else []) ++ [c]
    | _ => ks
  else ks

/-- Which operands are constants, k7 in place of an ended input among them (R120, R130). -/
def ceFixed (f : BitVec 256) (pad : List Nat) : List Bool := (ceSelectors f).map fun sel => decide (4 ≤ sel) || pad.contains sel

/-- Element-wise results over operand values; none is a length-skew (R104, R119). An ERR that does not count brings no value
and no length (log 60); cvt.sr's random packet has one element or as many as there are values (R151). DESIGN CHOICE (log 81): lengths are counted in values,
so a packet of one 64-bit value counts as one of length 1. -/
def ceMap (f : BitVec 256) (knob : Nat) (fixed : List Bool) (ks : List Pkt) : Option (List (BitVec 32) × Flags) :=
  let vals := (ks.zipIdx).map fun (k, i) => if k.kind = 2 then some [0] else ceVals f i k
  if vals.any Option.isNone then none
  else
    let vs := vals.map (·.getD [])
    let free (i : Nat) (k : Pkt) : Bool := !fixed.getD i false && k.kind != 2
    let lens := (ks.zipIdx).filterMap fun (k, i) => if free i k then some (vs.getD i []).length else none
    (commonLen lens).bind fun l =>
      if ceOp f = 0x15 ∧ fixed.getD 0 false = false ∧ l ≠ (vs.getD 0 []).length then none
      else
        let r := (List.range l).map fun i => ceValue f knob (pick (vs.getD 0 []) i) (pick (vs.getD 1 []) i) (pick (vs.getD 2 []) i)
        let es := elemsOf (ceResultSfx f) (r.map (·.1))
        if es.length > 8 then none else some (es, r.foldl (fun a v => a ||| v.2) 0)

/-- The result packet of an element-wise firing over its operands: an ERR, or a packet with the last flag given (R124, R125).
first takes a, or b where a is ERR (R131); pass and first keep the kind of the packet they choose. -/
def ceResult (p : Nat) (f : BitVec 256) (knob : Nat) (fixed : List Bool) (ks : List Pkt) (last : Bool) : Out × Flags :=
  let ks := if ceOp f = 0x13 then
      match ks with
      | a :: b :: r => (if a.kind = 2 then b else a) :: b :: r
      | _ => ks
    else ks
  let counted := if ceOp f = 0x13 then ks.take 1 else ceCounted f ks
  match firstErr counted with
  | some e => (passErr e, 0)
  | none =>
    match ceMap f knob fixed ks with
    | none => (ownErr clsLengthSkew p, 0)
    | some (es, fl) =>
      let k := if ceOp f = 0x24 ∨ ceOp f = 0x13 then ks.getD 0 emptyPkt else emptyPkt
      ({ kind := k.kind, elems := es, last, tag := k.tag }, fl)

/-- The last flag of the first operand that comes from an in port; 0 with none (R125). -/
def ceLast (f : BitVec 256) (pad : List Nat) (ks : List Pkt) : Bool :=
  match ((ceSelectors f).zip ks).find? fun e => decide (e.1 < 4) && !pad.contains e.1 with
  | some (_, k) => k.last
  | none => false

/-- The element-wise operations of CE_FIRE. -/
def ceWise (op : Nat) : Bool :=
  (decide (1 ≤ op ∧ op ≤ 0x15)) || op == 0x23 || op == 0x24

/-- Fire an element-wise operation with some ports read as k7 (R122, R130). -/
def Site.fireWise (t : Site) (p n : Nat) (pad : List Nat) : Option Site :=
  let c := t.slot n
  let f := c.elem
  (t.ceOperands n pad).map fun ks =>
    let (o, fl) := ceResult p f (c.kAt (ceSub f % 8)).toNat (ceFixed f pad) ks (ceLast f pad ks)
    (((t.consume n ((readPorts c).filter fun j => !pad.contains j)).raise n fl).emitAll n (drivenPorts f) o)

/-! ## pack, split and eosgen (R137, R155) -/

/-- Re-block: the packets that are full, the carry left, from the elements `es` in units of `u`; a carry is sent short when
`close` is set, with the last flag `last`. -/
def reblock (u : Nat) (kind : Nat) (close last : Bool) : Nat → List (BitVec 32) → List Out × List (BitVec 32)
  | 0, es => ([], es)
  | fuel + 1, es =>
    if es.length > u ∨ (es.length = u ∧ ¬ close) then
      let (os, r) := reblock u kind close last fuel (es.drop u)
      ({ kind, elems := es.take u } :: os, r)
    else if close ∧ es ≠ [] then ([{ kind, elems := es, last }], [])
    else ([], es)

/-- The elements of one packet of pack or split: sub values (R155). -/
def packUnit (f : BitVec 256) : Nat := ceSub f * (if sfxWide (ceSfx f) then 2 else 1)

/-- What pack or split makes of the heads it takes: the packets that are full, the carry left and its kind. Each output packet
takes the kind of the input that supplies its first element; an input with last = 1 closes its output packet (R155). -/
def packOut (u : Nat) (carry : List (BitVec 32)) (carryKind : Nat) (ks : List Pkt) : List Out × List (BitVec 32) × Nat :=
  let step (st : List Out × List (BitVec 32) × Nat) (k : Pkt) : List Out × List (BitVec 32) × Nat :=
    let (os, cy, ck) := st
    let fill := if cy = [] then [] else k.elems.take (u - cy.length)
    if cy ≠ [] ∧ cy.length + k.elems.length < u ∧ ¬ k.last then (os, cy ++ k.elems, ck)
    else
      let whole := cy ++ fill
      let rest := if cy = [] then k.elems else k.elems.drop (u - cy.length)
      let head : List Out :=
        if cy = [] then []
        else [{ kind := ck, elems := whole, last := k.last && rest.isEmpty }]
      let (os2, r) := reblock u k.kind k.last k.last 9 rest
      (os ++ head ++ os2, r, k.kind)
  ks.foldl step ([], carry, carryKind)

/-- Every driven port holds a pending cancellation for each of the `m` ordinals from its `k`-th next on. -/
def Cfg.cancelledFrom (c : Cfg) (out : List Nat) (k m : Nat) : Bool :=
  decide (0 < m) && !out.isEmpty && (List.range m).all fun i => out.all fun j =>
    (c.outPort j).pend.contains ((c.outPort j).ord + BitVec.ofNat 48 (k + i))

/-- Every driven port holds a pending cancellation for each of the next `m` ordinals. -/
def Cfg.cancelledFor (c : Cfg) (out : List Nat) (m : Nat) : Bool := c.cancelledFrom out 0 m

/-- The outputs that an input of up to eight elements can reach where `y` elements wait for their output of `u`. -/
def packReach (u y : Nat) : Nat := (y + 8 + u - 1) / max 1 u

/-- The first read port of pack or split whose next packet has not come and can reach no output that is not cancelled, whatever
its length: its input ordinal is to be cancelled (R105). Those before it in the firing are at hand, so that the output it begins
at is known; `sels` are the selectors still to look at, `ks` the packets before them. -/
def Site.packLost (t : Site) (n : Nat) : List Nat → List Pkt → Option Nat
  | [], _ => none
  | sel :: sels, ks =>
    let c := t.slot n
    let f := c.elem
    match t.operand n (ceSfx f) sel with
    | some k => if k.kind = 1 ∨ k.kind = 2 ∨ k.odd (ceSfx f) then none else t.packLost n sels (ks ++ [k])
    | none =>
      let (os, r, _) := packOut (packUnit f) c.carry c.carryKind ks
      if (t.inHead n sel).isNone ∧ c.cancelledFrom (drivenPorts f) os.length (packReach (packUnit f) r.length) then some sel
      else none

/-- Cancel the next input ordinal of in port `j` of pack or split: its anti-token goes up, and a packet that stands for it joins
the buffer. Its length and last flag, which decide where the inputs behind it go, are open: the free value `w` gives them; its
elements reach cancelled outputs alone (R105, log 61). -/
def Site.packCancel (t : Site) (n j : Nat) (w : Word) : Act :=
  let o := t.ordAt n j 0
  let per := if sfxWide (ceSfx (t.slot n).elem) then 2 else 1
  let k : Pkt := { emptyPkt with elems := List.replicate (fld w 3 0 % (8 / per + 1) * per) 0, last := bit w 4, ord := o, slot := n }
  (t.cancelIn n j).then fun t => { t with inb := Table.put t.inb j (Table.get [] t.inb j ++ [k]) }

/-- One firing of pack or split over its heads (R155): an odd length of a 64-bit format is a length-skew; an ERR is sent at
once and the carry is kept. Where every output ordinal that the heads reach is cancelled, the inputs are cancelled in their
buffers and the ordinals they complete are passed over; one that they only begin keeps its mask (R105). -/
def Site.firePack (t : Site) (p n : Nat) : Option Site :=
  let c := t.slot n
  let f := c.elem
  (t.ceOperands n []).map fun ks =>
    let t := t.consume n (readPorts c)
    let out := drivenPorts f
    match firstErr ks with
    | some e =>
      if c.cancelledFor out 1 then t.skipOrd n out else t.emitAll n out (passErr e)
    | none =>
      if ks.any fun k => k.odd (ceSfx f) then t.emitAll n out (ownErr clsLengthSkew p)
      else
        let (os, r, ck) := packOut (packUnit f) c.carry c.carryKind ks
        let t := t.setSlot n { t.slot n with carry := r, carryKind := ck }
        if c.cancelledFor out (os.length + if r = [] then 0 else 1) then os.foldl (fun t _ => t.skipOrd n out) t
        else t.sends n (os.map fun o => (out, o))

/-- eosgen's firing (R137): a DATA or ERR packet with last = 1 is sent with last = 0, then an EOS of level 0; every other
packet passes unchanged. An odd length of a 64-bit format is a length-skew (R119), which keeps the EOS that its last flag
asks for (log 60). -/
def Site.fireEosgen (t : Site) (p n : Nat) : Option Site :=
  let f := (t.slot n).elem
  let out := drivenPorts f
  (t.operand n (ceSfx f) (ceA f)).map fun k =>
    let t := t.consume n (readPorts (t.slot n))
    let ends := k.last && (k.kind == 0 || k.kind == 2)
    let o : Out := if k.odd (ceSfx f) then ownErr clsLengthSkew p
      else { kind := k.kind, elems := k.elems, last := k.last && !ends, aux := k.aux, tag := k.tag }
    t.sends n ((out, o) :: if ends then [(out, { kind := 1 })] else [])

/-! ## The step shared by the firings -/

/-- The state of an element after a step that leaves `t`: FIRE while results of the firing wait, else WAIT; one that holds
at a marker stays in HOLD (R127, R142). -/
def Site.stepped (t : Site) (n : Nat) : Site :=
  if t.phase = .hold then t else { t with phase := if (t.slot n).due = [] then .wait else .fire }

/-- The in port whose operand the element lacks is noted for its site's record (R415, R436). -/
def Site.lacks (t : Site) (n : Nat) : Site :=
  match (readPorts (t.slot n)).find? fun j => (t.inHead n j).isNone with
  | some j => { t with missing := 16 + j }
  | none => t

/-- The out port that blocks the element is noted for its site's record (R415, R436). -/
def Site.blocks_ (t : Site) (n : Nat) : Site :=
  match (drivenPorts (t.slot n).elem).find? fun j => !t.roomOut 1 j with
  | some j => { t with blocked := 20 + j }
  | none => t

/-- What an attempt of site `p`'s element in slot `n` does to the machine (R106, R127). The fault of a cancellation that
reaches too far names the in port and the ordinal that it would cancel (log 62). -/
def State.act (s : State) (p n : Nat) : Act → State
  | .wait => s.modSite p fun t => t.lacks n
  | .block => s.modSite p fun t => let t := t.blocks_ n; if t.phase = .hold then t else { t with phase := .block }
  | .run t => s.setSite p (t.stepped n)
  | .over j o => s.siteFault p tOrdinalWindow n o.toNat (16 + j) 0
  | .poisoned j k => s.siteFault p tEccUncorr n k.ord.toNat (if j < 4 then 16 + j else 0) (k.header.zeroExtend 64)

/-- A step of site `p`'s element in its current slot: nothing unless the site's packets move, it may fire, its pattern is of
kind `kind` and no KILL has reached it; the results of a firing that still wait go first (R122). An element that has been given
a marker, or lcmerge that has passed one on, starts no firing (R144). -/
def State.siteStep (s : State) (p kind : Nat) (f : Nat → Site → Act) : State :=
  match s.active p with
  | none => s
  | some (n, c) =>
    if frKind c.elem = kind ∧ (s.site p).mayFire ∧ ¬ c.killing then
      s.act p n (if c.due ≠ [] then (s.site p).sendDue n else if c.inj.isSome then .wait else f n (s.site p))
    else s

/-- A step of a CE of one of the operations `ops`. -/
def State.ceStep (s : State) (p : Nat) (ops : Nat → Bool) (f : Nat → Site → Act) : State :=
  match s.active p with
  | none => s
  | some (_, c) => if ops (ceOp c.elem) then s.siteStep p 1 f else s

/-- No read port shows an EOS. -/
def Site.noEos (t : Site) (n : Nat) (js : List Nat) : Bool := (t.eosView n js).isNone

/-- Pass over a computation that has cancelled its inputs already (R138). Where its end is at hand at a strict join its surplus
has been reported by the cancelled ordinal (R130, R133). -/
def Site.passOver (t : Site) (n : Nat) (out : List Nat) (ended : Bool) : Site :=
  let c := t.slot n
  (t.setSlot n { c.dropSkip out with skew := c.skew || (ended && (frKind c.elem != 1 || ceEos c.elem == 0)) }).skipOrd n out

/-- Pass over the next computation where its inputs are cancelled already, else `f`; one whose inputs end there is passed over
only where another input has a surplus (R130, R139). -/
def Site.orPass (t : Site) (n : Nat) (out : List Nat) (surplus : Bool) (f : Act) : Act :=
  match t.skipHere n out with
  | some ended => if ended ∧ ¬ surplus then f else .run (t.passOver n out ended)
  | none => f

/-- The cancellations of an operation without side effects (R138): the next computation is passed over if its inputs are
cancelled already; else the first one that every driven port has been told to cancel cancels its inputs; otherwise `f`. A
cancellation never takes an EOS (R139). -/
def Site.orCancel (t : Site) (n : Nat) (js out : List Nat) (f : Act) : Act :=
  let v := t.eosView n js
  t.orPass n out (v.any fun v => v.surplus != []) (match (t.slot n).cancelOff out with
    | some d => if d = 0 ∧ v.isSome then f else t.cancelComp n d js out
    | none => f)

/-- A packet that settles an early join's result at port `j` (R131). -/
def earlySettles (f : BitVec 256) (k : Pkt) : Bool :=
  match ceOp f, valuesOf (ceSfx f) k.elems with
  | 0x0C, some vs => k.kind == 0 && vs.all (· == 0)
  | 0x0D, some vs => k.kind == 0 && vs.all (· == 2 ^ sfxBits (ceSfx f) - 1)
  | _, _ => false

/-- Does an early join hold a settling packet at its heads now (R131)? -/
def Site.earlyReady (t : Site) (n : Nat) : Bool :=
  let c := t.slot n
  let f := c.elem
  let a := t.inData n (ceA f)
  let b := t.inData n (ceB f)
  ceJoin f && match ceOp f with
    | 0x0C | 0x0D => (a.map (earlySettles f)).getD false || (b.map (earlySettles f)).getD false
    | 0x13 => (a.map fun k => k.kind == 0).getD false
    | 0x12 =>
      match t.inData n (ceC f) with
      | none => false
      | some k =>
        if k.kind = 2 then true
        else if k.kind ≠ 0 then false
        else match valuesOf (ceSfx f) k.elems with
          | none => false
          | some vs =>
            (vs.all (· ≠ 0) && (a.map fun x => x.kind == 0).getD false)
              || (vs.all (· = 0) && (b.map fun x => x.kind == 0).getD false)
    | _ => false

/-- The input ordinal that the pack or split at site `p` is to cancel now, if there is one (R105): its slot and port. -/
def State.packLoss (s : State) (p : Nat) : Option (Nat × Nat) :=
  match s.active p with
  | none => none
  | some (n, c) =>
    if (ceOp c.elem = 0x19 ∨ ceOp c.elem = 0x1A) ∧ frKind c.elem = 1 ∧ (s.site p).mayFire ∧ ¬ c.killing ∧ c.due = [] ∧ c.inj.isNone then
      ((s.site p).packLost n (ceSelectors c.elem) []).map fun j => (n, j)
    else none

/-- CE_FIRE: the next firing of an element-wise operation, pack, split or eosgen, once every port it reads holds a packet
and every port it drives has room (R122); a settled early join fires by EARLY_JOIN_FIRE (R131). A pack or split first cancels an
input whose every output is cancelled (R105). -/
def execCeFire (p : Nat) (s : State) : Res :=
  .next (match s.packLoss p with
  | some (n, j) =>
    let (w, s) := s.draw
    s.act p n ((s.site p).packCancel n j w)
  | none => s.ceStep p (fun op => ceWise op || op == 0x19 || op == 0x1A || op == 0x20) fun n t =>
    let c := t.slot n
    let js := readPorts c
    let out := drivenPorts c.elem
    let fire (r : Option Site) : Act := match r with | some u => if t.noEos n js then t.ifRoom out (.run u) else .wait | none => .wait
    if ceWise (ceOp c.elem) then t.orCancel n js out (if t.earlyReady n then .wait else fire (t.fireWise p n []))
    else if ceOp c.elem = 0x20 then fire (t.fireEosgen p n)
    else fire (t.firePack p n))

/-! ## End of stream (R129, R130) -/

/-- What a re-blocking or reducing operation still holds before an EOS, with the site that no longer holds it: pack's and
split's carry with last = 0, the result of red's open run with last = 1, unless that is cancelled (R141, R154, R155). -/
def Site.flush (t : Site) (n : Nat) : Site × List Out :=
  let c := t.slot n
  let out := drivenPorts c.elem
  match ceOp c.elem with
  | 0x19 | 0x1A =>
    if c.carry = [] then (t, []) else (t.setSlot n { c with carry := [] }, [{ kind := c.carryKind, elems := c.carry }])
  | 0x17 =>
    if ¬ c.run then (t, [])
    else
      let es := if sfxWide (ceSfx c.elem) then [c.qAt 0, c.qAt 1] else [c.qAt 0]
      let o : Out := match c.runErr with
        | some (a, w) => errOut a w
        | none => { elems := es, last := true }
      let t := t.setSlot n { c with run := false, runErr := none }
      if c.cancelledNext out then (t.skipOrd n out, []) else (t, [o])
  | 0x18 => (t.setSlot n { c with run := false, runErr := none }, [])
  | _ => (t, [])

/-- pack's firing with its ended input read as k7 (R130). -/
def Site.padPack (t : Site) (p n : Nat) (ended : List Nat) : Option Site :=
  let c := t.slot n
  let pad : Pkt := { emptyPkt with elems := constElems (ceSfx c.elem) (c.kAt 7), slot := n }
  (ended.foldl (fun t j => { t with inb := Table.put t.inb j (pad :: Table.get [] t.inb j) }) t).firePack p n

/-- End of stream at an operation that knows only the strict rule: EOS on every read port goes on, a mismatch follows R130. -/
def Site.strictEos (t : Site) (p n : Nat) (js out : List Nat) : Act :=
  match t.eosView n js with
  | none => .wait
  | some v =>
    t.orPass n (cancelPorts (t.slot n).elem) (v.surplus != [])
      (if v.surplus = [] then if v.missing then .wait else t.ifRoom out (.run (t.forwardEos n js out v.level))
       else t.ifRoom out (.run (t.strictSkew p n out v.surplus)))

/-- End of stream at an MT operation that reads in ports, with the strict rule for two (R187, R193). -/
def Site.mtEos (t : Site) (p n : Nat) : Act :=
  let f := (t.slot n).elem
  if mtOp f = 0x08 then .wait else t.strictEos p n (readPorts (t.slot n)) (drivenPorts f)

/-- EOS_FORWARD: EOS on every read port is consumed and sent on each driven port (R129), after what the operation still
holds; a mismatch follows the element's eos mode (R130), in which a padded firing that every driven port has been told to cancel is
cancelled with its inputs and no firing (R138). -/
def execEosForward (p : Nat) (s : State) : Res :=
  .next (if (match s.active p with | some (_, c) => frKind c.elem == 2 | none => false) then
      s.siteStep p 2 fun n t => t.mtEos p n
    else if (match s.active p with | some (_, c) => frKind c.elem == 4 && agOp c.elem == 3 | none => false) then
      s.siteStep p 4 fun n t => t.strictEos p n [0] [0]
    else s.ceStep p (fun op => ceWise op || op == 0x17 || op == 0x18 || op == 0x19 || op == 0x1A || op == 0x20 || op == 0x21)
    fun n t =>
      let c := t.slot n
      let f := c.elem
      let js := readPorts c
      let out := drivenPorts f
      match t.eosView n js with
      | none => .wait
      | some v =>
        if t.earlyReady n then .wait
        else t.orPass n out (v.surplus != []) (if v.surplus = [] then
          if v.missing then .wait
          else
            let (u, held) := t.flush n
            t.ifRoom out (.run (u.forwardAfter n held js out v.level))
        else
          let deep := v.surplus.filter fun j => match t.inData n j with | some k => k.kind == 1 | none => false
          let fire (r : Option Site) : Act := match r with | some u => t.ifRoom out (.run u) | none => .wait
          match ceEos f with
          | 1 => .run ((t.consume n v.surplus).discarded n v.surplus.length)
          | 2 =>
            if deep ≠ [] then .run (t.consume n deep)
            else if ceOp f ≠ 0x19 ∧ c.cancelledNext out then t.cancelComp n 0 js out
            else if v.missing then .wait
            else if ceOp f = 0x19 then fire (t.padPack p n v.ended)
            else fire (t.fireWise p n v.ended)
          | _ => t.ifRoom out (.run (t.strictSkew p n out v.surplus))))

/-! ## Early joins (R131, R132) -/

/-- What an early join sends and which inputs settle it, once one is ready (R131): and and or send the all-zero or all-ones
packet, first its a, sel the selected input or the ERR of c. The last flag is the settling packet's (R445); of sel's two, c
and the input that it selects, the latter's (log 63). -/
def Site.earlyPlan (t : Site) (p n : Nat) : List Nat × Out × Flags :=
  let f := (t.slot n).elem
  let a := t.inData n (ceA f)
  let b := t.inData n (ceB f)
  let settles (k : Option Pkt) : Bool := (k.map (earlySettles f)).getD false
  let vals (k : Pkt) : List Nat := (valuesOf (ceSfx f) k.elems).getD []
  match ceOp f with
  | 0x13 =>
    let k := a.getD emptyPkt
    ([ceA f], if k.odd (ceSfx f) then ownErr clsLengthSkew p else { kind := k.kind, elems := k.elems, last := k.last, tag := k.tag }, 0)
  | 0x12 =>
    let k := (t.inData n (ceC f)).getD emptyPkt
    if k.kind = 2 then ([ceC f], passErr k, 0)
    else
      let takeA := (vals k).all (· ≠ 0)
      let x := (if takeA then a else b).getD emptyPkt
      let ks := if takeA then [x, { x with kind := 2 }, k] else [{ x with kind := 2 }, x, k]
      let (o, fl) := match ceMap f 0 [] ks with
        | none => (ownErr clsLengthSkew p, 0)
        | some (es, fl) => ({ elems := es, last := x.last }, fl)
      ([if takeA then ceA f else ceB f, ceC f], o, fl)
  | _ =>
    let k := if settles a then a.getD emptyPkt else b.getD emptyPkt
    ((if settles a then [ceA f] else []) ++ (if settles b then [ceB f] else []),
      { elems := elemsOf (ceSfx f) (vals k), last := k.last }, 0)

/-- EARLY_JOIN_FIRE: a settling packet fires the join; the settling packets are consumed and every unused read input is
cancelled at its expected ordinal (R131, R132). One that would cancel too far ahead raises T_ORDINAL_WINDOW (R106). -/
def execEarlyJoinFire (p : Nat) (s : State) : Res :=
  .next (s.ceStep p (fun op => op == 0x0C || op == 0x0D || op == 0x12 || op == 0x13) fun n t =>
    let c := t.slot n
    let out := drivenPorts c.elem
    t.orCancel n (readPorts c) out (
      if ¬ t.earlyReady n then .wait
      else
        let (used, o, fl) := t.earlyPlan p n
        let unused := (readPorts c).filter fun j => !used.contains j
        t.ifRoom out ((t.cancelAll n 0 unused).then fun t => ((t.consume n (dedup used)).raise n fl).emitAll n out o)))

/-! ## Results (R108, R123, R139) -/

/-- Does ordinal `a` come before `b`, modulo 2^48 (R102)? -/
def ordBefore (a b : BitVec 48) : Bool := a != b && decide ((b - a).toNat < 2 ^ 47)

/-- A queued tile entry owes an earlier result on the port of `r` (R182). -/
def Site.owesBefore (t : Site) (r : Result) : Bool :=
  t.mtq.any fun e => e.slot == r.pkt.slot &&
    (e.outs ++ e.done.toList).any fun o => o.1 == r.port && ordBefore o.2 r.ord

/-- The first result of the pipeline that its output buffer has room for; results of one port and slot go in the order of
their ordinals, others in the order they entered. -/
def Site.nextResult (t : Site) : Option Nat :=
  (List.range t.pipe.length).find? fun i =>
    match t.pipe[i]? with
    | none => false
    | some r =>
      decide ((Table.get [] t.outb r.port).length < 4) && !t.owesBefore r &&
        !((t.pipe.take i).any fun q => q.port == r.port && (q.pkt.slot != r.pkt.slot || !ordBefore r.ord q.ord)) &&
        !((t.pipe.drop (i + 1)).any fun q => q.port == r.port && q.pkt.slot == r.pkt.slot && ordBefore q.ord r.ord)

/-- FIRING_RESULT: a result enters its output buffer; of a slot that a KILL has reached it is discarded (R142); a pending cancellation of its ordinal annihilates it there, but an EOS
is sent and the cancellation dropped (R108, R139). -/
def execFiringResult (p : Nat) (s : State) : Res :=
  let t := s.site p
  .next (if ¬ t.live then s
    else match t.nextResult with
      | none => s
      | some i =>
        match t.pipe[i]? with
        | none => s
        | some r =>
          let n := r.pkt.slot
          let c := t.slot n
          let o := c.outPort r.port
          let t := { t with pipe := t.pipe.eraseIdx i }
          if c.killing ∧ r.pkt.counts then s.setSite p t
          else if ¬ r.pkt.counts ∨ ¬ (o.pend.contains r.ord ∨ o.held.contains r.ord) then
            s.setSite p { t with outb := Table.put t.outb r.port (Table.get [] t.outb r.port ++ [r.pkt]) }
          else
            let t := t.setSlot n (c.setOut r.port { o with pend := o.pend.filter (· ≠ r.ord), held := o.held.filter (· ≠ r.ord) })
            if r.pkt.kind = 1 then
              s.setSite p { t.strayed with outb := Table.put t.outb r.port (Table.get [] t.outb r.port ++ [r.pkt]) }
            else s.setSite p (t.annihilated r.pkt))

end Sys2Proof.Machine
end

