-- ==== Sys2Proof/Machine/Power.lean ====
section
/-! DEFINITION. The power controller (R407 to R412) and profiling (R442): meters, clock spines, the control step, the
current window, and the registers that act as their limits. -/

namespace Sys2Proof.Machine

/-! ## Registers -/

def spfreqPa (d i : Nat) : Nat := dieBase d + 0x30000 + 8 * i
def pclPa (c : Nat) : Nat := dieBase (dieOf c) + 0x30100 + 8 * (c % 32)
def pcapPa (d : Nat) : Nat := dieBase d + 0x30040
def ilimPa (d : Nat) : Nat := dieBase d + 0x30048
def pestPa (d : Nat) : Nat := dieBase d + 0x30058
def profPa (d : Nat) : Nat := dieBase d + 0x40010

/-- A cluster's applied and requested meters (R412). -/
def State.applied (s : State) (c : Nat) : Nat := fld (s.reg (pclPa c)) 24 16
def State.nreq (s : State) (c : Nat) : Nat := min 256 (fld (s.reg (pclPa c)) 8 0)
def State.spCur (s : State) (d i : Nat) : Nat := fld (s.reg (spfreqPa d i)) 31 16

/-- A frequency as its field acts: 300 to 1,500 MHz (R412). -/
def clampMHz (v : Nat) : Nat := max 300 (min 1500 v)

/-- The requested frequency of a spine: that of PROF with lock = 1, else SPFREQ.req (R442). -/
def State.spReq (s : State) (d i : Nat) : Nat :=
  let p := s.reg (profPa d)
  clampMHz (if bit p 63 then fld p 47 32 else fld (s.reg (spfreqPa d i)) 15 0)

/-- The meter that binds a cluster's edge ports now: the applied meter, or zero under the Beaver's ceiling (R396, R407,
R410). -/
def State.meter (s : State) (c : Nat) : Nat := if zCeiling (s.zState c) then 0 else s.applied c

/-- The spine field of a pattern frame (R63, R66, R68); an idle site takes sp0 (R409). -/
def frSpine (f : BitVec 256) : Nat :=
  match frKind f with
  | 1 => if ceOp f = 0 then 0 else fld f 209 207
  | 2 => if mtOp f = 0 then 0 else fld f 185 183
  | 4 => if agOp f = 0 then 0 else fld f 25 23
  | _ => 0

/-- The spine of a site (R409). -/
def State.spineOf (s : State) (p : Nat) : Nat :=
  match s.curSlot p with
  | none => 0
  | some n => frSpine ((s.site p).slot n).elem

/-- Does a cluster have a site on a spine (R411)? -/
def State.onSpine (s : State) (c i : Nat) : Bool := (clusterSites c).any fun p => s.spineOf p == i

/-- Set a reason bit of a cluster's PCL (R411). -/
def State.reason (s : State) (c b : Nat) (hit : Bool) : State := if hit then s.setRegFld (pclPa c) b b 1 else s

/-! ## PROF (R442) -/

/-- The contexts that an event message goes to: every OPEN context but the writer's that holds a group or a queue on the
die. -/
def State.profContexts (s : State) (d by_ : Nat) : List Nat :=
  (List.range 64).filter fun x =>
    x ≠ by_ && (s.ctx x).phase == .opened &&
      ((s.regions.any fun g => g.2.group.isSome && s.regionCtx g.1 == x && (List.range (g.2.nd + 1)).any fun i => siteDie (descOrg g.2.desc i) == d)
        || (List.range 64).any fun j =>
            let q := s.reg (dieBase d + 0x40 * j + 8)
            bit q 63 && fld q 47 42 == x)

/-- The channel that takes a context's event messages. -/
def State.dbgChan (s : State) (x : Nat) : Nat × Nat :=
  let w := (s.ctx x).dbgevt
  (fld w 10 4, fld w 3 0)

/-- Post a pending PROF write's event messages; a context whose channel has no room waits. -/
def State.postProf (s : State) (d : Nat) (v : Word) (by_ : Nat) : List Nat → State × List Nat
  | [] => (s, [])
  | x :: xs =>
    let (c, n) := s.dbgChan x
    if ((s.core c).channel n).takes then
      (s.postTo c n { words := [BitVec.ofNat 64 (7 * 2 ^ 56 + d), v, BitVec.ofNat 64 by_] }).postProf d v by_ xs
    else
      let (t, r) := s.postProf d v by_ xs
      (t, x :: r)

/-- Try to post what a pending PROF write still owes. -/
def State.profPosts (s : State) (d : Nat) : State :=
  match (s.die d).prof with
  | none => s
  | some (v, b) =>
    let (t, r) := s.postProf d v b (s.die d).profTo
    t.modDie d fun u => { u with profTo := r }

/-- At a power step: a PROF write whose messages were all queued before it takes effect; otherwise they are tried again. -/
def State.profStep (s : State) (d : Nat) : State :=
  match (s.die d).prof with
  | none => s
  | some (v, _) =>
    if (s.die d).profTo = [] then (s.setDreg (profPa d) v).modDie d fun u => { u with prof := none } else s.profPosts d

/-- Take a PROF write of `v`, by context `b` or 0x40 for the owner: bits [5:0] name the writing context; the frequency acts within
its limits. -/
def State.setProf (s : State) (d : Nat) (v : Word) (b : Nat) : State :=
  let w : Word := BitVec.ofNat 64 (fld v 63 62 * 2 ^ 62 + fld v 47 32 * 2 ^ 32 + b % 64)
  (s.modDie d fun u => { u with prof := some (w, b), profTo := s.profContexts d b }).profPosts d

def State.agentCtx (s : State) (who : Agent) : Nat := match who with | .core c => (s.core c).ctx | .master _ => 0x40

/-- PROF_WRITE (R442). -/
def execProfWrite (who : Agent) (d : Nat) (v : Word) (s : State) : Res :=
  .next (if d < 4 then s.regBy who (profPa d) (s.setProf d v (s.agentCtx who)) else s)

/-! ## The control step (R410, R411) -/

/-- The reliability ceiling of a core supply in mV. -/
def relCeil (supply : Nat) : Nat := if supply ≥ 500 then 1500 else if supply ≥ 450 then 1250 else 1000

/-- The thermal ceiling of a cluster at the step: its Beaver's zero, half its previous applied meter above TJMAX, or 256. -/
def State.thermalCeil (s : State) (c : Nat) : Nat :=
  if zCeiling (s.zState c) then 0
  else if (s.cluster c).junction > fld (s.reg (dieBase (dieOf c) + 0x30050)) 9 0 then s.applied c / 2
  else 256

/-- One cluster's meter at the step: the lowest of its ceilings and nreq, rising by at most 32; its reason bits. -/
def State.stepMeter (s : State) (c : Nat) : State :=
  let cur := (s.die (dieOf c)).curCeil
  let thm := s.thermalCeil c
  let want := min (min cur thm) (s.nreq c)
  let n := min want (s.applied c + 32)
  let s := s.modCluster c fun u => { u with thermal := thm }
  let s := s.setRegFld (pclPa c) 24 16 n
  ((s.reason c 63 (decide (thm < 256 ∧ n = thm))).reason c 62 (decide (cur < 256 ∧ n = cur))).reason c 61 (decide (n < want))

/-- One spine's frequency at the step: the lowest of its ceilings and req, rising by at most 100 MHz, above 1,250 only where
boost may; the reason bits in every cluster with a site on it. -/
def State.stepSpine (s : State) (d rel : Nat) (meters : Bool) (i : Nat) : State :=
  let cap := Table.get 1500 (s.die d).capCeils i
  let ceil := min cap rel
  let req := s.spReq d i
  let want := min ceil req
  let slewed := min want (s.spCur d i + 100)
  let boost := meters && decide (req ≤ ceil)
  let f := if boost then slewed else min slewed 1250
  let s := (s.setRegFld (spfreqPa d i) 47 32 ceil).setRegFld (spfreqPa d i) 31 16 f
  (zonesOf d).foldl (fun s c =>
    if s.onSpine c i then
      ((s.reason c 60 (decide (cap < req ∧ f = cap))).reason c 59 (decide (rel < req ∧ f = rel))).reason c 61
        (decide (slewed < want ∧ f = slewed))
    else s) s

/-- The cap ceilings of a die's spines at the step (R410). -/
def State.capStep (s : State) (d watts : Nat) : State :=
  let cap := (s.die d).cap
  s.modDie d fun u =>
    { u with capCeils := (List.range 8).map fun i =>
        let old := Table.get 1500 u.capCeils i
        (i, if watts > cap then max 300 (s.spCur d i - 50)
            else if 16 * watts < 15 * cap then min 1500 (old + 50) else old) }

/-- The sensed estimates of a die's clusters: free values (log 7). -/
def State.senseClusters (s : State) : List Nat → State
  | [] => s
  | c :: cs =>
    let (v, s) := s.draw
    (s.setRegFld (pclPa c) 47 32 v.toNat).senseClusters cs

/-- POWER_STEP: the die's control step, one in each interval, after the Beaver's (R410): the current ceiling rises after an interval below 7/8 of ILIM, then thermal, cap,
reliability, slew and boost (R410, R411). -/
def execPowerStep (d watts supply : Nat) (temps : List Nat) (s : State) : Res :=
  .next (if d ≥ 4 ∨ ¬ (s.die d).stepDue then s
    else
      let s := s.profStep d
      let s := s.modDie d fun u =>
        { u with stepDue := false, curCeil := if u.overWin then u.curCeil else min 256 (u.curCeil + 16), overWin := false,
                 ilim := min 4000 (fld (s.reg (ilimPa d)) 15 0) }
      let s := (zonesOf d).foldl (fun s c => s.modCluster c fun u => { u with junction := temps.getD (c % 32) 0 }) s
      let s := (s.capStep d watts).senseClusters (zonesOf d)
      let s := (zonesOf d).foldl State.stepMeter s
      let meters := decide ((s.die d).curCeil ≥ 256) && (zonesOf d).all fun c => decide ((s.cluster c).thermal ≥ 256)
      let s := (List.range 8).foldl (State.stepSpine · d (relCeil supply) meters) s
      s.setRegFld (pestPa d) 31 0 watts)

/-- CURRENT_WINDOW: the end of a 256-cycle window of sp0: an estimate above ILIM halves the current ceiling, which applies
at once (R410). -/
def execCurrentWindow (d amps : Nat) (s : State) : Res :=
  .next (if d ≥ 4 then s
    else
      let s := s.setRegFld (pestPa d) 63 32 amps
      let lim := (s.die d).ilim
      let s := s.modDie d fun u => { u with overWin := u.overWin || decide (8 * amps ≥ 7 * lim) }
      if amps > lim then
        let ceil := (s.die d).curCeil / 2
        (zonesOf d).foldl (fun s c =>
          let n := min (s.applied c) ceil
          (s.setRegFld (pclPa c) 24 16 n).reason c 62 (decide (n = ceil))) (s.modDie d fun u => { u with curCeil := ceil })
      else s)

/-- An AG on spine number `n` of the package, which is spine n % 8 of die n / 8 (R409). -/
def State.agOn (s : State) (n p : Nat) : Bool := siteKind p == .ag && siteDie p == n / 8 && s.spineOf p == n % 8

/-- METER_WINDOW: a new window of 256 cycles of spine number `n` of the package: the counts of the edge ports of the AGs on it
start at zero (R407). -/
def execMeterWindow (n : Nat) (s : State) : Res :=
  .next { s with sites := s.sites.map fun e => (e.1, if s.agOn n e.1 then { e.2 with admitted := 0 } else e.2) }

/-! ## PCAP (R412) -/

/-- A PCAP write: the register holds what was written, and the die's cap is the largest value up to it that keeps the four
dies' sum at 7,200 W. -/
def State.setPcap (s : State) (d : Nat) (v : Word) : State :=
  let others := ((List.range 4).filter (· ≠ d)).foldl (fun a e => a + (s.die e).cap) 0
  (s.setRegFld (pcapPa d) 15 0 (fld v 15 0)).modDie d fun u => { u with cap := min (fld v 15 0) (7200 - others) }

/-- PCAP_WRITE (R412). -/
def execPcapWrite (who : Agent) (d : Nat) (v : Word) (s : State) : Res :=
  .next (if d < 4 then s.regBy who (pcapPa d) (s.setPcap d v) else s)

end Sys2Proof.Machine
end

