-- ==== Sys2Proof/Machine/Steer.lean ====
section
/-! DEFINITION. steer, merge and filter (R134), lcmerge (R135), and how they apply cancellations (R140). -/

namespace Sys2Proof.Machine

/-- A packet as it travels on, its own kind, elements, flags and class kept. -/
def Pkt.again (k : Pkt) : Out := { kind := k.kind, elems := k.elems, last := k.last, aux := k.aux, tag := k.tag }

/-- Consume what a selector reads; a constant is not consumed. -/
def Site.take (t : Site) (n sel : Nat) : Site := if sel < 4 then t.takeIn n sel else t

/-- Cancel what a selector would have read. -/
def Site.cancelSel (t : Site) (n sel : Nat) : Act := if sel < 4 then t.cancelIn n sel else .run t

/-- Is the head that a selector reads an EOS? -/
def Site.isEos (t : Site) (n sel : Nat) : Bool :=
  decide (sel < 4) && ((t.inData n sel).map fun k => k.kind == 1).getD false

/-- The data input that a control value chooses, and the ports the firing drives (R134). -/
def steerChoice (f : BitVec 256) (v : Nat) : Nat × List Nat :=
  match ceOp f with
  | 0x1B => (ceA f, [if v = 0 then 0 else 1])
  | 0x1C => (if v = 0 then ceA f else ceB f, drivenPorts f)
  | _ => (ceA f, drivenPorts f)

/-- What site `p` sends on for a data packet of a format: the packet itself, or a length-skew for an odd length of a 64-bit
format (R119). -/
def Pkt.onward (k : Pkt) (p sfx : Nat) : Out := if k.odd sfx then ownErr clsLengthSkew p else k.again

/-- After the control packet is taken, cancel the data input of a selector; one that names the control's own port read that
packet (R120). -/
def Site.dropData (t : Site) (n sel ctl : Nat) : Act := if sel < 4 ∧ sel = ctl then .run t else t.cancelSel n sel

/-- One firing on a control packet that is no EOS. -/
def Site.steerOn (t : Site) (p n : Nat) (ctl : Pkt) : Act :=
  let f := (t.slot n).elem
  let all := drivenPorts f
  let v := (ctl.elems.getD 0 0).toNat
  let (sel, out) := steerChoice f v
  let u := t.take n (ceC f)
  if ctl.kind = 2 then t.ifRoom all (.run (u.emitAll n all (passErr ctl)))
  else if ctl.elems.length ≠ 1 then t.ifRoom all (.run (u.emitAll n all (ownErr clsLengthSkew p)))
  else if t.isEos n sel then
    t.ifRoom all (.run (((t.setSlot n { t.slot n with skew := true }).take n (ceC f)).emitAll n all (ownErr clsStreamSkew p)))
  else if ceOp f = 0x1E ∧ v = 0 then u.dropData n sel (ceC f)
  else if (t.slot n).cancelledNext out then (u.dropData n sel (ceC f)).then fun t => t.skipOrd n out
  else match t.operand n (ceSfx f) sel with
    | none => .wait
    | some k =>
      let u := if sel < 4 ∧ sel = ceC f then u else u.take n sel
      t.ifRoom out (.run (u.emitAll n out (k.onward p (ceSfx f))))

/-- A steering element's turn where no end of stream is to be sent: its control decides a firing. The control is read as `.n32`,
whatever the element's format, so that a constant is one element (R120, R134). -/
def Site.steerTurn (t : Site) (p n : Nat) : Act :=
  let c := t.slot n
  let f := c.elem
  if c.skew ∨ t.isEos n (ceC f) then .wait
  else match t.operand n sfxN32 (ceC f) with
    | none => .wait
    | some ctl => t.steerOn p n ctl

/-- STEER_FIRE: steer, merge or filter (R134, R140). A mismatch between control and data follows the strict row of R130. -/
def execSteerFire (p : Nat) (s : State) : Res :=
  .next (s.ceStep p (fun op => op == 0x1B || op == 0x1C || op == 0x1E) fun n t =>
    let c := t.slot n
    let f := c.elem
    let js := readPorts c
    let out := drivenPorts f
    match t.eosView n js with
    | some v =>
      if v.surplus = [] ∧ ¬ v.missing then t.ifRoom out (.run (t.forwardEos n js out v.level))
      else if v.surplus ≠ [] ∧ (c.skew ∨ t.isEos n (ceC f)) then t.ifRoom out (.run (t.strictSkew p n out v.surplus))
      else t.steerTurn p n
    | none => t.steerTurn p n)

/-- Set lcmerge's mode (R135). -/
def Site.lcMode (t : Site) (n : Nat) (m : BitVec 32) : Site := t.setSlot n ((t.slot n).setQ 0 m)

/-- lcmerge in mode 0: the entry value, or the end of the stream. -/
def Site.lcEntry (t : Site) (p n : Nat) : Act :=
  let c := t.slot n
  let f := c.elem
  let out := drivenPorts f
  let start (t : Site) : Site := t.setSlot n (((t.slot n).setQ 0 1).setQ 1 0)
  if ¬ t.isEos n (ceA f) ∧ c.cancelledNext out then (t.cancelSel n (ceA f)).then fun t => start (t.skipOrd n out)
  else match t.operand n (ceSfx f) (ceA f) with
    | none => .wait
    | some k =>
      t.ifRoom out (.run (
        if k.kind = 1 then ((t.take n (ceA f)).emitAll n out { kind := 1, aux := k.aux }).lcMode n 2
        else start ((t.take n (ceA f)).emitAll n out (k.onward p (ceSfx f)))))

/-- lcmerge in mode 1 on a control packet that is no EOS: an ERR counts as 0 and as a discard. The control value is element 0,
as in R134, and with c not 0 and an EOS at the head of b, of which the rule does not speak, the element waits (log 64). -/
def Site.lcControl (t : Site) (p n : Nat) (ctl : Pkt) : Act :=
  let c := t.slot n
  let f := c.elem
  let out := drivenPorts f
  let next (t : Site) : Site := t.setSlot n ((t.slot n).setQ 1 ((t.slot n).qAt 1 + 1))
  let u := t.take n (ceC f)
  if ctl.kind = 2 then .run ((u.discarded n 1).lcMode n 0)
  else if ctl.elems.getD 0 0 = 0 then .run (u.lcMode n 0)
  else if c.cancelledNext out then (u.dropData n (ceB f) (ceC f)).then fun t => next (t.skipOrd n out)
  else if t.isEos n (ceB f) then .wait
  else match t.operand n (ceSfx f) (ceB f) with
    | none => .wait
    | some k =>
      let u := if ceB f < 4 ∧ ceB f = ceC f then u else u.take n (ceB f)
      t.ifRoom out (.run (next (u.emitAll n out (k.onward p (ceSfx f)))))

/-- lcmerge's mismatch: an EOS of c before the instance ended (R135): one ERR, then DATA and ERR at a and b are discarded
until a, b and c all show EOS, which one EOS follows. -/
def Site.lcSkew (t : Site) (p n : Nat) : Act :=
  let c := t.slot n
  let f := c.elem
  let out := drivenPorts f
  if ¬ c.skew then t.ifRoom out (.run ((t.setSlot n { c with skew := true }).emitAll n out (ownErr clsStreamSkew p)))
  else
    let js := dedup ([ceA f, ceB f, ceC f].filter (· < 4))
    match t.eosView n js with
    | some v =>
      if v.surplus ≠ [] then .run (t.consume n v.surplus)
      else if v.missing then .wait
      else t.ifRoom out (.run ((t.forwardEos n js out v.level).lcMode n 0))
    | none => .wait

/-- LCMERGE_STEP (R135, R140). -/
def execLcmergeStep (p : Nat) (s : State) : Res :=
  .next (s.ceStep p (fun op => op == 0x1D) fun n t =>
    let c := t.slot n
    let f := c.elem
    match (c.qAt 0).toNat with
    | 0 => t.lcEntry p n
    | 1 =>
      if c.skew ∨ t.isEos n (ceC f) then t.lcSkew p n
      else match t.operand n sfxN32 (ceC f) with
        | none => .wait
        | some k => t.lcControl p n k
    | _ =>
      if t.isEos n (ceB f) ∧ t.isEos n (ceC f) then .run ((t.consume n (dedup ([ceB f, ceC f].filter (· < 4)))).lcMode n 0)
      else .wait)

end Sys2Proof.Machine
end

