-- ==== Sys2Proof/Machine/Source.lean ====
section
/-! DEFINITION. The counter chain (R136), the random generator (R152), block conversion (R153), red and scan (R154), and
function tables (R175, R176). -/

namespace Sys2Proof.Machine

/-! ## cnt (R136) -/

/-- The levels of a cnt, and the iteration count of level `l`. -/
def Cfg.cntLevels (c : Cfg) : Nat := (c.kAt 0).toNat % 4 + 1
def Cfg.cntCount (c : Cfg) (l : Nat) : Nat := (c.kAt (l + 1)).toNat

/-- The levels that complete a pass when level `l` takes one more iteration, deepest first, and the counters after it. -/
def cntCarry (c : Cfg) : Nat → Cfg × List Nat
  | 0 =>
    let v := (c.qAt 0).toNat + 1
    if v ≥ c.cntCount 0 then (c.setQ 0 0, [0]) else (c.setQ 0 (BitVec.ofNat 32 v), [])
  | l + 1 =>
    let v := (c.qAt (l + 1)).toNat + 1
    if v ≥ c.cntCount (l + 1) then
      let (c', es) := cntCarry (c.setQ (l + 1) 0) l
      (c', (l + 1) :: es)
    else (c.setQ (l + 1) (BitVec.ofNat 32 v), [])

/-- One emission of a cnt that is not stopped: an EOS that is due, or the next IDX packet. At the end of a pass it counts
the pass; a cnt that is asked to hold does so after its EOS of level 0 (R321). -/
def Site.cntStep (t : Site) (n : Nat) : Site :=
  let c := t.slot n
  match c.todo with
  | l :: ls =>
    let done := l == 0 && ls.isEmpty
    let c := { c with todo := ls, gate := c.gate || (done && c.hold) }
    (t.setSlot n c).emit n 0 { kind := 1, aux := BitVec.ofNat 8 l }
  | [] =>
    let inner := c.cntLevels - 1
    let i := (c.qAt inner).toNat
    let len := min (fld (c.kAt 0) 6 4 + 1) (c.cntCount inner - i)
    let last := decide (i + len ≥ c.cntCount inner)
    let es := (List.range len).map fun d => c.kAt 5 + c.kAt 6 * BitVec.ofNat 32 (i + d)
    let c' : Cfg :=
      if ¬ last then c.setQ inner (BitVec.ofNat 32 (i + len))
      else
        let (c1, ls) := match inner with
          | 0 => (c.setQ 0 0, [0])
          | m + 1 => cntCarry (c.setQ (m + 1) 0) m
        if ls.contains 0 then { c1 with todo := ls, passes := c1.passes + 1 } else { c1 with todo := ls }
    (t.setSlot n c').emit n 0 { kind := 4, elems := es, last }

/-- Has a cnt emitted all its passes and their EOS? -/
def Cfg.cntDone (c : Cfg) : Bool := c.todo.isEmpty && (c.stopped || (c.kAt 7 != 0 && decide (c.passes ≥ (c.kAt 7).toNat)))

/-- CNT_EMIT: with room on out0, the next packet of the nest (R136); a marker that waits, a hold and the end stop it. -/
def execCntEmit (p : Nat) (s : State) : Res :=
  .next (s.afterSource p (s.ceStep p (fun op => op == 0x1F) fun n t =>
    let c := t.slot n
    if c.inj.isSome ∨ c.gate ∨ c.cntDone then .wait else t.ifRoom [0] (.run (t.cntStep n))))

/-! ## rng (R152) -/

/-- One word of the generator and the state after it. -/
def rngNext (s0 s1 s2 s3 : BitVec 32) : BitVec 32 × BitVec 32 × BitVec 32 × BitVec 32 × BitVec 32 :=
  let out := (s1 * 5).rotateLeft 7 * 9
  let u := s1 <<< 9
  let s2 := s2 ^^^ s0
  let s3 := s3 ^^^ s1
  let s1 := s1 ^^^ s2
  let s0 := s0 ^^^ s3
  (out, s0, s1, s2 ^^^ u, s3.rotateLeft 11)

/-- `k` words drawn from a slot's state. -/
def Cfg.rngWords (c : Cfg) : Nat → List (BitVec 32) × Cfg
  | 0 => ([], c)
  | k + 1 =>
    let (o, s0, s1, s2, s3) := rngNext (c.qAt 0) (c.qAt 1) (c.qAt 2) (c.qAt 3)
    let (os, c) := Cfg.rngWords ((((c.setQ 0 s0).setQ 1 s1).setQ 2 s2).setQ 3 s3) k
    (o :: os, c)

/-- Has an rng emitted all its passes? -/
def Cfg.rngDone (c : Cfg) : Bool := c.todo.isEmpty && (c.stopped || (c.kAt 2 != 0 && decide (c.passes ≥ (c.kAt 2).toNat)))

/-- One emission of an rng. -/
def Site.rngStep (t : Site) (n : Nat) : Site :=
  let c := t.slot n
  let js := drivenPorts c.elem
  match c.todo with
  | l :: ls => (t.setSlot n { c with todo := ls }).emitAll n js { kind := 1, aux := BitVec.ofNat 8 l }
  | [] =>
    let (ws, c) := c.rngWords ((c.kAt 0).toNat % 8 + 1)
    let c := { c with emitted := c.emitted + 1 }
    let c := if c.emitted ≥ (c.kAt 1).toNat then { c with emitted := 0, passes := c.passes + 1, todo := [0] } else c
    (t.setSlot n c).emitAll n js { elems := ws }

/-- RNG_EMIT (R152). -/
def execRngEmit (p : Nat) (s : State) : Res :=
  .next (s.afterSource p (s.ceStep p (fun op => op == 0x22) fun n t =>
    let c := t.slot n
    if c.inj.isSome ∨ c.rngDone then .wait else t.ifRoom (drivenPorts c.elem) (.run (t.rngStep n))))

/-! ## bcvt (R153) -/

/-- Cut a list into packets of eight, the last with last = 1. -/
def packets8 : Nat → List (BitVec 32) → List Out
  | 0, _ => []
  | fuel + 1, es =>
    if es = [] then []
    else { elems := es.take 8, last := (es.drop 8).isEmpty } :: packets8 fuel (es.drop 8)

/-- The results of one block of gathered values: the codes for out0, then the scale for out1, and the flags. -/
def bcvtBlock (f : BitVec 256) (vs : List (BitVec 32)) : List (List Nat × Out) × Flags :=
  match fmtOf (ceSfx f), fmtOf (ceSub f % 16) with
  | some src, some dst =>
    let (scale, codes, fl) := blockConvert dst (Rm.of (ceRm f)) (ceFf f)
      (vs.map fun v => FVal.decode src (v.toNat % 2 ^ sfxBits (ceSfx f)))
    (((packets8 33 (codes.map (BitVec.ofNat 32))).map fun o => ([0], o)) ++
      [([1], { elems := [BitVec.ofNat 32 scale], last := true })], fl)
  | _, _ => ([], 0)

/-- BCVT_BLOCK: takes the packet at a into the block; 256 values, a packet with last = 1 or an EOS end it (R153). An ERR is
sent on both ports at once and the values gathered so far stay (R124, log 65). -/
def execBcvtBlock (p : Nat) (s : State) : Res :=
  .next (s.ceStep p (fun op => op == 0x16) fun n t =>
    let c := t.slot n
    let f := c.elem
    match t.operand n (ceSfx f) (ceA f) with
    | none => .wait
    | some k =>
      let t := t.consume n (readPorts c)
      let put (t : Site) (vs : List (BitVec 32)) (r : List (List Nat × Out) × Flags) : Site :=
        ((t.setSlot n { t.slot n with carry := vs }).raise n r.2).sends n r.1
      t.ifRoom [0, 1] (.run (
        if k.kind = 2 then t.emitAll n [0, 1] (passErr k)
        else if k.kind = 1 then
          let r := if c.carry = [] then ([], 0) else bcvtBlock f c.carry
          put t [] (r.1 ++ [([0, 1], { kind := 1, aux := k.aux })], r.2)
        else
          let vs := c.carry ++ k.elems
          let full := if vs.length ≥ 256 then bcvtBlock f (vs.take 256) else ([], 0)
          let rest := if vs.length ≥ 256 then vs.drop 256 else vs
          let short := if k.last ∧ rest ≠ [] then bcvtBlock f rest else ([], 0)
          put t (if k.last then [] else rest) (full.1 ++ short.1, full.2 ||| short.2))))

/-! ## red and scan (R154) -/

/-- Combine the running value with one element by sub: add, min, max, and, or. -/
def redOp (f : BitVec 256) (x y : Nat) : Nat × Flags :=
  if ceOpen f then
    let r := Config.approx (ceKey f) x y 0
    (r.1 % 2 ^ sfxBits (ceSfx f), r.2)
  else match ceSub f with
    | 0 =>
      match fmtOf (ceSfx f) with
      | some fm => fAdd fm (Rm.of (ceRm f)) (FVal.decode fm x) (FVal.decode fm y)
      | none => (intOp 1 (ceSfx f) x y, 0)
    | 1 => (minMaxOp false (ceSfx f) x y, 0)
    | 2 => (minMaxOp true (ceSfx f) x y, 0)
    | 3 => (x &&& y, 0)
    | _ => (x ||| y, 0)

/-- Run over the elements of a packet: the running values in order, the last one, the flags. -/
def redRun (f : BitVec 256) : Option Nat → List Nat → List Nat × Option Nat × Flags
  | r, [] => ([], r, 0)
  | none, v :: vs =>
    let (os, r, fl) := redRun f (some v) vs
    (v :: os, r, fl)
  | some x, v :: vs =>
    let (y, f1) := redOp f x v
    let (os, r, f2) := redRun f (some y) vs
    (y :: os, r, f1 ||| f2)

/-- One input packet of red or scan (R154). DESIGN CHOICE (log 82): an ERR between two runs opens the next one. -/
def Site.redStep (t : Site) (n : Nat) (k : Pkt) : Site :=
  let c := t.slot n
  let f := c.elem
  let out := drivenPorts f
  let scan := ceOp f == 0x18
  let t := t.consume n (readPorts c)
  let set (t : Site) (g : Cfg → Cfg) : Site := t.setSlot n (g (t.slot n))
  let finish (t : Site) : Site := if k.last then set t fun c => { c with run := false, runErr := none } else t
  if ¬ scan ∧ c.cancelledNext out then
    -- a cancelled result discards the packets of its run as they arrive (R141)
    if k.last then finish (t.skipOrd n out) else set t fun c => { c with run := true }
  else if k.kind = 2 then
    let e := c.runErr.getD (k.aux, k.elems.getD 0 0)
    let t := set t fun c => { c with run := true, runErr := some e }
    if scan then t.emitAll n out (errOut e.1 e.2) else t
  else match c.runErr with
    | some e =>
      if scan then finish (t.emitAll n out (errOut e.1 e.2))
      else if k.last then finish (t.emitAll n out (errOut e.1 e.2))
      else t
    | none =>
      let vs := (valuesOf (ceSfx f) k.elems).getD []
      let (os, r, fl) := redRun f (if c.run then some (c.qAt 0).toNat else none) vs
      let t := set (t.raise n fl) fun c => { c.setQ 0 (BitVec.ofNat 32 (r.getD 0)) with run := true }
      if scan then finish (t.emitAll n out { elems := elemsOf (ceSfx f) os, last := k.last })
      else if k.last then finish (t.emitAll n out { elems := elemsOf (ceSfx f) [r.getD 0], last := true })
      else t

/-- RED_RESULT: red or scan takes the packet at a; red's result leaves at the packet with last = 1 (R154). A cancelled
computation of scan cancels its input (R138); red absorbs its cancellations (R141). -/
def execRedResult (p : Nat) (s : State) : Res :=
  .next (s.ceStep p (fun op => op == 0x17 || op == 0x18) fun n t =>
    let c := t.slot n
    let f := c.elem
    let js := readPorts c
    let out := drivenPorts f
    let go : Act :=
      if ¬ t.noEos n js then .wait
      else match t.operand n (ceSfx f) (ceA f) with
        | none => .wait
        | some k => t.ifRoom out (.run (t.redStep n k))
    if ceOp f = 0x18 then t.orCancel n js out go else go)

/-! ## lut (R175, R176) -/

/-- A finite value as an integer over a power of two. -/
def FVal.rat : FVal → Option (Int × Nat)
  | .fin neg m e =>
    let v : Int := if 0 ≤ e then (m : Int) * 2 ^ e.toNat else m
    some (if neg then -v else v, (-e).toNat)
  | _ => none

/-- The exponent of a finite non-zero value, m in [1, 2). -/
def FVal.expo : FVal → Int
  | .fin _ m e => ilog2 m 1 + e
  | _ => 0

/-- A finite value times 2^k. -/
def FVal.shift (v : FVal) (k : Int) : FVal :=
  match v with
  | .fin n m e => .fin n m (e + k)
  | x => x

/-- The table index of u: floor((u - lo) * w), clamped to 0 to 255; infinities end at the clamp. -/
def lutIndex (u lo w : FVal) : Nat :=
  match u.rat, lo.rat, w.rat with
  | some (a, i), some (b, j), some (c, k) =>
    let v : Int := (a * 2 ^ j - b * 2 ^ i) * c / 2 ^ (i + j + k)
    if v < 0 then 0 else if v > 255 then 255 else v.toNat
  | _, _, _ => match u with | .inf false => 255 | _ => 0

/-- One fused step of the table: round(slope * u + intercept) (R176). -/
def lutTerm (c : Cfg) (rm : Rm) (u : FVal) : Nat × Flags :=
  let i := lutIndex u (.decode .f32 (c.kAt 1).toNat) (.decode .f32 (c.kAt 2).toNat)
  let e := Table.get 0 c.lut i
  fFma .f32 rm (.decode .f32 (e.toNat / 2 ^ 32)) u (.decode .f32 (e.toNat % 2 ^ 32))

/-- One element of lut on the exact path of a mode, or on the approximate path (R176). -/
def lutValue (c : Cfg) (rm : Rm) (approx : Bool) (mode x : Nat) : Nat × Flags :=
  let v := FVal.decode .f32 x
  let pinf := Fmt.f32.infBits
  let table (u : FVal) : Nat × Flags := lutTerm c rm u
  if v = .nan then (Fmt.f32.nan, 0)
  else if approx ∨ mode = 0 then table v
  else match mode, v with
    | 1, .inf neg => if neg then (0, 0) else (pinf, 0)
    | 1, .fin neg m e =>
      let (a, k) := ((FVal.fin neg m e).rat).getD (0, 0)
      let n : Int := a / 2 ^ k
      if n > 128 then (pinf, fOF ||| fNX)
      else if n < -151 then (0, fUF ||| fNX)
      else
        let (t, f1) := table (.fin false (a - n * 2 ^ k).toNat (-(k : Int)))
        let (y, f2) := ((FVal.decode .f32 t).shift n).round .f32 rm false
        (y, f1 ||| f2)
    | 2, .inf neg => if neg then (Fmt.f32.nan, fNV) else (pinf, 0)
    | 2, .fin neg m e =>
      if m = 0 then (Fmt.f32.signBit true + pinf, fDZ)
      else if neg then (Fmt.f32.nan, fNV)
      else
        let ex := (FVal.fin neg m e).expo
        let (t, f1) := table ((FVal.fin false m e).shift (-ex))
        let (y, f2) := fAdd .f32 rm (.decode .f32 t) (.fin (decide (ex < 0)) ex.natAbs 0)
        (y, f1 ||| f2)
    | _, .inf neg => (Fmt.f32.signBit neg, 0)
    | _, .fin neg m e =>
      if m = 0 then (Fmt.f32.signBit neg + pinf, fDZ)
      else
        let ex := (FVal.fin neg m e).expo
        let (t, f1) := table ((FVal.fin false m e).shift (-ex))
        let w := (FVal.decode .f32 t).shift (-ex)
        let (y, f2) := (if neg then w.neg else w).round .f32 rm false
        (y, f1 ||| f2)
    | _, .nan => (Fmt.f32.nan, 0)

/-- LUT_FIRE: evaluates the slot's table on each element of a (R175, R176). -/
def execLutFire (p : Nat) (s : State) : Res :=
  .next (s.ceStep p (fun op => op == 0x21) fun n t =>
    let c := t.slot n
    let f := c.elem
    let js := readPorts c
    let out := drivenPorts f
    t.orCancel n js out
      (if ¬ t.noEos n js then .wait
      else match t.operand n (ceSfx f) (ceA f) with
        | none => .wait
        | some k =>
          let t := t.consume n js
          t.ifRoom out (.run (
            if k.kind = 2 then t.emitAll n out (passErr k)
            else
              let rs := k.elems.map fun x => lutValue c (Rm.of (ceRm f)) (ceApprox f) ((c.kAt 0).toNat % 4) x.toNat
              (t.raise n (rs.foldl (fun a r => a ||| r.2) 0)).emitAll n out
                { elems := rs.map fun r => BitVec.ofNat 32 r.1, last := k.last }))))

end Sys2Proof.Machine
end

