-- ==== Sys2Proof/Machine/Marker.lean ====
section
/-! DEFINITION. Markers (R99, R111, R142 to R144, R174, R200, R213, R368): their injection at the ingress ports, their
arrival and their action at an element; and Owl cuts (R440, R441). -/

namespace Sys2Proof.Machine

def mkDormouse : Nat := 6
def mkOwl : Nat := 7
def mkKill : Nat := 8

/-! ## Which elements take part -/

/-- Does a slot's pattern do anything: it is no idle pattern (R64, R188, R68)? -/
def Cfg.works (c : Cfg) : Bool :=
  let f := c.elem
  (frKind f == 1 && ceOp f != 0) || (frKind f == 2 && mtOp f != 0) || (frKind f == 4 && agOp f != 0)

/-- An AG stream, whose in3 is a gate. -/
def isStream (f : BitVec 256) : Bool := frKind f == 4 && (agOp f == 1 || agOp f == 2)

/-- The read ports at which an element takes markers: a stream's gate carries none of its own. -/
def markPorts (c : Cfg) : List Nat := if isStream c.elem then (readPorts c).filter (· ≠ 3) else readPorts c

/-- lcmerge, which takes a marker from input a in mode 0 (R144). -/
def isLcmerge (f : BitVec 256) : Bool := frKind f == 1 && ceOp f == 0x1D

/-- A matrix operation (R121). -/
def isMatrix (f : BitVec 256) : Bool := frKind f == 1 && decide (0x30 ≤ ceOp f ∧ ceOp f ≤ 0x34)

/-- The sites of a region whose element works in slot `n`. -/
def State.workers (s : State) (g : Region) (n : Nat) : List Nat := g.sites.filter fun p => ((s.site p).slot n).works

/-- Give an element without a read port a marker: it waits behind one that is still to be acted on, but a KILL takes the place
of those ahead of it (R142, R144). -/
def Cfg.giveMarker (c : Cfg) (k : Pkt) : Cfg :=
  if c.inj.isNone ∨ k.kind = mkKill then { c with inj := some k, injs := [] } else { c with injs := c.injs ++ [k] }

/-- The marker that an element has been given is dealt with; the next one, if any, takes its place. -/
def Cfg.nextMarker (c : Cfg) : Cfg := { c with inj := c.injs.head?, injs := c.injs.tail }

/-- Inject a marker at the ingress ports of slot `n` of region `g`: every AG and every other element that reads no in port
takes it there (R142, R144, R213). -/
def State.inject (s : State) (g n kind payload : Nat) : State :=
  (s.workers (s.region g) n).foldl (fun s p =>
    s.modSite p fun t =>
      let c := t.slot n
      if markPorts c = [] then
        t.setSlot n (c.giveMarker { emptyPkt with kind := kind, elems := [BitVec.ofNat 32 payload], slot := n })
      else t) s

/-! ## Marker heads -/

/-- The first marker of slot `n` in an in port. -/
def Site.markerIn (t : Site) (n j : Nat) : Option Pkt :=
  (Table.get [] t.inb j).find? fun k => k.slot == n && k.marker

/-- Does a marker stand at the head of in port `j`? -/
def Site.atMarker (t : Site) (n j : Nat) : Bool := match t.inHead n j with | some k => k.marker | none => false

/-- The buffer without the first marker of a slot. -/
def dropMarker : List Pkt → Nat → List Pkt
  | [], _ => []
  | k :: b, n => if k.slot = n ∧ k.marker then b else k :: dropMarker b n

/-- Consume the marker of each of some ports; the packets ahead of it stay as residue (R143). -/
def Site.takeMarkers (t : Site) (n : Nat) (js : List Nat) : Site :=
  js.foldl (fun t j => { t with inb := Table.put t.inb j (dropMarker (Table.get [] t.inb j) n) }) t

/-- A steering firing needs only its control and the data that it selects; is one of them at a marker (R134, R142)? -/
def Site.steerStuck (t : Site) (n : Nat) : Bool :=
  let f := (t.slot n).elem
  let c := ceC f
  let at_ (sel : Nat) : Bool := decide (sel < 4) && t.atMarker n sel
  at_ c ||
    match t.operand n sfxN32 c with
    | none => false
    | some k => at_ (steerChoice f (k.elems.getD 0 0).toNat).1

/-- No firing of the slot can use the packets ahead of the markers any more (R142, R143). -/
def Site.stuck (t : Site) (n : Nat) : Bool :=
  let c := t.slot n
  let js := markPorts c
  let f := c.elem
  js.all (fun j => (t.markerIn n j).isSome) && js.any (t.atMarker n) && !(frKind f == 1 && t.earlyReady n) &&
    (!(frKind f == 1 && (ceOp f == 0x1B || ceOp f == 0x1C || ceOp f == 0x1E)) || t.steerStuck n)

/-- The marker that an element is to act on now, and the ports it comes from. lcmerge takes it from a (R144). -/
def Site.marker? (t : Site) (n : Nat) : Option (Pkt × List Nat) :=
  let c := t.slot n
  if isLcmerge c.elem then
    let js := [ceB c.elem, ceC c.elem].filter (· < 4)
    match c.inj with
    | some k => if js.all (t.atMarker n) ∨ k.kind = mkKill ∧ js.all (fun j => (t.markerIn n j).isSome) then some (k, js) else none
    | none => none
  else if markPorts c = [] then c.inj.map fun k => (k, [])
  else if t.stuck n then
    match (markPorts c).findSome? (t.markerIn n) with
    | some k => some (k, markPorts c)
    | none => none
  else none

/-! ## Releases of live blocks (R196) -/

/-- A matrix element that lets go of a TILE packet owes its tile one release. -/
def Site.owe (t : Site) (n : Nat) (k : Pkt) : Site :=
  if k.kind = 5 ∧ isMatrix (t.slot n).elem then
    { t with freed := t.freed ++ [(fld (k.elems.getD 0 0) 31 19, k.tag)] }
  else t

/-- The wire to destination `j` as it is after its first packet is gone. -/
def Site.dropWire (t : Site) (j : Nat) (w : List Pkt) : Site := { t with wire := Table.put t.wire j w }

/-! ## KILL's discards (R142, R174, R200, R213, R418) -/

/-- A packet that a KILL discards ahead of itself: every one of the slot before the port's first KILL. -/
def beforeKill (n : Nat) : List Pkt → List Pkt × List Pkt
  | [] => ([], [])
  | k :: b =>
    if k.slot = n ∧ k.kind = mkKill then ([], k :: b)
    else
      let (gone, rest) := beforeKill n b
      if k.slot = n then (k :: gone, rest) else (gone, k :: rest)

/-- The results of a slot that are on their way: in the pipeline, or still waiting for room; its markers stay. -/
def Site.dropResults (t : Site) (n : Nat) : Site :=
  { t.setSlot n { t.slot n with due := [] } with pipe := t.pipe.filter fun r => r.pkt.slot != n || r.pkt.marker }

/-- Discard what stands ahead of the KILL in every in port, and the results on their way. -/
def Site.discardAhead (t : Site) (n : Nat) : Site :=
  let t := (List.range 4).foldl (fun t j =>
    let (gone, rest) := beforeKill n (Table.get [] t.inb j)
    gone.foldl (fun t k => t.owe n k) { t with inb := Table.put t.inb j rest }) t
  t.dropResults n

/-- A KILL of slot `n` reaches site `p`, in a lane buffer or an in port: a site in FAULT is freed of its faults (R418) and
proceeds under R142, so a packet of the slot that a fault held on its way to an in port is discarded. -/
def State.killReaches (s : State) (p n : Nat) : State :=
  if (s.site p).phase ≠ .fault then s
  else
    let u := s.cluster (siteCluster p)
    let at_ (j : Nat) : Bool :=
      (u.held.any fun e => e.2.holder == .site p (16 + j)) || u.owed.any fun o => o.2 == .site p (16 + j)
    let free := (List.range 4).filter at_
    (s.freeFaults p fun _ _ => true).modSite p fun t => free.foldl (fun (t : Site) j =>
      match Table.get [] t.wire (16 + j) with
      | k :: w => if k.slot = n ∧ k.kind ≠ mkKill then (t.owe n k).dropWire (16 + j) w else t
      | [] => t) t

/-- A KILL that a STOPPED element of a cut's region takes sets CUT.kill of that cut's die (R440, R441). -/
def State.killCut (s : State) (p : Nat) : State :=
  match s.regionOf p with
  | none => s
  | some g => ((List.range 4).filter fun d => (s.die d).cutRegion == some g).foldl
      (fun s d => s.setRegFld (dieBase d + 0x40000) 62 62 1) s

/-- A KILL has reached the element: no further firing, packets ahead discarded, a fault freed; in any state but LOADING it
goes to HOLD (R127, R418). -/
def State.killArrives (s : State) (p n : Nat) : State :=
  if (s.site p).phase = .loading then s
  else
    let s := s.freeFaults p fun _ _ => true
    let s := if (s.site p).phase = .stopped then s.killCut p else s
    s.modSite p fun t =>
      let t := t.discardAhead n
      { t.setSlot n { t.slot n with killing := true } with phase := .hold }

/-! ## Arrival (R127, R142) -/

/-- A stopped generator's fault is let go: no fault stays pending in its save, and a kill discards the stop (R368). -/
def State.dropStop (s : State) (p n : Nat) : State :=
  let c := siteCluster p
  let u := s.cluster c
  let hit (h : Holder) : Bool := h == .ag p n
  (s.setCluster c { u with held := u.held.filter (fun e => !hit e.2.holder), owed := u.owed.filter fun o => !hit o.2 }).modSite p
    fun t => t.setSlot n { t.slot n with stopAt := none }

/-- MARKER_ARRIVE: a DORMOUSE or OWL at the head of read input `j` holds the element; a KILL in any input stops its firing
and discards. lcmerge passes a marker on from input a in mode 0, or a KILL at once, in place of one that it has passed on and
not yet acted on (R142, R144). -/
def execMarkerArrive (p j : Nat) (s : State) : Res :=
  .next (match s.curSlot p with
    | none => s
    | some n =>
      let t := s.site p
      let c := t.slot n
      let killHere := ((Table.get [] t.inb j).any fun k => k.slot == n && k.kind == mkKill)
        || (markPorts c == [] && (match c.inj with | some k => k.kind == mkKill | none => false))
      let s := if killHere ∧ ¬ c.killing then s.killArrives p n
        else if t.phase ≠ .hold ∧ t.mayFire ∧ (t.atMarker n j ∨ (markPorts c = [] ∧ c.inj.isSome)) then
          s.modSite p fun t => { t with phase := .hold }
        else s
      let t := s.site p
      let c := t.slot n
      if isLcmerge c.elem ∧ j = ceA c.elem ∧ t.atMarker n j ∧ t.live ∧ (c.qAt 0 = 0 ∨ c.killing) then
        match t.markerIn n j with
        | none => s
        | some k =>
          if c.inj.isSome ∧ ¬ (c.killing ∧ k.kind = mkKill ∧ c.inj.any fun i => i.kind != mkKill) then s
          else
            let t := (t.takeMarkers n [j]).setSlot n { c with inj := some k }
            s.setSite p (t.emitAll n (drivenPorts c.elem) { kind := k.kind, elems := k.elems })
      else s)

/-! ## The element's action (R142, R174, R200, R213) -/

/-- Nothing of the slot is left inside the element: no result in its pipeline, no queued matrix or tile entry, no outstanding
stream request. -/
def Site.quietInside (t : Site) (n : Nat) : Bool :=
  (t.pipe.all fun r => r.pkt.slot != n) && (t.matq.all fun e => e.slot != n) && (t.mtq.all fun e => e.slot != n)
    && (t.slot n).reqs.isEmpty && (t.slot n).due.isEmpty

/-- What a KILL clears in a slot. -/
def Cfg.killed (c : Cfg) : Cfg :=
  { c with q := c.q0, discard := 0, killing := false, inj := none, injs := [], carry := [], run := false, runErr := none, due := [], skip := [],
           inp := c.inp.map (fun e => (e.1, { e.2 with marks := [] })),
           outp := c.outp.map (fun e => (e.1, { e.2 with pend := [], held := [] })) }

/-- Zero an accumulator tile; the write of its words clears their poison (R419). -/
def State.zeroAcc (s : State) (p t : Nat) : State :=
  let lo := accAddr p t 0
  let inTile (a : Nat) : Bool := decide (lo ≤ a) && decide (a < lo + 0x2000)
  { s with accWords := s.accWords.filter (fun e => !inTile e.1), poison := s.poison.filter fun a => !inTile a }

/-- A KILL completes at a matrix element: the tiles that its context owns are zeroed and closed, its bin run discarded
(R159, R174). -/
def State.killTiles (s : State) (p n : Nat) : State :=
  let s := (List.range 8).foldl (fun s k =>
    let a := Table.get {} (s.site p).acc k
    if a.owner = n then
      (s.zeroAcc p k).modSite p fun t => { t with acc := Table.put t.acc k { a with opened := false, err := none } }
    else s) s
  s.modSite p fun t => { t with bin := t.bin.filter fun b => b.slot != n }

/-- The TILE packets that an entry holds: one where a and b name the same port, whose packet they share (R120). -/
def MatEntry.tiles (e : MatEntry) : List Pkt :=
  if ceA e.frame = ceB e.frame then e.a.toList else e.a.toList ++ e.b.toList

/-- The entries of a slot that a KILL discards: all the matrix queue's, and the tile queue's that have issued no word; a
discarded matrix entry releases its blocks. -/
def Site.killEntries (t : Site) (n : Nat) : Site :=
  let gone := t.matq.filter fun e => e.slot == n
  let t := gone.foldl (fun t e => e.tiles.foldl (fun t k => t.owe n k) t) t
  { t with matq := t.matq.filter (fun e => e.slot != n), mtq := t.mtq.filter (fun e => e.slot != n),
           blocks := t.blocks.filter fun b => b.slot != n }

/-- The windows of a cluster that the AG at `p` owns lose their coalescing buffers (R213). -/
def State.dropCoalesced (s : State) (p : Nat) : State :=
  s.modCluster (siteCluster p) fun u =>
    { u with wins := u.wins.map fun e => if e.2.owner = some p then (e.1, { e.2 with cbuf := [] }) else e }

/-- Consume the marker of each port of `js`, and one that waits at a stream's gate. -/
def Site.eatMarkers (t : Site) (n : Nat) (js : List Nat) : Site :=
  let c := t.slot n
  let gate := if isStream c.elem ∧ (t.markerIn n 3).isSome then [3] else []
  t.takeMarkers n (js ++ gate)

/-- The element's action for a marker that it takes at the ports `js`: it saves, stops or clears, and sends the marker on. -/
def State.actMarker (s : State) (p n : Nat) (k : Pkt) (js : List Nat) : State :=
  let c := (s.site p).slot n
  let sent := isLcmerge c.elem
  let s := s.dropStop p n
  let s := if k.kind = mkKill then
      ((s.killTiles p n).modSite p fun t => ((t.killEntries n).dropResults n).setSlot n { t.slot n with reqs := [] }).dropCoalesced p
    else s
  s.modSite p fun t =>
    let t := t.eatMarkers n js
    let c := t.slot n
    let c' := if k.kind = mkKill then c.killed else c.nextMarker
    let t := t.setSlot n c'
    let t := if sent then t else t.emitAll n (drivenPorts c'.elem) { kind := k.kind, elems := k.elems }
    { t with phase := if k.kind = mkDormouse then .saved else if k.kind = mkOwl then .stopped else .idle }

/-- End the drains of slot `n` of region `g` that wait, with a cause (R221). -/
def State.endDrains (s : State) (g n cause : Nat) : State :=
  { s with cmds := s.cmds.map fun e =>
      if e.2.op = 0x43 ∧ e.2.stage = 1 ∧ s.ofRegion g e.2.b ∧ fld e.2.c 1 0 = n then (e.1, { e.2 with stage := 2, cause })
      else e }

/-- A KILL completed at every element of an ACTIVE or SUSPENDED slot: the slot is LOADED and is no longer current (R217), and drains
that wait for it end (R221). -/
def State.killDone (s : State) (g n : Nat) : State :=
  let r := s.region g
  if ((r.slot n).phase = .active ∨ (r.slot n).phase = .suspended) ∧ (s.workers r n).all fun p => (s.site p).phase == .idle then
    (s.endDrains g n tCfgState).setRegion g
      { r.setSlot n { r.slot n with phase := .loaded } with cur := if r.cur = some n then none else r.cur }
  else s

/-- MARKER_COMPLETE: an element in HOLD acts once a marker stands on every read input and nothing of its slot is inside (R142);
in any other state a marker finds no row of R127 (R7). A DORMOUSE or OWL waits while the site holds a fault (R418). -/
def execMarkerComplete (p : Nat) (s : State) : Res :=
  .next (match s.regionOf p with
    | none => s
    | some g =>
      match (s.region g).cur with
      | none => s
      | some n =>
        let t := s.site p
        match t.marker? n with
        | none => s
        | some (k, js) =>
          let inside := if k.kind = mkKill then true else t.quietInside n
          if t.phase = .hold ∧ inside ∧ (t.slot n).killing = (k.kind == mkKill) then
            let s := s.actMarker p n k js
            if k.kind = mkKill then s.killDone g n else s
          else s)

/-! ## Cuts (R440, R441) -/

def cutPa (d : Nat) : Nat := dieBase d + 0x40000
def cutstPa (d : Nat) : Nat := dieBase d + 0x40008

/-- CUTST.st of a die: 0 idle, 1 pending, 2 complete. -/
def State.cutSt (s : State) (d : Nat) : Nat := fld (s.reg (cutstPa d)) 1 0

def State.cutErr (s : State) (d : Nat) : State := s.setRegFld (cutPa d) 63 63 1

/-- The region whose relative die 0 has its origin at a site value. -/
def State.regionAt (s : State) (org : Nat) : Option Nat :=
  (s.regions.find? fun e => descOrg e.2.desc 0 == org).map (·.1)

/-- Start a cut: OWL at every ingress port of the current slot of CUT's region. -/
def State.startCut (s : State) (d : Nat) : State :=
  if s.cutSt d ≠ 0 then s.cutErr d
  else
    match s.regionAt (fld (s.reg (cutPa d)) 12 0) with
    | none => s.cutErr d
    | some g =>
      match (s.region g).cur with
      | none => s.cutErr d
      | some n =>
        ((s.inject g n mkOwl (fld (s.reg (cutPa d)) 44 13)).setRegFld (cutstPa d) 1 0 1).modDie d fun u =>
          { u with cutRegion := some g, cutSlot := n }

/-- A breakpoint hit with cut = 1 names the region of its site and starts a cut; one while st is not 0 sets err. -/
def State.hitCut (s : State) (p : Nat) : State :=
  match s.regionOf p with
  | none => s
  | some g =>
    let org := descOrg (s.region g).desc 0
    let d := siteDie p
    if s.cutSt d ≠ 0 then s.cutErr d else (s.setRegFld (cutPa d) 12 0 org).startCut d

/-- Release a complete cut: every STOPPED element of its region goes to WAIT. -/
def State.releaseCut (s : State) (d : Nat) : State :=
  if s.cutSt d ≠ 2 then s.cutErr d
  else
    let s := match (s.die d).cutRegion with
      | none => s
      | some g => (s.region g).sites.foldl (fun (s : State) p =>
          s.modSite p fun (t : Site) => if t.phase = ElemPhase.stopped then { t with phase := ElemPhase.wait } else t) s
    (s.setRegFld (cutstPa d) 1 0 0).modDie d fun u => { u with cutRegion := none }

/-- A write of CUTST.act (R440). -/
def State.cutAct (s : State) (d act : Nat) : State :=
  match act with
  | 0 => s
  | 1 => s.startCut d
  | 2 => s.releaseCut d
  | _ => s.cutErr d

/-- A write of CUT: num and org while st is 0; err and kill are W1C. -/
def State.setCut (s : State) (d : Nat) (v : Word) : State :=
  let old := s.reg (cutPa d)
  let flags := fld old 63 62 - fld (old &&& v) 63 62
  let low := if s.cutSt d = 0 then fld v 44 0 else fld old 44 0
  s.setDreg (cutPa d) (BitVec.ofNat 64 (flags * 2 ^ 62 + low))

/-- No anti-token of a slot lies on a reverse lane of the region (R112). -/
def State.noAnti (s : State) (g n : Nat) : Bool :=
  (s.region g).sites.all fun p => (s.site p).rev.all fun e => e.2.all fun a => a.slot != n

/-- The cut-record words of a site (R436). -/
def Site.cutWords (t : Site) (n : Nat) : Table Word :=
  let c := t.slot n
  let w (v : Nat) : Word := BitVec.ofNat 64 v
  ((List.range 4).map fun i => (0x40 + 8 * i, w (c.inPort i).exp.toNat))
    ++ ((List.range 4).map fun i => (0x60 + 8 * i, w (c.outPort i).ord.toNat))
    ++ [(0x80, w ((c.outp.foldl (fun a e => a + e.2.pend.length) 0) * 2 ^ 32 + c.inp.foldl (fun a e => a + e.2.marks.length) 0)),
        (0x88, w ((c.outp.foldl (fun a e => a + e.2.held.length) 0) * 2 ^ 32 + (t.forks.filter fun f => f.slot == n).length))]

/-- CUT_START: a write of act 1 to CUTST (R440). -/
def execCutStart (who : Agent) (d : Nat) (s : State) : Res :=
  .next (if d < 4 then s.regBy who (cutstPa d) (s.cutAct d 1) else s)

/-- CUT_RELEASE: a write of act 2 to CUTST (R440). -/
def execCutRelease (who : Agent) (d : Nat) (s : State) : Res :=
  .next (if d < 4 then s.regBy who (cutstPa d) (s.cutAct d 2) else s)

/-- CUT_COMPLETE: every element of the slot is STOPPED, or IDLE after a KILL, and no anti-token is on a reverse lane: the
records of every site, its switch's fork entries among them, are written and T_CUT_DONE reported to the lead cluster with the number in m5 (R440, R441, R112). -/
def execCutComplete (d : Nat) (s : State) : Res :=
  .next (match (s.die d).cutRegion with
    | none => s
    | some g =>
      let r := s.region g
      let n := (s.die d).cutSlot
      if s.cutSt d = 1 ∧ ((s.workers r n).all fun p => (s.site p).phase == .stopped || (s.site p).phase == .idle) ∧ s.noAnti g n then
        let s := r.sites.foldl (fun s p => s.modSite p fun t => { t with cut := t.cutWords n }) s
        let s := s.setRegFld (cutstPa d) 1 0 2
        (s.report r.lead { src := 1, cause := tCutDone, ctx := s.regionCtx g, slot := n,
                           detail := BitVec.ofNat 64 (fld (s.reg (cutPa d)) 44 13) }).trace r.lead 5 (s.regionCtx g) 0
      else s)

end Sys2Proof.Machine
end

