-- ==== Sys2Proof/Machine/Matrix.lean ====
section
/-! DEFINITION. The matrix node (R157 to R174): entries, operand blocks, the MMA steps of R166, bin runs (R42, R168), the
accumulator reads, clears and codebook loads. -/

namespace Sys2Proof.Machine

/-! ## Frames and tiles -/

/-- The accumulator tile of a matrix frame. -/
def matTile (f : BitVec 256) : Nat := ceSub f / 32
/-- The weight format of an mma frame. -/
def matW (f : BitVec 256) : Nat := ceSub f % 16

def Site.accTile (t : Site) (k : Nat) : AccTile := Table.get {} t.acc k
def Site.setAcc (t : Site) (k : Nat) (a : AccTile) : Site := { t with acc := Table.put t.acc k a }

/-- Word `i` of accumulator tile `k` of a compute element (R157). -/
def State.accWord (s : State) (p k i : Nat) : BitVec 32 := Table.get 0 s.accWords (accAddr p k i)

/-- Replace all 2,048 words of a tile, or as many as `ws` holds. -/
def State.setAccWords (s : State) (p k : Nat) (ws : List (BitVec 32)) : State :=
  let s := s.zeroAcc p k
  { s with accWords := (ws.zipIdx).foldl (fun t e => if e.1 = 0 then t else Table.put t (accAddr p k e.2) e.1) s.accWords }

/-! ## Operand blocks (R161, R195) -/

/-- A TILE descriptor: the site, end bit, scale bit, first word, pitch and k offset. -/
structure Desc where
  site : Nat
  kend : Bool
  sc : Bool
  first : Nat
  pitch : Nat
  kofs : Nat
  deriving DecidableEq, Repr

def Pkt.desc (k : Pkt) : Desc :=
  let a := k.elems.getD 0 0
  let b := k.elems.getD 1 0
  { site := fld a 31 19, kend := bit a 18, sc := bit a 17, first := fld a 16 0, pitch := fld b 31 22,
    kofs := 32 * fld b 21 0 }

/-- The row width in words of an operand format (R195). -/
def rowWidth (sfx : Nat) : Nat :=
  match sfx with
  | 1 | 2 => 16
  | 5 => 4
  | _ => 8

/-- The last word of a block of `rows` rows (R195). -/
def Desc.lastWord (d : Desc) (sfx rows : Nat) : Nat :=
  if d.sc then d.first + rows * d.pitch + rows / 4 - 1 else d.first + (rows - 1) * d.pitch + rowWidth sfx - 1

/-- Does a descriptor name a memory tile of the element's cluster, with its block inside it (R162)? -/
def Desc.inTile (d : Desc) (p sfx rows : Nat) : Bool :=
  siteKind d.site == .mt && siteCluster d.site == siteCluster p && decide (d.lastWord sfx rows ≤ 131071)

/-- Element `k` of row `r` of a block, as its bits (R161, R30). -/
def State.blockElem (s : State) (d : Desc) (sfx r k : Nat) : Nat :=
  let row := wordAddr d.site (d.first + r * d.pitch)
  match sfx with
  | 1 | 2 => s.memNum (row + 2 * k) 2
  | 5 => (s.mem.read (row + k / 2)).toNat / 2 ^ (4 * (k % 2)) % 16
  | _ => (s.mem.read (row + k)).toNat

/-- The scale byte of row `r` of a block of `rows` rows; 0x7F for a block without (R161). -/
def State.blockScale (s : State) (d : Desc) (rows r : Nat) : Nat :=
  if d.sc then (s.mem.read (wordAddr d.site (d.first + rows * d.pitch) + r)).toNat else 0x7F

/-- Row `r` of an operand as values with the scale included (R32, R161). -/
def State.blockRow (s : State) (d : Desc) (sfx rows r : Nat) (flush : Bool) : List FVal :=
  match fmtOf sfx with
  | none => []
  | some fm =>
    let e := s.blockScale d rows r
    (List.range 32).map fun k => (FVal.decodeFlush fm (flush && sfxFp8 sfx) (s.blockElem d sfx r k)).scaleBy e

/-- Row `r` of an INT8 operand. -/
def State.blockInts (s : State) (d : Desc) (r : Nat) : List Int := (List.range 32).map fun k => intOf 6 (s.blockElem d 6 r k)

/-! ## Placing entries (R158, R162, R167, R225) -/

/-- The error of an mma firing's operands, in the order of R162. -/
def mmaErr (p : Nat) (f : BitVec 256) (a b : Pkt) : Option (BitVec 8 × BitVec 32) :=
  match firstErr [a, b] with
  | some e => some (e.aux, e.elems.getD 0 0)
  | none =>
    let x := a.desc
    let y := b.desc
    if x.kofs % 32 = 0 ∧ x.kofs = y.kofs ∧ x.inTile p (ceSfx f) 64 ∧ y.inTile p (matW f) 32 then none
    else some (BitVec.ofNat 8 clsIndexRange, BitVec.ofNat 32 p)

/-- The end bit that an entry will have: a's, where a is a TILE (R162). -/
def MatEntry.kend (e : MatEntry) : Bool := match e.a with | some k => k.kind == 5 && k.desc.kend | none => false

/-- Does an entry send on port `j` when it executes: an EOS, a done token, or what it reads? -/
def MatEntry.emits (e : MatEntry) (j : Nat) : Bool :=
  (drivenPorts e.frame).contains j &&
    (e.eos.isSome || (ceOp e.frame == 0x30 && e.kend) || ceOp e.frame == 0x31 || ceOp e.frame == 0x33)

/-- Room on each port for an entry placed now, counting one packet of each queued entry, of any slot, that will send there
(R122, R158, R167). -/
def Site.matRoom (t : Site) (out : List Nat) : Bool :=
  out.all fun j => t.roomOut ((t.matq.filter fun e => e.emits j).length + 1) j

/-- Take one unit of the tile counter of the slot that site `p` runs; its reaching 0 is the tile-count boundary (R225). -/
def State.takeTc (s : State) (p n : Nat) : State :=
  match s.regionOf p with
  | none => s
  | some g =>
    s.modRegion g fun r =>
      let u := r.slot n
      if u.limited then r.setSlot n { u with tc := u.tc - 1, crossed := u.crossed + if u.tc = 1 then 1 else 0 } else r

/-- A limited counter that is 0: a firing with kend = 1 waits (R225). -/
def State.tcWaits (s : State) (p n : Nat) : Bool :=
  match s.regionOf p with
  | none => false
  | some g => ((s.region g).slot n).limited && ((s.region g).slot n).tc == 0

/-- The entry of slot `n` over the heads `a` and `b`. -/
def Site.matEntry (t : Site) (n : Nat) (a b : Option Pkt) (err : Option (BitVec 8 × BitVec 32)) (eos : Option Nat) : MatEntry :=
  { slot := n, frame := (t.slot n).elem, k0 := (t.slot n).kAt 0, a, b, err, eos }

def Site.place (t : Site) (e : MatEntry) : Site := { t with matq := t.matq ++ [e] }

/-- An mma firing (R162, R167): an EOS entry, a surplus discarded under the strict row of R130, a fault, or an entry. DESIGN CHOICE
(log 83): what stands against an EOS is surplus whatever its kind. -/
def State.mmaPlace (s : State) (p n : Nat) : State :=
  let t := s.site p
  let c := t.slot n
  let js := readPorts c
  let out := drivenPorts c.elem
  let ifRoom (ok : Bool) (t : Site) : State := s.act p n (if ok then .run t else .block)
  match t.eosView n js with
  | some v =>
    if v.surplus = [] then
      if v.missing then s
      else
        let u := t.consume n js
        let u := u.setSlot n { u.slot n with skew := false }
        ifRoom (t.matRoom out) (u.place (u.matEntry n none none none (some v.level)))
    else if t.matq.all fun e => e.slot != n then
      let gone := v.surplus.filterMap (t.inData n)
      ifRoom (t.matRoom out) (gone.foldl (fun t k => t.owe n k) (t.strictSkew p n out v.surplus))
    else s
  | none =>
    match t.inData n (ceA c.elem), t.inData n (ceB c.elem) with
    | some a, some b =>
      let bad (k : Pkt) : Bool := k.kind != 2 && k.kind != 5
      if bad a then s.siteFault p tTokenKind n a.ord.toNat (16 + ceA c.elem) (a.header.zeroExtend 64)
      else if bad b then s.siteFault p tTokenKind n b.ord.toNat (16 + ceB c.elem) (b.header.zeroExtend 64)
      else
        let e := t.matEntry n (some a) (some b) (mmaErr p c.elem a b) none
        if ¬ e.kend then s.act p n (.run ((t.consume n js).place e))
        else if s.tcWaits p n then s
        else if ¬ t.matRoom out then s.act p n .block
        else (s.act p n (.run ((t.consume n js).place e))).takeTc p n
    | _, _ => s

/-- acc.wb's and cbk.ld's firings on the packet at a (R169, R172), which need room on the ports they drive (R158). -/
def Site.accPlace (t : Site) (n : Nat) : Act :=
  let c := t.slot n
  let js := readPorts c
  match t.inData n (ceA c.elem) with
  | none => .wait
  | some a =>
    let u := t.consume n js
    if ¬ t.matRoom (drivenPorts c.elem) then .block
    else if a.kind = 1 then .run (u.place (t.matEntry n none none none (some a.aux.toNat)))
    else if ceOp c.elem = 0x34 ∧ (a.kind = 2 ∨ a.elems.length ≠ 8) then .run (u.discarded n 1)
    else .run (u.place (t.matEntry n (some a) none none none))

/-- acc.rd's and acc.clr's firing: once for each swap-in (R169), at the swap itself where the queue and the driven ports have
room (R226, R448). An acc.rd that a drain of mode 1 has stopped sends its EOS alone (R228). A marker that has been given stops
it (R144). -/
def Site.oncePlace (t : Site) (n : Nat) : Act :=
  let c := t.slot n
  if c.once = 0 ∨ c.inj.isSome then .wait
  else if t.matq.length ≥ 4 ∨ ¬ t.matRoom (drivenPorts c.elem) then .block
  else .run ((t.setSlot n { c with once := c.once - 1 }).place
    (t.matEntry n none none none (if c.stopped ∧ ceOp c.elem = 0x31 then some 0 else none)))

/-- MATRIX_ENTRY_PLACE: the next firing of a matrix operation places its entry; while the queue holds four the element is in
BLOCK (R158). -/
def execMatrixEntryPlace (p : Nat) (s : State) : Res :=
  .next (match s.active p with
    | none => s
    | some (n, c) =>
      let t := s.site p
      if ¬ isMatrix c.elem ∨ ¬ t.mayFire ∨ c.killing then s
      else if t.matq.length ≥ 4 then s.act p n .block
      else match ceOp c.elem with
        | 0x30 => s.mmaPlace p n
        | 0x31 | 0x32 => s.act p n (t.oncePlace n)
        | _ => s.act p n (t.accPlace n))

/-! ## Bin runs (R42, R168) -/

/-- Does the head entry have to stop for the open bin run (R168)? -/
def Site.binStops (t : Site) (e : MatEntry) : Bool :=
  match t.bin with
  | none => false
  | some b =>
    !(e.slot == b.slot && ceOp e.frame == 0x30 && (e.eos.isSome || (matW e.frame == 5 && matTile e.frame == b.tile)))

/-- T_MATRIX_BIN at the site of an entry that stops: it names the offending context in its slot field, and in its detail the
run's tile and context and the offending context and operation (R168). -/
def State.binFault (s : State) (p : Nat) (b : BinRun) (e : MatEntry) : State :=
  s.siteFault p tMatrixBin e.slot 0 0 0 (Config.binDetail b.tile b.slot e.slot (ceOp e.frame))

/-- Entry `e` has left the head of the queue and releases its blocks (R196). -/
def Site.popEntry (t : Site) (e : MatEntry) (q : List MatEntry) : Site :=
  e.tiles.foldl (fun (u : Site) k => u.owe e.slot k) { t with matq := q }

/-- The head entry of a site's queue that satisfies `ok` executes `f`, once the run of R168 allows it: the entry leaves the
queue, its blocks are released. -/
def State.matStep (s : State) (p : Nat) (ok : MatEntry → Bool) (f : State → MatEntry → State) : State :=
  let t := s.site p
  match t.matq with
  | [] => s
  | e :: q =>
    if ¬ t.live ∨ ¬ ok e then s
    else match (if t.binStops e then t.bin else none) with
      | some b => s.binFault p b e
      | none => f (s.setSite p (t.popEntry e q)) e

/-- Close the open run of a site: every output of its tile combines its bins (R42). -/
def State.closeRun (s : State) (p : Nat) : State :=
  let t := s.site p
  match t.bin with
  | none => s
  | some b =>
    let cbk := (t.slot b.slot).cbk
    let out (o : Nat) : BitVec 32 × Flags :=
      let bins := (List.range 16).filterMap fun c =>
        let i := 16 * o + c
        if Table.has b.bins i then some ((Table.get 0 cbk c).toNat, Table.get 0 b.bins i, b.nans.contains i) else none
      let r := binClose (s.accWord p b.tile o).toNat (b.sa.getD (o / 32) 0x7F) (b.sw.getD (o % 32) 0x7F) bins
      (BitVec.ofNat 32 r.1, r.2)
    let rs := (List.range 2048).map out
    let fl := rs.foldl (fun a r => a ||| r.2) 0
    (s.setAccWords p b.tile (rs.map (·.1))).modSite p fun t => ({ t with bin := none }.raise b.slot fl)

/-- Add one k-group of activations to the bins (R166). -/
def State.binGroup (s : State) (p k : Nat) (e : MatEntry) (a b : Desc) : State :=
  let f := e.frame
  let act := ceSfx f
  let run : BinRun := match (s.site p).bin with
    | some r => r
    | none => { tile := k, slot := e.slot, bins := [], nans := [], sa := [], sw := [] }
  let units (x : Nat) : Option Int :=
    if act = 6 then some (intOf 6 x * 512)
    else match FVal.decodeFlush .e4m3f (ceFf f) x with
      | .fin n m e => some (scaled n m e (-9))
      | _ => none
  let rows := (List.range 64).map fun i => (List.range 32).map fun q => units (s.blockElem a act i q)
  let cols := (List.range 32).map fun j => (List.range 32).map fun q => s.blockElem b 5 j q
  let cells := (List.range 2048).flatMap fun o => (((rows.getD (o / 32) []).zip (cols.getD (o % 32) [])).map fun e => (16 * o + e.2, e.1))
  let (bins, nans) := cells.foldl (fun (st : Table Int × List Nat) e =>
    match e.2 with
    | some v => (Table.put st.1 e.1 (Table.get 0 st.1 e.1 + v), st.2)
    | none => (Table.put st.1 e.1 (Table.get 0 st.1 e.1), if st.2.contains e.1 then st.2 else st.2 ++ [e.1])) (run.bins, run.nans)
  s.modSite p fun t =>
    { t with bin := some { run with bins, nans, sa := (List.range 64).map (s.blockScale a 64),
                                    sw := (List.range 32).map (s.blockScale b 32) } }

/-- Does a bin run end at this k-group (R42, R166)? -/
def runEnds (a b : Desc) (kend : Bool) : Bool :=
  kend || (a.kofs + 32) % (if a.sc || b.sc then 256 else 4096) == 0

/-! ## MMA_EXECUTE (R159, R166) -/

/-- Accumulate one k-group of a floating or integer mma into tile `k` (R166). -/
def State.mmaGroup (s : State) (p k : Nat) (e : MatEntry) (a b : Desc) : State :=
  let f := e.frame
  let act := ceSfx f
  let w := matW f
  let rs : List (Nat × Flags) :=
    if act = 6 then
      let rows := (List.range 64).map (s.blockInts a)
      let cols := (List.range 32).map (s.blockInts b)
      (List.range 2048).map fun o => mmaInt (s.accWord p k o).toNat ((rows.getD (o / 32) []).zip (cols.getD (o % 32) []))
    else
      let rows := (List.range 64).map fun i => s.blockRow a act 64 i (ceFf f)
      let cols := (List.range 32).map fun j => s.blockRow b w 32 j (ceFf f)
      (List.range 2048).map fun o => mmaFloat (s.accWord p k o).toNat ((rows.getD (o / 32) []).zip (cols.getD (o % 32) []))
  (s.setAccWords p k (rs.map fun r => BitVec.ofNat 32 r.1)).modSite p fun t => t.raise e.slot (rs.foldl (fun a r => a ||| r.2) 0)

/-- The accumulation of an entry without an error. -/
def State.mmaWork (s : State) (p k : Nat) (e : MatEntry) : State :=
  match e.a, e.b with
  | some a, some b =>
    if matW e.frame = 5 then
      let s := s.binGroup p k e a.desc b.desc
      if runEnds a.desc b.desc e.kend then s.closeRun p else s
    else s.mmaGroup p k e a.desc b.desc
  | _, _ => s

/-- The done token of a tile: its number, or the ERR of its record (R167). -/
def doneToken (k : Nat) (a : AccTile) : Out :=
  match a.err with
  | some (cls, w) => errOut cls w
  | none => { elems := [BitVec.ofNat 32 k] }

/-- An mma entry executes: the state step of R159, the accumulation or the error, and the close with its done token. -/
def State.mmaExecute (s : State) (p : Nat) (e : MatEntry) : State :=
  let k := matTile e.frame
  let a := (s.site p).accTile k
  let s := if a.opened then s else s.zeroAcc p k
  let a : AccTile := if a.opened then { a with owner := e.slot } else { opened := true, owner := e.slot }
  let s := s.modSite p fun t => t.setAcc k a
  let s := match e.err with
    | none => s.mmaWork p k e
    | some r => s.modSite p fun t => t.setAcc k { a with err := if a.err.isSome then a.err else some r }
  if e.kend then
    let s := s.closeRun p
    s.modSite p fun t =>
      let a := t.accTile k
      (t.setAcc k { a with opened := false }).emitAll e.slot (drivenPorts e.frame) (doneToken k a)
  else s

/-- A poisoned word lies in a block that an entry reads (R419). -/
def State.blockPoison (s : State) (d : Desc) (sfx rows : Nat) : Bool :=
  s.poison.any fun a =>
    decide (wordAddr d.site d.first ≤ a) && decide (a ≤ wordAddr d.site (d.lastWord sfx rows)) &&
      (let o := (a - wordAddr d.site d.first) / 4
       let r := o / max 1 d.pitch
       decide (r ≥ rows) || decide (o % max 1 d.pitch < rowWidth sfx))

/-- A poisoned word lies in one of some rows of an accumulator tile (R419). -/
def State.accPoison (s : State) (p k : Nat) (rows : List Nat) : Bool :=
  s.poison.any fun a => decide (accAddr p k 0 ≤ a) && rows.contains ((a - accAddr p k 0) / 128)

/-- An mma entry that reads a poisoned operand word, or a poisoned word of its OPEN tile, faults the element (R419). -/
def State.matPoison (s : State) (p : Nat) (e : MatEntry) : Bool :=
  e.err.isNone &&
    ((match e.a with | some k => s.blockPoison k.desc (ceSfx e.frame) 64 | none => false)
      || (match e.b with | some k => s.blockPoison k.desc (matW e.frame) 32 | none => false)
      || ((s.site p).accTile (matTile e.frame)).opened && s.accPoison p (matTile e.frame) (List.range 64))

/-- T_ECC_UNCORR at the site of a matrix entry that reads poison: it names the entry's packet, b's where only b's block is
poisoned, and its in port; an acc.rd has none (R415, R419). -/
def State.matFault (s : State) (p : Nat) (e : MatEntry) : State :=
  let onB := (match e.a with | some k => !s.blockPoison k.desc (ceSfx e.frame) 64 | none => false)
    && (match e.b with | some k => s.blockPoison k.desc (matW e.frame) 32 | none => false)
  match (if onB then e.b else e.a) with
  | some k =>
    s.siteFault p tEccUncorr e.slot k.ord.toNat (16 + if onB then ceB e.frame else ceA e.frame) (k.header.zeroExtend 64)
  | none => s.siteFault p tEccUncorr e.slot 0 0 0

/-- MMA_EXECUTE: the mma entry at the head of the queue executes (R159, R166, R167). -/
def execMmaExecute (p : Nat) (s : State) : Res :=
  .next (match (s.site p).matq with
    | e :: _ =>
      if (s.site p).live ∧ ceOp e.frame = 0x30 ∧ e.eos.isNone ∧ s.matPoison p e then s.matFault p e
      else s.matStep p (fun e => ceOp e.frame == 0x30 && e.eos.isNone) fun s e => s.mmaExecute p e
    | [] => s)

/-- MATRIX_EOS_EXECUTE: an EOS entry closes the OPEN tiles that its context owns, where it is an mma's, and sends EOS
(R159, R167, R129). That of an acc.rd which a drain has ended is a source's, and a kill point (R228, R339). -/
def execMatrixEosExecute (p : Nat) (s : State) : Res :=
  let reads := match (s.site p).matq with | e :: _ => ceOp e.frame == 0x31 | [] => false
  let after := s.matStep p (fun e => e.eos.isSome) fun s e =>
    let s := if ceOp e.frame = 0x30 then
        (s.closeRun p).modSite p fun t => (List.range 8).foldl (fun t k =>
          let a := t.accTile k
          if a.opened ∧ a.owner = e.slot then t.setAcc k { a with opened := false } else t) t
      else s
    s.modSite p fun t => t.emitAll e.slot (drivenPorts e.frame) { kind := 1, aux := BitVec.ofNat 8 (e.eos.getD 0) }
  .next (if reads then s.afterSource p after else after)

/-! ## Reading, clearing, codebooks (R170 to R172) -/

/-- The packets of acc.rd: 256 of eight words, then EOS of level 0. -/
def State.rdPackets (s : State) (p k : Nat) : List Out :=
  ((List.range 256).map fun q =>
    { elems := (List.range 8).map fun i => s.accWord p k (8 * q + i), last := q % 4 == 3 }) ++ [{ kind := 1 }]

/-- The rows that a mask packet leaves live; none for a length that is not 2 (R170). -/
def liveRows (f : BitVec 256) (a : Pkt) : Option (List Nat) :=
  if ceSub f % 2 = 0 then some (List.range 64)
  else if a.elems.length = 2 then
    some ((List.range 64).filter fun i => bit (a.elems.getD (i / 32) 0) (i % 32))
  else none

/-- One word of a tile as acc.wb converts it (R170). -/
def wbWord (f : BitVec 256) (w : BitVec 32) : BitVec 32 × Flags :=
  let sfx := ceSfx f
  if sfx = 0 ∨ sfx = 8 then (w, 0)
  else
    let r := convert (if sfx = 6 then 8 else 0) sfx (Rm.of (ceRm f)) (ceFf f) true w.toNat
    (BitVec.ofNat 32 r.1, r.2)

/-- The packets of one row of a tile that acc.wb writes back, and the flags of its conversions: four on out0, its index on
out1 where it is driven (R170). -/
def State.wbRow (s : State) (p k : Nat) (f : BitVec 256) (i : Nat) : List (List Nat × Out) × Flags :=
  let vs := (List.range 32).map fun j => wbWord f (s.accWord p k (32 * i + j))
  let data : List (List Nat × Out) := (List.range 4).map fun q => ([0], { elems := ((vs.drop (8 * q)).take 8).map (·.1), last := q == 3 })
  (data ++ (if (drivenPorts f).contains 1 then [([1], { kind := 4, elems := [BitVec.ofNat 32 i], last := true })] else []),
    vs.foldl (fun a v => a ||| v.2) 0)

/-- What an acc.rd or acc.wb entry sends when it executes, and the flags it raises (R170). -/
def State.accReads (s : State) (p : Nat) (e : MatEntry) : List (List Nat × Out) × Flags :=
  let k := matTile e.frame
  let out := drivenPorts e.frame
  let err := ((s.site p).accTile k).err
  match e.a with
  | some a =>
    if a.kind = 2 then ([(out, passErr a)], 0)
    else match err, liveRows e.frame a with
      | some (c, w), _ => ([(out, errOut c w)], 0)
      | none, none => ([(out, ownErr clsLengthSkew p)], 0)
      | none, some rows =>
        let rs := rows.map (s.wbRow p k e.frame)
        (rs.flatMap (·.1), rs.foldl (fun a r => a ||| r.2) 0)
  | none =>
    match err with
    | some (c, w) => ([(out, errOut c w)], 0)
    | none => ((s.rdPackets p k).map fun o => (out, o), 0)

/-- The rows of its tile that an acc.rd or acc.wb entry reads (R170). -/
def State.accRows (s : State) (p : Nat) (e : MatEntry) : List Nat :=
  if ((s.site p).accTile (matTile e.frame)).err.isSome then []
  else match e.a with
    | some a => if a.kind = 2 then [] else (liveRows e.frame a).getD []
    | none => List.range 64

/-- Send packets of slot `n` in order as far as their ports have room; the rest is left. -/
def Site.sendsOf (t : Site) (n : Nat) : List (List Nat × Out) → Site × List (List Nat × Out)
  | [] => (t, [])
  | (js, o) :: r => if t.room js then (t.emitAll n js o).sendsOf n r else (t, (js, o) :: r)

/-- An acc.rd or acc.wb entry at the head goes on sending `os`; it leaves the queue with its last packet (R164). -/
def Site.accSend (t : Site) (e : MatEntry) (q : List MatEntry) (os : List (List Nat × Out)) : Site :=
  let (u, r) := t.sendsOf e.slot os
  if r = [] then u.popEntry e q else { u with matq := { e with left := some r } :: q }

/-- An entry that passes an ERR on reads no tile, so that a bin run does not stop it (R170). -/
def MatEntry.passesErr (e : MatEntry) : Bool := match e.a with | some a => a.kind == 2 | none => false

/-- ACC_READ_EXECUTE: the acc.rd or acc.wb entry at the head of the queue reads its tile and sends what it read, packet by
packet as its ports have room, in which it stays at the head (R164, R170). A poisoned word that it would read faults the
element (R419). -/
def execAccReadExecute (p : Nat) (s : State) : Res :=
  .next (s.afterSource p <|
    let t := s.site p
    match t.matq with
    | [] => s
    | e :: q =>
      if ¬ t.live ∨ ¬ (ceOp e.frame = 0x31 ∨ ceOp e.frame = 0x33) ∨ e.eos.isSome then s
      else match e.left, (if t.binStops e ∧ ¬ e.passesErr then t.bin else none) with
        | some os, _ => s.setSite p (t.accSend e q os)
        | none, some b => s.binFault p b e
        | none, none =>
          if s.accPoison p (matTile e.frame) (s.accRows p e) then s.matFault p e
          else
          let (os, fl) := s.accReads p e
          s.setSite p ((t.raise e.slot fl).accSend e q os))

/-- ACC_CLR_EXECUTE: the tile is zero and CLOSED (R159, R171). -/
def execAccClrExecute (p : Nat) (s : State) : Res :=
  .next (s.matStep p (fun e => ceOp e.frame == 0x32 && e.eos.isNone) fun s e =>
    (s.zeroAcc p (matTile e.frame)).modSite p fun t => t.setAcc (matTile e.frame) { owner := e.slot })

/-- CBK_LD_EXECUTE: eight words write the sixteen entries of the codebook of context k0[1:0] (R172). -/
def execCbkLdExecute (p : Nat) (s : State) : Res :=
  .next (s.matStep p (fun e => ceOp e.frame == 0x34 && e.eos.isNone) fun s e =>
    let es := match e.a with | some a => a.elems | none => []
    let tab : Table (BitVec 16) := (List.range 16).map fun c => (c, BitVec.ofNat 16 ((es.getD (c / 2) 0).toNat / 2 ^ (16 * (c % 2))))
    s.modSite p fun t => t.setSlot (fld e.k0 1 0) { t.slot (fld e.k0 1 0) with cbk := tab })

end Sys2Proof.Machine
end

