-- ==== Sys2Proof/Machine/Link.lean ====
section
/-! DEFINITION. Links and tokens (R92 to R117): what a switch does with a source's head packet (R113, R114), the hop to the
next switch (R94, R96), acceptance at an in port (R100, R103, R384), anti-tokens on their way up (R107, R108, R110, R111),
breakpoints (R439) and meters at the edge ports (R407). -/

namespace Sys2Proof.Machine

/-! ## Where a link leads (R92, R115) -/

/-- The site across a side: 0 north, 1 east, 2 south, 3 west, on the same die. -/
def neighbour (p side : Nat) : Option Nat :=
  let d := siteDie p
  let x := siteX p
  let y := siteY p
  match side with
  | 0 => if y = 0 then none else some (siteAt d x (y - 1))
  | 1 => if x = 63 then none else some (siteAt d (x + 1) y)
  | 2 => if y = 31 then none else some (siteAt d x (y + 1))
  | _ => if x = 0 then none else some (siteAt d (x - 1) y)

/-- The incoming lane at the far site of destination `j`: the opposite side, the same lane. -/
def farLane (j : Nat) : Nat := (j / 4 + 2) % 4 * 4 + j % 4

/-- Where link destination `j` of slot `n` of site `p` leads: the far site and its incoming lane, by the cut edge of a
bridged destination (R115), else to the neighbour. -/
def State.hopTo (s : State) (p n j : Nat) : Option (Nat × Nat) :=
  let c := (s.site p).slot n
  if swBridge c.sw j then (c.edge.find? fun e => e.1 == j).map (·.2)
  else (neighbour p (j / 4)).map fun q => (q, farLane j)

/-- The link destination that feeds incoming lane `r` of site `q` in slot `n`: a cut edge of its region, else the
neighbour's. -/
def State.hopFrom (s : State) (q n r : Nat) : Option (Nat × Nat) :=
  let viaEdge := match s.regionOf q with
    | none => none
    | some g => (s.region g).sites.findSome? fun p =>
        ((((s.site p).slot n).edge).find? fun e => e.2 == (q, r)).map fun e => (p, e.1)
  match viaEdge with
  | some e => some e
  | none => (neighbour q (r / 4)).map fun p => (p, farLane r)

/-! ## Anti-tokens in buffers -/

/-- Does a packet carry the ordinal that an anti-token names? -/
def Pkt.named (k : Pkt) (slot : Nat) (ord : BitVec 16) : Bool := k.counts && k.slot == slot && k.ord.truncate 16 == ord

/-- The reverse buffer that the anti-tokens of destination `j` of slot `n` wait in: one for each link direction, which its
four lanes share (R95), one for each channel of a cut edge (R116), one for each in port. -/
def Site.revKey (t : Site) (n j : Nat) : Nat :=
  if 16 ≤ j then j else if swBridge (t.slot n).sw j then 32 + j else j / 4

def Site.revAt (t : Site) (key : Nat) : List Anti := Table.get [] t.rev key
def Site.setRev (t : Site) (key : Nat) (b : List Anti) : Site := { t with rev := Table.put t.rev key b }
def Site.wireAt (t : Site) (j : Nat) : List Pkt := Table.get [] t.wire j
def Site.setWire (t : Site) (j : Nat) (b : List Pkt) : Site := { t with wire := Table.put t.wire j b }

/-- Is an anti-token one of destination `j`'s channel of slot `n`? -/
def Anti.onto (a : Anti) (n j : Nat) : Bool := a.slot == n && (decide (16 ≤ j) || a.vl == j % 4)

/-- Does an anti-token of destination `j` name packet `k`? -/
def Anti.names (a : Anti) (j : Nat) (k : Pkt) : Bool := a.onto k.slot j && k.named a.slot a.ord

/-- The buffer without the first anti-token for `k`. -/
def dropAnti (j : Nat) (k : Pkt) : List Anti → List Anti
  | [] => []
  | a :: b => if a.names j k then b else a :: dropAnti j k b

/-- An anti-token for packet `k` waits at destination `j`. -/
def Site.antiFor (t : Site) (j : Nat) (k : Pkt) : Bool := (t.revAt (t.revKey k.slot j)).any fun a => a.names j k

/-- Take the anti-token for packet `k` from destination `j`. -/
def Site.takeAnti (t : Site) (j : Nat) (k : Pkt) : Site :=
  t.setRev (t.revKey k.slot j) (dropAnti j k (t.revAt (t.revKey k.slot j)))

/-- The damaged anti-token, with its destination, that a packet would meet on leaving by one of some destinations (R96). -/
def Site.damaged (t : Site) (k : Pkt) (js : List Nat) : Option (Nat × Anti) :=
  js.findSome? fun j => ((t.revAt (t.revKey k.slot j)).find? fun a =>
    a.bad && (a.names j k || (k.kind == mkKill && a.onto k.slot j))).map fun a => (j, a)

/-- The anti-token `a` at destination `j` is to be sent again: no longer damaged (R96, R420). -/
def Site.mendAnti (t : Site) (n j : Nat) (a : Anti) : Site :=
  t.setRev (t.revKey n j) ((t.revAt (t.revKey n j)).map fun x => if x = a then { x with bad := false } else x)

/-- A KILL discards the anti-tokens of its channel that it meets at destination `j` (R111). -/
def Site.killAntis (t : Site) (j : Nat) (k : Pkt) : Site :=
  if k.kind = mkKill then
    t.setRev (t.revKey k.slot j) ((t.revAt (t.revKey k.slot j)).filter fun a => !a.onto k.slot j)
  else t

/-- Put a packet on the wire to destination `j`: an anti-token that waits there for it annihilates both; one for an EOS is
dropped and the EOS goes on (R107); a KILL discards those it meets (R111). -/
def Site.putWire (t : Site) (j : Nat) (k : Pkt) : Site :=
  let k := { k with off := [] }
  if t.antiFor j k then
    let t := t.takeAnti j k
    if k.kind = 1 then t.strayed.setWire j (t.wireAt j ++ [k]) else t.annihilated k
  else (t.killAntis j k).setWire j (t.wireAt j ++ [k])

/-! ## Switches (R110, R113, R114) -/

/-- The destinations of slot `n` that select source `r`. -/
def Site.dests (t : Site) (n r : Nat) : List Nat :=
  (List.range 20).filter fun j => swSelect (t.slot n).sw j == r + 1

/-- The branches of a forked source that are cancelled for a packet: those of its ordinal's entry and those struck from it in
the buffer (R110). -/
def Site.struck (t : Site) (r : Nat) (k : Pkt) : List Nat :=
  (match t.forks.find? fun f => f.src == r && k.named f.slot f.ord with
  | some f => f.off
  | none => []) ++ k.off

/-- The fork entries that stay once a packet has passed: its own is freed, an EOS frees those at or above it, a KILL all of
its source's (R110, R111). -/
def Site.forksAfter (t : Site) (r : Nat) (k : Pkt) : List Fork :=
  t.forks.filter fun f =>
    !(f.src == r && f.slot == k.slot &&
      (k.named f.slot f.ord || (k.kind == 1 && decide ((f.ord - k.ord.truncate 16).toNat < 2 ^ 15)) || k.kind == mkKill))

/-- Has destination `j` room for a packet of slot `n`: its wire free and the far buffer below four packets (R94)? -/
def State.roomAt (s : State) (p n j : Nat) : Bool :=
  let t := s.site p
  (t.wireAt j).isEmpty &&
    if j < 16 then
      match s.hopTo p n j with
      | none => false
      | some (q, r) => decide ((Table.get [] (s.site q).lane r).length < 4)
    else decide ((Table.get [] t.inb (j - 16)).length < 4)

/-- The port index of source `r` in fault messages and breakpoints: lanes 0 to 15, out ports 20 to 23 (R415). -/
def srcPort (r : Nat) : Nat := if r < 16 then r else r + 4

/-- The armed breakpoint of a site's cluster that packet `k` hits on leaving one of some ports (R438, R439). -/
def State.breakHit (s : State) (p : Nat) (ports : List Nat) (k : Pkt) : Option (Nat × Nat) :=
  let b := debugBase (siteCluster p)
  (List.range 4).findSome? fun i =>
    let w := s.reg (b + 0x4000 + 16 * i)
    let port := fld w 20 16
    if k.counts ∧ bit w 63 ∧ fld w 12 0 = p ∧ ports.contains port ∧ (port < 16 ∨ (20 ≤ port ∧ port ≤ 23))
        ∧ fld (s.reg (b + 0x4008 + 16 * i)) 47 0 = k.ord.toNat then
      some (i, port)
    else none

/-- A breakpoint hits: en is cleared, the site faults with the packet in its buffer, and a cut starts where it asks for one
(R439, R440, R444). -/
def State.hitBreak (s : State) (p i port : Nat) (k : Pkt) : State :=
  let a := debugBase (siteCluster p) + 0x4000 + 16 * i
  let cut := bit (s.reg a) 62
  let s := s.setRegFld a 63 63 0
  let s := s.siteFault p tBreakToken k.slot k.ord.toNat port (k.header.zeroExtend 64) (BitVec.ofNat 64 i)
  let s := s.trace (siteCluster p) 4 (s.siteCtx p) i
  if cut then s.hitCut p else s

/-- Is the packet one that the edge port of an AG must meter, and is its window full (R407)? -/
def State.metered (s : State) (p r : Nat) (k : Pkt) : Bool :=
  siteKind p == .ag && r == 16 && k.counts && decide (s.meter (siteCluster p) ≤ (s.site p).admitted)

/-- A packet that its meter holds at the port: the AG counts as BLOCK (R407). -/
def Site.meterBlock (t : Site) : Site := if t.phase = .wait ∨ t.phase = .fire then { t with phase := .block } else t

/-- A packet of an AG passes its meter: an AG that waited for it is no longer in BLOCK (R127, R407). -/
def Site.letIn (t : Site) : Site := { t with admitted := t.admitted + 1, phase := if t.phase = .block then .wait else t.phase }

/-- SWITCH_FORWARD: the switch of site `p` and the head packet of source `r` (0 to 15 lanes, 16 to 19 out0 to out3) (R113,
R114). A site in FAULT holds its packets; a KILL still passes, so that it can reach the element and free the fault (R418). A
waiting anti-token that the packet meets is absorbed here, so its parity is checked here: one that is damaged holds both (R96). -/
def execSwitchForward (p r : Nat) (s : State) : Res :=
  .next (match s.curSlot p with
    | none => s
    | some n =>
      let t := s.site p
      match headOf (t.source r) n with
      | none =>
        -- a packet that no slot of the region will route raises its fault (R114, R231)
        match s.regionOf p with
        | none => s
        | some g => match (t.source r).find? (s.region g).leftOver with
          | none => s
          | some k => if t.live then s.stray p (srcPort r) k else s
      | some k =>
        let ds := t.dests n r
        if ¬ t.live ∧ k.kind ≠ mkKill then s
        else if ds = [] then s.stray p (srcPort r) k
        else
          let b := if k.counts then ds.filter fun j => !(t.struck r k).contains j else ds
          let gone := { t.setSource r (dropHead (t.source r) n) with forks := t.forksAfter r k }
          if b = [] then s.setSite p (gone.annihilated k)
          else if ¬ b.all (s.roomAt p n) then s
          else if s.metered p r k then s.modSite p Site.meterBlock
          else match t.damaged k b with
          | some (j, a) => (s.modSite p fun t => t.mendAnti k.slot j a).siteFault p tLinkParity a.slot a.ord.toNat j 0
          | none =>
            let ports := (if r < 16 then [] else [srcPort r]) ++ b.filter (· < 16)
            match s.breakHit p ports k with
            | some (i, port) => s.hitBreak p i port k
            | none =>
              let t := b.foldl (fun t j => t.putWire j k) gone
              s.setSite p (if siteKind p = .ag ∧ r = 16 ∧ k.counts then t.letIn else t))

/-- PACKET_HOP: the packet on the wire to link destination `j` enters the far lane buffer (R94), damaged where `ok` is false,
which its consumer port will find (R96). A site in FAULT holds its packets but for a KILL, which frees the faults of a site that
it reaches (R127, R418). -/
def execPacketHop (p j : Nat) (ok : Bool) (s : State) : Res :=
  .next (if j ≥ 16 then s
    else match (s.site p).wireAt j with
      | [] => s
      | k :: w =>
        if ¬ (s.site p).live ∧ k.kind ≠ mkKill then s
        else match s.hopTo p k.slot j with
          | none => s
          | some (q, r) =>
            if (Table.get [] (s.site q).lane r).length < 4 then
              let s := (s.modSite p fun t => t.setWire j w).modSite q fun t =>
                { t with lane := Table.put t.lane r (Table.get [] t.lane r ++ [{ k with bad := k.bad || !ok }]) }
              if k.kind = mkKill then s.killReaches q k.slot else s
            else s)

/-! ## Acceptance (R100, R103, R133, R384) -/

/-- The element count that R99 gives for a kind. -/
def Pkt.lenOk (k : Pkt) : Bool :=
  match k.kind with
  | 0 | 4 => decide (1 ≤ k.elems.length ∧ k.elems.length ≤ 8)
  | 5 => k.elems.length == 2
  | 1 | 2 | 3 | 6 | 7 | 8 => k.elems.length == 1
  | _ => false

/-- Where a DONE edge may end (R384). -/
def doneAt (f : BitVec 256) (j : Nat) : Bool :=
  (frKind f == 2 && (mtOp f == 0x0B || (mtOp f == 0x0A && mtA f == j))) || (isStream f && j == 3)

/-- The expected counter and marks after an ordinal is accepted or discarded. -/
def InPort.after (i : InPort) (m : BitVec 48) (eos : Bool) : InPort :=
  { exp := m + 1, marks := if eos then [] else i.marks.filter fun x => decide ((m - i.exp).toNat < (x - i.exp).toNat) }

/-- What a consumer port does with an arriving ordinal (R103, R133). -/
inductive Arrival where
  | accept (i : InPort)
  | discard (i : InPort)
  | refuse
  deriving DecidableEq, Repr

def InPort.arrive (i : InPort) (k : Pkt) : Arrival :=
  let d := (k.ord.truncate 16 - i.exp.truncate 16 : BitVec 16).toNat
  let m := i.exp + BitVec.ofNat 48 d
  let before := (List.range d).all fun e => i.marks.contains (i.exp + BitVec.ofNat 48 e)
  if i.marks.contains m ∧ before then
    if k.kind = 1 then .accept (i.after m true) else .discard (i.after m false)
  else if before then .accept (i.after m (k.kind == 1))
  else .refuse

/-- Take a packet into in port `j`, or let it go, with the port's counter as given. -/
def Site.arrive (t : Site) (j : Nat) (k : Pkt) (i : InPort) (keep : Bool) : Site :=
  let t := t.setSlot k.slot ((t.slot k.slot).setIn j i)
  if keep then { t with inb := Table.put t.inb j (Table.get [] t.inb j ++ [k]) } else t.owe k.slot k

/-- PACKET_ACCEPT: the packet on the wire to in port `j` (R103). The consumer port checks its parity first; a mismatch holds it
to be sent again (R96, R420); then kinds, lengths and DONE edges. An element that a KILL has reached discards what arrives
ahead of the KILL, other markers too (R142), and a KILL reaches a site in FAULT too and frees it (R418). A left-over packet raises its fault (R231). -/
def execPacketAccept (p j : Nat) (s : State) : Res :=
  let t := s.site p
  .next (if j ≥ 4 then s
    else match t.wireAt (16 + j) with
      | [] => s
      | k :: w =>
        let n := k.slot
        let c := t.slot n
        let held := s.setSite p (t.setWire (16 + j) ({ k with bad := false } :: w))
        let fault (cause : Nat) : State := held.siteFault p cause n k.ord.toNat (16 + j) (k.header.zeroExtend 64)
        let t := t.setWire (16 + j) w
        let left := match s.regionOf p with | some g => (s.region g).cur.isSome && (s.region g).leftOver k | none => false
        let ahead := c.killing && !(Table.get [] t.inb j).any fun q => q.slot == n && q.kind == mkKill
        if ¬ t.live ∧ k.kind ≠ mkKill then s
        else if k.bad then fault tLinkParity
        else if ahead ∧ k.marker ∧ k.kind ≠ mkKill then s.setSite p t
        else if ¬ k.lenOk then fault tTokenKind
        else if t.antiFor (16 + j) k then
          let t := t.takeAnti (16 + j) k
          if k.kind = 1 then s.setSite p (t.strayed.setWire (16 + j) (k :: w)) else s.setSite p (t.annihilated k)
        else if k.marker then
          if isStream c.elem ∧ j = 3 ∧ (t.phase = .saved ∨ t.phase = .stopped ∨ t.phase = .idle) then s.setSite p t
          else
            let s := s.setSite p { (t.killAntis (16 + j) k) with inb := Table.put t.inb j (Table.get [] t.inb j ++ [k]) }
            if k.kind = mkKill then s.killReaches p n else s
        else if ¬ (readPorts c).contains j then fault tStrayToken
        else if k.kind = 3 ∧ ¬ doneAt c.elem j then fault tTokenKind
        else match (c.inPort j).arrive k with
          | .refuse => fault tOrdinalWindow
          | .discard i => s.setSite p (t.arrive j k i false)
          | .accept i =>
            let s := s.setSite p (t.arrive j k i (!ahead))
            if left && !ahead then s.stray p (16 + j) k else s)

/-! ## Anti-tokens on their way (R107, R108, R110, R111) -/

/-- What an anti-token meets in a buffer: nothing, an EOS or KILL that ends it, or its packet. -/
inductive Meeting where
  | nothing
  | eos
  | kill
  | packet (k : Pkt)
  deriving DecidableEq, Repr

def meets (b : List Pkt) (a : Anti) : Meeting :=
  match b.find? fun k => k.named a.slot a.ord with
  | some k => if k.kind = 1 then .eos else .packet k
  | none => if b.any fun k => k.slot == a.slot && k.kind == mkKill then .kill else .nothing

/-- A buffer without the packet that an anti-token names. -/
def dropNamed (a : Anti) : List Pkt → List Pkt
  | [] => []
  | k :: b => if k.named a.slot a.ord then b else k :: dropNamed a b

/-- An MT store that holds its anti-tokens: commit = 1, or one whose firing has placed its entry (R198, R199). -/
def isCommitted (f : BitVec 256) : Bool :=
  frKind f == 2 && mtCommit f && (mtOp f == 0x02 || mtOp f == 0x04 || mtOp f == 0x06 || mtOp f == 0x07)

/-- The full ordinal that an anti-token names at a producer whose output counter is `o` (R108). -/
def fullOrd (o : BitVec 48) (a : BitVec 16) : BitVec 48 :=
  let lo := o - 0x8000
  lo + BitVec.ofNat 48 (a - lo.truncate 16 : BitVec 16).toNat

/-- An entry of the tile's queue that still owes the result of ordinal `m` on port `k`. -/
def MtEntry.owes (e : MtEntry) (n k : Nat) (m : BitVec 48) : Bool :=
  e.slot == n && (e.outs.contains (k, m) || e.done == some (k, m))

/-- An anti-token reaches the producer's out port `k` (R108, R138, R141, R198); none while its entries are full. -/
def Site.antiAtProducer (t : Site) (k : Nat) (a : Anti) : Option Site :=
  let n := a.slot
  let c := t.slot n
  let o := c.outPort k
  let m := fullOrd o.ord a.ord
  if c.killing ∨ t.phase = .idle then some t
  else match meets (Table.get [] t.outb k) a with
    | .eos => some t.strayed
    | .kill => some t
    | .packet q => some ({ t with outb := Table.put t.outb k (dropNamed a (Table.get [] t.outb k)) }.annihilated q)
    | .nothing =>
      match t.pipe.find? fun r => r.port == k && r.pkt.named n a.ord with
      | some r =>
        if r.pkt.kind = 1 then some t.strayed
        else if o.pend.length < 8 then some (t.setSlot n (c.setOut k { o with pend := o.pend ++ [r.ord] })) else none
      | none =>
        if t.mtq.any fun e => e.owes n k m then
          if o.held.length < 8 then some (t.setSlot n (c.setOut k { o with held := o.held ++ [m] })) else none
        else if (m - o.ord).toNat < 2 ^ 15 then
          if isCommitted c.elem then
            if o.held.length < 8 then some (t.setSlot n (c.setOut k { o with held := o.held ++ [m] })) else none
          else if o.pend.length < 8 then some (t.setSlot n (c.setOut k { o with pend := o.pend ++ [m] })) else none
        else some t.strayed

/-- An anti-token goes up from source `r` of site `p`: to the producer's port, or onto the reverse lane of the hop that feeds
the lane, where a packet of its ordinal on the wire is met (R107), with whether it is absorbed there; none while there is no
room (R95). -/
def State.antiUp (s : State) (p r : Nat) (a : Anti) : Option (Bool × State) :=
  if r ≥ 16 then ((s.site p).antiAtProducer (r - 16) a).map fun t => (true, s.setSite p t)
  else match s.hopFrom p a.slot r with
    | none => some (true, s.modSite p Site.strayed)
    | some (q, j) =>
      let u := s.site q
      match meets (u.wireAt j) a with
      | .eos => some (true, s.setSite q u.strayed)
      | .kill => some (true, s)
      | .packet k => some (true, s.setSite q ((u.setWire j (dropNamed a (u.wireAt j))).annihilated k))
      | .nothing =>
        let key := u.revKey a.slot j
        if (u.revAt key).length < 4 then some (false, s.setSite q (u.setRev key (u.revAt key ++ [{ a with vl := j % 4 }]))) else none

/-- The steps that an anti-token at the head of a reverse buffer can take. -/
inductive AntiStep where
  | hop | producer | store | fork
  deriving DecidableEq, Repr

/-- Which step the anti-token takes at destination `j`: at a fork it joins an entry, at an element's own port it reaches the
producer, elsewhere it hops. -/
def Site.antiKind (t : Site) (j : Nat) (a : Anti) : AntiStep :=
  let c := t.slot a.slot
  let sel := swSelect c.sw j
  if sel = 0 then .producer
  else if (t.dests a.slot (sel - 1)).length ≥ 2 then .fork
  else if sel ≥ 17 then if isCommitted c.elem then .store else .producer
  else .hop

/-- A buffer in which branch `j` is struck from the packet that an anti-token names. -/
def strikeNamed (a : Anti) (j : Nat) : List Pkt → List Pkt
  | [] => []
  | k :: b => if k.named a.slot a.ord then { k with off := k.off ++ [j] } :: b else k :: strikeNamed a j b

/-- An anti-token at a fork (R110): it strikes a branch of its buffered packet, which is discarded with no branch left; or it
joins the ordinal's entry, which once it holds every branch sends one anti-token on. None while the 32 entries are taken, for
one that needs a new entry, or while the lane upstream is full. -/
def State.antiFork (s : State) (p j r : Nat) (a : Anti) : Option State :=
  let t := s.site p
  let ds := t.dests a.slot r
  let mine (f : Fork) : Bool := f.src == r && f.slot == a.slot && f.ord == a.ord
  let others := t.forks.filter fun f => !mine f
  match meets (t.source r) a with
  | .packet k =>
    if ds.all (t.struck r k ++ [j]).contains then
      some (s.setSite p ({ t.setSource r (dropNamed a (t.source r)) with forks := others }.annihilated k))
    else some (s.setSite p (t.setSource r (strikeNamed a j (t.source r))))
  | _ =>
    let old := t.forks.find? mine
    let off := (match old with | some f => f.off | none => []) ++ [j]
    if ds.all off.contains then ((s.setSite p { t with forks := others }).antiUp p r a).map (·.2)
    else if old.isNone ∧ t.forks.length ≥ 32 then none
    else some (s.setSite p { t with forks := others ++ [{ src := r, slot := a.slot, ord := a.ord, off }] })

/-- The anti-token that destination `j` of a site is to deal with next: the head of the reverse buffer of its link direction if
it is of this lane, else the head of its cut edge's buffer; with the buffer's key and what stays in it. -/
def Site.antiAt (t : Site) (j : Nat) : Option (Nat × Anti × List Anti) :=
  [if 16 ≤ j then j else j / 4, 32 + j].findSome? fun key =>
    match t.revAt key with
    | a :: rest => if t.revKey a.slot j = key ∧ a.onto a.slot j then some (key, a, rest) else none
    | [] => none

/-- What one step does with an anti-token at destination `j`, if it can take it: is it absorbed here, and the state after. It
meets the wire and the source buffer of its channel first (R107). One whose lane no switch routes any more, or that no lane
feeds, is discarded and counted as stray (log 66). -/
def State.antiTake (s : State) (p j key : Nat) (a : Anti) (rest : List Anti) : Option (Bool × State) :=
  let t := (s.site p).setRev key rest
  let s' := s.setSite p t
  let sel := swSelect (t.slot a.slot).sw j
  if sel = 0 then some (true, s.setSite p t.strayed)
  else
    let r := sel - 1
    let fork := decide ((t.dests a.slot r).length ≥ 2)
    match meets (t.wireAt j) a with
    | .eos => some (true, s.setSite p t.strayed)
    | .kill => some (true, s')
    | .packet k => some (true, s.setSite p ((t.setWire j (dropNamed a (t.wireAt j))).annihilated k))
    | .nothing =>
      match meets (t.source r) a with
      | .eos => some (true, s.setSite p t.strayed)
      | .kill => some (true, s')
      | .packet k =>
        if fork then (s'.antiFork p j r a).map fun s => (true, s)
        else some (true, s.setSite p ((t.setSource r (dropNamed a (t.source r))).annihilated k))
      | .nothing => if fork then (s'.antiFork p j r a).map fun s => (true, s) else s'.antiUp p r a

/-- One step of the anti-token at destination `j` of site `p`, if it is the step `want`; with `ok` false it is damaged on a link,
which for one that a switch does not pass on as it is was the link it came by. The switch or element that absorbs it checks its
parity, and a mismatch holds it in its buffer to be sent again (R96, R420); one that only passes is not checked, and stays
damaged. -/
def State.antiStep (s : State) (p j : Nat) (ok : Bool) (want : AntiStep) : State :=
  if ¬ (s.site p).live then s
  else match (s.site p).antiAt j with
    | none => s
    | some (key, a, rest) =>
      let bad := a.bad || !ok
      if (s.site p).antiKind j a ≠ want then
        if ¬ ok ∧ j < 16 then s.modSite p fun t => t.setRev key ({ a with bad := true } :: rest) else s
      else match s.antiTake p j key { a with bad } rest with
        | none => s
        | some (absorbed, s') =>
          if absorbed ∧ bad then
            (s.modSite p fun t => t.setRev key ({ a with bad := false } :: rest)).siteFault p tLinkParity a.slot a.ord.toNat j 0
          else s'

/-- ANTI_TOKEN_HOP (R107). -/
def execAntiTokenHop (p j : Nat) (ok : Bool) (s : State) : Res := .next (s.antiStep p j ok .hop)
/-- ANTI_TOKEN_PRODUCER (R108). -/
def execAntiTokenProducer (p j : Nat) (s : State) : Res := .next (s.antiStep p j true .producer)
/-- FORK_ANTI_TOKEN (R110). -/
def execForkAntiToken (p j : Nat) (s : State) : Res := .next (s.antiStep p j true .fork)
/-- COMMITTED_STORE_ANTI: the store's port holds the anti-token, which annihilates the DONE and the result of its ordinal
once the firing has been performed (R198). -/
def execCommittedStoreAnti (p j : Nat) (s : State) : Res := .next (s.antiStep p j true .store)

end Sys2Proof.Machine
end

