-- ==== Sys2Proof/Machine/Gate.lean ====
section
/-! DEFINITION. Power gating (R421), the trace buffer's drain (R444), ECC scrubbing (R419), and the passage of faults and
reports to ch0 (R416). -/

namespace Sys2Proof.Machine

/-! ## Trace (R444) -/

def trctlPa (c : Nat) : Nat := debugBase c + 0x4100
def trptrPa (c : Nat) : Nat := debugBase c + 0x4108

/-- A trace record as its 16 bytes. -/
def TraceRec.bytes (r : TraceRec) : List Byte :=
  bytesLE 8 r.time.toNat ++ bytesLE 8 (r.kind % 256 + r.ctx % 64 * 256 + r.data % 2 ^ 48 * 2 ^ 16)

/-- Write one record at the ring's next index and advance it. A ring that lies outside near memory takes no bytes. -/
def State.ringRecord (s : State) (c : Nat) (r : TraceRec) : State :=
  let next := fld (s.reg (trptrPa c)) 11 0
  let pa := fld (s.reg (trctlPa c)) 39 16 * 0x10000 + 16 * next
  let s := if pa < 0x4000000000 then s.storeBytes pa r.bytes else s
  let s := s.setRegFld (trptrPa c) 11 0 ((next + 1) % 4096)
  if next = 4095 then s.setRegFld (trptrPa c) 63 63 1 else s

/-- Drain a cluster's trace buffer to its ring, in order. -/
def State.drainTrace (s : State) (c : Nat) : State :=
  ((s.cluster c).trace.foldl (State.ringRecord · c) s).modCluster c fun u => { u with trace := [] }

/-- TRACE_DRAIN: with 128 records, or while gating drains the cluster (R444, R421). -/
def execTraceDrain (c : Nat) (s : State) : Res :=
  let u := s.cluster c
  .next (if u.trace.length ≥ 128 ∨ u.gate = .draining then s.drainTrace c else s)

/-- A TRCTL write: en, ctx, ring and drop as written; the write of ring clears next and wrap (R444). -/
def State.setTrctl (s : State) (c : Nat) (v : Word) : State :=
  (s.setDreg (trctlPa c) (v &&& BitVec.ofNat 64 (mask 63 57 + mask 39 0))).setDreg (trptrPa c) 0

/-- TRCTL_WRITE (R444). -/
def execTrctlWrite (who : Agent) (c : Nat) (v : Word) (s : State) : Res :=
  .next (if c < 128 then s.regBy who (trctlPa c) (s.setTrctl c v) else s)

/-! ## Gating (R421) -/

def pgatePa (c : Nat) : Nat := dieBase (dieOf c) + 0x30200 + 8 * (c % 32)

/-- May the cluster be gated: it holds no quad of any group, its core runs no handler, and no message or park slot is
queued. -/
def State.mayGate (s : State) (c : Nat) : Bool :=
  let k := s.core c
  let u := s.cluster c
  !(s.regions.any fun g => g.2.group.isSome && g.2.inCluster c) && !k.running && k.next.isNone
    && (k.chans.all fun h => h.2.queue.isEmpty) && k.parks.isEmpty && u.queue.isEmpty && u.owed.isEmpty

def State.pgateErr (s : State) (c : Nat) : State := s.setRegFld (pgatePa c) 2 2 1

/-- A gate request: GATE-PENDING, or err. -/
def State.gate (s : State) (c : Nat) : State :=
  if (s.cluster c).gate = .on ∧ s.mayGate c then s.modCluster c fun u => { u with gate := .pending } else s.pgateErr c

/-- The registers of a core that powers on: zero (R421). -/
def CoreSt.cleared (k : CoreSt) : CoreSt := { k with s := [], f := [], m := [], fflags := 0, cseq := 0, eseq := 0 }

/-- Tile words and full-empty bits of a cluster are lost: they read zero and empty (R421). -/
def State.clearTiles (s : State) (c : Nat) : State :=
  let inTile (a : Nat) : Bool := decide (clusterBase c ≤ a) && decide (a < clusterBase c + 0xC00000)
  { s with mem := s.mem.filter (fun e => !inTile e.1), fullBits := s.fullBits.filter (fun e => !inTile e.1),
           poison := s.poison.filter fun a => !inTile a }

/-- An ungate request: an OFF cluster powers on with its core's registers zero and its tiles zero and empty, or err. -/
def State.ungate (s : State) (c : Nat) : State :=
  if (s.cluster c).gate = .off then ((s.clearTiles c).modCluster c fun u => { u with gate := .on }).modCore c CoreSt.cleared
  else s.pgateErr c

/-- A write of PGATEc: drop as written, err cleared by a 1, then the command (R421). -/
def State.setPgate (s : State) (c : Nat) (v : Word) : State :=
  let old := s.reg (pgatePa c)
  let s := s.setDreg (pgatePa c) (BitVec.ofNat 64 (fld v 63 32 * 2 ^ 32 + (if bit old 2 ∧ ¬ bit v 2 then 4 else 0)))
  match fld v 1 0 with
  | 0 => s
  | 1 => s.gate c
  | 2 => s.ungate c
  | _ => s.pgateErr c

/-- PGATE_GATE (R421). -/
def execPgateGate (who : Agent) (c : Nat) (s : State) : Res :=
  .next (if c < 128 then s.regBy who (pgatePa c) (s.gate c) else s)

/-- PGATE_UNGATE (R421). -/
def execPgateUngate (who : Agent) (c : Nat) (s : State) : Res :=
  .next (if c < 128 then s.regBy who (pgatePa c) (s.ungate c) else s)

/-- The tiles of a cluster. -/
def clusterTiles (c : Nat) : List Nat := (List.range 12).map (tileSite c)

/-- An engine command that has begun to write into the cluster and has not completed (R421: in flight). -/
def State.engineInto (s : State) (c : Nat) : Bool := s.cmds.any fun e => e.2.stage != 2 && e.2.into.contains c

/-- An access that a core has issued to a tile of the cluster, or a byte that a write window holds for one, is not yet performed. -/
def State.admittedInto (s : State) (c : Nat) : Bool :=
  let mine (pa : Nat) : Bool := match tileOf pa with | some (p, _) => siteCluster p == c | none => false
  (s.cores.any fun e => e.2.ops.any fun o => mine o.pa)
    || s.clusters.any fun e => e.2.wins.any fun w => w.2.cbuf.any fun b => mine b.1

/-- GATE_DRAINING: what was admitted before is complete: queued tile entries, accesses and coalesced bytes, and the engine writes in
flight into the cluster; the trace buffer is copied to its ring (R421). -/
def execGateDraining (c : Nat) (s : State) : Res :=
  .next (if (s.cluster c).gate = .pending ∧ ((clusterTiles c).all fun p => (s.site p).mtq.isEmpty) ∧ ¬ s.engineInto c
      ∧ ¬ s.admittedInto c then
      (s.drainTrace c).modCluster c fun u => { u with gate := .draining }
    else s)

/-- GATE_OFF: the trace buffer is empty (R421). -/
def execGateOff (c : Nat) (s : State) : Res :=
  .next (if (s.cluster c).gate = .draining ∧ (s.cluster c).trace = [] then
      (s.clearTiles c).modCluster c fun u => { u with gate := .off }
    else s)

/-- GATE_TIMEOUT: 100 µs have passed (time is left out, log 5) with records left: they are dropped and counted, and
T_GATE_DROP is posted to cluster index 0 (R421). -/
def execGateTimeout (c : Nat) (s : State) : Res :=
  let n := (s.cluster c).trace.length
  .next (if (s.cluster c).gate = .draining ∧ n ≠ 0 then
      let s := s.modDreg (pgatePa c) 0 fun w => incSat w 63 32 n
      let s := (s.clearTiles c).modCluster c fun u => { u with gate := .off, trace := [] }
      s.report (32 * dieOf c) { src := 3, cause := tGateDrop, ctx := 0 }
    else s)

/-! ## ECC (R419) -/

/-- The words that hold poison: those of memory, of tiles and of accumulators (R419, log 52). -/
def poisonable (pa : Nat) : Bool :=
  match placeOf pa with
  | .ram | .tile _ _ | .acc _ _ _ => true
  | _ => false

/-- An ECC error at `pa` that counts in cluster `c`: an uncorrected one poisons its word; a corrected one is reported each time
the count reaches a multiple of thr (R419). -/
def State.eccError (s : State) (c : Nat) (bad : Bool) (pa : Nat) : State :=
  if bad then
    let w := pa / 4 * 4
    let s := s.modCore c fun k => { k with eccUnc := incSat k.eccUnc 15 0 1 }
    if s.poison.contains w ∨ ¬ poisonable w then s else { s with poison := w :: s.poison }
  else
    let old := (s.core c).eccCorr
    let s := s.modCore c fun k => { k with eccCorr := incSat k.eccCorr 31 0 1 }
    let k := s.core c
    if k.eccCorr ≠ old ∧ k.eccCorr.toNat % max 1 k.eccThr.toNat = 0 then s.report c { src := 3, cause := tEccCorr, ctx := 0 }
    else s

/-- ECC_SCRUB_ERROR: background scrubbing finds a corrected or an uncorrected error; it counts at cluster index 0 of the die
(R419). -/
def execEccScrubError (d : Nat) (bad : Bool) (pa : Nat) (s : State) : Res :=
  .next (if d ≥ 4 then s else s.eccError (32 * d) bad pa)

/-- An access by cluster `c` finds an ECC error at `pa`: the agent is given the corrected value, or the poison that the error
leaves (R419). -/
def State.eccFound (s : State) (c : Nat) (bad : Bool) (pa : Nat) : State := if c < 128 then s.eccError c bad pa else s

/-! ## The fault queue (R416) -/

/-- Faults that wait for room enter the fault queue, in the order they were raised. -/
def State.enterOwed (s : State) (c : Nat) : State :=
  match (s.cluster c).owed with
  | [] => s
  | (f, h) :: r =>
    if (s.cluster c).queue.length < 16 then
      let s := s.modCluster c fun u => { u with owed := r }
      let s := match h with
        | .site p _ => s.modSite p fun t => { t with owed := t.owed - 1 }
        | _ => s
      s.enterFault c f h
    else s

/-- FAULT_POST: the oldest entry of the fault queue passes to ch0, which is enabled and has room (R416). -/
def execFaultPost (c : Nat) (s : State) : Res :=
  .next (match (s.cluster c).queue with
    | [] => s
    | m :: q =>
      let h := (s.core c).channel 0
      if h.takes then
        (((s.modCluster c fun u => { u with queue := q }).enqueue c 0 m).enterOwed c)
      else s)

/-- A write of %fltres by the running privileged handler of a core (R417). -/
def State.fltresBy (s : State) (c act n : Nat) : State :=
  let k := s.core c
  if k.running ∧ k.priv then s.fltres c (BitVec.ofNat 64 (act * 2 ^ 62 + n % 2 ^ 48)) else s

/-- FLTRES_RESUME (R417). -/
def execFltresResume (c n : Nat) (s : State) : Res := .next (s.fltresBy c 1 n)
/-- FLTRES_END (R417). -/
def execFltresEnd (c n : Nat) (s : State) : Res := .next (s.fltresBy c 2 n)

end Sys2Proof.Machine
end

