-- ==== Sys2Proof/Machine/System.lean ====
section
/-! DEFINITION. trap, tret, sysrd, syswr, halt and brk (R283 to R288, R443), and every system register of R287. -/

namespace Sys2Proof.Machine

/-! ## System registers (R287) -/

/-- The answer of a system register: no such number, refused to the privilege, or a value. -/
inductive SysAns where
  | undef
  | priv
  | val (v : Word)
  deriving DecidableEq, Repr

/-- %devid of a core (R23). -/
def devid (c : Nat) : Word :=
  BitVec.ofNat 64 (0x59A0 * 2 ^ 48 + 4 * 2 ^ 32 + (if Config.steppingB then 0x0B else 0x0A) * 2 ^ 24
    + dieOf c % 4 * 2 ^ 16 + c % 32 * 2 ^ 8)

/-- %hctlN as it reads (R240). -/
def Chan.ctl (h : Chan) (n : Nat) : Word :=
  BitVec.ofNat 64 ((if h.en then 2 ^ 63 else 0) + (if h.priv then 2 ^ 62 else 0) + h.ctx * 2 ^ 56
    + (if n = 0 then 0 else h.prio) * 2 ^ 52 + h.queue.length * 2 ^ 32 + h.budget)

/-- %hctlN after a write: en, ctx, prio (not of ch0) and budget are RW; all of it takes effect at the next handler start
(R240). -/
def Chan.setCtl (h : Chan) (n : Nat) (v : Word) : Chan :=
  { h with en := bit v 63, ctx := fld v 61 56, prio := if n = 0 then h.prio else fld v 55 52, budget := fld v 31 0
           was := some (h.actEn, h.actCtx) }

/-- The number of a context's phase in %ctxctl (R237). -/
def CtxPhase.number : CtxPhase → Nat
  | .free => 0
  | .opened => 1
  | .quiescing => 2
  | .quiesced => 3

/-- A ticket counter as %tickN reads (R271). -/
def Tick.word64 (t : Tick) : Word :=
  BitVec.ofNat 64 ((if t.bc then 2 ^ 63 else 0) + t.word.toNat * 2 ^ 32 + t.value.toNat)

def Tick.ofWord (v : Word) : Tick := { bc := bit v 63, word := BitVec.ofNat 17 (fld v 48 32), value := BitVec.ofNat 32 (fld v 31 0) }

/-- Registers that any handler may read. -/
def sysAnyRead (n : Nat) : Bool := decide (n ≤ 6) || n == 0x0C || n == 0x150
/-- Registers that any handler may write. -/
def sysAnyWrite (n : Nat) : Bool := n == 2 || n == 0x150
/-- Registers whose fields are all RO. -/
def sysReadOnly (n : Nat) : Bool := (decide (n ≤ 6) && n != 2) || n == 9 || n == 10

/-- The numbers that the chapters assign (R287, R430, R442). -/
def sysAssigned (n : Nat) : Bool :=
  decide (n ≤ 6) || decide (8 ≤ n ∧ n ≤ 0x0C) || decide (0x10 ≤ n ∧ n ≤ 0x16) || decide (0x40 ≤ n ∧ n ≤ 0x9F)
    || decide (0x100 ≤ n ∧ n ≤ 0x140) || n == 0x150

/-- %ocnt (R287). -/
def CoreSt.ocntWord (k : CoreSt) : Word :=
  BitVec.ofNat 64 (k.out 0 % 1024 + k.out 1 % 1024 * 2 ^ 10 + k.out 2 % 1024 * 2 ^ 20 + k.out 3 % 1024 * 2 ^ 30)

/-- The value of an assigned register on core `c`, but for %cycle. -/
def State.sysVal (s : State) (c n : Nat) : Word :=
  let k := s.core c
  let x := s.ctx k.ctx
  if n = 0x00 then devid c
  else if n = 0x01 then BitVec.ofNat 64 ((if k.priv then 64 else 0) + k.ctx)
  else if n = 0x02 then k.fflags.zeroExtend 64
  else if n = 0x04 then k.cseq.zeroExtend 64
  else if n = 0x05 then k.eseq.zeroExtend 64
  else if n = 0x06 then k.ocntWord
  else if n = 0x08 then k.tpc
  else if n = 0x09 then k.tcause.zeroExtend 64
  else if n = 0x0A then k.tval
  else if n = 0x0B then BitVec.ofNat 64 ((if k.tvalid then 2 ^ 16 else 0) + k.tchan * 2 ^ 8 + k.tctx)
  else if n = 0x0C then BitVec.ofNat 64 (max k.stallmax.toNat 1024)
  else if n = 0x10 then x.ccrc
  else if n = 0x11 then x.csig
  else if n = 0x12 then x.csave
  else if n = 0x13 then x.ptroot
  else if n = 0x14 then BitVec.ofNat 64 (if k.fltErr then 2 ^ 48 else 0)
  else if n = 0x15 then BitVec.ofNat 64 (k.fltDrop.toNat * 2 ^ 32 + (s.cluster c).queue.length * 2 ^ 16)
  else if n = 0x16 then BitVec.ofNat 64 (k.eccThr.toNat * 2 ^ 48 + k.eccUnc.toNat * 2 ^ 32 + k.eccCorr.toNat)
  else if n < 0x50 then (k.channel (n - 0x40)).entry
  else if n < 0x60 then (k.channel (n - 0x50)).ctl (n - 0x50)
  else if n < 0xA0 then
    let u := s.ctx (n - 0x60)
    BitVec.ofNat 64 ((if u.err then 128 else 0) + u.phase.number * 4)
  else if n < 0x140 then (Table.get {} (s.die (dieOf c)).ticks (n - 0x100)).word64
  else if n = 0x140 then x.imgpol.zeroExtend 64
  else x.dbgevt.zeroExtend 64

/-- What a sysrd of register `n` on core `c` answers (R287). -/
def State.sysRead (s : State) (c n : Nat) : SysAns :=
  if ¬ sysAssigned n then .undef
  else if ¬ sysAnyRead n ∧ ¬ (s.core c).priv then .priv
  else .val (s.sysVal c n)

/-- The effect of a write of `v` to a register that takes it. -/
def State.sysStore (s : State) (c n : Nat) (v : Word) : State :=
  let x := (s.core c).ctx
  if n = 0x02 then s.modCore c fun k => { k with fflags := k.fflags &&& ~~~(v.truncate 6) }
  else if n = 0x08 then s.modCore c fun k => { k with tpc := v }
  else if n = 0x0B then s.modCore c fun k => { k with tvalid := k.tvalid && !bit v 16 }
  else if n = 0x0C then s.modCore c fun k => { k with stallmax := v.truncate 32 }
  else if n = 0x10 then s.modCtx x fun u => { u with ccrc := v }
  else if n = 0x11 then s.modCtx x fun u => { u with csig := v }
  else if n = 0x12 then s.modCtx x fun u => { u with csave := v }
  else if n = 0x13 then s.modCtx x fun u => { u with ptroot := v &&& BitVec.ofNat 64 (mask 51 15 + 1) }
  else if n = 0x14 then s.fltres c v
  else if n = 0x15 then s.modCore c fun k => { k with fltDrop := BitVec.ofNat 32 (fld v 63 32) }
  else if n = 0x16 then
    s.modCore c fun k => { k with eccThr := BitVec.ofNat 16 (fld v 63 48), eccCorr := BitVec.ofNat 32 (fld v 31 0) }
  else if n < 0x50 then
    s.modCore c fun k => k.setChannel (n - 0x40) { k.channel (n - 0x40) with entry := v &&& BitVec.ofNat 64 (mask 55 2) }
  else if n < 0x60 then
    s.modCore c fun k => k.setChannel (n - 0x50) ((k.channel (n - 0x50)).setCtl (n - 0x50) v)
  else if n < 0xA0 then s.ctxWrite (n - 0x60) v
  else if n < 0x140 then
    s.modDie (dieOf c) fun u => { u with ticks := Table.put u.ticks (n - 0x100) (Tick.ofWord v) }
  else if n = 0x140 then s.modCtx x fun u => { u with imgpol := v.truncate 9 }
  else s.modCtx x fun u => { u with dbgevt := v.truncate 11 }

/-- sysrd (R287); %cycle is a free value (log 5). -/
def execSysrd (d : BitVec 5) (reg : BitVec 10) (s : State) : Res :=
  .next (s.whenReady [] [] [d.toNat] [] fun _ =>
    match s.sysRead s.cur reg.toNat with
    | .undef => s.undef (.sysrd d reg)
    | .priv => s.trap s.cur tPriv 0
    | .val v =>
      if reg.toNat = 3 then
        let (t, s) := s.draw
        s.modCore s.cur fun k => (k.wr d.toNat t).issue 4
      else s.modCore s.cur fun k => (k.wr d.toNat v).issue 4)

/-- syswr (R285, R287). -/
def execSyswr (a : BitVec 5) (reg : BitVec 10) (s : State) : Res :=
  .next (s.whenReady [a.toNat] [] [] [] fun k =>
    let n := reg.toNat
    if ¬ sysAssigned n then s.undef (.syswr a reg)
    else if sysReadOnly n ∨ (¬ sysAnyWrite n ∧ ¬ k.priv) ∨ (n = 8 ∧ ¬ k.tvalid) then s.trap s.cur tPriv 0
    else (s.setCore s.cur (k.issue 4)).sysStore s.cur n (k.rd a.toNat))

/-! ## Traps, halt and brk -/

/-- trap code=: raises T_TRAP with the code in %tval (R283). -/
def execTrap (code : BitVec 10) (s : State) : Res := .next (s.trap s.cur tTrap (code.zeroExtend 64))

/-- tret (R286): T_PRIV, then T_TRET_STATE, then T_CTX_STATE, then the return. -/
def execTret (s : State) : Res :=
  let k := s.core s.cur
  .next (if ¬ k.priv then s.trap s.cur tPriv 0
    else if ¬ k.tvalid then s.trap s.cur tTretState 0
    else if (s.ctx k.tctx).phase ≠ .opened then s.trap s.cur tCtxState 0
    else s.trapReturn s.cur)

/-- halt: privileged; ends the handler and halts the core (R288). -/
def execHalt (s : State) : Res :=
  .next (if ¬ (s.core s.cur).priv then s.trap s.cur tPriv 0
    else s.modCore s.cur fun k => { (k.issue 4).endHandler with halted := true })

/-- brk: raises T_BRK (R283); with OBSG.brk of the resident context set, the core halts at the next word instead, and an
event with the brk's address goes to the owner (R443, R427). -/
def execBrk (s : State) : Res :=
  let k := s.core s.cur
  .next (if bit (s.reg (iodN + 0x20800 + 8 * k.ctx)) 61 then
      (s.setCore s.cur { k.issue 4 with halted := true }).ownerEvent (faultWord0 0 false tBrk k.ctx 0 0)
        (BitVec.ofNat 64 (k.pc.toNat % 2 ^ 48)) k.pc s.cur 0
    else s.trap s.cur tBrk 0)

end Sys2Proof.Machine
end

