-- ==== Sys2Proof/Machine/Own.lean ====
section
/-! DEFINITION. Ownership, events and access (R424 to R427), boot, measurements and attestation (R428, R429), protected
windows (R431, R432), the mark unit (R433 to R435), format-range entries (R43, R44), and the package's reset (R8). -/

namespace Sys2Proof.Machine

/-! ## OWN (R424) -/

def ownPa : Nat := iodN + 0x20000
def State.offer (s : State) : Nat := fld (s.reg ownPa) 5 4

/-- A claim by master `m`: it succeeds when no master owns the device or the offer names it. -/
def State.claim (s : State) (m : Nat) : State :=
  if s.owner = 3 ∨ s.offer = m then (s.setRegFld ownPa 7 6 m).setRegFld ownPa 5 4 3 else s

/-- A write of OWN by a master: a claim, or the owner's offer and its clearing of lost; one by a master that does not own and
does not claim is refused (R424, R426). -/
def State.setOwn (s : State) (m : Nat) (v : Word) : State :=
  let was := s.owner
  let s := if was = m then
      (s.setRegFld ownPa 5 4 (fld v 5 4)).setRegFld ownPa 3 3 (if bit (s.reg ownPa) 3 ∧ ¬ bit v 3 then 1 else 0)
    else if bit v 0 then s else s.accessEvent 0 (ownPa - 0xF000100000000) 0 m
  if bit v 0 then s.claim m else s

/-- OWN_CLAIM (R424). -/
def execOwnClaim (m : Nat) (s : State) : Res := .next (if m < 3 ∧ ¬ s.behind (.master m) then s.claim m else s)

/-- OWN_OFFER: the owner offers ownership to master `o`, or withdraws the offer with 3 (R424). -/
def execOwnOffer (m o : Nat) (s : State) : Res :=
  .next (s.regBy (.master m) ownPa (s.setRegFld ownPa 5 4 o))

/-- HOST_LINK_DOWN: when the owner's host link goes down, ownership passes to master 2 and lost is set (R424). -/
def execHostLinkDown (m : Nat) (s : State) : Res :=
  .next (if m < 2 ∧ s.owner = m then (s.setRegFld ownPa 7 6 2).setRegFld ownPa 3 3 1 else s)

/-- RUN_RESUME: the owner's write of 1 to RUNc clears the core's halt (R424, R443). -/
def execRunResume (m c : Nat) (s : State) : Res :=
  .next (if c < 128 then s.regBy (.master m) (iodN + 0x20C00 + 8 * c) (s.modCore c fun k => { k with halted := false }) else s)

/-! ## Events and the access table (R425, R427) -/

/-- A write of EVQHEAD; one that would put it beyond EVQTAIL is ignored (R427). -/
def State.setEvqhead (s : State) (v : Word) : State :=
  let tail := fld (s.reg (iodN + 0x20020)) 31 0
  let head := fld (s.reg (iodN + 0x20018)) 31 0
  let n := fld v 31 0
  if (n + 2 ^ 32 - head) % 2 ^ 32 ≤ (tail + 2 ^ 32 - head) % 2 ^ 32 then s.setRegFld (iodN + 0x20018) 31 0 n else s

/-- EVQHEAD_WRITE (R427). -/
def execEvqheadWrite (m : Nat) (v : Word) (s : State) : Res :=
  .next (s.regBy (.master m) (iodN + 0x20018) (s.setEvqhead v))

/-- What master `m` may do to the targets of context `x`: 0 nothing, 1 read, 2 read and write (R425). -/
def State.acct (s : State) (m x : Nat) : Nat :=
  if s.owner = m then 2 else min 2 (fld (s.reg (iodN + 0x20400 + 8 * x)) (2 * m + 1) (2 * m))

/-- ACCESS_REFUSED: an access that the table refuses posts T_ACCESS; one that it admits posts nothing (R425). -/
def execAccessRefused (m x o : Nat) (wr : Bool) (s : State) : Res :=
  .next (if m < 3 ∧ s.acct m x < (if wr then 2 else 1) then s.accessEvent x o 0 m else s)

/-- KIN_LINK_DOWN (R423). -/
def execKinLinkDown (l : Nat) (s : State) : Res := .next { s with kinUp := Table.put s.kinUp l false }

/-! ## Bytes of registers -/

/-- Write a run of bytes to consecutive 64-bit registers. -/
def State.setWords (s : State) (pa : Nat) : Nat → List Byte → State
  | 0, _ => s
  | n + 1, bs => (s.setDreg pa (BitVec.ofNat 64 (natLE (bs.take 8)))).setWords (pa + 8) n (bs.drop 8)

/-- `n` consecutive 64-bit registers as bytes. -/
def State.regBytes (s : State) (pa n : Nat) : List Byte := (List.range n).flatMap fun i => bytesLE 8 (s.reg (pa + 8 * i)).toNat

/-- `n` bytes of a byte function. -/
def takeFn (n : Nat) (f : Nat → Byte) : List Byte := (List.range n).map f

/-! ## Boot (R428) -/

def mrPa (n : Nat) : Nat := iodN + 0x21200 + 0x40 * n

/-- Extend measurement register `n` with a digest. -/
def State.extendMr (s : State) (n : Nat) (d : List Byte) : State :=
  s.setWords (mrPa n) 8 (takeFn 64 (Config.shake256 (s.regBytes (mrPa n) 8 ++ d)))

/-- Why the boot ROM turns the first firmware away, by its digest: 1 its public key is not the one whose digest is fused, 2 its
signature does not hold; none where it is good (R428, log 53). -/
def bootFault (d : List Byte) : Option Nat :=
  if takeFn 64 (Config.shake256 Config.firmwareKey) ≠ Config.fusedKeyDigest then some 1
  else if ¬ Config.mldsaVerify Config.firmwareKey d (Config.firmwareSig d) then some 2
  else none

/-- BOOT: the firmware's digests in stage order; a first firmware that the boot ROM turns away halts the boot for good, with its
cause. Each stage extends its register with the digest of the next; then every zone gets a prime command (R428). -/
def execBoot (digests : List (List Byte)) (s : State) : Res :=
  .next (match digests with
    | [] => s
    | d :: _ =>
      if s.bootCause.isSome ∨ s.regBytes (mrPa 0) 8 ≠ List.replicate 64 0 then s
      else match bootFault d with
      | some n => { s with bootCause := some n }
      | none =>
        let s := ((digests.take 8).zipIdx).foldl (fun s e => s.extendMr e.2 e.1) s
        (List.range 128).foldl (fun s c => s.zcmd c 1) s)

/-- RESET: every register at its after-reset value, tiles and accumulators zero; near and far memory keep their bytes. The
schedule and the free-value counter are the model's own and go on (R8, log 3, log 7). -/
def execReset (s : State) : Res :=
  .next { State.reset with agenda := s.agenda, fresh := s.fresh, mem := s.mem.filter (fun e => isRam e.1),
                           poison := s.poison.filter isRam }

/-! ## Attestation (R429) -/

def attsPa : Nat := iodN + 0x21020

/-- The last write of the nonce starts a report; a start while busy is ignored. -/
def State.startAttest (s : State) (v : Word) : State :=
  match s.attest with
  | some _ => s
  | none =>
    let s := s.setDreg (iodN + 0x21018) v
    { s.setDreg attsPa 2 with attest := some (s.regBytes (iodN + 0x21000) 4) }

/-- ATTEST_START (R429). -/
def execAttestStart (m : Nat) (v : Word) (s : State) : Res :=
  .next (s.regBy (.master m) (iodN + 0x21018) (s.startAttest v))

/-- Bytes [751:0] of a report. -/
def State.attestBody (s : State) (nonce : List Byte) : List Byte :=
  nonce ++ s.regBytes (mrPa 0) 64 ++ bytesLE 8 (devid 0).toNat ++ bytesLE 8 Config.deviceSerial.toNat
    ++ ((List.range 8).flatMap fun k => bytesLE 8 (s.reg (iodN + 0x28000 + 0x800 * k)).toNat)
    ++ ((List.range 64).flatMap fun x => bytesLE 2 (s.ctx x).imgpol.toNat)

/-- ATTEST_DONE: the report stands at 0x2_6000 and done is set (R429). -/
def execAttestDone (s : State) : Res :=
  .next (match s.attest with
    | none => s
    | some nonce =>
      let body := s.attestBody nonce
      let digest := takeFn 64 (Config.shake256 body)
      let sig := takeFn 3309 (Config.mldsaSign s.identSeed digest)
      { (s.setWords (iodN + 0x26000) 1024 (body ++ digest ++ sig)).setDreg attsPa 1 with attest := none })

/-! ## Format-range entries (R43, R44) -/

/-- The base of the controller registers that hold an entry: the FRBASE of the register at `pa`. -/
def frEntry (pa : Nat) : Nat := pa / 0x20 * 0x20

/-- A write of FRBASEn: while en = 1 one that changes base is ignored; one that sets en takes effect only on a valid entry
(R44). DESIGN CHOICE (log 68): one that asks for en on an invalid entry stores its base and leaves en 0. -/
def State.setFrbase (s : State) (pa : Nat) (v : Word) : State :=
  let old := s.reg pa
  let base := fld v 51 16
  if bit old 0 ∧ base ≠ fld old 51 16 then s
  else
    let good := decide (fld (s.reg (pa + 8)) 51 16 ≥ base) && decide (fld (s.reg (pa + 16)) 63 52 ≠ 0)
      && decide (1 ≤ fld (s.reg (pa + 24)) 3 0 ∧ fld (s.reg (pa + 24)) 3 0 ≤ 4)
    let en := bit v 0 && (bit old 0 || good)
    s.setDreg pa (BitVec.ofNat 64 (base * 2 ^ 16 + if en then 1 else 0))

/-- FRBASE_WRITE: the register at `pa` is an FRBASE (R44). -/
def execFrbaseWrite (who : Agent) (pa : Nat) (v : Word) (s : State) : Res :=
  .next (match placeOf pa with
    | .die _ o => if 0x10000 ≤ o ∧ o < 0x10200 ∧ o % 0x20 = 0 then s.regBy who pa (s.setFrbase pa v) else s
    | _ => s)

/-! ## Protected windows (R432) -/

def pwPa (d n : Nat) : Nat := dieBase d + 0x30000 + 0x20 * n

/-- The first and last page of window `n` of I/O die `d` (4 or 5). -/
def State.pwBase (s : State) (d n : Nat) : Nat := fld (s.reg (pwPa d n)) 51 16
def State.pwLim (s : State) (d n : Nat) : Nat := fld (s.reg (pwPa d n + 8)) 51 16

/-- May window `n` of die `d` be enabled with a base: limit ≥ base, far memory of the die's channels, no overlap. -/
def State.pwGood (s : State) (d n base : Nat) : Bool :=
  let lim := s.pwLim d n
  let far (p : Nat) : Bool := decide (0x10000000000 ≤ p * 0x10000) && decide (p * 0x10000 < 0x28000000000) && controllerOf (p * 0x10000) == d
  decide (base ≤ lim) && far base && far lim &&
    (List.range 8).all fun i =>
      i == n || !bit (s.reg (pwPa d i)) 0 || decide (lim < s.pwBase d i) || decide (s.pwLim d i < base)

/-- A write of PWBASEn: while en = 1 base stays; en is set only on a valid window (R432). -/
def State.setPwbase (s : State) (d n : Nat) (v : Word) : State :=
  let old := s.reg (pwPa d n)
  let base := if bit old 0 then fld old 51 16 else fld v 51 16
  let en := bit v 0 && (bit old 0 || s.pwGood d n base)
  s.setDreg (pwPa d n) (BitVec.ofNat 64 (base * 2 ^ 16 + if en then 1 else 0))

/-- A write to a register that only the owner writes; any other is dropped and posts T_ACCESS (R425, R432). -/
def State.ownerBy (s : State) (who : Agent) (pa : Nat) (f : State) : State :=
  match who with
  | .core c => s.denied c pa
  | .master _ => s.regBy who pa f

/-- PWBASE_WRITE: window `n` of I/O die `i`, 0 for IOD-N and 1 for IOD-S (R432). -/
def execPwbaseWrite (who : Agent) (i n : Nat) (v : Word) (s : State) : Res :=
  .next (if i < 2 ∧ n < 8 then s.ownerBy who (pwPa (4 + i) n) (s.setPwbase (4 + i) n v) else s)

/-! ## The mark unit (R433 to R435) -/

/-- The mark unit's state for context `x` on the I/O die of link `l`. -/
def State.mark (s : State) (l x : Nat) : Mark := Table.get {} s.marks (64 * l + x)
def State.setMark (s : State) (l x : Nat) (m : Mark) : State := { s with marks := Table.put s.marks (64 * l + x) m }

/-- The mark key of an I/O die. -/
def State.markKey (s : State) (l : Nat) : List Byte :=
  takeFn 32 (Config.shake256 (s.identSeed ++ [BitVec.ofNat 8 l]))

/-- The offsets of a frame's marked samples, from word `i` of the output stream on; `fuel` words are looked at. -/
def markOffsets (out : Nat → Byte) (y : Nat) : Nat → Nat → List Nat → List Nat
  | 0, _, os => os
  | fuel + 1, i, os =>
    if os.length ≥ 256 then os
    else
      let o := natLE ((List.range 4).map fun b => out (4 * i + b)) % y
      markOffsets out y fuel (i + 1) (if os.contains o then os else os ++ [o])

/-- The 256-bit mark of a frame. -/
def markBits (x : Nat) (f : BitVec 48) : Nat := Config.deviceSerial.toNat + x % 64 * 2 ^ 64 + f.toNat * 2 ^ 70

/-- A frame with bit 0 of the samples at the offsets replaced by the mark's bits. -/
def markFrame (os : List Nat) (m : Nat) (frame : List Byte) : List Byte :=
  frame.zipIdx.map fun e =>
    let i := os.findIdx (· == e.2)
    if i < os.length then setFld e.1 0 0 (m / 2 ^ i % 2) else e.1

/-- Sign the pending digests and expose the manifest (R433, R435). -/
def State.signList (s : State) (l x : Nat) : State :=
  let m := s.mark l x
  let n := m.pending.length
  if n = 0 then s
  else
    let head := [BitVec.ofNat 8 (x % 64), BitVec.ofNat 8 n] ++ bytesLE 6 m.first.toNat ++ bytesLE 8 Config.deviceSerial.toNat
      ++ m.pending.flatten
    let hash := takeFn 64 (Config.shake256 head)
    s.setMark l x { m with pending := [], digests := n,
                           manifest := head ++ hash ++ takeFn 3309 (Config.mldsaSign s.identSeed hash) }

/-- Is a readout request of `len` bytes refused (R434)? -/
def State.readoutBad (s : State) (l x len : Nat) : Bool :=
  let m := s.mark l x
  let n := fld m.off 50 48
  let d := 4 + l
  let y := fld m.luma 31 0
  m.busy || !bit (s.reg (pwPa d n)) 0 || decide (fld (s.reg (pwPa d n + 16)) 5 0 ≠ x)
    || decide (fld m.off 47 0 + len > (s.pwLim d n + 1 - s.pwBase d n) * 0x10000)
    || decide (y < 4096) || decide (y > len) || decide (len > 2 ^ 27)

/-- A write of RDLEN through the VF of context `x` on link `m`: refused, or the request is taken under the next frame number
(R434). -/
def State.readout (s : State) (m x len : Nat) : State :=
  if s.acct m x < 2 then s.accessEvent x 0x10 0 m
  else
    let u := s.mark m x
    if s.readoutBad m x len then s.setMark m x { u with refused := true }
    else
      let n := fld u.off 50 48
      s.setMark m x { u with refused := false, busy := true, cur := u.count, count := u.count + 1, len := len,
                             y := fld u.luma 31 0, window := n,
                             start := s.pwBase (4 + m) n * 0x10000 + fld u.off 47 0, word := 0, offs := [] }

/-- A write of MANR through the VF of context `x` on link `m`: 1 signs the pending list (R434). -/
def State.manr (s : State) (m x : Nat) (v : Word) : State :=
  if s.acct m x < 2 then s.accessEvent x 0x1000 0 m
  else if v = 1 then s.signList m x else s

/-- A write through BAR4 by master `m`, of a context's VF on its link, that stands behind none of its own (R383). -/
def State.byVf (s : State) (m x : Nat) (f : State) : State := if m < 2 ∧ x < 64 ∧ ¬ s.behind (.master m) then f else s

/-- READOUT_REQUEST (R434). -/
def execReadoutRequest (m x len : Nat) (s : State) : Res := .next (s.byVf m x (s.readout m x len))

/-- READOUT_DONE: the output stream is read on, 65,536 words a step; once it has given 256 offsets the frame is read, marked and
its digest appended, and 64 digests are signed (R433, log 54). -/
def execReadoutDone (i : Nat) (s : State) : Res :=
  let l := i / 64
  let x := i % 64
  let m := s.mark l x
  .next (if ¬ m.busy then s
    else
      let out := Config.shake256 (s.markKey l ++ bytesLE 8 m.cur.toNat)
      let os := markOffsets out m.y 0x10000 m.word m.offs
      if os.length < 256 then s.setMark l x { m with word := m.word + 0x10000, offs := os }
      else
      let frame := markFrame os (markBits x m.cur) (s.mem.readBytes m.start m.len)
      let m' := { m with busy := false, word := 0, offs := [], frame := frame, first := if m.pending = [] then m.cur else m.first,
                         pending := m.pending ++ [takeFn 64 (Config.shake256 frame)] }
      let s := s.setMark l x m'
      if m'.pending.length ≥ 64 then s.signList l x else s)

/-- MANIFEST_SIGN: a write of MANR through the VF of context `x` on link `m` (R433, R434). -/
def execManifestSign (m x : Nat) (v : Word) (s : State) : Res := .next (s.byVf m x (s.manr m x v))

end Sys2Proof.Machine
end

