-- ==== Sys2Proof/Machine/Device.lean ====
section
/-! DEFINITION. Writes of device registers by cores and masters (R8, R289, R320, R402 to R404, R412, R425 to R432, R438),
the host's write-and-fill windows (R290) and its translated aperture (R383, R422). -/

namespace Sys2Proof.Machine

/-! ## Queues (R289, R290) -/

def queuePa (d j : Nat) : Nat := dieBase d + 0x40 * j

def State.qEn (s : State) (d j : Nat) : Bool := bit (s.reg (queuePa d j + 8)) 63
def State.qCtx (s : State) (d j : Nat) : Nat := fld (s.reg (queuePa d j + 8)) 47 42
def State.qPrio (s : State) (d j : Nat) : Nat := fld (s.reg (queuePa d j + 8)) 41 40
def State.qLg (s : State) (d j : Nat) : Nat := fld (s.reg (queuePa d j + 8)) 39 36
def State.qHead (s : State) (d j : Nat) : Nat := fld (s.reg (queuePa d j + 16)) 27 16
def State.qBase (s : State) (d j : Nat) : Nat := fld (s.reg (queuePa d j)) 55 12 * 4096

/-- The number of slot `i` of queue `j` among a die's full-empty bits. -/
def slotKey (j i : Nat) : Nat := 4096 * j + i
def State.slotFull (s : State) (d j i : Nat) : Bool := (s.die d).full.contains (slotKey j i)

/-- A write of QCTL (R289): while en = 1 only en changes; a write that sets en takes effect only if lg is 4 to 12, and then
clears head and empties every slot. -/
def State.setQctl (s : State) (d j : Nat) (v : Word) : State :=
  let pa := queuePa d j + 8
  if s.qEn d j then s.setRegFld pa 63 63 (if bit v 63 then 1 else 0)
  else
    let en := bit v 63 && decide (4 ≤ fld v 39 36 ∧ fld v 39 36 ≤ 12)
    let s := s.setDreg pa (BitVec.ofNat 64 ((if en then 2 ^ 63 else 0) + fld v 47 36 * 2 ^ 36))
    if en then
      (s.setRegFld (pa + 8) 27 16 0).modDie d fun u => { u with full := u.full.filter fun k => k / 4096 ≠ j }
    else s

/-- QCTL_WRITE (R289). -/
def execQctlWrite (who : Agent) (d j : Nat) (v : Word) (s : State) : Res :=
  .next (if d < 4 ∧ j < 64 then s.regBy who (queuePa d j + 8) (s.setQctl d j v) else s)

/-- A write of bytes at offset `o` of the write-and-fill window of queue `j` of die `d`, by master `m` through the
function of context `x`; one that covers byte 255 of a slot fills it (R290). -/
def State.slotWrite (s : State) (m x d j o : Nat) (bytes : List Byte) : State :=
  let n := bytes.length
  let slots := dedup ((List.range n).map fun i => (o + i) / 256)
  let st := queuePa d j + 16
  if s.acct m x < 2 then s.accessEvent x ((64 * d + j) * 2 ^ 20 + o) 0 m
  else if ¬ s.qEn d j ∨ s.qCtx d j ≠ x ∨ slots.any (fun i => decide (2 ^ s.qLg d j ≤ i)) then s.setRegFld st 32 32 1
  else if slots.any (s.slotFull d j ·) then s.setRegFld st 33 33 1
  else match s.range (seqPlace d) x .store (s.qBase d j + o) n with
    | none => s.setRegFld st 32 32 1
    | some ps =>
      if ps.any fun p => !isRam p || (s.protectedBy p).any (· ≠ x) then s.setRegFld st 32 32 1
      else
        let s := (s.cacheRun (seqPlace d) x .store (s.qBase d j + o) n).writeAt ps bytes
        let done := slots.filter fun i => decide (o ≤ 256 * i + 255) && decide (256 * i + 255 < o + n)
        s.modDie d fun u => { u with full := u.full ++ done.map (slotKey j) }

/-- All ones, as a refused read returns (R425). -/
def onesOf (n : Nat) : List Byte := List.replicate n (BitVec.allOnes 8)

/-- A read by master `m` at offset `o` of the write-and-fill window of queue `j` of die `d`, through the function of context
`x`: QSTATj, or all ones where the access is refused, which posts T_ACCESS (R290, R425). -/
def State.slotRead (s : State) (m x d j o : Nat) : State × List Byte :=
  if s.acct m x < 1 then (s.accessEvent x ((64 * d + j) * 2 ^ 20 + o) 0 m, onesOf 8)
  else (s, bytesLE 8 (s.reg (queuePa d j + 16)).toNat)

/-! ## Pre-emption requests (R320) -/

/-- Every RUNNING group that a request names: all of a task's, or one. -/
def Task.runningOf (t : Task) (v : Word) : List Nat :=
  (if bit v 17 then List.range t.ngrp else [fld v 15 0]).filter fun g => (t.group g).phase == .running

/-- GPSTAT takes a state and a cause (R320). -/
def State.setGpstat (s : State) (d st cause : Nat) : State :=
  s.setDreg (gpstat d) (BitVec.ofNat 64 (st * 2 ^ 30 + cause % 128 * 2 ^ 16))

/-- A write of GPREQ (R320): ignored while st = 1; a request that fails sets st = 3 and its cause, one that is taken sets
st = 1, takes the next number and moves its groups to PREEMPTING (R313). -/
def State.setGpreq (s : State) (d : Nat) (v : Word) : State :=
  let serial := fld (s.reg (dieBase d + 0x1000)) 47 0
  let mode := fld v 19 18
  if fld (s.reg (gpstat d)) 31 30 = 1 ∨ mode = 0 then s
  else if mode = 3 then s.setGpstat d 3 tUndefOp
  else match (s.die d).tasks.find? fun e => e.2.serial == serial && e.2.kind == 0 && e.2.phase == .running with
    | none => s.setGpstat d 3 tTaskState
    | some (k, t) =>
      let gs := t.runningOf v
      if gs = [] then s.setGpstat d 3 tTaskState
      else if t.fieldAt 40 8 = 0 then s.setGpstat d 3 tSaveSpace
      else if mode = 2 ∧ ¬ bit (t.bytes.getD 29 0) 1 then s.setGpstat d 3 tCfgState
      else
        let s := s.modDie d fun u => { u with requests := u.requests + 1 }
        let t := gs.foldl (fun t g => t.setGroup g { t.group g with phase := .preempting, mode, req := (s.die d).requests }) t
        (s.setGpstat d 1 0).setTask (d, k) t

/-! ## Every register -/

/-- A register written as R8 gives, with no more effect. -/
def State.rawWrite (s : State) (pa : Nat) (v : Word) : State :=
  match regInfo pa with
  | none => s
  | some r => s.setDreg pa (r.write (s.reg pa) v)

/-- A write of a format-range register other than FRBASE is ignored while its entry is enabled (R44). -/
def State.setFr (s : State) (pa : Nat) (v : Word) : State :=
  if pa % 0x20 = 0 then s.setFrbase pa v
  else if bit (s.reg (frEntry pa)) 0 then s else s.rawWrite pa v

/-- A write of a register of a compute-die window. -/
def State.dieWrite (s : State) (who : Agent) (d o : Nat) (v : Word) : State :=
  let pa := dieBase d + o
  if o < 0x1000 then
    match o % 0x40 with
    | 0 => if s.qEn d (o / 0x40) then s else s.rawWrite pa v
    | 8 => s.setQctl d (o / 0x40) v
    | _ => s.rawWrite pa v
  else if o = 0x1008 then s.setGpreq d v
  else if 0x10000 ≤ o ∧ o < 0x10200 then s.setFr pa v
  else if o = 0x20200 then s.setBudget d v
  else if o = 0x20238 then s.onZone d (fld v 4 0) fun s c => s.zcmd c (fld v 7 5)
  else if o = 0x30040 then s.setPcap d v
  else if 0x30200 ≤ o ∧ o < 0x30300 then s.setPgate (32 * d + (o - 0x30200) / 8) v
  else if o = 0x40000 then s.setCut d v
  else if o = 0x40008 then s.cutAct d (fld v 1 0)
  else if o = 0x40010 then s.setProf d v (s.agentCtx who)
  else s.rawWrite pa v

/-- A write of a register of the IOD-N window that only the owner writes (R424, R427, R429). -/
def State.ownerWrite (s : State) (o : Nat) (v : Word) : State :=
  let pa := iodN + o
  if o = 0x20018 then s.setEvqhead v
  else if 0x20C00 ≤ o ∧ o < 0x21000 then
    if v = 1 then s.modCore ((o - 0x20C00) / 8) fun k => { k with halted := false } else s
  else if 0x21000 ≤ o ∧ o < 0x21018 then s.setDreg pa v
  else if o = 0x21018 then s.startAttest v
  else s.rawWrite pa v

/-- A write of a register of an I/O-die window (4 or 5). -/
def State.iodWrite (s : State) (d o : Nat) (v : Word) : State :=
  let pa := dieBase d + o
  if 0x10000 ≤ o ∧ o < 0x10200 then s.setFr pa v
  else if 0x30000 ≤ o ∧ o < 0x30100 then
    let n := (o - 0x30000) / 0x20
    if o % 0x20 = 0 then s.setPwbase d n v
    else if bit (s.reg (pwPa d n)) 0 then s else s.rawWrite pa v
  else if d = 4 then s.ownerWrite o v
  else s

/-- A write of a breakpoint register; a handler arms one only on a site that a group of its context holds (R437, R438). -/
def State.setBreak (s : State) (who : Agent) (pa : Nat) (v : Word) : State :=
  match who with
  | .core k => if pa % 16 = 0 ∧ bit v 63 ∧ ¬ s.holdsSite (s.core k).ctx (fld v 12 0) then s else s.rawWrite pa v
  | .master _ => s.rawWrite pa v

/-- The write of `v` to the device register at `pa`, by an agent that may write it. -/
def State.devWrite (s : State) (who : Agent) (pa : Nat) (v : Word) : State :=
  match placeOf pa with
  | .debug c o => if o = 0x4100 then s.setTrctl c v else if o < 0x4040 then s.setBreak who pa v else s.rawWrite pa v
  | .die d o => if d < 4 then s.dieWrite who d o v else s.iodWrite d o v
  | _ => s

/-! ## REGISTER_WRITE (R8) -/

/-- A write at offset `o` of BAR4 of context `x` on link `m` (R434). -/
def State.bar4Write (s : State) (m x o : Nat) (v : Word) : State :=
  if o = 0x10 then s.readout m x (fld v 31 0)
  else if o = 0x1000 then s.manr m x v
  else if s.acct m x < 2 then s.accessEvent x o 0 m
  else
    let u := s.mark m x
    if o = 0 then s.setMark m x { u with off := v &&& BitVec.ofNat 64 (mask 50 0) }
    else if o = 8 then s.setMark m x { u with luma := v &&& BitVec.ofNat 64 (mask 31 0) }
    else s

/-- One byte of BAR4 as it reads: RDST, MANST, the manifest and the current frame; every other offset reads zero (R434, R435). -/
def Mark.byteOf (u : Mark) (o : Nat) : Byte :=
  let rdst := (if u.busy then 2 ^ 63 else 0) + (if u.refused then 2 ^ 62 else 0) + u.cur.toNat
  let manst := if u.manifest = [] then 0 else 2 ^ 63 + u.digests
  if 0x18 ≤ o ∧ o < 0x20 then BitVec.ofNat 8 (rdst / 2 ^ (8 * (o - 0x18)))
  else if 0x1008 ≤ o ∧ o < 0x1010 then BitVec.ofNat 8 (manst / 2 ^ (8 * (o - 0x1008)))
  else if 0x2000 ≤ o ∧ o < 0x4000 then u.manifest.getD (o - 0x2000) 0
  else if 0x10000000 ≤ o ∧ o < 0x18000000 then u.frame.getD (o - 0x10000000) 0
  else 0

/-- A read of `n` bytes at offset `o` of BAR4 of context `x` on link `m`: all ones where the table refuses it, which posts
T_ACCESS (R425); one of the frame waits while the unit is busy (R434). -/
def State.bar4Read (s : State) (m x o n : Nat) : Option (State × List Byte) :=
  let u := s.mark m x
  if s.acct m x < 1 then some (s.accessEvent x o 0 m, onesOf n)
  else if u.busy ∧ o < 0x18000000 ∧ 0x10000000 < o + n then none
  else some (s, (List.range n).map fun i => u.byteOf (o + i))

/-- Does a read by master `m` of a register of a die window need more than the master has: of a queue's, the right to read the
context's targets (R425); of one that R426 leaves to the owner, ownership? -/
def State.regShut (s : State) (m d r : Nat) : Bool :=
  (decide (d < 4 ∧ r < 0x1000) && decide (s.acct m (s.qCtx d (r / 0x40)) < 1)) ||
    (s.owner != m && ownerReg d r && r != 0x20000 && r != 0x21028)

/-- A read by master `m` at offset `o` of BAR0: a register of the die windows, all ones where none lies there or where it is
refused, which posts T_ACCESS (R425, R426). -/
def State.bar0Read (s : State) (m o : Nat) : State × Word :=
  let pa := 0xF000100000000 + o
  match placeOf pa with
  | .die d r => if s.regShut m d r then (s.accessEvent (s.targetCtx pa) o 0 m, BitVec.allOnes 64) else (s, s.regRead (pa / 8 * 8))
  | _ => (s, BitVec.allOnes 64)

/-- The address that stands for system register `n` of core `c` where the owner master writes it (log 69). -/
def sysPa (c n : Nat) : Nat := 2 ^ 53 + 1024 * c + n

/-- The system registers that the owner master writes: %hvecN, %hctlN, %ctxctl, %tickN (R236, R240, R271). -/
def ownerSys (n : Nat) : Bool := decide (0x40 ≤ n ∧ n < 0xA0) || decide (0x100 ≤ n ∧ n < 0x140)

/-- A register write by an agent, at physical address `pa`. From 2^52 on the address names BAR4:
2^52 + 2^36 · link + 2^29 · context + offset; from 2^53 on a system register of a core. OWN takes a claim of any master; the
registers of R432 are written by the owner alone. -/
def State.writeReg (s : State) (who : Agent) (pa : Nat) (v : Word) : State :=
  if 2 ^ 53 ≤ pa then
    let c := (pa - 2 ^ 53) / 1024
    let n := (pa - 2 ^ 53) % 1024
    match who with
    | .master _ => if c < 128 ∧ ownerSys n then s.byWho who n (s.sysStore c n v) else s
    | .core _ => s
  else if 2 ^ 52 ≤ pa then
    match who with
    | .master m =>
      let a := pa - 2 ^ 52
      if m < 2 ∧ a / 2 ^ 36 = m then s.bar4Write m (a / 2 ^ 29 % 64) (a % 2 ^ 29) v else s
    | .core _ => s
  else if pa % 8 ≠ 0 then s
  else if pa = ownPa then
    match who with
    | .master m => if m < 3 then s.setOwn m v else s
    | .core c => s.denied c ownPa
  else match placeOf pa with
    | .die d o =>
      if d ≥ 4 ∧ 0x20000 ≤ o then s.ownerBy who pa (s.devWrite who pa v) else s.regBy who pa (s.devWrite who pa v)
    | .debug _ _ => s.regBy who pa (s.devWrite who pa v)
    | _ => s

/-! ## Posted writes of a master in order (R383, R422) -/

/-- The writes of master `m` that wait. -/
def State.waiting (s : State) (m : Nat) : List HostWait := Table.get [] s.hostWait m
def State.setWaiting (s : State) (m : Nat) (q : List HostWait) : State := { s with hostWait := Table.put s.hostWait m q }

/-- A write of master `m` that must wait joins those that wait. -/
def State.waitLast (s : State) (m : Nat) (w : HostWait) : State := s.setWaiting m (s.waiting m ++ [w])

/-- REGISTER_WRITE: an agent writes a register; a master's write that finds others of its own waiting waits behind them (R8,
R383). -/
def execRegisterWrite (who : Agent) (pa : Nat) (v : Word) (s : State) : Res :=
  .next (match who with
    | .core _ => s.writeReg who pa v
    | .master m =>
      if s.waiting m = [] then s.writeReg who pa v
      else s.waitLast m { ctx := 0, va := pa, bytes := bytesLE 8 v.toNat, port := .register })

/-- HOST_SLOT_WRITE: bytes at offset `o` of a write-and-fill window, by master `m` through the function of context `x`; with
others of the master waiting it waits behind them (R290, R383). -/
def execHostSlotWrite (m x d j o : Nat) (bytes : List Byte) (s : State) : Res :=
  .next (if m ≥ 2 ∨ x ≥ 64 ∨ d ≥ 4 ∨ j ≥ 64 ∨ o + bytes.length > 2 ^ 20 ∨ bytes.length = 0 then s
    else if s.waiting m = [] then s.slotWrite m x d j o bytes
    else s.waitLast m { ctx := x, va := o, bytes, port := .slots d j })

/-! ## The translated aperture (R383, R422) -/

/-- Store the bytes of a host write at their physical addresses: a protected window of another context refuses it, a tile
that refuses remote accesses, or a place that no host reaches, drops it; a register takes a whole one as REGISTER_WRITE does; none
while a tile's queue holds an earlier access to the words. -/
def State.hostStore (s : State) (m x : Nat) (ps : List Nat) (bytes : List Byte) : Option State :=
  let pa := ps.headD 0
  let n := bytes.length
  match placeOf pa with
  | .ram =>
    match ps.find? fun p => (s.protectedBy p).any (· ≠ x) with
    | some p => some (s.accessEvent (s.targetCtx p) (s.accessOff p) 0 m)
    | none => some (s.writeAt ps bytes)
  | .tile c t =>
    let p := tileSite c t
    if s.gated c ∨ s.exiting p then some s
    else if s.tileFree p (dedup (ps.map fun a => a % 0x80000 / 4)) true then some (s.writeAt ps bytes)
    else none
  | .fullWords c t _ =>
    if (n ≠ 4 ∧ n ≠ 8) ∨ pa % n ≠ 0 ∨ s.gated c ∨ s.exiting (tileSite c t) then some s
    else if s.accessFree pa n true then some (s.writePlace pa n (natLE bytes))
    else none
  | .cregs c _ =>
    if n = 8 ∧ pa % 8 = 0 ∧ (s.core c).ctx = x ∧ ¬ s.gated c then some (s.writePlace pa 8 (natLE bytes)) else some s
  | .die _ _ | .debug _ _ => some (if n = 8 then s.writeReg (.master m) pa (BitVec.ofNat 64 (natLE bytes)) else s)
  | _ => some (s.accessEvent x (s.accessOff pa) 0 m)

/-- Perform a host write through context `x`'s tables: none while it cannot be performed; a page that is not present makes
it wait for system software, any other failure drops it. -/
def State.hostPerform (s : State) (m x va : Nat) (bytes : List Byte) : Option State :=
  match s.vaddrs (hostPlace m) x .store va bytes.length with
  | (ps, none) => (s.hostStore m x ps bytes).map fun t => t.cacheRun (hostPlace m) x .store va bytes.length
  | (_, some (_, 0)) => none
  | (_, some _) => some s

/-- A read by master `m` through the function of context `x` of the bytes at `ps`, as from outside every cluster and by no
privileged handler (R184, R324, R361, R431): ones for what it may not read, which posts T_ACCESS at a protected place. The owner
observes debug windows, another master reads zeros there (R437); a die's registers read as through BAR0. -/
def State.hostBytes (s : State) (m x : Nat) (ps : List Nat) : State × List Byte :=
  let pa := ps.headD 0
  let n := ps.length
  if ps.all fun p => unitAt p == 1 then
    let bytes := ps.map fun p => if s.coreRead 128 x false p 1 == .ok then s.byteAt p else BitVec.allOnes 8
    (match ps.find? fun p => s.coreRead 128 x false p 1 == .deny with
      | some p => s.accessEvent (s.targetCtx p) (s.accessOff p) 0 m
      | none => s, bytes)
  else if pa % n ≠ 0 ∨ ps ≠ (List.range n).map (pa + ·) then (s, onesOf n)
  else match placeOf pa, s.coreRead 128 x false pa n with
    | .die _ _, _ =>
      if n ≠ 8 then (s, onesOf n)
      else match s.bar0Read m (pa - 0xF000100000000) with
        | (s, v) => (s, bytesLE 8 v.toNat)
    | .record _ _ _, .zero | .debug _ _, .zero => (s, if s.owner = m then s.bytesAt pa n else List.replicate n 0)
    | _, .ok => (s, s.bytesAt pa n)
    | _, _ => (s, onesOf n)

/-- A read returned `bs` to master `m`. -/
def State.returned (m : Nat) (r : State × List Byte) : State := { r.1 with hostAns := r.1.hostAns ++ [(m, r.2)] }

/-- A read of `n` bytes at `va` through BAR3 of context `x` by master `m`: the bytes with every write that has been performed,
all ones where it is refused (R383, R422, R425); a page that is not present makes it wait for system software. -/
def State.hostRead (s : State) (m x va n : Nat) : State :=
  if s.acct m x < 1 then State.returned m (s.accessEvent x va 0 m, onesOf n)
  else match s.vaddrs (hostPlace m) x .load va n with
    | (ps, none) => State.returned m ((s.cacheRun (hostPlace m) x .load va n).hostBytes m x ps)
    | (_, some (_, 0)) => { s with hostReads := Table.put s.hostReads m (Table.get [] s.hostReads m ++ [.aperture x va n]) }
    | (_, some _) => State.returned m (s, onesOf n)

/-- A master's read takes its turn; one of a frame that is being marked waits and comes again at the end of the schedule (R290,
R383, R422, R425, R426, R428, R434, log 55). -/
def State.hostTurn (s : State) (m : Nat) (r : HostRead) : State :=
  match r with
  | .aperture x va n => if m < 2 ∧ x < 64 ∧ n ≠ 0 ∧ va + n ≤ 2 ^ 34 then s.hostRead m x va n else s
  | .slots x d j o => if m < 2 ∧ x < 64 ∧ d < 4 ∧ j < 64 ∧ o < 2 ^ 20 then State.returned m (s.slotRead m x d j o) else s
  | .readout x o n =>
    if m < 2 ∧ x < 64 ∧ n ≠ 0 ∧ o + n ≤ 2 ^ 29 then
      match s.bar4Read m x o n with
      | some a => State.returned m a
      | none => { s with agenda := s.agenda ++ [.read m r] }
    else s
  | .register o =>
    if m < 3 ∧ o % 8 = 0 then
      match s.bar0Read m o with
      | (s, v) => State.returned m (s, bytesLE 8 v.toNat)
    else s
  | .bootCause => State.returned m (s, if m = 2 then bytesLE 8 (s.bootCause.getD 0) else onesOf 8)

/-- HOST_WRITE: bytes through BAR3 of context `x` by master `m`; writes of one master are performed in order, so one that
finds others waiting waits behind them (R383, R422). -/
def execHostWrite (m x va : Nat) (bytes : List Byte) (s : State) : Res :=
  .next (if m ≥ 2 ∨ x ≥ 64 ∨ bytes = [] ∨ va + bytes.length > 2 ^ 34 then s
    else if s.acct m x < 2 then s.accessEvent x va 0 m
    else
      let later := s.waitLast m { ctx := x, va, bytes }
      if s.waiting m ≠ [] then later
      else (s.hostPerform m x va bytes).getD later)

/-- Perform one write that has waited; none while it cannot be performed. -/
def State.hostRetry (s : State) (m : Nat) (w : HostWait) : Option State :=
  match w.port with
  | .aperture => s.hostPerform m w.ctx w.va w.bytes
  | .slots d j => some (s.slotWrite m w.ctx d j w.va w.bytes)
  | .register => some (s.writeReg (.master m) w.va (BitVec.ofNat 64 (natLE w.bytes)))

/-- Perform the writes that have waited, in order, up to the first that cannot be performed. -/
def State.hostDrain (s : State) (m : Nat) : List HostWait → State
  | [] => s
  | w :: ws =>
    match s.hostRetry m w with
    | some t => t.hostDrain m ws
    | none => s.setWaiting m (w :: ws)

/-- The reads of master `m` that wait are tried again, in order. -/
def State.hostReread (s : State) (m : Nat) (rs : List HostRead) : State :=
  rs.foldl (fun s r => s.hostTurn m r) { s with hostReads := Table.put s.hostReads m [] }

/-- The oldest of the reads that wait fails: it returns all ones. -/
def State.failRead (s : State) (m : Nat) : List HostRead → State
  | .aperture _ _ n :: rs => (State.returned m (s, onesOf n)).hostReread m rs
  | rs => s.hostReread m rs

/-- PAGE_REQUEST_RESPONSE: system software answers the page request of the oldest waiting access, the writes before the reads;
with `ok` the access is tried again, otherwise it is dropped, a read with all ones; those behind it follow (R422, log 55). -/
def execPageRequestResponse (m : Nat) (ok : Bool) (s : State) : Res :=
  .next (if m ≥ 2 then s
    else
      let ws := s.waiting m
      let rs := Table.get [] s.hostReads m
      let t := (s.setWaiting m []).hostDrain m (if ok then ws else ws.drop 1)
      if ok ∨ ws ≠ [] then t.hostReread m rs else t.failRead m rs)

end Sys2Proof.Machine
end

