-- ==== Sys2Proof/Machine/Perform.lean ====
section
/-! DEFINITION. The performance of a core's outstanding accesses (R250, R264 to R266, R269 to R271, R354): loads, atomics
and tickets return, stores are performed. -/

namespace Sys2Proof.Machine

/-! ## Atomic arithmetic (R269) -/

/-- The new value of an atomic of `w` bits: 0 add, 1 min.s, 2 min.n, 3 max.s, 4 max.n, 5 and, 6 or, 7 xor, 8 swap, 9 cas. -/
def amoNew (w op : Nat) (old b c : BitVec w) : BitVec w :=
  match op with
  | 0 => old + b
  | 1 => if old.slt b then old else b
  | 2 => if old.ult b then old else b
  | 3 => if old.slt b then b else old
  | 4 => if old.ult b then b else old
  | 5 => old &&& b
  | 6 => old ||| b
  | 7 => old ^^^ b
  | 8 => b
  | _ => if old = c then b else old

/-! ## Program order at one byte (R265) -/

/-- May the access `o`, with `older` before it, be performed now: a release waits for all of them (R266); an access waits
for older ones at its bytes, but that a load may take an older store's bytes from memory (R265). -/
def State.mayPerform (s : State) (older : List MemOp) (o : MemOp) : Bool :=
  (!o.rel || older.isEmpty) &&
    match o.kind with
    | .fixed | .dropped => true
    | .ticket => older.all fun e => e.kind != .ticket
    | .load _ =>
      (older.all fun e => !e.overlaps o.pa o.size || (e.isStore && (placeOf o.pa).plain)) && s.accessFree o.pa o.size false
    | _ => (older.all fun e => !e.overlaps o.pa o.size) && s.accessFree o.pa o.size true

/-- The bytes a load returns: its task's buffered stores as it found them, its core's own older stores, then the place
(R265, R328). -/
def State.loadBytes (s : State) (older : List MemOp) (o : MemOp) : List Byte :=
  (List.range o.size).map fun i =>
    let a := o.pa + i
    if Table.has o.fwd a then Table.get 0 o.fwd a else (storedByte older a).getD (s.byteAt a)

/-- The loaded value in its register (R263). -/
def extendLoad (signed : Bool) (bs : List Byte) : Word :=
  let v := natLE bs
  let w := 8 * bs.length
  if signed ∧ v / 2 ^ (w - 1) % 2 = 1 then BitVec.ofNat 64 (v + 2 ^ 64 - 2 ^ w) else BitVec.ofNat 64 v

/-- The access leaves the outstanding ones; its value reaches d, which is pending no longer (R250). -/
def CoreSt.opDone (k : CoreSt) (id cls : Nat) (d : Dest) (v : Word) : CoreSt :=
  let k := ({ k with ops := k.ops.filter (·.id ≠ id) }.outDown cls).put d v
  match d with
  | .s r => { k with pendS := k.pendS.erase r }
  | .f r => { k with pendF := k.pendF.erase r }
  | .nowhere => k

/-! ## Tickets (R270, R271) -/

/-- A claim: the counter of the core's die, broadcast to the tiles of its cluster; none while a tile's queue holds an earlier
access to the word. -/
def State.claimTicket (s : State) (c n : Nat) (b : BitVec 32) : Option (Word × State) :=
  let d := dieOf c
  let t : Tick := Table.get {} (s.die d).ticks n
  let w := t.word.toNat
  let tiles := (List.range 12).map (tileSite c)
  if t.bc ∧ tiles.any (fun p => !s.tileFree p [w] true) then none
  else
    let s := s.modDie d fun u => { u with ticks := Table.put u.ticks n { t with value := t.value + b } }
    let s := if t.bc then
        tiles.foldl (fun s p => (s.setWord (wordAddr p w) t.value).setFull (wordAddr p w) true) s
      else s
    some (t.value.zeroExtend 64, s)

/-- An access that writes has been performed: its bytes are judged (R331 to R333). -/
def State.judgeWrite (s : State) (o : MemOp) : State := s.judgeBytes o.task o.pa o.size

/-! ## Meanings -/

/-- LOAD_RETURN: the load, atomic or ticket numbered `k` of core `c` is performed and writes its d (R250, R263, R269,
R270). -/
def execLoadReturn (c k : Nat) (s : State) : Res :=
  .next (match splitOps k (s.core c).ops with
    | none => s
    | some (older, o) =>
      let done (s : State) (v : Word) : State := s.modCore c fun u => u.opDone k 0 o.dest v
      if ¬ s.mayPerform older o then s
      else match o.kind with
        | .load signed => done s (extendLoad signed (s.loadBytes older o))
        | .fixed => done s o.data
        | .amo op =>
          if o.size = 8 then
            let old := BitVec.ofNat 64 (s.memNum o.pa 8)
            done ((s.storeNum o.pa 8 (amoNew 64 op old o.data o.cmp).toNat).judgeWrite o) old
          else
            let old := s.word o.pa
            done ((s.setWord o.pa (amoNew 32 op old (o.data.truncate 32) (o.cmp.truncate 32))).judgeWrite o) (old.zeroExtend 64)
        | .ticket =>
          match s.claimTicket c (o.va.toNat % 64) (o.data.truncate 32) with
          | none => s
          | some (v, s) => done s v
        | _ => s)

/-- Perform a store at its place: a device register's write has its effects. -/
def State.performStore (s : State) (c : Nat) (o : MemOp) : State :=
  match placeOf o.pa with
  | .die _ _ | .debug _ _ => s.devWrite (.core c) o.pa o.data
  | _ => s.writePlace o.pa o.size (o.data.toNat % 2 ^ (8 * o.size))

/-- STORE_PERFORMED: the store, bar.init or bar.expect numbered `k` of core `c` is performed at its target (R264, R266,
R354). -/
def execStorePerformed (c k : Nat) (s : State) : Res :=
  .next (match splitOps k (s.core c).ops with
    | none => s
    | some (older, o) =>
      let done (s : State) : State := s.modCore c fun u => u.opDone k 1 .nowhere 0
      if ¬ s.mayPerform older o then s
      else match o.kind with
        | .store => done ((s.performStore c o).judgeWrite o)
        | .dropped => done s
        | .barInit => done ((s.barInitStep o.pa (o.data.toNat % 2 ^ 16)).judgeWrite o)
        | .barExpect => done (((s.barStep o.pa (o.data.truncate 32) 0 0).getD s).judgeWrite o)
        | _ => s)

end Sys2Proof.Machine
end

