-- ==== Sys2Proof/Machine/Tile.lean ====
section
/-! DEFINITION. The memory tile's element (R181 to R200, R357): firings that place queue entries, their performance and
retirement, the ring of qpush and qpop, DONE joins, tile mode and live blocks, barrier arrivals. -/

namespace Sys2Proof.Machine

/-! ## Patterns -/

/-- Words per value (R186). -/
def mtW (f : BitVec 256) : Nat := if sfxWide (mtSfx f) then 2 else 1

/-- Tile mode: an ld of a narrow format (R195). -/
def tileMode (f : BitVec 256) : Bool := mtOp f == 0x01 && (decide (1 ≤ mtSfx f ∧ mtSfx f ≤ 6))

/-- A constant operand of an MT pattern: its words (R188, R120). -/
def mtConst (c : Cfg) (sel : Nat) : List (BitVec 32) := constElems (mtSfx c.elem) (c.kAt (sel - 4))

/-- The packet an MT selector reads as data. -/
def Site.mtOperand (t : Site) (n sel : Nat) : Option Pkt :=
  if sel < 4 then t.inData n sel
  else some { emptyPkt with elems := mtConst (t.slot n) sel, slot := n }

/-- The packet an MT selector reads as indices: a constant is one `.n32` element, whatever the pattern's format (R187). -/
def Site.mtIndex (t : Site) (n sel : Nat) : Option Pkt :=
  if sel < 4 then t.inData n sel
  else some { emptyPkt with elems := [(t.slot n).kAt (sel - 4)], slot := n }

/-- Take the next ordinal of each port of a list. -/
def Site.takeOrds (t : Site) (n : Nat) : List Nat → Site × List (Nat × BitVec 48)
  | [] => (t, [])
  | j :: js =>
    let c := t.slot n
    let o := c.outPort j
    let (u, r) := (t.setSlot n (c.setOut j { o with ord := o.ord + 1 })).takeOrds n js
    (u, (j, o.ord) :: r)

/-- A firing that ends in ERR: one on each data port, and its DONE (R187, R194). -/
def Site.mtErr (t : Site) (n : Nat) (o : Out) : Site :=
  let f := (t.slot n).elem
  (t.emitAll n (mtDataPorts f) o).emitAll n (mtDonePorts f) { kind := 3, elems := [BitVec.ofNat 32 (mtScope f)] }

/-- Place an entry for a firing: it takes its ordinals and joins the queue (R181, R122). -/
def Site.mtPlace (t : Site) (n : Nat) (src : Pkt) (words : List Nat) (data cmp : List (BitVec 32)) : Site :=
  let f := (t.slot n).elem
  let out := if mtOp f = 0x0A ∨ mtOp f = 0x02 ∨ mtOp f = 0x04 ∨ mtOp f = 0x06 ∨ mtOp f = 0x08 then [] else mtDataPorts f
  let (t, outs) := t.takeOrds n out
  let (t, done) := t.takeOrds n (mtDonePorts f)
  { t with mtq := t.mtq ++ [{ id := t.nextEntry, slot := n, frame := f, src, words, data, cmp, last := src.last, outs,
                              done := done.head?, aside := false }]
           nextEntry := t.nextEntry + 1 }

/-! ## The common head of an MT firing (R122, R124, R138, R198, R199) -/

/-- A firing of an MT element with an operation of `ops`: no EOS is at hand, its ports and the queue have room; a cancelled
firing cancels its inputs (R138) unless the store is committed (R198); an ERR ends it (R124, R187); else `f` on the packets at
a and b. While the queue is full the element is in BLOCK (R181). -/
def State.mtStep (s : State) (p : Nat) (ops : Nat → Bool) (f : Site → Nat → Pkt → Pkt → Act) : State :=
  s.siteStep p 2 fun n t =>
    let c := t.slot n
    let e := c.elem
    let js := readPorts c
    let reads (sel : Nat) : Bool := (mtSelectors e).contains sel
    let fire : Act :=
      if ¬ t.noEos n js then .wait
      else match (if reads (mtA e) then t.mtIndex n (mtA e) else some emptyPkt),
          (if reads (mtB e) then t.mtOperand n (mtB e) else some emptyPkt) with
        | some a, some b =>
          let u := t.consume n js
          let heads := (if mtOp e = 0x09 then [] else [a]) ++ (if reads (mtB e) ∧ mtB e < 4 then [b] else [])
          if t.mtq.length ≥ 64 then .block
          else t.ifRoom (drivenPorts e) (match firstErr heads with
            | some x => .run (u.mtErr n (passErr x))
            | none => f u n a b)
        | _, _ => .wait
    if ¬ ops (mtOp e) ∨ c.inj.isSome then .wait
    else if mtCommit e then fire
    else t.orCancel n js (cancelPorts e) fire

/-- The words of the values that indices name; none where one is out of range (R187). -/
def mtWords (f : BitVec 256) (xs : List Nat) : Option (List Nat) :=
  let w := mtW f
  if xs.all fun x => decide (x * w + w - 1 ≤ mtLen f) then
    some (xs.flatMap fun x => (List.range w).map fun i => mtBase f + x * w + i)
  else none

/-- The indices that an ld reads, from (x) or (x, n) (R188). -/
def ldIndices (f : BitVec 256) (a : Pkt) : Option (List Nat) :=
  match a.elems with
  | [x] => some [x.toNat]
  | [x, m] => if 1 ≤ m.toNat ∧ m.toNat ≤ 8 / mtW f then some ((List.range m.toNat).map (x.toNat + ·)) else none
  | _ => none

/-- The data words of b for `k` values: a constant serves every one (R188). -/
def mtData (c : Cfg) (b : Pkt) (k : Nat) : Option (List (BitVec 32)) :=
  let w := mtW c.elem
  if mtB c.elem ≥ 4 then some ((List.range k).flatMap fun _ => mtConst c (mtB c.elem))
  else if b.elems.length = k * w then some b.elems else none

/-- The number of values that a plain store writes: a constant once (R188). -/
def stCount (c : Cfg) (b : Pkt) : Option Nat :=
  let w := mtW c.elem
  if mtB c.elem ≥ 4 then some 1
  else if b.elems.length % w = 0 ∧ b.elems ≠ [] then some (b.elems.length / w) else none

/-- The entry of an ld, st, ld.fe, st.fe, gath or scat firing: its words and its data (R188, R189). -/
def mtPlan (c : Cfg) (a b : Pkt) : Option (List Nat × List (BitVec 32)) :=
  let f := c.elem
  let idx := a.elems.map (·.toNat)
  match mtOp f with
  | 0x01 | 0x03 => (ldIndices f a).bind fun xs => (mtWords f xs).map fun ws => (ws, [])
  | 0x05 => if idx.length * mtW f ≤ 8 then (mtWords f idx).map fun ws => (ws, []) else none
  | 0x06 =>
    if idx.length * mtW f ≤ 8 then (mtData c b idx.length).bind fun d => (mtWords f idx).map fun ws => (ws, d) else none
  | _ =>
    match idx with
    | [x] => (stCount c b).bind fun k => (mtData c b k).bind fun d =>
        (mtWords f ((List.range k).map (x + ·))).map fun ws => (ws, d)
    | _ => none

/-- MT_REQUEST: the next firing of ld, st, ld.fe, st.fe, gath or scat places its entry (R181, R188, R189). -/
def execMtRequest (p : Nat) (s : State) : Res :=
  .next (s.mtStep p (fun op => decide (1 ≤ op ∧ op ≤ 6)) fun t n a b =>
    let c := t.slot n
    if tileMode c.elem then .wait
    else match mtPlan c a b with
      | some (ws, d) => .run (t.mtPlace n a ws d [])
      | none => .run (t.mtErr n (ownErr clsIndexRange p)))

/-- AMO_FIRE: the next firing of amo places its entry; cas takes pairs (R190). -/
def execAmoFire (p : Nat) (s : State) : Res :=
  .next (s.mtStep p (fun op => op == 0x07) fun t n a b =>
    let c := t.slot n
    let f := c.elem
    let w := mtW f
    let xs := a.elems.map (·.toNat)
    let k := xs.length
    let plan : Option (List Nat × List (BitVec 32) × List (BitVec 32)) :=
      if mtAmo f = 9 then
        if b.elems.length = 2 * k * w then
          let pair (i o : Nat) : List (BitVec 32) := (b.elems.drop ((2 * i + o) * w)).take w
          (mtWords f xs).map fun ws => (ws, (List.range k).flatMap (pair · 1), (List.range k).flatMap (pair · 0))
        else none
      else (mtData c b k).bind fun d => (mtWords f xs).map fun ws => (ws, d, [])
    match plan with
    | some (ws, d, e) => .run (if k * w > 8 then t.mtErr n (ownErr clsIndexRange p) else t.mtPlace n a ws d e)
    | none => .run (t.mtErr n (ownErr clsIndexRange p)))

/-! ## Rings (R191) -/

/-- QPUSH: a packet at b, an ERR or EOS too, places its entry. -/
def execQpush (p : Nat) (s : State) : Res :=
  .next (s.siteStep p 2 fun n t =>
    let c := t.slot n
    let e := c.elem
    let js := readPorts c
    let out := drivenPorts e
    if mtOp e ≠ 0x08 then .wait
    else t.orCancel n js out (match t.mtOperand n (mtB e) with
      | none => .wait
      | some b => if t.mtq.length ≥ 64 then .block else t.ifRoom out (.run ((t.consume n js).mtPlace n b [] [] []))))

/-- QPOP: an entry that will take the next record; a firing cancelled before it starts pops nothing (R199). -/
def execQpop (p : Nat) (s : State) : Res :=
  .next (s.mtStep p (fun op => op == 0x09) fun t n _ _ => .run (t.mtPlace n { emptyPkt with slot := n } [] [] []))

/-! ## Performance (R182, R183) -/

/-- The entries before entry `k`, and it. -/
def splitEntries (k : Nat) : List MtEntry → Option (List MtEntry × MtEntry)
  | [] => none
  | e :: es => if e.id = k then some ([], e) else (splitEntries k es).map fun r => (e :: r.1, r.2)

/-- May an entry take effect now: no earlier entry holds one of its words, ring entries of one context and operation go in
their order, and it does not stand aside (R183, R191). -/
def State.entryReady (s : State) (p : Nat) (older : List MtEntry) (e : MtEntry) : Bool :=
  let ws := s.entryWords p e
  !(older.any fun o => s.blockedBy p o ws || (e.isRing && o.slot == e.slot && mtOp o.frame == mtOp e.frame))
    && !s.standsAside p e

/-- An out port's counts once an EOS of a level has taken ordinal `o` on it (R99). -/
def OutPort.ended (q : OutPort) (level : Nat) (o : BitVec 48) : OutPort := { q with eosAt := Table.put q.eosAt level (o + 1) }

/-- The results of an entry's packet on the ports whose ordinals it holds. An EOS carries the count of the port that it leaves
by (R99), which goes on counting from it. -/
def Site.mtData (t : Site) (n : Nat) (k : Pkt) : List (Nat × BitVec 48) → Site × List Result
  | [] => (t, [])
  | o :: os =>
    let q := (t.slot n).outPort o.1
    let lv := k.aux.toNat
    let es := if k.kind = 1 then [BitVec.ofNat 32 ({ q with ord := o.2 }.eosCount lv)] else k.elems
    let t := if k.kind = 1 then t.setSlot n ((t.slot n).setOut o.1 (q.ended lv o.2)) else t
    let (u, r) := t.mtData n k os
    (u, { port := o.1, ord := o.2, pkt := { k with elems := es, ord := o.2, slot := n } } :: r)

/-- An entry retires: its data on its ports, then its DONE (R182, R194). -/
def Site.mtRetire (t : Site) (e : MtEntry) (k : Pkt) : Site :=
  let (t, data) := t.mtData e.slot k e.outs
  let done : List Result := e.done.toList.map fun o =>
    { port := o.1, ord := o.2, pkt := { emptyPkt with kind := 3, elems := [BitVec.ofNat 32 (mtScope e.frame)], ord := o.2, slot := e.slot } }
  { t with mtq := t.mtq.filter (fun x => x.id ≠ e.id), pipe := t.pipe ++ data ++ done }

/-- Store an entry's data words, each set full where the operation says so (R178). -/
def State.mtStore (s : State) (p : Nat) (full : Bool) (ws : List Nat) (d : List (BitVec 32)) : State :=
  (ws.zip d).foldl (fun s e =>
    let s := s.setWord (wordAddr p e.1) e.2
    if full then s.setFull (wordAddr p e.1) true else s) s

/-- The words of a tile. -/
def State.tileWordsAt (s : State) (p : Nat) (ws : List Nat) : List (BitVec 32) := ws.map fun w => s.word (wordAddr p w)

/-- The steps of an amo over its values in ascending order: the old values and the state (R190). -/
def State.amoSteps (s : State) (p : Nat) (e : MtEntry) : Nat → State × List (BitVec 32)
  | 0 => (s, [])
  | k + 1 =>
    let (s, old) := s.amoSteps p e k
    let w := mtW e.frame
    let at_ (l : List (BitVec 32)) : Nat := natLE (((l.drop (k * w)).take w).flatMap fun x => bytesLE 4 x.toNat)
    let pa := wordAddr p ((e.words.getD (k * w) 0))
    let v := s.memNum pa (4 * w)
    let r := (amoNew (32 * w) (mtAmo e.frame) (BitVec.ofNat _ v) (BitVec.ofNat _ (at_ e.data)) (BitVec.ofNat _ (at_ e.cmp))).toNat
    (s.storeNum pa (4 * w) r, old ++ (List.range w).map fun i => BitVec.ofNat 32 (v / 2 ^ (32 * i)))

/-- qpush takes effect: the elements, then the header, all full; the tail offset moves on (R191). DESIGN CHOICE (log 79): the
full-empty bit of the offset word stays as it is. -/
def State.pushRecord (s : State) (p : Nat) (e : MtEntry) : State :=
  let ws := s.ringWords p e
  let o := s.ringOff p e true
  let s := s.mtStore p true (ws.drop 1) e.src.elems
  let s := s.mtStore p true (ws.take 1) [e.src.header]
  s.setWord (wordAddr p (mtBase e.frame + 1)) (BitVec.ofNat 32 ((o + ws.length) % max 1 e.ringCap))

/-- qpop takes effect: the record's packet, its words empty, the head offset past it (R191). DESIGN CHOICE (log 79): a header that
software wrote gives its kind and aux, whatever they are, and the full-empty bit of the offset word stays as it is. -/
def State.popRecord (s : State) (p : Nat) (e : MtEntry) : State × Pkt :=
  let ws := s.ringWords p e
  let vs := s.tileWordsAt p ws
  let o := s.ringOff p e false
  let h := vs.getD 0 0
  let s := ws.foldl (fun s w => s.setFull (wordAddr p w) false) s
  let s := s.setWord (wordAddr p (mtBase e.frame)) (BitVec.ofNat 32 ((o + ws.length) % max 1 e.ringCap))
  (s.modSite p fun t => { t with dry := Table.del t.dry e.slot },
    { emptyPkt with kind := fld h 31 28, elems := vs.drop 1, last := bit h 24, aux := BitVec.ofNat 8 (fld h 23 16) })

/-- A barrier arrival takes its step; none for an over-arrival (R353, R357). -/
def State.arriveStep (s : State) (p : Nat) (e : MtEntry) : Option State :=
  s.barStep (wordAddr p (mtBase e.frame)) 0 (e.data.getD 1 0) (e.data.getD 0 0).toNat

/-- The words that an entry reads: for qpush the tail offset, for qpop the head offset and the record (R191), for an arrival the
barrier's (R353). -/
def State.readWords (s : State) (p : Nat) (e : MtEntry) : List Nat :=
  let op := mtOp e.frame
  let base := mtBase e.frame
  if op = 0x01 ∨ op = 0x03 ∨ op = 0x05 ∨ op = 0x07 then e.words
  else if op = 0x08 then [base + 1]
  else if op = 0x09 then base :: s.ringWords p e
  else if op = 0x0A then [base, base + 1, base + 2, base + 3]
  else []

/-- An entry that reads a poisoned word faults its site, and reads it again when it is resumed (R419). -/
def State.readsPoison (s : State) (p : Nat) (e : MtEntry) : Bool := (s.readWords p e).any fun w => s.poison.contains (wordAddr p w)

/-- Entry `k` is marked as standing aside. -/
def State.setAside (s : State) (p k : Nat) : State :=
  s.modSite p fun t => { t with mtq := t.mtq.map fun x => if x.id = k then { x with aside := true } else x }

/-- The in port that an entry's packet came by, as a fault names it (R415): a qpop, and a constant's firing, read none. -/
def MtEntry.srcPort (e : MtEntry) : Nat :=
  match mtSelectors e.frame with
  | sel :: _ => if sel < 4 then 16 + sel else 0
  | [] => 0

/-- Entry `e` takes effect and retires; one that a fault stops stays, standing aside while the fault holds it. -/
def State.performEntry (s : State) (p : Nat) (e : MtEntry) : State :=
  if s.readsPoison p e then
    (s.setAside p e.id).siteFault p tEccUncorr e.slot e.src.ord.toNat e.srcPort (e.src.header.zeroExtend 64)
  else
  let retire (s : State) (k : Pkt) : State := s.modSite p fun t => t.mtRetire e k
  let dataPkt (es : List (BitVec 32)) : Pkt := { emptyPkt with elems := es, last := e.last }
  match mtOp e.frame with
  | 0x02 | 0x06 => retire (s.mtStore p false e.words e.data) emptyPkt
  | 0x04 => retire (s.mtStore p true e.words e.data) emptyPkt
  | 0x07 =>
    let (s, old) := s.amoSteps p e (e.words.length / mtW e.frame)
    retire s (dataPkt old)
  | 0x08 => retire (s.pushRecord p e) emptyPkt
  | 0x09 =>
    let (s, k) := s.popRecord p e
    retire s k
  | 0x0A =>
    match s.arriveStep p e with
    | some s => retire s emptyPkt
    | none => (s.setAside p e.id).siteFault p tBarOver e.slot e.src.ord.toNat (16 + mtA e.frame) (e.src.header.zeroExtend 64)
  | _ => retire s (dataPkt (s.tileWordsAt p e.words))

/-- MT_ENTRY_RETIRE: entry `k` of the tile's queue takes effect and retires; an ld.fe that finds a word empty stands aside
(R182, R183). -/
def execMtEntryRetire (p k : Nat) (s : State) : Res :=
  .next (match splitEntries k (s.site p).mtq with
    | none => s
    | some (older, e) =>
      if ¬ (s.site p).live ∨ (e.aside ∧ mtOp e.frame = 0x03) ∨ ¬ s.entryReady p older e then s
      else if mtOp e.frame = 0x03 ∧ ¬ e.words.all fun w => s.isFull (wordAddr p w) then s.setAside p k
      else s.performEntry p e)

/-- LDFE_WAKE: an ld.fe that stands aside takes effect once every word it reads is full (R183). -/
def execLdfeWake (p k : Nat) (s : State) : Res :=
  .next (match splitEntries k (s.site p).mtq with
    | none => s
    | some (older, e) => if (s.site p).live ∧ e.aside ∧ mtOp e.frame = 0x03 ∧ s.entryReady p older e then s.performEntry p e else s)

/-! ## DONE joins (R193) -/

/-- DONE_FIRE: a, and b when b ≠ a, hold a DONE or an ERR; a data packet raises T_TOKEN_KIND. One DONE, or the ERR in its place,
goes on dport alone (R193). -/
def execDoneFire (p : Nat) (s : State) : Res :=
  .next (match s.active p with
    | none => s
    | some (n, c) =>
      let t := s.site p
      let js := readPorts c
      let bad := js.filterMap fun j => ((t.inData n j).filter fun k => k.kind != 3 && k.kind != 2 && k.kind != 1).map fun k => (j, k)
      match bad with
      | (j, k) :: _ =>
        if frKind c.elem = 2 ∧ mtOp c.elem = 0x0B ∧ t.mayFire then
          s.siteFault p tTokenKind n k.ord.toNat (16 + j) (k.header.zeroExtend 64)
        else s
      | [] =>
        s.siteStep p 2 fun n t =>
          let f := (t.slot n).elem
          let out := doneOut f
          let ks := js.filterMap (t.inData n)
          let o : Out := match firstErr ks with
            | some x => passErr x
            | none => { kind := 3, elems := [BitVec.ofNat 32 (mtScope f)] }
          let fire : Act :=
            if ¬ t.noEos n js ∨ ks.length ≠ js.length then .wait
            else t.ifRoom out (.run ((t.consume n js).emitAll n out o))
          if mtOp f ≠ 0x0B then .wait else if mtCommit f then fire else t.orCancel n js out fire)

/-! ## Tile mode (R195, R196) -/

/-- A tile-mode firing on (x, e): the TILE's elements and the block's extent; none when it ends under R187. -/
def State.tilePlan (s : State) (p : Nat) (c : Cfg) (a : Pkt) : Option (List (BitVec 32) × Nat × Nat) :=
  let f := c.elem
  let k0 := c.kAt 0
  let pitch := fld k0 9 0
  let sc := bit k0 16
  let rows := if bit k0 17 then 32 else 64
  match a.elems with
  | [x, e] =>
    let w := s.word (wordAddr p (mtBase f + e.toNat))
    let first := mtBase f + x.toNat
    let last := if sc then first + rows * pitch + rows / 4 - 1 else first + (rows - 1) * pitch + rowWidth (mtSfx f) - 1
    if last > mtBase f + mtLen f ∨ e.toNat > mtLen f ∨ fld w 30 22 ≠ 0 then none
    else
      let d0 := p % 8192 * 2 ^ 19 + (if bit w 31 then 2 ^ 18 else 0) + (if sc then 2 ^ 17 else 0) + first
      some ([BitVec.ofNat 32 d0, BitVec.ofNat 32 (pitch * 2 ^ 22 + fld w 21 0)], first, last + 1 - first)
  | _ => none

/-- TILE_LD: a tile-mode firing emits its TILE, and the block is alive until its consumers have released it; at most 16 are
(R195, R196). -/
def execTileLd (p : Nat) (s : State) : Res :=
  .next (s.mtStep p (fun op => op == 0x01) fun t n a _ =>
    let c := t.slot n
    if ¬ tileMode c.elem then .wait
    else if t.blocks.length ≥ 16 then .block
    else
      let e := mtBase c.elem + (a.elems.getD 1 0).toNat
      if t.mtq.any fun q => s.blockedBy p q [e] then .wait
      else if a.elems.length = 2 ∧ e ≤ mtBase c.elem + mtLen c.elem ∧ s.poison.contains (wordAddr p e) then .poisoned (mtA c.elem) a
      else match s.tilePlan p c a with
        | none => .run (t.mtErr n (ownErr clsIndexRange p))
        | some (es, first, size) =>
          let b : Block := { id := t.nextEntry, slot := n, first, size, left := fld (c.kAt 1) 5 0 }
          let t : Site := { t with blocks := t.blocks ++ [b], nextEntry := t.nextEntry + 1 }
          .run ((t.emitAll n (mtDataPorts c.elem) { kind := 5, elems := es, tag := b.id }).emitAll n (mtDonePorts c.elem)
            { kind := 3, elems := [BitVec.ofNat 32 (mtScope c.elem)] }))

/-- One release of the block `id`. -/
def releaseBlock (id : Nat) : List Block → List Block
  | [] => []
  | b :: bs =>
    if b.id = id then if b.left ≤ 1 then bs else { b with left := b.left - 1 } :: bs
    else b :: releaseBlock id bs

/-- BLOCK_RELEASE: release number `k` that matrix element `p` owes reaches its tile (R196). -/
def execBlockRelease (p k : Nat) (s : State) : Res :=
  .next (match (s.site p).freed[k]? with
    | none => s
    | some (q, id) =>
      (s.modSite p fun t => { t with freed := t.freed.eraseIdx k }).modSite q fun t => { t with blocks := releaseBlock id t.blocks })

/-! ## Barriers (R353, R357) -/

/-- BAR_ARR_FIRE: a DATA packet at a is an arrival of n with y bytes (R357). -/
def execBarArrFire (p : Nat) (s : State) : Res :=
  .next (s.mtStep p (fun op => op == 0x0A) fun t n a _ =>
    let f := (t.slot n).elem
    let e0 := a.elems.getD 0 0
    let ok := a.kind == 3 || ((a.elems.length == 1 || a.elems.length == 2) && fld e0 31 16 == 0)
    if ¬ ok then .run (t.mtErr n (ownErr clsIndexRange p))
    else
      let d := if a.kind = 3 then [1, 0] else [e0, a.elems.getD 1 0]
      .run (t.mtPlace n a ((List.range 4).map (mtBase f + ·)) d []))

/-- BARRIER_STEP: a step of `e` bytes expected, `y` arrived and `n` arrivals at the barrier at `pa`; an over-arrival changes
nothing (R353). -/
def execBarrierStep (pa : Nat) (e y : BitVec 32) (n : Nat) (s : State) : Res :=
  .next (match tileOf pa with
    | some (p, x) =>
      if pa % 16 = 0 ∧ s.tileFree p ((List.range 4).map (x + ·)) true then (s.barStep pa e y n).getD s else s
    | none => s)

/-! ## Queue dry (R318, R319) -/

/-- The group of a site's region, with its task. -/
def State.groupOf (s : State) (g : Nat) : Option ((Nat × Nat) × Nat × Task) :=
  match (s.region g).group with
  | none => none
  | some (d, k, i) => (s.task? (d, k)).map fun t => ((d, k), i, t)

/-- The target of the automatic swap: the next slot that is ARMED or SUSPENDED (R319). -/
def Region.nextStage (r : Region) (n : Nat) : Option Nat :=
  ([1, 2, 3].map fun i => (n + i) % 4).find? fun m => (r.slot m).phase == .armed || (r.slot m).phase == .suspended

/-- The loader's own cfg.swap: no token, no counter, no result (R319). -/
def State.autoSwap (s : State) (g n : Nat) : State :=
  let r := s.region g
  let m : Cmd := { core := r.lead, ctx := s.regionCtx g, op := 0x42, tok := 0, a := 0, b := r.desc, c := BitVec.ofNat 64 n,
                   bar := none, fe := false, scope := 0, red := 0, sfx := 0, ahead := none, seq := 0, cls := 9 }
  { s with cmds := Table.put s.cmds s.nextCmd m, nextCmd := s.nextCmd + 1 }

/-- Does a qpop of slot `n` of site `p` wait on an empty head? -/
def State.popWaits (s : State) (p n : Nat) : Bool :=
  (s.site p).mtq.any fun e => e.slot == n && mtOp e.frame == 0x09 && !s.isFull (wordAddr p (e.ringWord (s.ringOff p e false) 0))

/-- QUEUE_DRY: a qpop that has waited on an empty head posts one message to its group's channel on the lead core; with
share = 1 one from the current slot also issues the automatic swap (R191, R318, R319). -/
def execQueueDry (p : Nat) (s : State) : Res :=
  .next (match s.regionOf p with
    | none => s
    | some g =>
      let r := s.region g
      match (List.range 4).find? (fun n => s.popWaits p n && !Table.has (s.site p).dry n), s.groupOf g with
      | some n, some (_, _, t) =>
        if ¬ ((s.core r.lead).channel t.gch).takes then s
        else
          let target := if bit (t.bytes.getD 29 0) 2 ∧ r.cur = some n then r.nextStage n else none
          let s := s.modSite p fun u => { u with dry := Table.put u.dry n 1 }
          let s := s.postTo r.lead t.gch
            { group := r.group
              words := [BitVec.ofNat 64 (5 * 2 ^ 56), BitVec.ofNat 64 (r.relSite p), BitVec.ofNat 64 n,
                        BitVec.ofNat 64 (match target with | some m => m | none => 0xFF)] }
          match target with
          | some m => s.autoSwap g m
          | none => s
      | _, _ => s)

/-- TILE_COUNT_REACHED: the counter of slot `n` of region `g` reached 0: one message to the region's channel, and a kill point
of its task (R225, R339). -/
def execTileCountReached (g n : Nat) (s : State) : Res :=
  .next (
    let r := s.region g
    let u := r.slot n
    if u.crossed = 0 ∨ n ≥ 4 then s
    else match s.groupOf g with
      | none => s
      | some (_, _, t) =>
        if ¬ ((s.core r.lead).channel t.gch).takes then s
        else
          let s := s.setRegion g (r.setSlot n { u with crossed := u.crossed - 1 })
          (s.postTo r.lead t.gch { group := r.group, words := [BitVec.ofNat 64 (4 * 2 ^ 56), r.desc, BitVec.ofNat 64 n] }).killPoint g)

end Sys2Proof.Machine
end

