-- ==== Sys2Proof/Machine/Stream.lean ====
section
/-! DEFINITION. The address generator (R203 to R213, R414) and the stream windows that it uses (R205, R280, R379): requests,
fills, responses, write streams, feedback, xlt and own. -/

namespace Sys2Proof.Machine

/-! ## The walk of a stream (R204) -/

/-- Values of one packet: eight, or four of a 64-bit format. -/
def agPer (f : BitVec 256) : Nat := if sfxWide (agSfx f) then 4 else 8
/-- Requests of one dimension-0 row. -/
def agRowReqs (f : BitVec 256) : Nat := (agCount f 0 + agPer f - 1) / agPer f
/-- The rows of one pass. -/
def agRows (f : BitVec 256) : Nat := ((List.range (agNd f)).map fun d => agCount f (d + 1)).foldl (· * ·) 1
/-- The requests, and the elements, of one pass. -/
def agTotal (f : BitVec 256) : Nat := agRows f * agRowReqs f
def agElems (f : BitVec 256) : Nat := agRows f * agCount f 0

/-- The address of the element with index `x` in each dimension: a byte address, for .cb4 a nibble address (R204). -/
def agAddrOf (f : BitVec 256) (off : Int) : Nat :=
  let w := sfxBits (agSfx f)
  if w = 4 then ((2 * agBase f : Int) + off).toNat else ((agBase f : Int) + off * (w / 8 : Nat)).toNat

/-- The address of element number `e` of a pass, dimension 0 innermost. -/
def agAddr (f : BitVec 256) (e : Nat) : Nat :=
  let c0 := max 1 (agCount f 0)
  let (_, off) := (List.range (agNd f)).foldl (fun (st : Nat × Int) d =>
    let c := max 1 (agCount f (d + 1))
    (st.1 / c, st.2 + (st.1 % c : Nat) * agStride f (d + 1))) (e / c0, ((e % c0 : Nat) : Int) * agStride f 0)
  agAddrOf f off

/-- The bytes of an element. -/
def elemBytes (f : BitVec 256) (a : Nat) : List Nat :=
  let w := sfxBits (agSfx f)
  if w = 4 then [a / 2] else (List.range (w / 8)).map (a + ·)

/-- The levels of the EOS that follow row `r` of a pass, deeper first (R204). -/
def rowEos (f : BitVec 256) (r : Nat) : List Nat :=
  let nd := agNd f
  if nd = 0 then [0]
  else ((List.range nd).filter fun d =>
      (r + 1) % (((List.range (d + 1)).map fun i => agCount f (i + 1)).foldl (· * ·) 1) = 0).map fun d => nd - (d + 1)

/-- Request number `k` of a pass: the number of its first element, and the request. -/
def agRequest (f : BitVec 256) (k : Nat) : Nat × AgReq :=
  let per := agPer f
  let row := k / max 1 (agRowReqs f)
  let chunk := k % max 1 (agRowReqs f)
  let len := min per (agCount f 0 - chunk * per)
  let e0 := row * agCount f 0 + chunk * per
  let last := decide (chunk + 1 = agRowReqs f)
  (e0, { addrs := (List.range len).map fun i => agAddr f (e0 + i), last, eos := if last then rowEos f row else [] })

/-! ## Windows -/

/-- A stream window of a cluster (R280). -/
def State.win (s : State) (c w : Nat) : Win := Table.get {} (s.cluster c).wins w
def State.setWin (s : State) (c w : Nat) (u : Win) : State := s.modCluster c fun k => { k with wins := Table.put k.wins w u }
def State.modWin (s : State) (c w : Nat) (f : Win → Win) : State := s.setWin c w (f (s.win c w))

/-- The format-range entry that matches a physical address: the lowest-numbered enabled one of its controller (R43, R45). -/
def State.frMatch (s : State) (pa : Nat) : Option Nat :=
  if ¬ isRam pa then none
  else (List.range 16).find? fun n =>
    let b := dieBase (controllerOf pa) + 0x10000 + 0x20 * n
    bit (s.reg b) 0 && decide (fld (s.reg b) 51 16 ≤ pa / 2 ^ 16) && decide (pa / 2 ^ 16 ≤ fld (s.reg (b + 8)) 51 16)

/-- The scale byte's address of a segment at `pa` that format-range entry `n` matches; none for a fmt of 4, whose
scale byte is 0x7F (R45, R46). -/
def State.scaleAt (s : State) (pa n : Nat) : Option Nat :=
  let b := dieBase (controllerOf pa) + 0x10000 + 0x20 * n
  let fmt := fld (s.reg (b + 24)) 3 0
  let inner := fld (s.reg (b + 16)) 63 52
  let x := (pa - fld (s.reg b) 51 16 * 2 ^ 16) * 8 / (if fmt = 3 ∨ fmt = 4 then 4 else 8)
  if fmt = 4 then none
  else some (fld (s.reg (b + 16)) 51 0 + x / max 1 (inner * 256) * inner + x % max 1 (inner * 256) / 256)

/-- The side-band of a segment at `pa`: fmt, scale byte and entry number, packed (R46, R47). A scale byte in a protected window
reads as ones (R425, R431). -/
def State.sideband (s : State) (pa : Nat) : Option Nat :=
  (s.frMatch pa).map fun n =>
    let fmt := fld (s.reg (dieBase (controllerOf pa) + 0x10000 + 0x20 * n + 24)) 3 0
    let scale := match s.scaleAt pa n with
      | none => 0x7F
      | some a => if (s.protectedBy a).isSome then 0xFF else (s.mem.read a).toNat
    fmt * 2 ^ 16 + scale * 2 ^ 8 + n

/-- The read of a scale byte that lies in a protected window is refused (R431). -/
def State.denyScale (s : State) (c pa : Nat) : State :=
  match (s.frMatch pa).bind (s.scaleAt pa ·) with
  | some a => if (s.protectedBy a).isSome then s.denied c a else s
  | none => s

/-- A byte as a stream reads it: a debug window, which only a privileged handler observes, reads as zero (R437). -/
def State.streamByte (s : State) (pa : Nat) : Byte :=
  match placeOf pa with
  | .record _ _ _ | .debug _ _ => 0
  | _ => s.byteAt pa

/-- A window without what it has filled: the next reads fetch it again (R211, R281). -/
def Win.dropFill (u : Win) : Win := { u with fill := [], side := [], wide := [], head := u.tail }

/-- Fill the 128-byte segment at virtual address `va` of window `w` (R47); nothing where it does not translate. -/
def State.fillSegment (s : State) (c w va : Nat) : State :=
  let u := s.win c w
  match s.range c u.ctx .load va 128 with
  | none => s
  | some ps =>
    let bytes := ps.map s.streamByte
    let fill := (bytes.zipIdx).foldl (fun t e => Table.put t (va + e.2) e.1) u.fill
    let side := match s.sideband (ps.headD 0) with | some v => Table.put u.side va v | none => Table.del u.side va
    ((s.denyScale c (ps.headD 0)).setWin c w { u with fill, side, head := max u.head (va + 128) }).fillTlb c u.ctx va .load

/-- The key of an element that lies across two segments; none for one inside a segment. -/
def wideKey (vas : List Nat) : Option Nat :=
  let a := vas.headD 0
  if a / 128 = (a + vas.length - 1) / 128 then none else some (16 * a + vas.length)

/-- Has a window the element with bytes `vas`? One across two segments counts only whole (R378). -/
def Win.has (u : Win) (vas : List Nat) : Bool :=
  match wideKey vas with
  | some i => Table.has u.wide i
  | none => vas.all (Table.has u.fill)

/-- The bytes of an element that a window has. -/
def Win.bytes (u : Win) (vas : List Nat) : List Byte :=
  match wideKey vas with
  | some i => Table.get [] u.wide i
  | none => vas.map (Table.get 0 u.fill)

/-- Fill what the element with bytes `vas` lacks: its segments, and where it lies across two all its bytes in this one step
(R378). -/
def State.fillElem (s : State) (c w : Nat) (vas : List Nat) : State :=
  let u := s.win c w
  let s := (dedup (vas.map (· / 128 * 128))).foldl (fun s g =>
    if vas.any fun a => a / 128 * 128 == g && !Table.has u.fill a then s.fillSegment c w g else s) s
  match wideKey vas, vas.mapM fun a => (s.range c u.ctx .load a 1).bind (·.head?) with
  | some i, some ps => s.setWin c w { s.win c w with wide := Table.put (s.win c w).wide i (ps.map s.streamByte) }
  | _, _ => s

/-- The streams of a cluster that name a window in their current slot. -/
def State.streamsOf (s : State) (c w : Nat) : List Nat :=
  (clusterSites c).filter fun p =>
    siteKind p == .ag && (match s.curSlot p with
      | some n => isStream ((s.site p).slot n).elem && agWin ((s.site p).slot n).elem == w
      | none => false)

/-- The bytes of the first element that a window's oldest outstanding requests wait for; none beyond its end (R282). -/
def State.missingElem (s : State) (c w : Nat) : Option (List Nat) :=
  let u := s.win c w
  (s.streamsOf c w).findSome? fun p =>
    let cfg := (s.site p).slot ((s.curSlot p).getD 0)
    match cfg.reqs with
    | r :: _ => (r.addrs.map (elemBytes cfg.elem)).find? fun vas => vas.all (fun a => decide (a < u.stop)) && !u.has vas
    | [] => none

/-- The bytes of a write window's coalescing buffer are performed at memory, a register's as a whole; none while a tile's queue
holds an earlier access to one of their words (R208, R211). -/
def State.writeBack (s : State) (c w : Nat) : Option State :=
  let u := s.win c w
  if u.cbuf.all fun e => s.accessFree e.1 (unitAt e.1) true then
    some ((u.cbuf.foldl (fun s e =>
      let n := unitAt e.1
      if e.1 % n ≠ 0 then s
      else s.writePlace e.1 n (natLE ((List.range n).map fun i => Table.get 0 u.cbuf (e.1 + i)))) s).setWin c w { u with cbuf := [] })
  else none

/-- STREAM_FILL: a window writes its coalescing buffer back; else it fills what its oldest request waits for, else, a read
window, the next segment within its capacity and its range (R47, R205, R208, R280, R282). A stream that reads a write window
after its writer is served in the same way (R211, R389). -/
def execStreamFill (c w : Nat) (s : State) : Res :=
  let u := s.win c w
  .next (if ¬ u.bound then s
    else if u.cbuf ≠ [] then (s.writeBack c w).getD s
    else match s.missingElem c w with
      | some vas => s.fillElem c w vas
      | none => if ¬ u.write ∧ u.head < u.stop ∧ u.head - u.tail < u.cap then s.fillSegment c w (u.head / 128 * 128) else s)

/-! ## What an element access meets -/

/-- The bytes of each element in a list of elements' bytes. -/
def agParts (f : BitVec 256) (ps : List Nat) : List (List Nat) :=
  let w := max 1 (sfxBits (agSfx f) / 8)
  (List.range (ps.length / w)).map fun i => (ps.drop (w * i)).take w

/-- The answer to a stream's access: its physical bytes, a page that is not present, a refusal by class, a poisoned word. -/
inductive AgAns where
  | ok (ps : List Nat)
  | absent (va : Nat)
  | err (cls : Nat)
  | poisoned
  deriving DecidableEq, Repr

/-- May a stream of context `x` in cluster `c` read or write the element with bytes `ps`: each byte of memory or of a tile as a
core may, at another place the element as a core's access of its width, which is no privileged handler's (R184, R361, R431,
R437)? -/
def State.streamMay (s : State) (c x : Nat) (ps : List Nat) (write : Bool) : Bool :=
  let may (pa n : Nat) : Bool := match if write then s.coreWrite c x false pa n else s.coreRead c x false pa n with
    | .ok | .zero | .drop => true
    | .trap _ | .deny => false
  let pa := ps.headD 0
  let n := ps.length
  if ps.all fun p => unitAt p == 1 then ps.all (may · 1)
  else pa % n == 0 && ps == (List.range n).map (pa + ·) && may pa n

/-- The registers that an element's refused write would have reached: each posts T_ACCESS (R432). -/
def State.streamDenied (s : State) (c x : Nat) (ps : List Nat) (write : Bool) : Bool :=
  let pa := ps.headD 0
  let n := ps.length
  unitAt pa == 8 && pa % n == 0 &&
    (if write then s.coreWrite c x false pa n else s.coreRead c x false pa n) == .deny

/-- The bytes of a request or a packet of elements: a byte beyond the window's end gives class index-range (R282), then
translation (R212), then refused places. -/
def State.agAccess (s : State) (c : Nat) (u : Win) (f : BitVec 256) (addrs : List Nat) (write : Bool) : AgAns :=
  let vas := addrs.flatMap (elemBytes f)
  if vas.any fun a => decide (u.stop ≤ a) || decide (a < u.base) then .err clsIndexRange
  else
    let need := if write then Need.store else Need.load
    let rs := vas.map fun a => (a, s.translate c u.ctx a need)
    match rs.find? fun r => match r.2 with | .fault _ => true | .ok _ => false with
    | some (a, .fault 0) => .absent a
    | some (_, _) => .err clsTranslation
    | none =>
      let ps := rs.map fun r => match r.2 with | .ok p => p | .fault _ => 0
      if (agParts f ps).any fun e => !s.streamMay c u.ctx e write then .err clsRemoteRefused
      else if ¬ write ∧ ps.any fun p => s.poisoned p 1 then .poisoned
      else .ok ps

/-- The elements among those of a refused access that the owner's registers refuse, and the page-table entries that protection
closes to its walks, post T_ACCESS (R426, R431, R432). -/
def State.agDeny (s : State) (cls c : Nat) (u : Win) (f : BitVec 256) (addrs : List Nat) (write : Bool) : State :=
  if cls = clsTranslation then (addrs.flatMap (elemBytes f)).foldl (fun s a => s.walkDenied c c u.ctx a) s
  else if cls ≠ clsRemoteRefused then s
  else addrs.foldl (fun s a =>
    let ps := (elemBytes f a).filterMap fun a => match s.translate c u.ctx a (if write then .store else .load) with
      | .ok p => some p
      | .fault _ => none
    if s.streamDenied c u.ctx ps write then s.denied c (ps.headD 0) else s) s

/-- Cache the translations of a list of addresses. -/
def State.fillTlbs (s : State) (c x : Nat) (need : Need) (vas : List Nat) : State := vas.foldl (fun s a => s.fillTlb c x a need) s

/-! ## AG steps -/

/-- A step of an AG of the operations `ops`: its packets move, it may fire, no KILL has reached it, no marker waits, and it is
not stopped by a fault (R212, R213). -/
def State.agStep (s : State) (p : Nat) (ops : Nat → Bool) (f : Nat → Cfg → State) : State :=
  match s.active p with
  | none => s
  | some (n, c) =>
    if frKind c.elem = 4 ∧ ops (agOp c.elem) ∧ (s.site p).mayFire ∧ ¬ c.killing ∧ c.stopAt.isNone then f n c else s

/-- A translation fault stops the generator: the message names the site, context, window and element index (R212). -/
def State.stopAg (s : State) (p n index va win : Nat) : State :=
  let s := s.holdFault (siteCluster p)
    { src := 1, cause := tPageFault, ctx := s.siteCtx p, slot := n, site := p, ord := index, loc := 0,
      val := BitVec.ofNat 64 va, detail := BitVec.ofNat 64 win } (.ag p n)
  s.modSite p fun t => t.setSlot n { t.slot n with stopAt := some index }

def isGated (c : Cfg) : Bool := (readPorts c).contains 3

/-- A stream that waits at the start of a pass takes one token of its gate, and with it the window (R204, R211). -/
def State.openGate (s : State) (p n : Nat) (c : Cfg) : State :=
  match (s.site p).inData n 3 with
  | none => s
  | some _ =>
    (s.modSite p fun t => (t.takeIn n 3).setSlot n { t.slot n with gate := true }).modWin (siteCluster p) (agWin c.elem)
      fun u => { u with owner := some p }

/-- A gated stream has to open its gate before it goes on. -/
def Cfg.gateShut (c : Cfg) : Bool := isGated c && !c.gate

/-- A read stream has no more requests to make: it ended, or made its one ungated pass. -/
def Cfg.readDone (c : Cfg) : Bool := c.stopped || c.hold || (!isGated c && decide (1 ≤ c.passes))

/-- The pass is over. -/
def Cfg.endPass (c : Cfg) : Cfg := { c with pos := 0, gate := false, passes := c.passes + 1 }

def State.pushReq (s : State) (p n : Nat) (r : AgReq) (f : Cfg → Cfg) : State :=
  s.modSite p fun t =>
    let c := f (t.slot n)
    t.setSlot n { c with reqs := c.reqs ++ [r] }

/-- Issue one read request (R205, R207, R212): a fault stops the generator, a refusal becomes an ERR. -/
def State.issueReq (s : State) (p n : Nat) (c : Cfg) (index : Nat) (r : AgReq) (f : Site → Site) : State :=
  let k := siteCluster p
  let u := s.win k (agWin c.elem)
  match s.agAccess k u c.elem r.addrs false with
  | .absent va => s.stopAg p n index va (agWin c.elem)
  | .poisoned => s.siteFault p tEccUncorr n index 0 0
  | .err cls => ((s.agDeny cls k u c.elem r.addrs false).modSite p f).pushReq p n { r with addrs := [], err := some (BitVec.ofNat 8 cls, BitVec.ofNat 32 p) } id
  | .ok _ =>
    ((s.modSite p f).pushReq p n r id).fillTlbs k u.ctx .load (r.addrs.flatMap (elemBytes c.elem))

/-- The ordinal that the next request's packet will take. -/
def Cfg.nextReqOrd (c : Cfg) : BitVec 48 :=
  (c.outPort 0).ord + BitVec.ofNat 48 (c.reqs.foldl (fun a r => a + r.eos.length + (if r.addrs = [] ∧ r.err.isNone ∧ ¬ r.skip then 0 else 1)) 0)

/-- One request of a direct read stream. -/
def State.readReq (s : State) (p n : Nat) (c : Cfg) : State :=
  let (e0, r) := agRequest c.elem c.pos
  let step (c : Cfg) : Cfg := if c.pos + 1 ≥ agTotal c.elem then c.endPass else { c with pos := c.pos + 1 }
  s.issueReq p n c e0 r fun t => t.setSlot n (step (t.slot n))

/-- The cancellation that an indirect read stream is to make before its next request `P`: the ordinal P + d that out0 has been
told to cancel (R138). -/
def Cfg.indCancel (c : Cfg) : Option Nat :=
  (c.outPort 0).pend.findSome? fun m =>
    let d := (m - c.nextReqOrd).toNat
    if d < 2 ^ 15 then some d else none

/-- Cancel request P + `d` of an indirect read stream: its index packet, and its ordinal at once or in its turn (R106, R138). -/
def State.indDrop (s : State) (p n d : Nat) : State :=
  let t := s.site p
  let c := t.slot n
  let m := c.nextReqOrd + BitVec.ofNat 48 d
  let i := d - (c.skip.filter fun e => decide ((e.1 - c.nextReqOrd).toNat < d)).length
  let o := t.ordAt n 0 i
  match t.cancelNth n 0 i with
  | .run t =>
    (s.setSite p t).modSite p fun t =>
      let c := t.slot n
      let c := c.setOut 0 { c.outPort 0 with pend := (c.outPort 0).pend.filter (· ≠ m) }
      t.setSlot n (if d = 0 then { c with reqs := c.reqs ++ [{ skip := true }] } else { c with skip := c.skip ++ [(m, [(0, o)])] })
  | x => s.act p n x

/-- One request of an indirect read stream: a cancelled one, or that of an index packet, an ERR or an EOS at in0 (R207, R124,
R129, R138). DESIGN CHOICE (log 81): the length that R207 asks for is counted in values. -/
def State.indReq (s : State) (p n : Nat) (c : Cfg) : State :=
  let head := (s.site p).inData n 0
  let eos := match head with | some k => k.kind == 1 | none => false
  let next := c.skip.find? fun e => e.1 == c.nextReqOrd
  let drop (c : Cfg) : Cfg := { c with skip := c.skip.filter fun e => e.1 != c.nextReqOrd }
  let ends (e : BitVec 48 × List (Nat × BitVec 48)) : Bool :=
    match head with | some k => k.kind == 1 && e.2.any (·.2 == k.ord) | none => false
  if next.any fun e => !ends e then s.pushReq p n { skip := true } drop
  else match (if next.isSome then none else c.indCancel.filter fun d => !(d == 0 && eos)), head with
    | some d, _ => s.indDrop p n d
    | none, none => s
    | none, some k =>
      let take (t : Site) : Site := t.takeIn n 0
      if k.kind = 1 then
        (s.modSite p fun t => if next.isSome then (take t).strayed else take t).pushReq p n { eos := [k.aux.toNat] } fun c =>
          if k.aux = 0 then (drop c).endPass else drop c
      else if k.kind = 2 then
        (s.modSite p take).pushReq p n { err := some (k.aux, k.elems.getD 0 0) } id
      else if k.elems.any fun x => decide (x.toNat ≥ agCount c.elem 0) then
        (s.modSite p take).pushReq p n { err := some (BitVec.ofNat 8 clsIndexRange, BitVec.ofNat 32 p) } id
      else
        let addrs := k.elems.map fun x => agAddrOf c.elem ((x.toNat : Int) * agStride c.elem 0)
        s.issueReq p n c c.pos { addrs, last := k.last } fun t =>
          let t := take t
          t.setSlot n { t.slot n with pos := (t.slot n).pos + 1 }

/-- STREAM_REQUEST: the next request of a read stream, within 256 and the window's run-ahead limit, after the gate of its
pass (R204, R205, R207). -/
def execStreamRequest (p : Nat) (s : State) : Res :=
  .next (s.agStep p (fun op => op == 1 || op == 2) fun n c =>
    let u := s.win (siteCluster p) (agWin c.elem)
    if agDir c.elem ∨ c.inj.isSome ∨ c.readDone ∧ agOp c.elem = 1 ∨ c.reqs.length ≥ min 256 u.ahead then s
    else if c.gateShut then s.openGate p n c
    else if agOp c.elem = 1 then s.readReq p n c
    else if (s.site p).atMarker n 0 then s
    else s.indReq p n c)

/-! ## Responses (R205) -/

/-- One value of a request from the window's filled bytes. -/
def Win.value (u : Win) (f : BitVec 256) (a : Nat) : List (BitVec 32) :=
  let b := natLE (u.bytes (elemBytes f a))
  if sfxBits (agSfx f) = 4 then [BitVec.ofNat 32 (b / 2 ^ (4 * (a % 2)) % 16)] else elemsOf (agSfx f) [b]

/-- A window after a response: bytes below its lowest address are passed (log 16). -/
def Win.passed (u : Win) (vas : List Nat) : Win :=
  let lo := (vas.foldl min (vas.headD u.tail)) / 128 * 128
  if lo ≤ u.tail then u
  else { u with tail := lo, fill := u.fill.filter fun e => decide (lo ≤ e.1), side := u.side.filter fun e => decide (lo ≤ e.1),
                wide := u.wide.filter fun e => decide (16 * lo ≤ e.1) }

/-- The levels that an ending source still closes, deepest first, then level 0 (R228). -/
def Cfg.openLevels (c : Cfg) (j depth : Nat) : List Nat :=
  ((List.range depth).reverse.filter fun l => decide (1 ≤ l) && decide ((c.outPort j).eosCount l ≠ 0)) ++ [0]

/-- STREAM_RESPONSE: the oldest request's packet, or its ERR, goes out once its bytes are filled, then its EOS; a request that
now lies beyond the window's end gets an ERR (R282); a stream that is to end sends the EOS of its open levels (R205, R228). -/
def execStreamResponse (p : Nat) (s : State) : Res :=
  .next (s.afterSource p <| match s.active p with
    | none => s
    | some (n, c) =>
      let t := s.site p
      let k := siteCluster p
      let w := agWin c.elem
      let u := s.win k w
      let put (c' : Cfg) : Site := t.setSlot n c'
      if ¬ isStream c.elem ∨ agDir c.elem ∨ ¬ t.mayFire ∨ c.killing ∨ ¬ t.room [0] then s
      else match c.reqs with
        | r :: rs =>
          let rest : List AgReq := if r.eos = [] then rs else { eos := r.eos } :: rs
          if r.skip then s.setSite p ((put { c with reqs := rest }).skipOrd n [0])
          else match r.err, r.addrs, r.eos with
            | some (cls, e), _, _ => s.setSite p ((put { c with reqs := rest }).emit n 0 (errOut cls e))
            | none, [], l :: ls =>
              s.setSite p ((put { c with reqs := if ls = [] then rs else { eos := ls } :: rs }).emit n 0 { kind := 1, aux := BitVec.ofNat 8 l })
            | none, [], [] => s.setSite p (put { c with reqs := rs })
            | none, as, _ =>
              let vas := as.flatMap (elemBytes c.elem)
              if vas.any fun a => decide (u.stop ≤ a) then
                s.setSite p ((put { c with reqs := rest }).emit n 0 (ownErr clsIndexRange p))
              else if as.all fun a => u.has (elemBytes c.elem a) then
                (s.setSite p ((put { c with reqs := rest }).emit n 0 { elems := as.flatMap (u.value c.elem), last := r.last })).setWin k w (u.passed vas)
              else s
        | [] =>
          match c.todo with
          | l :: ls => s.setSite p ((put { c with todo := ls }).emit n 0 { kind := 1, aux := BitVec.ofNat 8 l })
          | [] =>
            if c.hold ∧ ¬ c.stopped ∧ c.stopAt.isNone then
              s.setSite p (put { c with todo := c.openLevels 0 (agNd c.elem), stopped := true })
            else s)

/-! ## Write streams (R208, R211, R414) -/

/-- A packet's values for a write stream, as bytes of each element; nibbles for .cb4. -/
def writeVals (f : BitVec 256) (k : Pkt) : List Nat := (valuesOf (agSfx f) k.elems).getD []

/-- Put the values at the element addresses into the window's coalescing buffer, `ps` being the physical bytes in order. -/
def State.coalesce (s : State) (c w : Nat) (f : BitVec 256) (as vs ps : List Nat) : State :=
  let bits := sfxBits (agSfx f)
  s.modWin c w fun u =>
    let bytes : List (Nat × Byte) :=
      if bits = 4 then
        ((as.zip vs).zip ps).foldl (fun (st : List (Nat × Byte)) e =>
          let pa := e.2
          let old : Byte := match st.reverse.find? fun x => x.1 == pa with
            | some x => x.2
            | none => if Table.has u.cbuf pa then Table.get 0 u.cbuf pa else s.byteAt pa
          let lo := 4 * (e.1.1 % 2)
          st ++ [(pa, setFld old (lo + 3) lo e.1.2)]) []
      else ps.zip (vs.flatMap fun v => bytesLE (bits / 8) v)
    { u with cbuf := bytes.foldl (fun t e => Table.put t e.1 e.2) u.cbuf, head := u.head }

/-- The report of a sink that receives the ERR `k` at in port `j`; another packet gives none (R414, R415). -/
def State.sinkReport (s : State) (p n j : Nat) (k : Pkt) : State :=
  if k.kind ≠ 2 then s else
  let cause := match k.aux.toNat with
    | 1 => tStreamSkew
    | 2 => tIndexRange
    | 3 => tXltRefused
    | 4 => tRemoteRefused
    | _ => tLengthSkew
  s.report (siteCluster p) { src := 1, cause, ctx := s.siteCtx p, slot := n, site := p, ord := k.ord.toNat, loc := 16 + j,
                             detail := (k.elems.getD 0 0).zeroExtend 64 }

/-- Write the values `vs` at the element addresses `as`; a refusal gives an ERR on out0, a page that is not present stops the
generator, in which case `f`, which takes the packet, is not applied (R208, R212). -/
def State.writeElems (s : State) (p n : Nat) (c : Cfg) (index : Nat) (as vs : List Nat) (f : Site → Site) : State :=
  let k := siteCluster p
  let u := s.win k (agWin c.elem)
  match s.agAccess k u c.elem as true with
  | .absent va => s.stopAg p n index va (agWin c.elem)
  | .poisoned => s.modSite p f
  | .err cls => (s.agDeny cls k u c.elem as true).modSite p fun t => (f t).emit n 0 (ownErr cls p)
  | .ok ps =>
    ((s.modSite p f).coalesce k (agWin c.elem) c.elem as vs ps).fillTlbs k u.ctx .store (as.flatMap (elemBytes c.elem))

/-- The end of a write pass: one ERR where elements were missing or too many, then EOS (R208). -/
def Site.endWrite (t : Site) (p n : Nat) (c : Cfg) (full : Bool) (level : Nat) : Site :=
  let t := if full ∧ ¬ c.skew then t else t.emit n 0 (ownErr clsStreamSkew p)
  (t.setSlot n { (t.slot n).endPass with skew := false }).emit n 0 { kind := 1, aux := BitVec.ofNat 8 level }

/-- A direct write stream takes the packet at in0. -/
def State.writeDirect (s : State) (p n : Nat) (c : Cfg) : State :=
  match (s.site p).inData n 0 with
  | none => s
  | some k =>
    let take (f : Cfg → Cfg) (t : Site) : Site := let t := t.takeIn n 0; t.setSlot n (f (t.slot n))
    if k.kind = 1 then
      s.modSite p fun t => if k.aux = 0 then (take id t).endWrite p n c (c.pos == agElems c.elem) 0 else take id t
    else if k.kind = 2 then
      (s.sinkReport p n 0 k).modSite p (take fun c => { c with pos := min (agElems c.elem) (c.pos + 1), skew := true })
    else
      let vs := writeVals c.elem k
      let m := min vs.length (agElems c.elem - c.pos)
      let as := (List.range m).map fun i => agAddr c.elem (c.pos + i)
      s.writeElems p n c c.pos as (vs.take m) (take fun c => { c with pos := c.pos + m, skew := c.skew || decide (m < vs.length) })

/-- The reports of a sink for the heads of its in ports `js` (R414). -/
def State.sinkReports (s : State) (p n : Nat) (js : List Nat) : State :=
  js.foldl (fun s j => match (s.site p).inData n j with | some k => s.sinkReport p n j k | none => s) s

/-- An indirect write stream takes the packets at in0 and in1 (R207, R130). -/
def State.writeInd (s : State) (p n : Nat) (c : Cfg) : State :=
  let t := s.site p
  match t.eosView n [0, 1] with
  | some v =>
    if v.surplus = [] then
      if v.missing then s
      else s.modSite p fun t =>
        let t := (t.consume n [0, 1]).setSlot n { (t.consume n [0, 1]).slot n with skew := false }
        let t := if v.level = 0 then t.setSlot n (t.slot n).endPass else t
        t.emit n 0 { kind := 1, aux := BitVec.ofNat 8 v.level }
    else (s.sinkReports p n v.surplus).modSite p fun t => t.strictSkew p n [0] v.surplus
  | none =>
    match t.inData n 0, t.inData n 1 with
    | some x, some d =>
      let take (t : Site) : Site := let t := t.consume n [0, 1]; t.setSlot n { t.slot n with pos := (t.slot n).pos + 1 }
      match firstErr [x, d] with
      | some _ => (s.sinkReports p n [0, 1]).modSite p take
      | none =>
        if x.elems.any fun i => decide (i.toNat ≥ agCount c.elem 0) then s.modSite p fun t => (take t).emit n 0 (ownErr clsIndexRange p)
        else if (writeVals c.elem d).length ≠ x.elems.length then s.modSite p fun t => (take t).emit n 0 (ownErr clsLengthSkew p)
        else
          let as := x.elems.map fun i => agAddrOf c.elem ((i.toNat : Int) * agStride c.elem 0)
          s.writeElems p n c c.pos as (writeVals c.elem d) take
    | _, _ => s

/-- STREAM_WRITE: the next packet of a write stream goes to its addresses through the window's coalescing buffer (R207, R208,
R414). -/
def execStreamWrite (p : Nat) (s : State) : Res :=
  .next (s.agStep p (fun op => op == 1 || op == 2) fun n c =>
    if ¬ agDir c.elem ∨ ¬ (s.site p).roomOut 2 0 then s
    else if c.gateShut then s.openGate p n c
    else if agOp c.elem = 1 then s.writeDirect p n c
    else s.writeInd p n c)

/-! ## feedback, xlt, own (R209 to R211) -/

/-- Take the decisions at in0: they count, and the first whose element 0 is zero is the stop (R209). -/
def Site.takeDecision (t : Site) (n : Nat) : Option Site :=
  (t.inData n 0).map fun k =>
    let t := t.takeIn n 0
    let c := t.slot n
    if k.kind = 1 ∨ c.gate then t
    else t.setSlot n { c with decided := c.decided + 1, gate := (k.elems.getD 0 (0 : BitVec 32)).toNat == 0 }

/-- FEEDBACK_EMIT: takes a decision that has arrived, or emits the next index within the depth, or after the stop the EOS
(R209). -/
def execFeedbackEmit (p : Nat) (s : State) : Res :=
  .next (s.afterSource p <| s.agStep p (fun op => op == 5) fun n c =>
    let t := s.site p
    let d := agCount c.elem 0
    match t.takeDecision n with
    | some t => s.setSite p t
    | none =>
      if c.inj.isSome ∨ ¬ t.room [0] then s
      else match c.todo with
        | l :: ls => s.setSite p ((t.setSlot n { c with todo := ls }).emit n 0 { kind := 1, aux := BitVec.ofNat 8 l })
        | [] =>
          if c.stopped then s
          else
            let limit := if c.gate then c.decided - 1 + d else c.decided + d
            if c.emitted < limit then
              s.setSite p ((t.setSlot n { c with emitted := c.emitted + 1 }).emit n 0 { kind := 4, elems := [BitVec.ofNat 32 c.emitted] })
            else if c.gate then s.setSite p ((t.setSlot n { c with stopped := true }).emit n 0 { kind := 1 })
            else s)

/-- xlt on the packet `k` at in0. -/
def State.xltTake (s : State) (p n : Nat) (k : Pkt) : State :=
  let t := s.site p
  let x := s.siteCtx p
  let u := t.takeIn n 0
  if k.kind = 2 then s.setSite p (u.emit n 0 (passErr k))
  else match pairUp k.elems with
    | none => s.setSite p (u.emit n 0 (ownErr clsLengthSkew p))
    | some vas =>
      let rs := vas.map fun a => (a, s.translate (siteCluster p) x a .load)
      match rs.find? fun r => match r.2 with | .fault _ => true | .ok _ => false with
      | some (a, .fault 0) => s.stopAg p n k.ord.toNat a 0
      | some (_, _) => s.setSite p (u.emit n 0 (ownErr clsTranslation p))
      | none =>
        let es := rs.flatMap fun r => match r.2 with | .ok pa => elemsOf 13 [pa] | .fault _ => []
        (s.setSite p (u.emit n 0 { elems := es, last := k.last })).fillTlbs (siteCluster p) x .load vas

/-- XLT_FIRE: each .b64 virtual address is translated for a read; a refusal gives one ERR, a page that is not present stalls
xlt with its packet held (R210, R364). A cancelled ordinal cancels its packet (R138). -/
def execXltFire (p : Nat) (s : State) : Res :=
  .next (s.agStep p (fun op => op == 3) fun n _ =>
    let t := s.site p
    match t.orCancel n [0] [0] .wait, t.inData n 0 with
    | .wait, some k => if k.kind = 1 ∨ ¬ t.room [0] then s else s.xltTake p n k
    | a, _ => s.act p n a)

/-- OWN_HANDOVER: on any token at in0 the window's coalescing buffer is performed at memory, and the hand-over token goes out.
What the window had filled goes: a read by the new owner sees every write of the old one (R211). -/
def execOwnHandover (p : Nat) (s : State) : Res :=
  .next (s.agStep p (fun op => op == 4) fun n c =>
    let t := s.site p
    match t.inData n 0, s.writeBack (siteCluster p) (agWin c.elem) with
    | some _, some s' =>
      if ¬ t.room [0] then s
      else (s'.modSite p fun t => (t.takeIn n 0).emit n 0 { elems := [BitVec.ofNat 32 (agWin c.elem)] }).modWin (siteCluster p) (agWin c.elem)
        fun u => { u.dropFill with owner := none }
    | _, _ => s)

end Sys2Proof.Machine
end

