-- ==== Sys2Proof/Machine/Engine.lean ====
section
/-! DEFINITION. The engines (R201, R202, R273 to R279, R369): how a command's bytes move, where it stops, its barrier
arrival, and the collectives. -/

namespace Sys2Proof.Machine

/-! ## What one access of an engine meets -/

/-- Why an engine cannot go on at an address: a page that is not present, a refusal with its cause, or a tile whose queue or
live block the access must follow (R183, R196, R367). -/
inductive Halt where
  | absent (va : Nat)
  | refused (cause va : Nat)
  | busy
  deriving DecidableEq, Repr

/-- The unit in which a place is accessed: 8 bytes for registers, 4 for the full-empty words and accumulators (R179, R361). -/
def Place.grain : Place → Nat
  | .ram | .tile _ _ | .outside | .hole _ => 1
  | .fullWords _ _ _ | .acc _ _ _ => 4
  | _ => 8

/-- A tile's group is EXITING and the command was issued after that (R324). -/
def State.afterExit (s : State) (m : Cmd) (c t : Nat) : Bool :=
  match s.exitingGroup (tileSite c t) with
  | some v => decide (v.mark ≤ m.no)
  | none => false

/-- A tile refuses an engine command's writes: its cluster is gated, the command comes from another and was not in flight into it,
or its group is EXITING and the command was issued after that (R184, R279, R324, R421). -/
def State.writeRefused (s : State) (m : Cmd) (c t : Nat) : Bool :=
  (m.core != c && s.gated c && !m.into.contains c) || s.afterExit m c t

/-- What a place answers an engine command that reads or writes the byte at `pa`, as its core's access unprivileged (R184,
R279, R419, R431). -/
def State.engineMeets (s : State) (m : Cmd) (write : Bool) (va pa : Nat) : Option Halt :=
  let no (cause : Nat) : Option Halt := some (.refused cause va)
  if ¬ write ∧ s.poisoned pa 1 then no tEccUncorr
  else match placeOf pa with
    | .ram =>
      match s.protectedBy pa with
      | some x => if write ∧ x = m.ctx then none else no tAccess
      | none => none
    | .tile c t =>
      if write ∧ s.writeRefused m c t then no tRemoteRefused
      else if ¬ write ∧ m.core ≠ c ∧ (s.gated c ∨ s.afterExit m c t) then no tRemoteRefused
      else if ¬ s.tileFree (tileSite c t) [pa % 0x80000 / 4] write then some .busy
      else none
    | q =>
      match if write then s.coreWrite m.core m.ctx false pa q.grain else s.coreRead m.core m.ctx false pa q.grain with
      | .ok => if s.accessFree (pa / q.grain * q.grain) q.grain write then none else some .busy
      | .trap t => no t
      | .deny => no tAccess
      | .drop | .zero => none

/-- The physical bytes of a list of virtual addresses, up to the first that the engine cannot reach, and why. -/
def State.reach (s : State) (m : Cmd) (write : Bool) : List Nat → List Nat × Option Halt
  | [] => ([], none)
  | va :: vas =>
    match s.translate m.core m.ctx va (if write then .store else .load) with
    | .fault 0 => ([], some (.absent va))
    | .fault _ => ([], some (.refused tPageFault va))
    | .ok pa =>
      match s.engineMeets m write va pa with
      | some h => ([], some h)
      | none =>
        let (ps, e) := s.reach m write vas
        (pa :: ps, e)

/-- The translations that an engine's access used stay in its cluster's cache (R366). -/
def State.cacheSpan (s : State) (m : Cmd) (need : Need) (va n : Nat) : State :=
  s.cacheRun m.core m.ctx need va n

/-- A run of bytes suits the units of its places: it holds each unit that it touches whole (R179, R361). -/
def grainOk (ps : List Nat) : Bool :=
  ps.zipIdx.all fun e =>
    let g := (placeOf e.1).grain
    let i := e.2 - e.1 % g
    g == 1 || (decide (e.1 % g ≤ e.2) && ps.getD i 0 == e.1 / g * g && ps.getD (i + g - 1) 0 == e.1 / g * g + g - 1)

/-- Write bytes at their places; a register's unit is written whole. -/
def State.writeSpan (s : State) (ps : List Nat) (bs : List Byte) : State :=
  if ps.all fun p => (placeOf p).grain == 1 then s.writeAt ps bs
  else ps.zipIdx.foldl (fun s e =>
    let g := (placeOf e.1).grain
    if g = 1 then s.storeBytes e.1 [bs.getD e.2 0]
    else if e.1 % g = 0 then s.writePlace e.1 g (natLE ((bs.drop e.2).take g))
    else s) s

/-- The words of tiles that a run of bytes covers become full (R274). -/
def State.fillWords (s : State) (ps : List Nat) : State :=
  (ps.filter fun p => p % 4 = 0).foldl (fun s p => s.setFull p true) s

/-- The first `n` virtual addresses from `va` on. -/
def span (va n : Nat) : List Nat := (List.range n).map (va + ·)

/-- One unit of a command: bytes read at `src` (or given, for fill) and written at `dst`. It answers how many bytes moved and
what stopped it. A destination outside tile words with fe = 1 gives T_ENGINE_ARG (R274). -/
def State.moveUnit (s : State) (m : Cmd) (dst src : List Nat) (given : List Byte) : State × Nat × Option Halt :=
  let (ps, e1) := s.reach m false src
  let (qs, e2) := s.reach m true dst
  let n := if src = [] then qs.length else min ps.length qs.length
  let e := if n = dst.length then none else if ps.length = n ∧ e1.isSome then e1 else e2
  let qs := qs.take n
  if n = 0 then (s, 0, e)
  else if m.fe ∧ qs.any (fun q => !(placeOf q).isTileData) then (s, 0, some (.refused tEngineArg (dst.headD 0)))
  else if ¬ grainOk qs ∨ (src ≠ [] ∧ ¬ grainOk (ps.take n)) then (s, 0, some (.refused tRemoteRefused (dst.headD 0)))
  else
    let bytes := if src = [] then given else (ps.take n).map s.streamByte
    let t := s.writeSpan qs bytes
    let t := if m.fe then t.fillWords qs else t
    ((t.cacheSpan m .store (dst.headD 0) n).cacheSpan m .load (src.headD 0) (if src = [] then 0 else n), n, e)

/-! ## copy, fill and copy.chain (R275, R277) -/

/-- The rest of a transfer of `len` bytes from offset `done` on, in ascending 64-byte units of the destination; `src` is none
for fill, whose byte j is byte j mod 8 of `v`. -/
def State.moveBytes (s : State) (m : Cmd) (dst : Nat) (src : Option Nat) (v : Word) (len : Nat) :
    Nat → Nat → State × Nat × Option Halt
  | 0, done => (s, done, none)
  | fuel + 1, done =>
    if len ≤ done then (s, done, none)
    else
      let u := min (64 - (dst + done) % 64) (len - done)
      let given := (List.range u).map fun i => BitVec.ofNat 8 (v.toNat / 2 ^ (8 * ((done + i) % 8)))
      let from_ := match src with | some a => span (a + done) u | none => []
      let (s, n, e) := s.moveUnit m (span (dst + done) u) from_ given
      match e with
      | some e => (s, done + n, some e)
      | none => s.moveBytes { m with prog := done + n } dst src v len fuel (done + u)

/-- A number of `n` bytes in the context's memory, or why it cannot be read. -/
def State.readNum (s : State) (m : Cmd) (va n : Nat) : Nat × Option Halt :=
  let (ps, e) := s.reach m false (span va n)
  (natLE (ps.map s.streamByte), e)

/-- A descriptor of copy.chain is one that R277 and R275 admit. -/
def chainOk (m : Cmd) (at_ dst src len : Nat) : Bool :=
  at_ % 32 == 0 && decide (len < 2 ^ 32) && !overlaps dst src len && (!m.fe || (dst % 4 == 0 && len % 4 == 0))

/-- The rest of a chain: `m.c` holds the address of the descriptor in progress, `m.b` how many are finished, `m.prog` the bytes
of this one that are written, `m.bytes` those of the finished ones. -/
def State.chain (s : State) (m : Cmd) : Nat → State × Cmd × Option Halt
  | 0 => (s, m, some (.refused tEngineArg 0))
  | fuel + 1 =>
    let at_ := m.c.toNat
    match s.readNum m at_ 32 with
    | (_, some e) => (s, m, some e)
    | (d, none) =>
      let dst := d % 2 ^ 64
      let src := d / 2 ^ 64 % 2 ^ 64
      let len := d / 2 ^ 128 % 2 ^ 64
      let next := d / 2 ^ 192
      let s := s.cacheSpan m .load at_ 32
      if ¬ chainOk m at_ dst src len then (s, m, some (.refused tEngineArg at_))
      else
        let (s, n, e) := s.moveBytes m dst (some src) 0 len (len + 1) m.prog
        match e with
        | some e => (s, { m with prog := n }, some e)
        | none =>
          let m := { m with prog := 0, bytes := m.bytes + len, b := m.b + 1, c := BitVec.ofNat 64 next }
          if next = 0 then (s, m, none) else s.chain m fuel

/-! ## gather and scatter (R201, R202, R276) -/

/-- Does a gather or scatter run in a tile (R201, R276)? -/
def State.inTile (s : State) (m : Cmd) : Option Nat :=
  if m.op ≠ 1 ∧ m.op ≠ 2 then none
  else match s.placeAt m.core m.ctx (if m.op = 1 then m.a else m.b) with
    | some (.tile c t) => some (tileSite c t)
    | _ => none

/-- Element `m.prog` moves; one whose destination a gather with fe = 1 finds full is not written again (R202). -/
def State.moveElement (s : State) (m : Cmd) : State × Option Halt :=
  let i := m.prog
  match s.readNum m (m.c.toNat + 4 + 4 * i) 4 with
  | (_, some e) => (s, some e)
  | (x, none) =>
    let dst := m.a.toNat + 4 * (if m.op = 1 then i else x)
    let src := m.b.toNat + 4 * (if m.op = 1 then x else i)
    let full := match s.translate m.core m.ctx dst .store with
      | .ok pa => m.op == 1 && m.fe && (placeOf pa).isTileData && s.isFull pa
      | .fault _ => false
    let s := s.cacheSpan m .load (m.c.toNat + 4 + 4 * i) 4
    if full then (s, none)
    else
      let (s, _, e) := s.moveUnit m (span dst 4) (span src 4) []
      (s, e)

/-- The count at the head of the index list: 1 to 65,536. -/
def State.listCount (s : State) (m : Cmd) : Nat × Option Halt :=
  match s.readNum m m.c.toNat 4 with
  | (_, some e) => (0, some e)
  | (n, none) => if n = 0 ∨ n > 65536 then (0, some (.refused tEngineArg m.c.toNat)) else (n, none)

/-- The elements from `m.prog` on, up to `n`. -/
def State.moveElements (s : State) (m : Cmd) (n : Nat) : Nat → State × Cmd × Option Halt
  | 0 => (s, m, none)
  | fuel + 1 =>
    if n ≤ m.prog then (s, m, none)
    else
      match s.moveElement m with
      | (s, some e) => (s, m, some e)
      | (s, none) => s.moveElements { m with prog := m.prog + 1, bytes := m.bytes + 4 } n fuel

/-! ## A command's run -/

/-- All that is left of an engine command but a collective; `m.bytes` ends as the bytes written. At stage 1 its writes are done. -/
def State.runEngine (s : State) (m : Cmd) : State × Cmd × Option Halt :=
  if m.stage = 1 then (s, m, none)
  else match m.op with
  | 0 | 3 =>
    let len := m.c.toNat
    let (s, n, e) := s.moveBytes m m.a.toNat (if m.op = 0 then some m.b.toNat else none) m.b len (len + 1) m.prog
    (s, { m with prog := n, bytes := n }, e)
  | 4 =>
    let m := if m.c = 0 then { m with c := m.a } else m
    s.chain m (4096 - m.b.toNat)
  | _ =>
    match s.listCount m with
    | (_, some e) => (s, m, some e)
    | (n, none) => (s.cacheSpan m .load m.c.toNat 4).moveElements m n (n + 1)

/-- The offset that a command's fault message names: a byte, an element or a descriptor (R279). -/
def Cmd.offset (m : Cmd) : Nat := if m.op = 4 then m.b.toNat else m.prog

/-- The clusters whose tiles the command has begun to write in the transfer it is in: the destinations written so far (R421). -/
def State.begun (s : State) (m : Cmd) : List Nat :=
  let spans : List (Nat × Nat) := match m.op with
    | 0 | 3 => [(m.a.toNat, m.prog)]
    | 1 => [(m.a.toNat, 4 * m.prog)]
    | 2 => (List.range m.prog).map fun i => (m.a.toNat + 4 * (s.readNum m (m.c.toNat + 4 + 4 * i) 4).1, 4)
    | 4 => [((s.readNum m m.c.toNat 8).1, m.prog)]
    | _ => []
  dedup ((spans.flatMap fun e => pageHeads e.1 e.2).filterMap fun va =>
    match s.placeAt m.core m.ctx (BitVec.ofNat 64 va) with
    | some (.tile c _) | some (.cregs c _) => some c
    | _ => none)

/-- Command `k` with its progress and the clusters it has begun to write. -/
def State.setProgress (s : State) (k : Nat) (m : Cmd) : State := s.setCmd k { m with into := s.begun m }

/-- Stop command `k` at a page that is not present (R279, R202): `m` holds its progress; a gather or scatter in a tile names
that tile. -/
def State.stopEngine (s : State) (k : Nat) (m : Cmd) (va : Nat) : State :=
  let tile := match s.inTile m with | some p => p | none => 0
  (s.setProgress k m).holdFault m.core
    { src := 2, cause := tPageFault, ctx := m.ctx, ord := m.offset, loc := m.tok, val := BitVec.ofNat 64 va,
      detail := BitVec.ofNat 64 tile } (.cmd k)

/-- The owner hears of a refused access to a protected place and of poison (R419, R425, R431). -/
def State.tellOwner (s : State) (m : Cmd) (cause va : Nat) : State :=
  if cause = tPageFault then s.walkDenied m.core m.core m.ctx va
  else if cause = tAccess then
    match s.leafFor m.core m.ctx va with
    | .leaf e => s.denied m.core (e.pa va)
    | .fail _ | .shut _ => s
  else if cause = tEccUncorr then
    s.ownerEvent (faultWord0 2 false cause m.ctx 0 0) (BitVec.ofNat 64 m.offset) (BitVec.ofNat 64 va) m.core 0
  else s

/-! ## The barrier arrival (R273, R354, R355) -/

/-- What an arrival of a command at its barrier does: nothing yet, a failure with its cause, or the state after it. -/
inductive Arrive where
  | waits
  | absent (va : Nat)
  | fails (cause : Nat)
  | done (s : State)
  deriving DecidableEq, Repr

/-- The arrival with the bytes written: a step at the tile with y = bytes (R273, R354). -/
def State.arrive (s : State) (m : Cmd) : Arrive :=
  match m.bar with
  | none => .done s
  | some w =>
    match s.translate m.core m.ctx w.toNat .atomic with
    | .fault 0 => .absent w.toNat
    | .fault _ => .fails tPageFault
    | .ok pa =>
      let s := s.fillTlb m.core m.ctx w.toNat .atomic
      match placeOf pa with
      | .tile c t =>
        if w.toNat % 16 ≠ 0 then .fails tEngineArg
        else if s.gated c then .fails tRemoteRefused
        else if ¬ s.tileFree (tileSite c t) ((List.range 4).map (pa % 0x80000 / 4 + ·)) true then .waits
        else match s.barStep pa 0 (BitVec.ofNat 32 m.bytes) 0 with
          | some s => .done s
          | none => .waits
      | _ => .fails tEngineArg

/-- Finish command `k`, whose writes `m` counts, with its arrival; `s0`, the state before it, where the arrival has to wait. -/
def State.endEngine (s s0 : State) (k : Nat) (m : Cmd) : State :=
  match s.arrive m with
  | .done t => t.finishCmd k 0
  | .fails cause => s.finishCmd k cause
  | .waits | .absent _ => s0

/-! ## Collectives (R278, R369) -/

/-- The descriptor of a collective, as a number of 64 bytes. -/
structure Coll where
  nrank : Nat
  rank : Nat
  root : Nat
  len : Nat
  tag : Nat
  peers : Nat
  deriving DecidableEq, Repr

def Coll.of (d : Nat) : Coll :=
  let f (at_ n : Nat) : Nat := d / 2 ^ (8 * at_) % 2 ^ (8 * n)
  { nrank := f 0 2, rank := f 2 2, root := f 4 1, len := f 8 4, tag := f 16 8, peers := f 24 8 }

/-- The limits of a descriptor's fields. -/
def collOk (d : Nat) : Bool :=
  let u := Coll.of d
  let f (at_ n : Nat) : Nat := d / 2 ^ (8 * at_) % 2 ^ (8 * n)
  decide (2 ≤ u.nrank ∧ u.nrank ≤ 256) && decide (u.rank < u.nrank) && decide (u.root < u.nrank)
    && f 5 3 == 0 && f 12 4 == 0 && f 32 32 == 0

/-- One package's part in a collective: its command's number, the command, its descriptor and its peer entries. -/
structure Part where
  k : Nat
  m : Cmd
  u : Coll
  peers : List Nat
  deriving DecidableEq, Repr

/-- Read a collective command's descriptor and peer entries: none where a page is not present, a cause for what R274 or R278
refuse. -/
def State.part (s : State) (k : Nat) (m : Cmd) : Part × Option Halt :=
  let no (e : Halt) : Part × Option Halt := ({ k, m, u := Coll.of 0, peers := [] }, some e)
  match s.readNum m m.c.toNat 64 with
  | (_, some e) => no e
  | (d, none) =>
    let u := Coll.of d
    if ¬ collOk d then no (.refused tEngineArg m.c.toNat)
    else match s.readNum m u.peers (4 * u.nrank) with
      | (_, some e) => no e
      | (v, none) =>
        let ps := (List.range u.nrank).map fun i => v / 2 ^ (32 * i) % 2 ^ 32
        if ps.any fun p => decide (p / 2 ^ 24 ≠ 0) || decide (p / 2 ^ 7 % 2 ^ 9 ≠ 0) then no (.refused tEngineArg u.peers)
        else ({ k, m, u, peers := ps }, none)

def peerPackage (p : Nat) : Nat := p / 2 ^ 16 % 256
def peerCluster (p : Nat) : Nat := p % 128
def ownPackage : Nat := Sys2Proof.Config.packageNo % 256

/-- Is this package's kin link to a package up (R423)? -/
def State.kinTo (s : State) (q : Nat) : Bool :=
  (List.range 8).any fun l => Sys2Proof.Config.kinPackage l == q && Table.get true s.kinUp l

/-- The collective commands of context `x` named `tag` that have been issued and have no outcome, as parts: one collective
(R278). -/
def State.joined (s : State) (x tag : Nat) : List Part :=
  s.cmds.filterMap fun e =>
    if 8 ≤ e.2.op ∧ e.2.op ≤ 0x0C ∧ e.2.ctx = x ∧ e.2.stage = 0 then
      match s.part e.1 e.2 with
      | (p, none) => if p.u.tag = tag then some p else none
      | _ => none
    else none

/-- The parts of a collective's participants of this package, by rank; a participant of another package is none. None while one
of this package is missing from `qs`. -/
def Part.seats (p : Part) (qs : List Part) : Option (List (Option Part)) :=
  p.peers.foldr (fun e ps =>
    match ps with
    | none => none
    | some ps =>
      if peerPackage e ≠ ownPackage then some (none :: ps)
      else (qs.find? fun q => q.m.core == peerCluster e).map fun q => some q :: ps) (some [])

/-- A participant's entry at its own rank names it. -/
def Part.namesItself (q : Part) : Bool :=
  let own := q.peers.getD q.u.rank 0
  peerPackage own == ownPackage && peerCluster own == q.m.core

/-- Two participants agree in nrank, len, root, red, sfx and op (R278). -/
def Part.agrees (p q : Part) : Bool :=
  q.u.nrank == p.u.nrank && q.u.len == p.u.len && q.u.root == p.u.root && q.m.red == p.m.red && q.m.sfx == p.m.sfx && q.m.op == p.m.op

/-- The parts issued so far show no mismatch (R278). -/
def agree (p : Part) (qs : List Part) : Bool := qs.all fun q => p.agrees q && q.namesItself

/-- Each participant has the rank at which it is listed. -/
def ranked (ps : List (Option Part)) : Bool :=
  (ps.zipIdx).all fun e => match e.1 with | none => true | some q => q.u.rank == e.2

/-- The clusters of this package that participants name beside themselves and whose commands are still to come. -/
def missingPeers (qs : List Part) : List Nat :=
  dedup (qs.flatMap fun q => (q.peers.zipIdx).filterMap fun e =>
    if e.2 ≠ q.u.rank ∧ peerPackage e.1 = ownPackage ∧ ¬ (qs.any fun r => r.m.core == peerCluster e.1) then some (peerCluster e.1)
    else none)

/-- The bytes of one element of a fold. -/
def foldBytes (m : Cmd) : Nat := sfxBits m.sfx / 8

/-- The bytes of a participant's source and of its destination. -/
def srcLen (p : Part) : Nat :=
  match p.m.op with
  | 8 => if p.u.rank = p.u.root then p.u.len else 0
  | 9 | 0x0A => p.u.len * foldBytes p.m
  | 0x0B => p.u.len
  | _ => p.u.nrank * p.u.len
def dstLen (p : Part) : Nat :=
  match p.m.op with
  | 8 => p.u.len
  | 9 => if p.u.rank = p.u.root then p.u.len * foldBytes p.m else 0
  | 0x0A => p.u.len * foldBytes p.m
  | _ => p.u.nrank * p.u.len

/-- red of two elements: 0 add, 1 min, 2 max (R59, R278). -/
def collRed (red sfx x y : Nat) : Nat :=
  match red with
  | 0 => match fmtOf sfx with
    | some fm => (floatOp 1 fm (Rm.of 0) x y 0).1
    | none => intOp 1 sfx x y
  | 1 => minMaxOp false sfx x y
  | _ => minMaxOp true sfx x y

/-- The fold of the sources, element by element in ascending rank. -/
def foldSources (m : Cmd) (len : Nat) (srcs : List (List Byte)) : List Byte :=
  let w := foldBytes m
  (List.range len).flatMap fun e =>
    let at_ (b : List Byte) : Nat := natLE ((b.drop (e * w)).take w)
    bytesLE w ((srcs.drop 1).foldl (fun v b => collRed m.red m.sfx v (at_ b)) (at_ (srcs.headD [])))

/-- What a participant's destination receives, from the sources of every rank. -/
def collResult (p : Part) (srcs : List (List Byte)) : List Byte :=
  let n := p.u.len
  match p.m.op with
  | 8 => (srcs.getD p.u.root []).take n
  | 9 | 0x0A => foldSources p.m n srcs
  | 0x0B => srcs.flatMap fun b => b.take n
  | _ => srcs.flatMap fun b => (b.drop (p.u.rank * n)).take n

/-- Bytes from a package outside this one: free values. -/
def State.drawBytes (s : State) : Nat → State × List Byte
  | 0 => (s, [])
  | n + 1 =>
    let (w, s) := s.draw
    let (s, bs) := s.drawBytes n
    (s, BitVec.ofNat 8 w.toNat :: bs)

/-- The source of each rank: this package's are read, another's are free. -/
def State.sources (s : State) (p : Part) : List (Option Part) → State × List (List Byte)
  | [] => (s, [])
  | q :: qs =>
    let (s, b) := match q with
      | some q => (s, ((s.reach q.m false (span q.m.b.toNat (srcLen q))).1).map s.streamByte)
      | none => s.drawBytes (p.u.nrank * p.u.len * 8)
    let (s, bs) := s.sources p qs
    (s, b :: bs)

/-- With fe = 1 a byte of a participant's destination lies outside the data windows of tiles (R274). -/
def State.collOff (s : State) (p : Part) : Bool :=
  p.m.fe && ((s.reach p.m true (span p.m.a.toNat (dstLen p))).1.any fun a => !(placeOf a).isTileData)

/-- A participant's destination or source cuts a unit of its place, which is reached whole only (R179, R361). -/
def State.collCut (s : State) (p : Part) : Bool :=
  !grainOk (s.reach p.m true (span p.m.a.toNat (dstLen p))).1 || !grainOk (s.reach p.m false (span p.m.b.toNat (srcLen p))).1

/-- The first obstacle of the parts: at a participant's own destination, then at its source, then a unit that is cut. -/
def State.collHalt (s : State) (ps : List Part) : Option (Part × Halt) :=
  (ps.findSome? fun p => ((s.reach p.m true (span p.m.a.toNat (dstLen p))).2).map fun e => (p, e)) <|>
    (ps.findSome? fun p => if s.collOff p then some (p, .refused tEngineArg p.m.a.toNat) else none) <|>
    (ps.findSome? fun p => ((s.reach p.m false (span p.m.b.toNat (srcLen p))).2).map fun e => (p, e)) <|>
    ps.findSome? fun p => if s.collCut p then some (p, .refused tRemoteRefused p.m.a.toNat) else none

/-- Every participant's command has its outcome: it ends with a cause. -/
def State.collFail (s : State) (ps : List Part) (cause : Nat) : State :=
  ps.foldl (fun s p => s.setCmd p.k { p.m with stage := 2, cause }) s

/-- The fault messages of an all-or-nothing store that a page refused: the refusing participant names the page, the others its
rank; their commands have their outcome (R369, R413). -/
def State.collReports (s : State) (ps : List Part) (bad : Part) (va : Nat) : State :=
  ps.foldl (fun s p =>
    let own := p.k == bad.k
    s.holdFault p.m.core { src := 2, cause := tPageFault, ctx := p.m.ctx, loc := p.m.tok,
                           val := if own then BitVec.ofNat 64 va else 0,
                           detail := if own then 0 else BitVec.ofNat 64 bad.u.rank } (.cmd p.k)) s

/-- The writes of every participant of this package. -/
def State.collWrite (s : State) (ps : List Part) (srcs : List (List Byte)) : State :=
  ps.foldl (fun s p =>
    let bytes := collResult p srcs
    let qs := (s.reach p.m true (span p.m.a.toNat (dstLen p))).1
    let s := s.writeSpan qs bytes
    let s := if p.m.fe then s.fillWords qs else s
    let s := ((s.cacheSpan p.m .store p.m.a.toNat (dstLen p)).cacheSpan p.m .load p.m.b.toNat (srcLen p)).cacheSpan p.m .load p.m.c.toNat 64
    let s := s.cacheSpan p.m .load p.u.peers (4 * p.u.nrank)
    s.setCmd p.k { p.m with stage := 2, cause := 0, bytes := dstLen p }) s

/-- A mismatch ends every command of the collective: those issued now, the others when they come (R278). -/
def State.collMismatch (s : State) (p : Part) (qs : List Part) : State :=
  let s := s.collFail qs tCollMismatch
  { s with collBad := s.collBad ++ (missingPeers qs).map fun c => (p.m.ctx, p.u.tag, c) }

/-- The collective that command `k` belongs to: a mismatch ends it as soon as it shows (R278); once every participant of this
package has issued its command, and none is stopped by a held fault (R369), it takes its course as a whole. -/
def State.collective (s : State) (k : Nat) (m : Cmd) : State :=
  match s.part k m with
  | (_, some (.refused cause va)) => (s.tellOwner m cause va).finishCmd k cause
  | (_, some _) => s
  | (p, none) =>
    let me := (m.ctx, p.u.tag, m.core)
    let qs := s.joined m.ctx p.u.tag
    if s.collBad.contains me then { s with collBad := s.collBad.erase me }.finishCmd k tCollMismatch
    else if p.peers.any fun e => peerPackage e ≠ ownPackage ∧ ¬ s.kinTo (peerPackage e) then s.finishCmd k tAccess
    else if ¬ agree p qs then s.collMismatch p qs
    else match p.seats qs with
      | none => s
      | some ps =>
        let own := ps.filterMap id
        if ¬ ranked ps then s.collMismatch p qs
        else if own.any fun q => q.m.held.isSome then s
        else match s.collHalt own with
          | some (_, .absent _) | some (_, .busy) => s
          | some (q, .refused cause va) =>
            let s := s.tellOwner q.m cause va
            let s := if cause = tPageFault then s.collReports own q va else s
            s.collFail own cause
          | none =>
            let (s, srcs) := s.sources p ps
            s.collWrite own srcs

/-! ## Meanings -/

/-- Is a command one that the engines run now? -/
def Cmd.engineReady (m : Cmd) : Bool := decide (m.op < 0x20) && m.held.isNone

/-- ENGINE_COMPLETE: what is left of the command is moved, every write performed, then it arrives at its barrier and writes
its token; a refusal ends it with its cause and the writes so far (R273 to R279). A page that is not present leaves it to
ENGINE_PAGE_FAULT. -/
def execEngineComplete (k : Nat) (s : State) : Res :=
  .next (match s.cmd? k with
    | none => s
    | some m =>
      if ¬ m.engineReady then s
      else if m.stage = 2 then (if m.cause = 0 then s.endEngine s k m else s.finishCmd k m.cause)
      else if m.op ≥ 8 then
        let t := s.collective k m
        match t.cmd? k with
        | some m => if m.stage = 2 then (if m.cause = 0 then t.endEngine t k m else t.finishCmd k m.cause) else t
        | none => t
      else match s.runEngine m with
        | (t, m, none) => t.endEngine s k m
        | (t, m, some (.refused cause va)) => (t.tellOwner m cause va).finishCmd k cause
        | (_, _, some _) => s)

/-- ENGINE_PAGE_FAULT: the command moves up to a page that is not present and stops there (R279, R369). -/
def execEnginePageFault (k : Nat) (s : State) : Res :=
  .next (match s.cmd? k with
    | none => s
    | some m =>
      if ¬ m.engineReady then s
      else if m.stage = 2 ∧ m.cause ≠ 0 then s
      else if m.stage = 2 then
        match s.arrive m with
        | .absent va => s.stopEngine k m va
        | _ => s
      else if m.op ≥ 8 then
        match s.part k m with
        | (_, some (.absent va)) => s.stopEngine k m va
        | (_, some _) => s
        | (p, none) =>
          match s.collHalt [p] with
          | some (_, .absent va) => s.stopEngine k m va
          | _ => s
      else match s.runEngine m with
        | (t, m, some (.absent va)) => t.stopEngine k m va
        | (t, m, none) =>
          match t.arrive m with
          | .absent va => t.stopEngine k { m with stage := 1 } va
          | _ => s
        | _ => s)

/-- TILE_GATHER_ELEMENT: a gather or scatter that runs in a tile translates and moves its next element, or stops at it with its
fault (R201, R202). -/
def execTileGatherElement (k : Nat) (s : State) : Res :=
  .next (match s.cmd? k with
    | none => s
    | some m =>
      if ¬ m.engineReady ∨ m.stage = 2 ∨ (s.inTile m).isNone then s
      else match s.listCount m with
        | (_, some (.absent va)) => s.stopEngine k m va
        | (_, some (.refused cause va)) => (s.tellOwner m cause va).finishCmd k cause
        | (_, some .busy) => s
        | (n, none) =>
          if n ≤ m.prog then s
          else match s.moveElement m with
            | (t, none) => t.setProgress k { m with prog := m.prog + 1, bytes := m.bytes + 4 }
            | (t, some (.absent va)) => t.stopEngine k m va
            | (t, some (.refused cause va)) => (t.tellOwner m cause va).finishCmd k cause
            | (_, some .busy) => s)

end Sys2Proof.Machine
end

