-- ==== Sys2Proof/Machine/Complete.lean ====
section
/-! DEFINITION. The completion of stream commands (R280 to R282) and of translation commands (R370 to R374). -/

namespace Sys2Proof.Machine

/-! ## Stream commands -/

/-- An AG pattern of a slot that is ARMED, ACTIVE or SUSPENDED names window `w` of cluster `c` (R280). -/
def State.windowNamed (s : State) (c w : Nat) : Bool :=
  (clusterSites c).any fun p =>
    siteKind p == .ag && (List.range 4).any fun n =>
      let e := ((s.site p).slot n).elem
      let op := agOp e
      let ph := match s.regionOf p with | some g => ((s.region g).slot n).phase | none => .empty
      frKind e == 4 && (op == 1 || op == 2 || op == 4) && agWin e == w
        && (ph == .armed || ph == .active || ph == .suspended)

/-- The capacity units of the bound windows of a slice other than `w` (R280). -/
def State.sliceUnits (s : State) (c sl w : Nat) : Nat :=
  (s.cluster c).wins.foldl (fun a e => if e.1 ≠ w ∧ e.2.bound ∧ e.2.slice = sl then a + e.2.cap / 4096 else a) 0

/-- sspec's effect (R280). -/
def State.bindWindow (s : State) (k : Nat) (m : Cmd) : State :=
  let c := m.core
  let w := fld m.c 4 0
  let sl := fld m.c 7 5
  let units := fld m.c 14 8 + 1
  if s.windowNamed c w then s.finishCmd k tCfgState
  else if s.sliceUnits c sl w + units > 128 then s.finishCmd k tStreamBounds
  else match (if (s.win c w).write then s.writeBack c w else some s) with
    | none => s
    | some s =>
      (s.setWin c w
        { bound := true, base := m.a.toNat, stop := m.a.toNat + m.b.toNat, head := m.a.toNat, tail := m.a.toNat, slice := sl,
          cap := units * 4096, write := bit m.c 15, ahead := m.ahead.getD 256, ctx := m.ctx }).finishCmd k 0

/-- sbar's effect: the write window's accepted writes are performed, the read window discards what it filled (R281). -/
def State.orderWindows (s : State) (k : Nat) (m : Cmd) : State :=
  let c := m.core
  let a := s.win c (m.a.toNat % 32)
  let b := s.win c (m.b.toNat % 32)
  if ¬ (a.bound ∧ a.write ∧ b.bound ∧ ¬ b.write) then s.finishCmd k tEngineArg
  else match s.writeBack c (m.a.toNat % 32) with
    | none => s
    | some s => (s.modWin c (m.b.toNat % 32) Win.dropFill).finishCmd k 0

/-- scond's effect: a new extent, and with x = 1 a new run-ahead limit (R282). -/
def State.resizeWindow (s : State) (k : Nat) (m : Cmd) : State :=
  let c := m.core
  let w := m.a.toNat % 32
  let u := s.win c w
  if ¬ u.bound ∨ u.tail > u.base + m.b.toNat then s.finishCmd k tStreamBounds
  else (s.setWin c w { u with stop := u.base + m.b.toNat, ahead := m.ahead.getD u.ahead }).finishCmd k 0

/-- STREAM_CMD_COMPLETE (R280 to R282). -/
def execStreamCmdComplete (k : Nat) (s : State) : Res :=
  .next (match s.cmd? k with
    | none => s
    | some m =>
      match m.op with
      | 0x20 => s.bindWindow k m
      | 0x21 => s.orderWindows k m
      | 0x22 => s.resizeWindow k m
      | _ => s)

/-! ## Translation commands -/

/-- The physical pages, base and size, that cached translations of context `x` (of every context for none) over
[base, base + len) name; the whole space for len = 0. -/
def State.oldPages (s : State) (x : Option Nat) (base len : Nat) : List (Nat × Nat) :=
  (s.tlbs.flatMap (·.2)).filterMap fun e =>
    if (x.isNone || x == some e.ctx) && (len == 0 || (decide (e.vbase < base + len) && decide (base < e.vbase + 2 ^ e.lg)))
    then some (e.pbase, 2 ^ e.lg) else none

/-- An issued request of a stream of context `x` still lacks an element whose bytes `laps` (R205). -/
def State.oldRequest (s : State) (mine : Nat → Bool) (laps : Nat → Nat → Bool) : Bool :=
  s.clusters.any fun e => e.2.wins.any fun (w, u) =>
    mine u.ctx && (s.streamsOf e.1 w).any fun p =>
      let c := (s.site p).slot ((s.curSlot p).getD 0)
      c.reqs.any fun r => (r.addrs.map (elemBytes c.elem)).any fun vas =>
        laps (vas.headD 0) vas.length && vas.all (fun a => decide (a < u.stop)) && !u.has vas

/-- An access that may have used a translation of context `x` (of every context for none) over [base, base + len), the whole
space for len = 0, has not been performed yet: one of a core, a buffered store of a speculative task, a stream's write or
request (R374). -/
def State.oldAccess (s : State) (x : Option Nat) (base len : Nat) : Bool :=
  let mine (c : Nat) : Bool := x.isNone || x == some c
  let laps (a n : Nat) : Bool := len == 0 || (decide (a < base + len) && decide (base < a + n))
  let pages := s.oldPages x base len
  (s.cores.any fun e => e.2.ops.any fun o => mine o.ctx && laps o.va.toNat o.size)
    || (s.dies.any fun e => e.2.tasks.any fun t =>
      mine t.2.ctx && t.2.wbuf.any fun b => pages.any fun g => decide (g.1 ≤ b.1) && decide (b.1 < g.1 + g.2))
    || (s.clusters.any fun e => e.2.wins.any fun w => mine w.2.ctx && !w.2.cbuf.isEmpty)
    || s.oldRequest mine laps

/-- The physical address of the level-0 entry that maps `va` in context `x`, where every level above it names a table
(R364). -/
def State.entryAt (s : State) (x va : Nat) : Option Nat :=
  let down (lvl table : Nat) : Option Nat :=
    let e := readEntry s.mem (table + 8 * tableIndex lvl va)
    if bit e 0 ∧ entryOk lvl e ∧ ¬ bit e 1 then some (fld e 51 8 * 256) else none
  let root := (s.ctx x).ptroot
  (down 3 (fld root 51 15 * 2 ^ 15)).bind fun t => (down 2 t).bind fun t => (down 1 t).map fun t => t + 8 * tableIndex 0 va

/-- The list entry of a page that stays (R373). -/
def keptPage : Nat := 2 ^ 64 - 1

/-- One page of a migration: its leaf is a valid 64 KiB leaf of another page that is not pinned and not protected (R431), or the
page stays. None while
an access by the old translation is outstanding. -/
def State.movePage (s : State) (m : Cmd) (v dst : Nat) : Option (State × Nat) :=
  match s.walk m.ctx v, s.entryAt m.ctx v with
  | .leaf e, some pte =>
    if e.lg ≠ 16 ∨ bit e.leaf 5 ∨ e.pbase = dst ∨ s.shut m.ctx .load [e.pbase] then some (s, keptPage)
    else if s.oldAccess (some m.ctx) v 0x10000 then none
    else
      let plain := (placeOf e.pbase).plain && (placeOf (e.pbase + 0xFFFF)).plain
      let s := s.storeBytes dst (if plain then s.mem.readBytes e.pbase 0x10000 else s.bytesAt e.pbase 0x10000)
      let s := s.storeBytes pte (bytesLE 8 (setFld e.leaf 51 8 (dst / 256)).toNat)
      some (s.dropTlbs (some m.ctx) v 0x10000, e.pbase)
  | _, _ => some (s, keptPage)

/-- A migration from page `m.prog` on (R373): it moves pages until it ends, meets a fault on its list, or must wait. -/
def State.migrate (s : State) (k : Nat) (m : Cmd) : Nat → State
  | 0 => s.finishCmd k 0
  | n + 1 =>
    let i := m.prog
    let at_ := m.c.toNat + 8 * i
    let stop (va : Nat) : State :=
      (s.setCmd k m).holdFault m.core
        { src := 2, cause := tPageFault, ctx := m.ctx, ord := i, loc := m.tok, val := BitVec.ofNat 64 va } (.cmd k)
    match s.vaddrs m.core m.ctx .atomic at_ 8 with
    | (_, some (va, 0)) => stop va
    | (_, some (_, _)) => s.finishCmd k tPageFault
    | (ps, none) =>
      let dst := natLE (ps.map s.byteAt)
      if ps.any fun p => !(placeOf p).plain then s.finishCmd k tRemoteRefused
      else if s.shut m.ctx .atomic ps ∨ s.shut m.ctx .store [dst] then s.finishCmd k tAccess
      else if dst % 0x10000 ≠ 0 ∨ ¬ isRam dst then s.finishCmd k tEngineArg
      else match s.movePage m (m.a.toNat + 0x10000 * i) dst with
        | none => s.setCmd k m
        | some (t, old) =>
          if s.liveAt ps then s.setCmd k m
          else ((t.cacheRun m.core m.ctx .atomic at_ 8).writeAt ps (bytesLE 8 old)).migrate k { m with prog := i + 1 } n

/-- XLATE_CMD_COMPLETE: xhint.mig moves its pages, xhint.pref warms the cluster's caches, xinv drops entries once the accesses
that used them are performed (R372 to R374). -/
def execXlateCmdComplete (k : Nat) (s : State) : Res :=
  .next (match s.cmd? k with
    | none => s
    | some m =>
      if m.held.isSome then s
      else match m.op with
        | 0x31 => s.migrate k m (m.b.toNat / 0x10000 - m.prog)
        | 0x32 =>
          let t := (List.range (m.b.toNat / 0x10000)).foldl
            (fun s i => s.fillTlb m.core m.ctx (m.a.toNat + 0x10000 * i) {}) s
          t.finishCmd k 0
        | 0x33 =>
          let x := if bit m.c 6 then none else some (fld m.c 5 0)
          if s.oldAccess x m.a.toNat m.b.toNat then s
          else (s.dropTlbs x m.a.toNat m.b.toNat).finishCmd k 0
        | _ => s)

end Sys2Proof.Machine
end

