-- ==== Sys2Proof/Machine/Flags.lean ====
section
/-! DEFINITION. The sticky flags %fflags (R36) and the writing of floating results (R257). -/

namespace Sys2Proof.Machine

/-- Add flags to %fflags; flags only ever set (R36). -/
def CoreSt.raise (k : CoreSt) (f : Flags) : CoreSt := { k with fflags := k.fflags ||| f }

/-- The low `n` bits of an f-register: only the bits a format needs (R257). -/
def CoreSt.rdFn (k : CoreSt) (r : BitVec 5) (n : Nat) : Nat := (k.rdF r.toNat).toNat % 2 ^ n

/-- The value of an f-register as FP32 (R258). -/
def CoreSt.rdF32 (k : CoreSt) (r : BitVec 5) : FVal := FVal.decode .f32 (k.rdFn r 32)

/-- Write a floating result with zero above it, and add its flags (R257). -/
def CoreSt.wrFp (k : CoreSt) (d : BitVec 5) (r : Nat × Flags) : CoreSt := (k.wrF d.toNat (BitVec.ofNat 64 r.1)).raise r.2

end Sys2Proof.Machine
end

