-- ==== Sys2Proof/Machine/Fp.lean ====
section
/-! DEFINITION. Scalar floating point (R257 to R261). -/

namespace Sys2Proof.Machine

/-- f-register d := f of the FP32 values of a and b (R258). -/
def State.fp2 (s : State) (d a b : BitVec 5) (f : FVal → FVal → Nat × Flags) : State :=
  s.inPlace [] [a.toNat, b.toNat] [] [d.toNat] fun k => (k.wrFp d (f (k.rdF32 a) (k.rdF32 b))).issue 4

/-- f-register d := f of a's low `n` bits. -/
def State.fp1 (s : State) (d a : BitVec 5) (n : Nat) (f : Nat → Nat × Flags) : State :=
  s.inPlace [] [a.toNat] [] [d.toNat] fun k => (k.wrFp d (f (k.rdFn a n))).issue 4

/-- s-register d := f of a's FP32 pattern, with flags. -/
def State.fpToS (s : State) (d a : BitVec 5) (f : Nat → Word × Flags) : State :=
  s.inPlace [] [a.toNat] [d.toNat] [] fun k => ((k.wr d.toNat (f (k.rdFn a 32)).1).raise (f (k.rdFn a 32)).2).issue 4

/-- fcmp: s-register d := 1 or 0 (R147, R258). -/
def State.fcmp (s : State) (d a b : BitVec 5) (rel : Nat) : State :=
  s.inPlace [] [a.toNat, b.toNat] [d.toNat] [] fun k =>
    let r := fCmp .f32 rel (k.rdFn a 32) (k.rdFn b 32)
    ((k.wr d.toNat (flag1 r.1)).raise r.2).issue 4

/-- The fused family: (-1)^np a b + (-1)^nc c with one rounding (R261). -/
def State.fused (s : State) (d a b c : BitVec 5) (rm : BitVec 3) (np nc : Bool) : State :=
  s.inPlace [] [a.toNat, b.toNat, c.toNat] [] [d.toNat] fun k =>
    let x := if np then (k.rdF32 a).neg else k.rdF32 a
    let z := if nc then (k.rdF32 c).neg else k.rdF32 c
    (k.wrFp d (fFma .f32 (.of rm.toNat) x (k.rdF32 b) z)).issue 4

/-- fadd (R258). -/
def execFadd (d a b : BitVec 5) (rm : BitVec 3) (s : State) : Res := .next (s.fp2 d a b (fAdd .f32 (.of rm.toNat)))
/-- fsub (R258). -/
def execFsub (d a b : BitVec 5) (rm : BitVec 3) (s : State) : Res :=
  .next (s.fp2 d a b fun x y => fAdd .f32 (.of rm.toNat) x y.neg)
/-- fmul (R258). -/
def execFmul (d a b : BitVec 5) (rm : BitVec 3) (s : State) : Res := .next (s.fp2 d a b (fMul .f32 (.of rm.toNat)))
/-- fdiv (R258). -/
def execFdiv (d a b : BitVec 5) (rm : BitVec 3) (s : State) : Res := .next (s.fp2 d a b (fDiv .f32 (.of rm.toNat)))
/-- fsqrt (R258). -/
def execFsqrt (d a : BitVec 5) (rm : BitVec 3) (s : State) : Res :=
  .next (s.fp1 d a 32 fun x => fSqrt .f32 (.of rm.toNat) (.decode .f32 x))
/-- fmin (R146, R258). -/
def execFmin (d a b : BitVec 5) (s : State) : Res :=
  .next (s.inPlace [] [a.toNat, b.toNat] [] [d.toNat] fun k =>
    (k.wrFp d (fMinMax .f32 false (k.rdFn a 32) (k.rdFn b 32), 0)).issue 4)
/-- fmax (R146, R258). -/
def execFmax (d a b : BitVec 5) (s : State) : Res :=
  .next (s.inPlace [] [a.toNat, b.toNat] [] [d.toNat] fun k =>
    (k.wrFp d (fMinMax .f32 true (k.rdFn a 32) (k.rdFn b 32), 0)).issue 4)
/-- fneg (R258). -/
def execFneg (d a : BitVec 5) (s : State) : Res := .next (s.fp1 d a 32 fun x => (fNegAbs .f32 false x, 0))
/-- fabs (R258). -/
def execFabs (d a : BitVec 5) (s : State) : Res := .next (s.fp1 d a 32 fun x => (fNegAbs .f32 true x, 0))
/-- fkey (R259). -/
def execFkey (d a : BitVec 5) (s : State) : Res :=
  .next (s.fpToS d a fun x => ((fkeyOf (BitVec.ofNat 32 x)).zeroExtend 64, 0))
/-- fcmp.eq (R258). -/
def execFcmpEq (d a b : BitVec 5) (s : State) : Res := .next (s.fcmp d a b 0)
/-- fcmp.lt (R258). -/
def execFcmpLt (d a b : BitVec 5) (s : State) : Res := .next (s.fcmp d a b 2)
/-- fcmp.le (R258). -/
def execFcmpLe (d a b : BitVec 5) (s : State) : Res := .next (s.fcmp d a b 3)
/-- fcvt.s32.f32: sign-extended into d (R260). -/
def execFcvtS32F32 (d a : BitVec 5) (rm : BitVec 3) (s : State) : Res :=
  .next (s.fpToS d a fun x =>
    let r := fToInt (.of rm.toNat) (intLo 8) (intHi 8) (.decode .f32 x)
    (BitVec.ofInt 64 r.1, r.2))
/-- fcvt.n32.f32: zero-extended into d (R260). -/
def execFcvtN32F32 (d a : BitVec 5) (rm : BitVec 3) (s : State) : Res :=
  .next (s.fpToS d a fun x =>
    let r := fToInt (.of rm.toNat) (intLo 9) (intHi 9) (.decode .f32 x)
    (BitVec.ofInt 64 r.1, r.2))
/-- fcvt.f32.s32 (R258). -/
def execFcvtF32S32 (d a : BitVec 5) (rm : BitVec 3) (s : State) : Res :=
  .next (s.inPlace [a.toNat] [] [] [d.toNat] fun k =>
    (k.wrFp d (fOfInt .f32 (.of rm.toNat) false (intOf 8 (k.rd a.toNat).toNat))).issue 4)
/-- fcvt.f32.n32 (R258). -/
def execFcvtF32N32 (d a : BitVec 5) (rm : BitVec 3) (s : State) : Res :=
  .next (s.inPlace [a.toNat] [] [] [d.toNat] fun k =>
    (k.wrFp d (fOfInt .f32 (.of rm.toNat) false (intOf 9 (k.rd a.toNat).toNat))).issue 4)
/-- fmv.s: all 64 bits of an f-register (R258). -/
def execFmvS (d a : BitVec 5) (s : State) : Res :=
  .next (s.inPlace [] [a.toNat] [d.toNat] [] fun k => (k.wr d.toNat (k.rdF a.toNat)).issue 4)
/-- fmv.f: all 64 bits of an s-register (R258). -/
def execFmvF (d a : BitVec 5) (s : State) : Res :=
  .next (s.inPlace [a.toNat] [] [] [d.toNat] fun k => (k.wrF d.toNat (k.rd a.toNat)).issue 4)
/-- fcvt.bf16.f32 (R258). -/
def execFcvtBf16F32 (d a : BitVec 5) (rm : BitVec 3) (s : State) : Res :=
  .next (s.fp1 d a 32 fun x => convert 0 2 (.of rm.toNat) false false x)
/-- fcvt.f32.bf16 (R258). -/
def execFcvtF32Bf16 (d a : BitVec 5) (s : State) : Res := .next (s.fp1 d a 16 fun x => convert 2 0 .rne false false x)
/-- fcvt.f16.f32 (R258). -/
def execFcvtF16F32 (d a : BitVec 5) (rm : BitVec 3) (s : State) : Res :=
  .next (s.fp1 d a 32 fun x => convert 0 1 (.of rm.toNat) false false x)
/-- fcvt.f32.f16 (R258). -/
def execFcvtF32F16 (d a : BitVec 5) (s : State) : Res := .next (s.fp1 d a 16 fun x => convert 1 0 .rne false false x)
/-- fma: a b + c (R261). -/
def execFma (d a b c : BitVec 5) (rm : BitVec 3) (s : State) : Res := .next (s.fused d a b c rm false false)
/-- fms: a b - c (R261). -/
def execFms (d a b c : BitVec 5) (rm : BitVec 3) (s : State) : Res := .next (s.fused d a b c rm false true)
/-- fnma: -(a b) + c (R261). -/
def execFnma (d a b c : BitVec 5) (rm : BitVec 3) (s : State) : Res := .next (s.fused d a b c rm true false)
/-- fnms: -(a b) - c (R261). -/
def execFnms (d a b c : BitVec 5) (rm : BitVec 3) (s : State) : Res := .next (s.fused d a b c rm true true)

end Sys2Proof.Machine
end

