-- ==== Sys2Proof/Machine/Image.lean ====
section
/-! DEFINITION. Configuration images (R61 to R72, R85 to R88, R114, R115, R121, R128, R136 and the frame rules of every
operation): what the loader checks, frame by frame, and what an accepted image puts at each site. -/

namespace Sys2Proof.Machine

/-! ## CRC-32C (R71) -/

/-- One bit of the reflected polynomial division. -/
def crcBit (c : BitVec 32) : BitVec 32 := if c.getLsbD 0 then (c >>> 1) ^^^ 0x82F63B78 else c >>> 1

def crcByte (c : BitVec 32) (b : Byte) : BitVec 32 :=
  (List.range 8).foldl (fun c _ => crcBit c) (c ^^^ b.zeroExtend 32)

/-- CRC-32C of a list of bytes. -/
def crc32c (bs : List Byte) : BitVec 32 := bs.foldl crcByte 0xFFFFFFFF ^^^ 0xFFFFFFFF

/-- A frame as its 32 bytes. -/
def frameBytes (f : BitVec 256) : List Byte := bytesLE 32 f.toNat

/-! ## Header frames (R62) -/

def hdNframes (f : BitVec 256) : Nat := fld f 247 232
def hdWq (f : BitVec 256) : Nat := fld f 231 226
def hdHq (f : BitVec 256) : Nat := fld f 225 222
def hdNd (f : BitVec 256) : Nat := fld f 221 220
def hdHeat (f : BitVec 256) : Nat := fld f 219 216
def hdNpat (f : BitVec 256) : Nat := fld f 215 208 + 1
def hdId (f : BitVec 256) : Nat := fld f 207 152

/-- What a header frame breaks of R62. -/
def headerBad (f : BitVec 256) : Bool :=
  fld f 251 248 != 1 || decide (hdNframes f < 3) || hdWq f == 0 || decide (hdWq f > 16) || hdHq f == 0 || decide (hdHq f > 8)
    || fld f 151 0 != 0

/-! ## CE patterns (R63 to R65, R121) -/

/-- Which of the selectors a, b, c (0, 1, 2) an operation reads (R64). -/
def ceUses (op : Nat) : List Nat :=
  match op with
  | 0x04 | 0x12 | 0x1C | 0x1D => [0, 1, 2]
  | 0x1B | 0x1E => [0, 2]
  | 0x06 | 0x09 | 0x0A | 0x0F | 0x14 | 0x16 | 0x17 | 0x18 | 0x1A | 0x20 | 0x21 | 0x24 | 0x33 | 0x34 => [0]
  | 0x00 | 0x1F | 0x22 | 0x31 | 0x32 => []
  | _ => [0, 1]

def ceSel (f : BitVec 256) (i : Nat) : Nat := match i with | 0 => ceA f | 1 => ceB f | _ => ceC f

/-- An assigned CE opcode (R64). -/
def ceOpOk (op : Nat) : Bool := decide (op ≤ 0x24) || decide (0x30 ≤ op ∧ op ≤ 0x34)

/-- The numeric formats .f32 .f16 .bf16, FP8, integers and bit patterns by code (R63). -/
def isFloat3 (x : Nat) : Bool := decide (x ≤ 2)
def isFp8 (x : Nat) : Bool := x == 3 || x == 4
def isInt (x : Nat) : Bool := decide (6 ≤ x ∧ x ≤ 11)
def isBits (x : Nat) : Bool := x == 12 || x == 13

/-- The pairs of activation and weight formats of mma (R65). -/
def mmaPair (sfx w : Nat) : Bool :=
  (isFp8 sfx && isFp8 w) || (sfx == 2 && w == 2) || (sfx == 1 && w == 1) || (sfx == 6 && w == 6) || ((sfx == 3 || sfx == 6) && w == 5)

/-- The operation and sfx pairs of R121. -/
def ceSfxOk (op sfx sub : Nat) : Bool :=
  match op with
  | 0x00 => decide (sfx ≤ 13)
  | 0x01 | 0x02 | 0x03 | 0x05 => isFloat3 sfx || isInt sfx
  | 0x04 | 0x06 => isFloat3 sfx
  | 0x07 | 0x08 | 0x0B => isFloat3 sfx || isFp8 sfx || isInt sfx
  | 0x09 | 0x0A => isFloat3 sfx || isFp8 sfx || sfx == 6 || sfx == 8 || sfx == 10
  | 0x0C | 0x0D | 0x0E | 0x0F | 0x10 | 0x11 => isInt sfx || isBits sfx
  | 0x14 | 0x15 => isFloat3 sfx || isFp8 sfx || isInt sfx
  | 0x16 => isFloat3 sfx
  | 0x17 | 0x18 => if sub ≤ 2 then sfx == 0 || sfx == 8 || sfx == 9 else sfx == 8 || sfx == 9 || sfx == 12
  | 0x1F => sfx == 9
  | 0x22 => sfx == 12
  | 0x21 | 0x23 => sfx == 0
  | 0x30 => mmaPair sfx (sub % 16)
  | 0x31 => sfx == 0 || sfx == 8 || sfx == 12
  | 0x32 | 0x34 => sfx == 12
  | 0x33 => decide (sfx ≤ 4) || sfx == 6 || sfx == 8
  | _ => isBits sfx

/-- The sub values of R64, R150, R153, R155, R165, R169. -/
def ceSubOk (op sfx sub : Nat) : Bool :=
  match op with
  | 0x0B => decide (sub ≤ 3)
  | 0x11 => decide (sub ≤ 1)
  | 0x14 | 0x15 => isFloat3 sub || isFp8 sub || isInt sub
  | 0x16 => isFp8 sub
  | 0x17 | 0x18 => decide (sub ≤ 4)
  | 0x19 | 0x1A => decide (1 ≤ sub ∧ sub ≤ if sfxWide sfx then 4 else 8)
  | 0x23 => decide (sub ≤ 7)
  | 0x30 => fld (BitVec.ofNat 8 sub) 4 4 == 0
  | 0x31 | 0x32 => sub % 32 == 0
  | 0x33 => sub % 32 / 2 == 0
  | _ => sub == 0

/-- The rounding modes of R33, R121, R165, R169, R172, R175. -/
def ceRmOk (op rm : Nat) : Bool :=
  match op with
  | 0x15 => rm == 4
  | 0x30 | 0x31 | 0x32 | 0x34 => rm == 0
  | _ => decide (rm ≤ 3)

/-- The operations that take an eos mode (R130), and the early-capable ones (R131). -/
def ceEosOp (op : Nat) : Bool :=
  [0x01, 0x02, 0x03, 0x04, 0x05, 0x07, 0x08, 0x0B, 0x0C, 0x0D, 0x0E, 0x10, 0x11, 0x12, 0x13, 0x15, 0x19].contains op
def ceJoinOp (op : Nat) : Bool := op == 0x0C || op == 0x0D || op == 0x12 || op == 0x13

/-- The output masks of R63, R134, R136, R153, R169. -/
def ceOmOk (op om : Nat) : Bool :=
  match op with
  | 0x00 => true
  | 0x1B | 0x16 => om == 3
  | 0x1F => om == 1
  | 0x32 | 0x34 => om == 0
  | 0x33 => om == 1 || om == 3
  | _ => om != 0

/-- Selectors that must name an in port (R131, R151, R165, R169, R172, R175). -/
def cePortSels (f : BitVec 256) : List Nat :=
  let op := ceOp f
  if ceJoin f then ceUses op
  else match op with
    | 0x15 => [1]
    | 0x30 => [0, 1]
    | 0x21 | 0x33 | 0x34 => [0]
    | _ => []

/-- What a CE frame breaks by itself. -/
def ceBad (f : BitVec 256) : Bool :=
  let op := ceOp f
  !ceOpOk op || !ceSfxOk op (ceSfx f) (ceSub f) || !ceSubOk op (ceSfx f) (ceSub f) || !ceRmOk op (ceRm f)
    || (ceEos f != 0 && (ceEos f == 3 || !ceEosOp op)) || (ceJoin f && !ceJoinOp op) || !ceOmOk op (ceOm f)
    || ([0, 1, 2].any fun i => !(ceUses op).contains i && ceSel f i != 0)
    || ((cePortSels f).any fun i => decide (ceSel f i ≥ 4)) || fld f 206 0 != 0

/-! ## MT patterns (R66, R185 to R195, R357) -/

/-- 32-bit and 64-bit formats. -/
def isWordSfx (x : Nat) : Bool := decide (x ≤ 13) && (sfxBits x == 32 || sfxBits x == 64)

def mtSfxOk (op sfx : Nat) : Bool :=
  match op with
  | 0x01 => isWordSfx sfx || decide (1 ≤ sfx ∧ sfx ≤ 6)
  | 0x02 | 0x03 | 0x04 | 0x05 | 0x06 => isWordSfx sfx
  | 0x07 => isBits sfx
  | _ => sfx == 12

/-- The selectors that an operation reads: a, b (R188). -/
def mtReads (op : Nat) : Bool × Bool :=
  (op == 1 || op == 2 || op == 3 || op == 4 || op == 5 || op == 6 || op == 7 || op == 0x0A || op == 0x0B,
   op == 2 || op == 4 || op == 6 || op == 7 || op == 8 || op == 0x0B)

/-- An operation that produces data has a data port; any other may have some, for its ERRs (R186, R187). -/
def mtPortsOk (f : BitVec 256) : Bool :=
  match mtOp f with
  | 0x01 | 0x03 | 0x05 | 0x09 => !(mtDataPorts f).isEmpty
  | _ => true

/-- The DONE port (R186). -/
def mtDoneOk (f : BitVec 256) : Bool := if mtDe f then (maskPorts (mtOm f)).contains (mtDport f) else mtDport f == 0

/-- What an MT frame breaks by itself. -/
def mtBad (f : BitVec 256) : Bool :=
  let op := mtOp f
  let (ra, rb) := mtReads op
  decide (op > 0x0B) || !mtSfxOk op (mtSfx f) || decide (mtA f ≥ 12) || decide (mtB f ≥ 12) || (!ra && mtA f != 0)
    || (!rb && mtB f != 0) || (mtCommit f && !(op == 2 || op == 4 || op == 6 || op == 7)) || decide (mtScope f > 4)
    || decide (mtAmo f > 9) || (mtAmo f != 0 && op != 7) || !mtDoneOk f || !mtPortsOk f
    || (op == 7 && mtAmo f == 9 && decide (mtB f ≥ 4)) || ((op == 8 || op == 9) && decide (mtLen f < 10))
    || (op == 0x0A && (decide (mtA f ≥ 4) || mtBase f % 4 != 0 || decide (mtLen f < 3))) || fld f 182 0 != 0

/-! ## AG patterns (R68, R203, R206) -/

/-- The dimensions from `d` on are zero. -/
def agDimsZero (f : BitVec 256) (d : Nat) : Bool := fld f (241 - 40 * d) 82 == 0

/-- sfx of a stream: any format but .b32 and .b64 (R203). -/
def agStreamSfx (x : Nat) : Bool := decide (x ≤ 11)

/-- What an AG frame breaks by itself. The fields that its op does not use are zero (R68), sfx among them outside a stream: the
sfx column of R203 gives the format of an element's packets (log 26). -/
def agBad (f : BitVec 256) : Bool :=
  let rest : Bool := agNd f != 0 || agDir f || agBase f != 0
  fld f 17 0 != 0 ||
    match agOp f with
    | 0 => agSfx f != 0 || rest || !agDimsZero f 0 || agWin f != 0
    | 1 =>
      !agStreamSfx (agSfx f) || ((List.range (agNd f + 1)).any fun d => agCount f d == 0)
        || (decide (agNd f < 3) && !agDimsZero f (agNd f + 1))
    | 2 => !agStreamSfx (agSfx f) || agNd f != 0 || agCount f 0 == 0 || !agDimsZero f 1
    | 3 => agSfx f != 0 || rest || !agDimsZero f 0 || agWin f != 0
    | 4 => agSfx f != 0 || rest || !agDimsZero f 0
    | 5 =>
      agSfx f != 0 || rest || agCount f 0 == 0 || decide (agCount f 0 > 256) || agStride f 0 != 0
        || !agDimsZero f 1 || agWin f != 0
    | _ => true

/-- The lowest and highest offset, in elements, that a stream's dimensions reach (R206). -/
def agReach (f : BitVec 256) : Int × Int :=
  let n := if agOp f = 2 then 1 else agNd f + 1
  (List.range n).foldl (fun (r : Int × Int) d =>
    let x := ((agCount f d : Int) - 1) * agStride f d
    (r.1 + min 0 x, r.2 + max 0 x)) (0, 0)

/-- The lowest and highest byte of a stream (R206). -/
def agBytes (f : BitVec 256) : Int × Int :=
  let (lo, hi) := agReach f
  let w : Int := sfxBits (agSfx f)
  let b : Int := 8 * (agBase f : Int)
  ((b + lo * w) / 8, (b + (hi + 1) * w - 1) / 8)

def agBounds (f : BitVec 256) : Bool :=
  isStream f && (decide ((agBytes f).1 < 0) || decide ((agBytes f).2 ≥ 2 ^ 56))

/-! ## Switch patterns (R67, R114) -/

def swBad (f : BitVec 256) : Bool :=
  ((List.range 20).any fun j =>
    let v := swSelect f j
    decide (v > 0x14) || (decide (j < 16) && decide (1 ≤ v ∧ v ≤ 16) && (v - 1) / 4 == j / 4))
    || fld f 151 150 != 0 || fld f 133 0 != 0

/-! ## Constants that a pattern judges (R135, R136, R152, R172, R175, R195) -/

/-- A .f32 pattern that is finite. -/
def finite32 (w : BitVec 32) : Bool := fld w 30 23 != 255

/-- Do the constants, as far as they are known, break a rule of the pattern? -/
def constBad (f : BitVec 256) (k : Nat → Option (BitVec 32)) : Bool :=
  let is (i : Nat) (p : BitVec 32 → Bool) : Bool := match k i with | some w => p w | none => false
  if frKind f = 1 then
    match ceOp f with
    | 0x1F =>
      is 0 fun w => fld w 31 7 != 0 || fld w 3 2 != 0
        || (List.range (fld w 1 0 + 1)).any fun l => is (l + 1) fun v => v == 0
    | 0x22 => is 0 (fun w => fld w 31 3 != 0) || is 1 (· == 0) || ([8, 9, 10, 11].all fun i => is i (· == 0))
    | 0x21 => is 0 (fun w => fld w 31 2 != 0) || is 1 (fun w => !finite32 w) || is 2 fun w => !finite32 w || w.msb || fld w 30 0 == 0
    | 0x34 => is 0 fun w => fld w 31 2 != 0
    | 0x1D => is 8 fun w => decide (w.toNat > 1)
    | _ => false
  else if tileMode f then
    is 0 (fun w => fld w 31 18 != 0 || fld w 15 10 != 0 || decide (fld w 9 0 < rowWidth (mtSfx f))
      || (bit w 16 && !(mtSfx f == 3 || mtSfx f == 4 || mtSfx f == 5)))
      || is 1 fun w => fld w 31 6 != 0 || fld w 5 0 == 0 || decide (fld w 5 0 > 48)
  else false

/-! ## The image as it is read -/

/-- A pattern of an image: its frame, its rectangle-list and data frames, its stores. -/
structure Pat where
  frame : BitVec 256
  rects : List (BitVec 256) := []
  data : List (BitVec 256) := []
  k : Table (BitVec 32) := []
  lut : Table (BitVec 64) := []
  cbk : Table (BitVec 16) := []
  deriving DecidableEq, Repr

/-- The frames of an image that have been read and hold so far: the region's origins by relative die, the patterns, the
pattern that binds each site's element and switch, the cut edges, and every frame in order. -/
structure Img where
  orgs : List Nat
  hdr : BitVec 256
  pats : List Pat := []
  elem : Table Nat := []
  sw : Table Nat := []
  edges : List (BitVec 48) := []
  frames : List (BitVec 256) := []
  ended : Bool := false
  deriving DecidableEq, Repr

def emptyPat : Pat := { frame := 0 }

def Img.pat? (m : Img) (t : Table Nat) (p : Nat) : Option Pat :=
  if Table.has t p then m.pats[Table.get 0 t p]? else none

/-- The element and the switch frame of a site, where patterns bind them. -/
def Img.elemAt (m : Img) (p : Nat) : Option (BitVec 256) := (m.pat? m.elem p).map (·.frame)
def Img.swAt (m : Img) (p : Nat) : Option (BitVec 256) := (m.pat? m.sw p).map (·.frame)

/-- Does the footprint hold a site? -/
def Img.holds (m : Img) (p : Nat) : Bool := m.orgs.any fun o => inFootprint o (hdWq m.hdr) (hdHq m.hdr) p

/-- The sites of the footprint. -/
def Img.sites (m : Img) : List Nat := m.orgs.flatMap fun o => footprintSites o (hdWq m.hdr) (hdHq m.hdr)

/-! ## Dies and boundaries (R15, R67, R115) -/

/-- The compute die across a side: 0 north, 1 east, 2 south, 3 west. -/
def dieAcross (d side : Nat) : Option Nat :=
  match d, side with
  | 0, 1 => some 1
  | 0, 2 => some 2
  | 1, 3 => some 0
  | 1, 2 => some 3
  | 2, 1 => some 3
  | 2, 0 => some 0
  | 3, 3 => some 2
  | 3, 0 => some 1
  | _, _ => none

/-- A site on the edge of its die at a side. -/
def onEdge (p side : Nat) : Bool :=
  match side with
  | 0 => siteY p == 0
  | 1 => siteX p == 63
  | 2 => siteY p == 31
  | _ => siteX p == 0

/-- A cut edge (R70): its source site and port, its far site and port, vl and channel, as raw relative values. -/
structure Edge where
  sd : Nat
  sx : Nat
  sy : Nat
  sp : Nat
  dd : Nat
  dx : Nat
  dy : Nat
  dp : Nat
  vl : Nat
  chan : Nat
  deriving DecidableEq, Repr

def Edge.of (e : BitVec 48) : Edge :=
  { sd := fld e 47 46, sx := fld e 45 40, sy := fld e 39 35, sp := fld e 34 31, dd := fld e 30 29, dx := fld e 28 23,
    dy := fld e 22 18, dp := fld e 17 14, vl := fld e 13 12, chan := fld e 11 0 }

/-- The place of relative coordinates: the origin added (R223); its coordinates may leave the grid. -/
def relocate (orgs : List Nat) (d x y : Nat) : Nat × Nat × Nat :=
  let o := orgs.getD d 0
  (siteDie o, siteX o + x, siteY o + y)

def Edge.src (m : Img) (e : Edge) : Nat := let (d, x, y) := relocate m.orgs e.sd e.sx e.sy; siteAt d x y
def Edge.dst (m : Img) (e : Edge) : Nat := let (d, x, y) := relocate m.orgs e.dd e.dx e.dy; siteAt d x y

/-- What identifies the channel of a cut edge on the die boundary: its source die, its side, vl and channel. -/
def Edge.channel (m : Img) (e : Edge) : Nat × Nat × Nat × Nat := (siteDie (e.src m), e.sp / 4, e.vl, e.chan)

/-- A cut edge joins dies that share the boundary its two ports face, at sites on the facing edges (R70, R115, R223). -/
def edgeFaces (m : Img) (e : Edge) : Bool :=
  let side := e.sp / 4
  dieAcross (siteDie (e.src m)) side == some (siteDie (e.dst m)) && onEdge (e.src m) side && onEdge (e.dst m) ((side + 2) % 4)
    && e.dp / 4 == (side + 2) % 4

/-- What a cut-edge entry breaks of R70 and R115 by itself. The same conditions stand in R223 with T_CFG_BOUNDS: R72 puts
T_CFG_FIELD first. -/
def edgeBad (m : Img) (e : Edge) : Bool :=
  decide (e.sd ≥ m.orgs.length) || decide (e.dd ≥ m.orgs.length) || e.sd == e.dd
    || decide (e.sx ≥ 4 * hdWq m.hdr) || decide (e.sy ≥ 4 * hdHq m.hdr) || decide (e.dx ≥ 4 * hdWq m.hdr)
    || decide (e.dy ≥ 4 * hdHq m.hdr) || !edgeFaces m e

/-! ## Routes joined with elements (R114) -/

/-- The in ports that a pattern may read, and those it must be served at. -/
def mayRead (e s : BitVec 256) : List Nat := readPorts { elem := e, sw := s }
def needsRead (e : BitVec 256) : List Nat := if frKind e = 2 ∧ mtOp e = 0x0A then [] else readPorts { elem := e }

/-- Does a switch pattern at the site of an element pattern break R114: it selects an output that the element does not drive,
or feeds an input that the pattern does not read? -/
def pairBad (e s : BitVec 256) : Bool :=
  (List.range 20).any fun j =>
    let v := swSelect s j
    (decide (v ≥ 0x11) && !(drivenPorts e).contains (v - 0x11))
      || (decide (j ≥ 16) && v != 0 && !(mayRead e s).contains (j - 16))

/-- An output that no destination selects, or a read input that no destination serves. -/
def unserved (e s : BitVec 256) : Bool :=
  ((drivenPorts e).any fun k => !(List.range 20).any fun j => swSelect s j == 0x11 + k)
    || (needsRead e).any fun k => swSelect s (16 + k) == 0

/-- The causes of a switch pattern placed at a site: a bridge bit off a die boundary, a link that leaves the region. -/
def swSiteCauses (m : Img) (p : Nat) (s : BitVec 256) : List Nat :=
  (List.range 16).flatMap fun j =>
    let side := j / 4
    if swBridge s j then
      if (dieAcross (siteDie p) side).isSome ∧ onEdge p side then [] else [tCfgField]
    else if swSelect s j = 0 then []
    else match neighbour p side with
      | some q => if m.holds q then [] else [tCfgBounds]
      | none => [tCfgBounds]

/-- Two ungated streams of one window of a cluster (R211), among the sites of a list. -/
def ownersClash (m : Img) (ps : List Nat) : Bool :=
  let free := ps.filterMap fun p =>
    match m.elemAt p with
    | some e => if isStream e ∧ swSelect ((m.swAt p).getD 0) 19 = 0 then some (siteCluster p * 32 + agWin e) else none
    | none => none
  (dedup free).length != free.length

/-! ## Frames (R61, R69, R70, R72) -/

/-- The places of rectangle `r` (R69): its relative die, and coordinates relative to that die's origin. -/
def rectPlaces (r : Nat) : List (Nat × Nat × Nat) :=
  let w : BitVec 32 := BitVec.ofNat 32 r
  let xs := 2 ^ fld w 7 6
  let ys := 2 ^ fld w 5 4
  (List.range ((fld w 12 8 - fld w 23 19) / ys + 1)).flatMap fun j => (List.range ((fld w 18 13 - fld w 29 24) / xs + 1)).map fun i =>
    (fld w 31 30, fld w 29 24 + xs * i, fld w 23 19 + ys * j)

/-- The site of a relative place, where it lies in the region. -/
def Img.site? (m : Img) (a : Nat × Nat × Nat) : Option Nat :=
  if a.2.1 < 4 * hdWq m.hdr ∧ a.2.2 < 4 * hdHq m.hdr then
    let (d, x, y) := relocate m.orgs a.1 a.2.1 a.2.2
    some (siteAt d x y)
  else none

/-- What one rectangle breaks by itself and with the header. -/
def rectCauses (m : Img) (r : Nat) : List Nat :=
  let w : BitVec 32 := BitVec.ofNat 32 r
  if fld w 3 0 ≠ 0 ∨ fld w 29 24 > fld w 18 13 ∨ fld w 23 19 > fld w 12 8 ∨ fld w 31 30 ≥ m.orgs.length then [tCfgField]
  else if fld w 18 13 ≥ 4 * hdWq m.hdr ∨ fld w 12 8 ≥ 4 * hdHq m.hdr then [tCfgBounds]
  else []

/-- A pattern suits the kind of a site (R69), whose coordinates may be relative to an origin: kinds repeat with the quad (R17). -/
def kindFits (f : BitVec 256) (p : Nat) : Bool :=
  match frKind f with
  | 1 => siteKind p == .ce
  | 2 => siteKind p == .mt
  | 4 => siteKind p == .ag
  | _ => true

def Img.setPat (m : Img) (i : Nat) (f : Pat → Pat) : Img := { m with pats := m.pats.modify i f }

/-- A rectangle-list frame: T_CFG_FIELD goes before T_CFG_BOUNDS (R72), so a rectangle that leaves the region is judged on too. -/
def Img.rectFrame (m : Img) (f : BitVec 256) : Img × List Nat :=
  let i := fld f 248 241
  let n := fld f 251 249
  match m.pats[i]? with
  | none => (m, [tCfgOrder])
  | some pat =>
    let rs := (List.range n).map fun j => fld f (223 - 32 * j) (192 - 32 * j)
    let own := if n = 0 ∨ fld f 240 224 ≠ 0 ∨ (n < 7 ∧ fld f (223 - 32 * n) 0 ≠ 0) then [tCfgField] else []
    let cs := own ++ rs.flatMap (rectCauses m)
    if cs.contains tCfgField then (m, cs)
    else
      let at_ := rs.flatMap rectPlaces
      let ps := at_.filterMap m.site?
      let isSw := frKind pat.frame == 3
      let t := if isSw then m.sw else m.elem
      let bad := (at_.any fun a => !kindFits pat.frame (siteAt 0 a.2.1 a.2.2)) || ps.any fun p => Table.has t p && Table.get 0 t p != i
      let t' := ps.foldl (fun t p => Table.put t p i) t
      let m' := (if isSw then { m with sw := t' } else { m with elem := t' }).setPat i fun q => { q with rects := q.rects ++ [f] }
      let joined := ps.any fun p =>
        match m'.elemAt p, m'.swAt p with
        | some e, some s => pairBad e s
        | _, _ => false
      let bound := (m'.elem.map (·.1)).filter (Table.has m'.sw)
      (m', cs ++ (if bad ∨ joined ∨ ownersClash m' bound then [tCfgField] else [])
        ++ if isSw then ps.flatMap fun p => swSiteCauses m' p pat.frame else [])

/-- A constants frame. -/
def Img.constFrame (m : Img) (f : BitVec 256) : Img × List Nat :=
  let i := fld f 251 244
  let first := fld f 243 240
  let n := fld f 239 237
  match m.pats[i]? with
  | none => (m, [tCfgOrder])
  | some pat =>
    let kind := frKind pat.frame
    let top := if kind = 1 then 12 else if kind = 2 then 8 else 0
    if n = 0 ∨ n > 6 ∨ first + n > top ∨ fld f 236 192 ≠ 0 ∨ (n < 6 ∧ fld f 191 (32 * n) ≠ 0) then (m, [tCfgField])
    else
      let k := (List.range n).foldl (fun t j => Table.put t (first + j) (BitVec.ofNat 32 (fld f (32 * j + 31) (32 * j)))) pat.k
      let m := m.setPat i fun q => { q with data := q.data ++ [f], k }
      (m, if constBad pat.frame fun j => if Table.has k j then some (Table.get 0 k j) else none then [tCfgField] else [])

/-- A LUT chunk. -/
def Img.lutFrame (m : Img) (f : BitVec 256) : Img × List Nat :=
  let i := fld f 251 244
  let first := fld f 243 236
  let n := fld f 235 234
  match m.pats[i]? with
  | none => (m, [tCfgOrder])
  | some pat =>
    if frKind pat.frame ≠ 1 ∨ n = 0 ∨ first + n > 256 ∨ fld f 233 192 ≠ 0 ∨ (n < 3 ∧ fld f 191 (64 * n) ≠ 0) then (m, [tCfgField])
    else
      let t := (List.range n).foldl (fun t j => Table.put t (first + j) (BitVec.ofNat 64 (fld f (64 * j + 63) (64 * j)))) pat.lut
      (m.setPat i fun q => { q with data := q.data ++ [f], lut := t }, [])

/-- A codebook chunk. -/
def Img.cbkFrame (m : Img) (f : BitVec 256) : Img × List Nat :=
  let i := fld f 251 244
  let first := fld f 243 240
  let n := fld f 239 236
  match m.pats[i]? with
  | none => (m, [tCfgOrder])
  | some pat =>
    if frKind pat.frame ≠ 1 ∨ n = 0 ∨ n > 12 ∨ first + n > 16 ∨ fld f 235 192 ≠ 0 ∨ (n < 12 ∧ fld f 191 (16 * n) ≠ 0) then
      (m, [tCfgField])
    else
      let t := (List.range n).foldl (fun t j => Table.put t (first + j) (BitVec.ofNat 16 (fld f (16 * j + 15) (16 * j)))) pat.cbk
      (m.setPat i fun q => { q with data := q.data ++ [f], cbk := t }, [])

/-- A cut-edge map. Two entries of one image that share a boundary, a direction, a vl and a channel raise T_CFG_BOUNDS, as one
that another slot's takes does (R223). -/
def Img.cutFrame (m : Img) (f : BitVec 256) : Img × List Nat :=
  let n := fld f 251 250 + 1
  let es := (List.range n).map fun j => BitVec.ofNat 48 (fld f (48 * j + 47) (48 * j))
  let m' := { m with edges := m.edges ++ es }
  let chans := m'.edges.map fun e => (Edge.of e).channel m'
  let twice := decide (chans.eraseDups.length ≠ chans.length)
  let field := fld f 249 192 ≠ 0 ∨ (n < 4 ∧ fld f 191 (48 * n) ≠ 0) ∨ (es.any fun e => edgeBad m (Edge.of e))
  (m', (if field then [tCfgField] else []) ++ if twice then [tCfgBounds] else [])

/-- A pattern frame: numbered from 0 in order; one beyond npat is charged to itself (R61). -/
def Img.patFrame (m : Img) (f : BitVec 256) : Img × List Nat :=
  let excess := if m.pats.length ≥ hdNpat m.hdr then [tCfgOrder] else []
  let own := match frKind f with
    | 1 => if ceBad f then [tCfgField] else []
    | 2 => (if mtBad f then [tCfgField] else []) ++ if mtBase f + mtLen f > 131071 then [tCfgBounds] else []
    | 3 => if swBad f then [tCfgField] else []
    | _ => (if agBad f then [tCfgField] else []) ++ if agBounds f then [tCfgBounds] else []
  ({ m with pats := m.pats ++ [{ frame := f }] }, excess ++ own)

/-! ## The whole image (R72, R114, R128) -/

/-- Where an image's switches send what leaves destination `j` of site `p`. -/
def Img.hop (m : Img) (p j : Nat) : Option (Nat × Nat) :=
  if swBridge ((m.swAt p).getD 0) j then
    ((m.edges.map Edge.of).find? fun e => e.src m == p && e.sp == j).map fun e => (e.dst m, e.dp)
  else (neighbour p (j / 4)).bind fun q => if m.holds q then some (q, farLane j) else none

/-- What follows source `r` of site `p` (lanes 0 to 15, outs 16 to 19) on the channels of the image, through elements too, but
not through input b of an lcmerge. -/
def Img.after (m : Img) (n : Nat × Nat) : List (Nat × Nat) :=
  let (p, r) := n
  let s := (m.swAt p).getD 0
  let e := (m.elemAt p).getD 0
  (List.range 20).flatMap fun j =>
    if swSelect s j ≠ r + 1 then []
    else if j < 16 then (m.hop p j).toList
    else if isLcmerge e ∧ ceB e = j - 16 then []
    else (drivenPorts e).map fun k => (p, 16 + k)

/-- Nodes of which some successor is left, again and again: what stays after as many rounds as there are nodes lies on or before
a cycle. -/
def peel (next : Nat × Nat → List (Nat × Nat)) : Nat → List (Nat × Nat) → List (Nat × Nat)
  | 0, ns => ns
  | k + 1, ns => peel next k (ns.filter fun n => (next n).any (ns.contains ·))

/-- A directed cycle that passes through no input b of an lcmerge (R128). -/
def Img.cyclic (m : Img) : Bool :=
  let ns := m.sites.flatMap fun p => (List.range 20).map fun r => (p, r)
  !(peel m.after ns.length ns).isEmpty

/-- What only the whole image breaks: a cycle, an output or read input that nothing serves, a bridge bit with no cut edge, a
constant that was never loaded, ungated streams of one window. -/
def Img.wholeBad (m : Img) : Bool :=
  (m.sites.any fun p =>
    let e := (m.elemAt p).getD 0
    let s := (m.swAt p).getD 0
    unserved e s || pairBad e s
      || (List.range 16).any fun j => swBridge s j && !(m.edges.map Edge.of).any fun d => d.src m == p && d.sp == j)
    || (m.pats.any fun q => constBad q.frame fun j => some (Table.get 0 q.k j))
    || ownersClash m (m.elem.map (·.1)) || m.cyclic

/-- The CRC-and-end frame. -/
def Img.endFrame (m : Img) (i : Nat) (f : BitVec 256) : Img × List Nat :=
  ({ m with ended := true },
    (if i + 1 ≠ hdNframes m.hdr ∨ m.pats.length ≠ hdNpat m.hdr then [tCfgOrder] else [])
      ++ (if fld f 251 32 ≠ 0 ∨ m.wholeBad then [tCfgField] else [])
      ++ if crc32c (m.frames.flatMap frameBytes) ≠ f.truncate 32 then [tCfgCrc] else [])

/-- Frame `i` of an image, after the header: what the image becomes, and the causes the frame is charged with. -/
def Img.frame (m : Img) (i : Nat) (f : BitVec 256) : Img × List Nat :=
  let kind := frKind f
  let late := if i + 1 = hdNframes m.hdr ∧ kind ≠ 0x0A then [tCfgOrder] else []
  let (m', cs) :=
    match kind with
    | 0 => (m, [tCfgOrder])
    | 1 | 2 | 3 | 4 => m.patFrame f
    | 5 => m.rectFrame f
    | 6 => m.constFrame f
    | 7 => m.lutFrame f
    | 8 => m.cbkFrame f
    | 9 => m.cutFrame f
    | 0x0A => m.endFrame i f
    | _ => (m, [tCfgKind])
  ({ m' with frames := m.frames ++ [f] }, late ++ cs)

/-- The first cause in the order of R72, which is that of their numbers. -/
def firstCause : List Nat → Option Nat
  | [] => none
  | c :: cs => some (cs.foldl min c)

/-! ## What an image puts at a site (R215) -/

/-- The idle element of a site (R64, R188, R68). -/
def idleFrame (p : Nat) : BitVec 256 :=
  match siteKind p with
  | .ce => BitVec.ofNat 256 (2 ^ 252)
  | .mt => BitVec.ofNat 256 (2 ^ 253 + 12 * 2 ^ 243)
  | .ag => BitVec.ofNat 256 (2 ^ 254)

/-- The context that a load installs at site `p`: its patterns or idle, its stores, counters clear. -/
def Img.install (m : Img) (p : Nat) : Cfg :=
  let e := (m.pat? m.elem p).getD { frame := idleFrame p }
  let q := (List.range 4).map fun i => (i, Table.get (0 : BitVec 32) e.k (8 + i))
  { elem := e.frame, sw := (m.swAt p).getD 0, k := (List.range 8).map (fun i => (i, Table.get (0 : BitVec 32) e.k i)),
    q, q0 := q, lut := e.lut, cbk := e.cbk,
    edge := (m.edges.map Edge.of).filterMap fun d => if d.src m = p then some (d.sp, d.dst m, d.dp) else none }

end Sys2Proof.Machine
end

