-- ==== Sys2Proof/Machine/Search.lean ====
section
/-! DEFINITION. The search instructions (R345 to R351): incumbent slots, kill points, bounds and spawned tasks. -/

namespace Sys2Proof.Machine

/-- The issuing core's die. -/
def State.curDie (s : State) : Nat := dieOf s.cur

/-- inc.init: at the home the slot must be free or the context's; every copy is withdrawn before the home changes and
holds the new state before d is written (R345). -/
def execIncInit (d a b c : BitVec 5) (s : State) : Res :=
  .next (s.whenReady [a.toNat, b.toNat, c.toNat] [] [d.toNat] [] fun k =>
    s.noSpec <|
    let av := k.rd a.toNat
    let n := fld av 7 0
    let home := Table.get {} s.incs n
    if fld av 63 10 ≠ 0 ∨ fld (k.rd b.toNat) 63 32 ≠ 0 then s.trap s.cur tIncArg 0
    else if k.out 0 ≥ 1023 then s.stallCore s.cur (.counter 0)
    else match k.req with
      | some (.answered v) => s.setCore s.cur ((k.wr d.toNat v).issue 4)
      | some _ => s.stallCore s.cur .answer
      | none =>
        if Table.has s.inits n then s.stallCore s.cur .answer
        else if home.valid ∧ home.owner ≠ k.ctx then s.setCore s.cur ((k.wr d.toNat 1).issue 4)
        else
          let next : Inc :=
            if bit av 9 then { home with valid := false }
            else { key := (k.rd b.toNat).truncate 32, payload := k.rd c.toNat, count := 0, dir := bit av 8, valid := true,
                   owner := k.ctx }
          { s with inits := Table.put s.inits n { core := s.cur, next, acks := [], done := [] } }.setCore s.cur
            { k with req := some (.incInit n), stall := some .answer })

/-- inc.rd: an item of the die's local copy (R346). -/
def execIncRd (d a : BitVec 5) (s : State) : Res :=
  .next (s.whenReady [a.toNat] [] [d.toNat] [] fun k =>
    let av := k.rd a.toNat
    let item := fld av 9 8
    if fld av 63 10 ≠ 0 ∨ item = 3 then s.trap s.cur tIncArg 0
    else if k.out 0 ≥ 1023 then s.stallCore s.cur (.counter 0)
    else
      let v : Word := match s.ownInc s.curDie (fld av 7 0) k.ctx with
        | none => 0
        | some u =>
          match item with
          | 0 => BitVec.ofNat 64 (u.count.toNat * 2 ^ 32 + u.key.toNat)
          | 1 => u.payload
          | _ => BitVec.ofNat 64 (2 ^ 33 + (if u.dir then 2 ^ 32 else 0) + u.owner)
      s.setCore s.cur ((k.wr d.toNat v).issue 4))

/-- The limits and ownership that an offer needs (R347, R348). -/
def State.offerOk (s : State) (k : CoreSt) (a b : BitVec 5) (f : Inc → State) : State :=
  if fld (k.rd a.toNat) 63 8 ≠ 0 ∨ fld (k.rd b.toNat) 63 32 ≠ 0 then s.trap s.cur tIncArg 0
  else match s.ownInc s.curDie (fld (k.rd a.toNat) 7 0) k.ctx with
    | none => s.trap s.cur tIncOwner 0
    | some u => f u

/-- inc.offer: the task's pending offer, sent when it commits (R347). -/
def execIncOffer (a b c : BitVec 5) (s : State) : Res :=
  .next (s.whenReady [a.toNat, b.toNat, c.toNat] [] [] [] fun k =>
    match k.task.bind fun h => (s.task? h).map fun t => (h, t) with
    | none => s.trap s.cur tSpecOp 0
    | some (h, t) =>
      if ¬ t.spec ∨ t.phase ≠ .running then s.trap s.cur tSpecOp 0
      else s.offerOk k a b fun u =>
        let n := fld (k.rd a.toNat) 7 0
        let key : BitVec 32 := (k.rd b.toNat).truncate 32
        match t.offer with
        | none =>
          (s.setTask h { t with offer := some (n, key, k.rd c.toNat) }).setCore s.cur (k.issue 4)
        | some (m, old, _) =>
          if m ≠ n then s.trap s.cur tIncArg 0
          else if better u.dir key old then
            (s.setTask h { t with offer := some (n, key, k.rd c.toNat) }).setCore s.cur (k.issue 4)
          else s.setCore s.cur (k.issue 4))

/-- inc.offer.i: the offer leaves at once, and d takes the home's answer (R348). -/
def execIncOfferI (d a b c : BitVec 5) (s : State) : Res :=
  .next (s.whenReady [a.toNat, b.toNat, c.toNat] [] [d.toNat] [] fun k =>
    s.noSpec <|
    match k.req with
    | some (.answered v) => s.setCore s.cur ((k.wr d.toNat v).issue 4)
    | some _ => s.stallCore s.cur .answer
    | none =>
      s.offerOk k a b fun _ =>
        if k.out 0 ≥ 1023 then s.stallCore s.cur (.counter 0)
        else
          let s := s.sendOffer
            { slot := fld (k.rd a.toNat) 7 0, key := (k.rd b.toNat).truncate 32, payload := k.rd c.toNat, ctx := k.ctx,
              die := s.curDie, cluster := s.cur, reply := decide (d ≠ 0) }
          if d = 0 then s.setCore s.cur (k.issue 4)
          else s.setCore s.cur { k with req := some .offer, stall := some .answer })

/-- killpt: kills the task of a handle if it is killable on this die; the current task's kill ends the handler (R349). A task
has this kill point while it runs, but for a copy or collective task, and not once it is DONE (R325, R330). -/
def execKillpt (a : BitVec 5) (s : State) : Res :=
  .next (s.whenReady [a.toNat] [] [] [] fun k =>
    match s.handle? (k.rd a.toNat) k.ctx with
    | none => s.trap s.cur tTaskState 0
    | some (h, t) =>
      if s.killable s.curDie t ∧ t.phase = .running ∧ t.kind ≠ 1 ∧ t.kind ≠ 2 then
        let s := (s.setCore s.cur (k.issue 4)).kill h
        if k.task = some h then s.modCore s.cur CoreSt.endHandler else s
      else s.setCore s.cur (k.issue 4))

/-- bound.set: replaces a task's bound word (R350). -/
def execBoundSet (a b : BitVec 5) (s : State) : Res :=
  .next (s.whenReady [a.toNat, b.toNat] [] [] [] fun k =>
    let w := k.rd b.toNat
    if ¬ bOk w then s.trap s.cur tIncArg 0
    else match s.handle? (k.rd a.toNat) k.ctx with
      | none => s.trap s.cur tTaskState 0
      | some (h, t) =>
        if bBounded w ∧ (s.ownInc s.curDie (bSlot w) k.ctx).isNone then s.trap s.cur tIncOwner 0
        else (s.setTask h { t with bound := w }).setCore s.cur (k.issue 4))

/-- The pool's answer to tspawn: FULL, or a reserved entry (R351). -/
def State.spawn (s : State) (k : CoreSt) (d : BitVec 5) (av bv : Word) (h? : Option ((Nat × Nat) × Task)) : State :=
  match h? with
  | none => s.trap s.cur tTaskState 0
  | some (h, t) =>
    if k.out 0 ≥ 1023 then s.stallCore s.cur (.counter 0)
    else if s.poolUse h.1 ≥ 4096 ∨ t.kids.length ≥ 64 then s.setCore s.cur ((k.wr d.toNat 1).issue 4)
    else if t.spec ∧ ¬ t.irrev then
      if s.bufferRoom h t then
        (s.setTask h { t with kids := t.kids ++ [(av, bv)] }).setCore s.cur ((k.wr d.toNat 0).issue 4)
      else s.stallCore s.cur (.commit h)
    else (s.addChild h.1 t.job t.ctx t.ts av bv).setCore s.cur ((k.wr d.toNat 0).issue 4)

/-- tspawn: adds a task to the spawning task's job; held while that task is speculative (R351). -/
def execTspawn (d a b c : BitVec 5) (s : State) : Res :=
  .next (s.whenReady [a.toNat, b.toNat, c.toNat] [] [d.toNat] [] fun k =>
    let av := k.rd a.toNat
    if fld av 5 0 ≠ 0 ∨ fld av 63 56 ≠ 0 then s.trap s.cur tAlign av
    else if ¬ bOk (k.rd b.toNat) then s.trap s.cur tIncArg 0
    else
      let h? := s.handle? (k.rd c.toNat) k.ctx
      match s.specOf s.cur with
      | some (h, _) =>
        if h?.map (·.1) ≠ some h then s.trap s.cur tSpecOp 0 else s.spawn k d av (k.rd b.toNat) h?
      | none => s.spawn k d av (k.rd b.toNat) h?)

end Sys2Proof.Machine
end

