-- ==== Sys2Proof/Machine/Queue.lean ====
section
/-! DEFINITION. launch, trig, exit, msg.send (R301 to R306), cfg.query (R235) and zreq (R405, R406). -/

namespace Sys2Proof.Machine

/-- launch: appends a descriptor to the die's pending-launch store of 512 entries, or answers FULL (R302). -/
def execLaunch (d a : BitVec 5) (s : State) : Res :=
  .next (s.whenReady [a.toNat] [] [d.toNat] [] fun k =>
    s.noSpec <|
    let av := k.rd a.toNat
    if fld av 7 0 ≠ 0 ∨ fld av 63 56 ≠ 0 then s.trap s.cur tAlign av
    else if (s.die s.curDie).launches.length < 512 then
      (s.modDie s.curDie fun u => { u with launches := u.launches ++ [(av, k.ctx)] }).setCore s.cur ((k.wr d.toNat 0).issue 4)
    else s.setCore s.cur ((k.wr d.toNat (BitVec.ofNat 64 (2 ^ 62))).issue 4))

/-- trig: the group bound to the running handler's channel counts as triggered (R303). -/
def execTrig (s : State) : Res :=
  .next (match s.boundGroup s.cur with
    | none => s.trap s.cur tTaskState 0
    | some (d, t, g) =>
      let s := match s.task? (d, t) with
        | none => s
        | some v => s.setTask (d, t) (v.trigger g)
      s.modCore s.cur fun k => k.issue 4)

/-- A status marks a task failed with cause a[6:0] when it is not zero (R305). -/
def Task.status (t : Task) (a : Word) : Task := if a = 0 then t else t.fail (fld a 6 0)

/-- exit how = 1: ends the handler and completes the control or search task of a handle; a speculative task's handler ends with
it, and with status 0 it becomes DONE, with another it fails; one that is DONE already stays as it is (R7, R304, R305, R330). -/
def State.exitTask (s : State) (k : CoreSt) (av bv : Word) : State :=
  match s.handle? bv k.ctx with
  | none => s.trap s.cur tTaskState 0
  | some (h, t) =>
    if t.kind ≠ 3 ∧ t.kind ≠ 4 then s.trap s.cur tTaskState 0
    else if t.phase ≠ .running then s.setCore s.cur (k.issue 4).endHandler
    else
      let s := s.setCore s.cur (k.issue 4).endHandler
      let s := if t.spec then s.endTaskHandler h t else s
      if t.spec ∧ av = 0 then s.setTask h { t with phase := .done }
      else s.complete h (t.status av)

/-- exit how = 2: the group bound to the channel exits with status a, and counts as triggered (R304, R313). -/
def State.exitGroup (s : State) (k : CoreSt) (av : Word) : State :=
  match s.boundGroup s.cur with
  | none => s.trap s.cur tTaskState 0
  | some (d, t, g) =>
    let s := s.setCore s.cur (k.issue 4).endHandler
    match s.task? (d, t) with
    | none => s
    | some v =>
      let s := s.setTask (d, t) ((v.status av).trigger g)
      match (v.group g).phase with
      | .running | .preempting => s.groupToExit (d, t) g
      | _ => s

/-- exit (R304): how in its third field; 3 to 31, and a or b other than s0 with how = 0, raise T_UNDEF_OP. In a
speculative task only how = 1 with its own handle is allowed (R328). -/
def execExit (a b how : BitVec 5) (s : State) : Res :=
  .next (if how.toNat ≥ 3 ∨ (how = 0 ∧ (a ≠ 0 ∨ b ≠ 0)) then s.undef (.exit a b how)
    else s.whenReady [a.toNat, b.toNat] [] [] [] fun k =>
      let own : Bool := match s.specOf s.cur with
        | none => true
        | some (h, t) => how == 1 && k.rd b.toNat == handleWord h.1 t.serial
      if ¬ own then s.trap s.cur tSpecOp 0
      else match how.toNat with
        | 0 => s.setCore s.cur (k.issue 4).endHandler
        | 1 => s.exitTask k (k.rd a.toNat) (k.rd b.toNat)
        | _ => s.exitGroup k (k.rd a.toNat))

/-- msg.send: n words from register c on to a channel of a cluster (R306). -/
def execMsgSend (d a c : BitVec 5) (s : State) : Res :=
  .next (s.whenReady [a.toNat] [] [d.toNat] [] fun k =>
    s.noSpec <|
    let av := k.rd a.toNat
    let n := fld av 14 12 + 1
    if fld av 63 15 ≠ 0 ∨ bit av 7 ∨ (c = 0 ∧ n > 1) ∨ c.toNat + n - 1 > 31 then s.undef (.msgSend d a c)
    else
      let rs := (List.range n).map fun i => c.toNat + i
      match k.waits rs [] [] [] with
      | some w => s.stallCore s.cur w
      | none =>
        let cl := fld av 6 0
        let h := (s.core cl).channel (fld av 11 8)
        let ws := rs.map k.rd
        let m0 : Word := BitVec.ofNat 64 (2 ^ 56 + s.cur * 2 ^ 48 + fld (ws.getD 0 0) 47 0)
        let phase := (s.ctx h.actCtx).phase
        if ¬ h.actEn ∨ (h.actCtx ≠ k.ctx ∧ ¬ k.priv) ∨ (s.gated cl ∧ cl ≠ s.cur) then s.setCore s.cur ((k.wr d.toNat 2).issue 4)
        else if phase = .quiescing ∨ phase = .quiesced then s.setCore s.cur ((k.wr d.toNat 3).issue 4)
        else if ¬ h.room then s.setCore s.cur ((k.wr d.toNat 1).issue 4)
        else
          (s.setCore s.cur ((k.wr d.toNat 0).issue 4)).postTo cl (fld av 11 8)
            { words := m0 :: ws.drop 1, group := ((s.core cl).channel (fld av 11 8)).bound (s.boundGroup s.cur) })

/-! ## cfg.query (R235) -/

/-- The number of a slot's state (R235). -/
def SlotPhase.number : SlotPhase → Nat
  | .empty => 0
  | .loaded => 1
  | .armed => 2
  | .active => 3
  | .suspended => 4
  | .drained => 5

/-- Round up to a multiple of 16. -/
def round16 (n : Nat) : Nat := (n + 15) / 16 * 16

/-- The kind of a site's element record (R233). -/
def SiteKind.record : SiteKind → Nat
  | .ce => 0
  | .mt => 1
  | .ag => 2

/-- The bytes that a cfg.save of a region's slot writes (R233, log 12). -/
def Region.saveBytes (g : Region) : Nat :=
  g.sites.foldl (fun a p => a + 32 + round16 (Config.saveLen (siteKind p).record).toNat + round16 (Config.saveLen 3).toNat) 64

/-- The packets in a site's buffers, buffer by buffer: lanes, wires, in ports, out ports. -/
def Site.buffers (t : Site) : List (List Pkt) :=
  (t.lane ++ t.wire ++ t.inb ++ t.outb).map (·.2)

/-- Clear the flags and discard counts of a slot at every site of its region (R235, item 5). -/
def State.clearFlags (s : State) (g : Region) (n : Nat) : State :=
  g.sites.foldl (fun s p => s.modSite p fun t => t.setSlot n { t.slot n with flags := 0, discard := 0 }) s

/-- The value of a query item of slot `n` of region `r`. -/
def State.queryItem (s : State) (r n item : Nat) : Word :=
  let g := s.region r
  let u := g.slot n
  let flags := g.sites.foldl (fun (a : BitVec 6) p => if siteKind p = .ce then a ||| ((s.site p).slot n).flags else a) 0
  match item with
  | 0 =>
    let id := if u.phase = .empty then 0 else u.image
    BitVec.ofNat 64 (id * 256 + (if g.cur = some n then 8 else 0) + u.phase.number)
  | 1 => BitVec.ofNat 64 ((if u.limited then 2 ^ 32 else 0) + u.tc.toNat)
  | 3 => BitVec.ofNat 64 (g.sites.foldl (fun a p => a + ((s.site p).slot n).discard.toNat) 0)
  | 4 => BitVec.ofNat 64 g.saveBytes
  | 6 => BitVec.ofNat 64 (g.sites.foldl (fun a p => a + ((s.site p).buffers.filter (·.any g.leftOver)).length) 0)
  | _ => flags.zeroExtend 64

/-- cfg.query: answered at once (R235); an item of 7 to 15 raises T_CFG_FIELD. -/
def execCfgQuery (d b c : BitVec 5) (s : State) : Res :=
  .next (s.whenReady [b.toNat, c.toNat] [] [d.toNat] [] fun k =>
    let cv := k.rd c.toNat
    let bv := k.rd b.toNat
    if ¬ s.descMine s.cur bv then s.trap s.cur tPriv 0
    else if fld cv 63 8 ≠ 0 ∨ fld cv 3 2 ≠ 0 ∨ ¬ descOk bv ∨ fld cv 7 4 ≥ 7 then s.trap s.cur tCfgField 0
    else
      let r := (s.regionOf (descOrg bv 0)).getD 0
      let n := fld cv 1 0
      let v := s.queryItem r n (fld cv 7 4)
      let s := if fld cv 7 4 = 5 then s.clearFlags (s.region r) n else s
      s.modCore s.cur fun k => (k.wr d.toNat v).issue 4)

/-! ## ZREQ (R405, R406) -/

/-- zreq: the operand check, then `f` on the cluster; op other than 0 needs a bound group whose footprint holds it. -/
def State.zreq (s : State) (d a : BitVec 5) (change : Bool)
    (f : CoreSt → Nat → Option ((Nat × Nat) × Nat × Group) → Nat × State) : State :=
  s.whenReady [a.toNat] [] [d.toNat] [] fun k =>
    s.noSpec <|
    let av := k.rd a.toNat
    let c := fld av 6 0
    let done (g : Option ((Nat × Nat) × Nat × Group)) : State :=
      let (status, t) := f k c g
      t.modCore s.cur fun k => (k.wr d.toNat (t.zreqWord c status)).issue 4
    if fld av 63 7 ≠ 0 then s.trap s.cur tZoneArg 0
    else if k.out 0 ≥ 1023 then s.stallCore s.cur (.counter 0)
    else if ¬ change then done none
    else match s.boundGroup s.cur with
      | none => s.trap s.cur tTaskState 0
      | some (td, t, g) =>
        let v := match s.task? (td, t) with | some u => u.group g | none => {}
        match v.region with
        | none => s.trap s.cur tPriv 0
        | some r => if (s.region r).inCluster c then done (some ((td, t), g, v)) else s.trap s.cur tPriv 0

/-- zreq op 0: reads the zone. -/
def execZreqQuery (d a : BitVec 5) (s : State) : Res := .next (s.zreq d a false fun _ _ _ => (0, s))

/-- The state after the group's reservation on zone `c` becomes `r`, with its min computed afresh. -/
def State.reserve (s : State) (c : Nat) (h : Nat × Nat) (g : Nat) (v : Group) (r : Option Nat) : State :=
  let q := match r with
    | some cls => Table.put v.zreq c (cls, s.groupCtr)
    | none => Table.del v.zreq c
  ({ s with groupCtr := s.groupCtr + 1 }.setGroup h g { v with zreq := q }).reMin c

/-- zreq op 1: a reservation of a class, REFUSED or FULL where the zone or the budget does not admit it. -/
def execZreqRaise (d a : BitVec 5) (cls : BitVec 4) (s : State) : Res :=
  .next (s.zreq d a true fun _ c g =>
    if ¬ s.zUsable c ∨ (s.die (dieOf c)).pressHeld then (2, s)
    else match g with
      | none => (2, s)
      | some (h, i, v) =>
        let t := s.reserve c h i v (some cls.toNat)
        if t.sumMins (dieOf c) > s.zbudget (dieOf c) then (1, s) else (0, t))

/-- zreq op 2: drops the group's reservation. -/
def execZreqDrop (d a : BitVec 5) (s : State) : Res :=
  .next (s.zreq d a true fun _ c g =>
    match g with
    | none => (0, s)
    | some (h, i, v) => (0, s.reserve c h i v none))

end Sys2Proof.Machine
end

