-- ==== Sys2Proof/Machine/Loader.lean ====
section
/-! DEFINITION. The loader of a region (R214 to R235): loads, arming, the drain and the swap, saves and restores, each as
one operation that the CFG commands, the dispatch of a group and its pre-emption share. -/

namespace Sys2Proof.Config

/-- What the body bytes of a save area that this machine did not write say of one site: their layout is not given (R233,
log 12). -/
opaque restoredSite : List Byte → Nat → Machine.SavedSite

end Sys2Proof.Config

namespace Sys2Proof.Machine

/-- A number from `n` bytes of a list at offset `o`. -/
def slice (bs : List Byte) (o n : Nat) : Nat := natLE ((bs.drop o).take n)

/-- Bytes of a context's memory as the sequencer or loader of die `d` reads them; none where one does not translate. -/
def State.seqRead (s : State) (d x va n : Nat) : Option (List Byte) :=
  (s.openAddrs (seqPlace d) x .load va n).toOption.map fun ps => ps.map s.byteAt

/-- The bytes, or the cause with which the read ends what it is for: protection closes them, or one does not translate. -/
def State.seqFetch (s : State) (d x va n : Nat) : Except Nat (List Byte) :=
  match s.openAddrs (seqPlace d) x .load va n with
  | .ok ps => .ok (ps.map s.byteAt)
  | .error a => .error (s.openCause (seqPlace d) x .load a)

/-- The translations of a sequencer's or loader's reads stay in its cache (R366). -/
def State.seqSeen (s : State) (d x va n : Nat) : State := s.cacheRun (seqPlace d) x .load va n

/-- Bytes written by the sequencer or loader of die `d`; none where one does not translate, and nothing is written. -/
def State.seqWrite (s : State) (d x va : Nat) (bs : List Byte) : Option State :=
  (s.openAddrs (seqPlace d) x .store va bs.length).toOption.map fun ps => (s.cacheRun (seqPlace d) x .store va bs.length).writeAt ps bs

/-! ## Who owns a region -/

/-- The region that a descriptor names. -/
def State.regionNamed (s : State) (desc : Word) : Option Nat := (s.regions.find? fun e => e.2.named desc).map (·.1)

/-- The region that a load into a descriptor's footprint concerns: the one that it names, else the one at its origin (R215). -/
def State.loadRegion (s : State) (desc : Word) : Option Nat :=
  match s.regionNamed desc with
  | some g => some g
  | none => (s.regions.find? fun e => e.2.holds (descOrg desc 0)).map (·.1)

/-- The die whose loader serves a descriptor: that of relative die 0. -/
def loaderDie (desc : Word) : Nat := siteDie (descOrg desc 0)

/-- The quads of a footprint, by their first sites. -/
def footprintQuads (org wq hq : Nat) : List Nat :=
  (List.range hq).flatMap fun y => (List.range wq).map fun x => siteAt (siteDie org) (siteX org + 4 * x) (siteY org + 4 * y)

/-- A footprint leaves its die (R215). -/
def leavesDie (org wq hq : Nat) : Bool := decide (siteX org + 4 * wq > 64) || decide (siteY org + 4 * hq > 32)

/-! ## Reading an image (R222) -/

/-- The channels that the cut edges of every slot take, but for slot `n` of the regions `gs` that a load replaces (R223). -/
def State.channels (s : State) (gs : List Nat) (n : Nat) : List (Nat × Nat × Nat × Nat) :=
  s.regions.flatMap fun e => e.2.slots.flatMap fun u =>
    if (gs.contains e.1 ∧ u.1 = n) ∨ u.2.phase = SlotPhase.empty then []
    else u.2.cuts.map fun c => (Edge.of c).channel { orgs := (List.range 4).map (descOrg e.2.desc), hdr := 0 }

/-- The frames after the header, in image order: the first offending frame decides the cause (R72). `rd i` reads frame `i`,
`used` are the channels that other slots take. -/
def readFrames (rd : Nat → Except Nat (List Byte)) (used : List (Nat × Nat × Nat × Nat)) : Nat → Nat → Img → Except Nat Img
  | 0, _, m => .ok m
  | n + 1, i, m =>
    if m.ended then .ok m
    else match rd i with
      | .error c => .error c
      | .ok bs =>
        let (m', cs) := m.frame i (BitVec.ofNat 256 (natLE bs))
        let taken := (m'.edges.drop m.edges.length).any fun e => used.contains ((Edge.of e).channel m')
        match firstCause (cs ++ if taken then [tCfgBounds] else []) with
        | some c => .error c
        | none => readFrames rd used n (i + 1) m'

/-- What a header frame is charged with by itself and with its container (R61, R62). -/
def headerCause (f : BitVec 256) (nframes : Nat) : Option Nat :=
  firstCause ((if frKind f ≥ 0x0B then [tCfgKind] else []) ++ (if frKind f ≠ 0 ∨ hdNframes f ≠ nframes then [tCfgOrder] else [])
    ++ if headerBad f then [tCfgField] else [])

/-- The origins that an image of a header takes from a descriptor; those beyond nd must be zero, and the dies differ (R214). -/
def orgsOf (desc : Word) (f : BitVec 256) : Option (List Nat) :=
  let os := (List.range (hdNd f + 1)).map (descOrg desc)
  if (List.range 4).any (fun d => decide (hdNd f < d) && descOrg desc d != 0) || (dedup (os.map siteDie)).length != os.length then none
  else some os

/-- The quads of an image's footprint, by its origins and header. -/
def imageQuads (os : List Nat) (f : BitVec 256) : List Nat := os.flatMap fun o => footprintQuads o (hdWq f) (hdHq f)

/-- A region whose footprint, the set of its quads, is that of an image (R215). -/
def Region.shaped (r : Region) (os : List Nat) (f : BitVec 256) : Bool :=
  sameMembers ((List.range (r.nd + 1)).flatMap fun d => footprintQuads (descOrg r.desc d) r.wq r.hq) (imageQuads os f)

/-- The regions that share a quad with the footprint of an image, in their order: a load of slot `n` replaces what that slot
holds in each (R215). -/
def State.overlapped (s : State) (os : List Nat) (f : BitVec 256) : List Nat :=
  (s.regions.filter fun e => (imageQuads os f).any e.2.holds).map (·.1)

/-- On some quad the footprint of an image for slot `n` partly overlaps that of another slot that holds a configuration
(R215). -/
def State.clashes (s : State) (n : Nat) (os : List Nat) (f : BitVec 256) : Bool :=
  (s.overlapped os f).any fun g =>
    let r := s.region g
    ([0, 1, 2, 3].any fun m => (r.slot m).phase != .empty && m != n) && !r.shaped os f

/-- The footprint of an image judged in the order of R215: `mine` says whether a quad belongs to the issuing group, `clash`
whether it partly overlaps another slot's. -/
def footprintCause (os : List Nat) (f : BitVec 256) (mine : Nat → Bool) (clash : Bool) : Option Nat :=
  if os.any fun o => leavesDie o (hdWq f) (hdHq f) then some tCfgBounds
  else if (imageQuads os f).any fun q => !mine q then some tPriv
  else if clash then some tCfgBounds else none

/-- The per-pattern CRC entries (R86): pattern `i`'s entry holds its index and the CRC over its frames. DESIGN CHOICE (log 73):
an entry of another index fails too, and the entry of a pattern that reaches no element is compared as well. -/
def ccrcBad (rd : Nat → Except Nat (List Byte)) : Nat → List Pat → Option Nat
  | _, [] => none
  | i, p :: ps =>
    match rd i with
    | .error c => some c
    | .ok e =>
      let bs := (p.frame :: (p.rects ++ p.data)).flatMap frameBytes
      if slice e 0 4 ≠ i ∨ slice e 4 4 ≠ (crc32c bs).toNat then some tCfgCrc else ccrcBad rd (i + 1) ps

/-- The key slots that context `x` accepts an image's keyid from (R430): with req = 1 those of its mask, else every one. -/
def State.keySlots (s : State) (x keyid : Nat) : List Nat :=
  let pol := (s.ctx x).imgpol
  (List.range 8).filter fun k =>
    (!bit pol 8 || bit pol k) && keyid != 0 && slice (s.regBytes (iodN + 0x28000 + 0x800 * k) 1) 0 8 == keyid

/-- An image's digest (R88): its container header with bytes [23:16] zero, then every frame. -/
def imageDigest (head : List Byte) (m : Img) : List Byte :=
  takeFn 64 (Config.shake256 (head.take 16 ++ List.replicate 8 0 ++ (head.drop 24).take 8 ++ m.frames.flatMap frameBytes))

/-- A .csig entry fails: its digest, its key or its signature (R88, R222, R430). DESIGN CHOICE (log 73): its id and its reserved
bytes are not compared. -/
def State.sigBad (s : State) (x : Nat) (e dig : List Byte) : Bool :=
  (e.drop 16).take 64 != dig
    || !(s.keySlots x (slice e 8 8)).any fun k =>
      Config.mldsaVerify ((s.regBytes (iodN + 0x28000 + 0x800 * k + 8) 244)) dig ((e.drop 80).take 3309)

/-! ## Load and arm (R217, R224, R225) -/

/-- Does a slot admit a load: not ACTIVE, not SUSPENDED, not DRAINED and current? -/
def Region.loadable (r : Region) (n : Nat) : Bool :=
  let ph := (r.slot n).phase
  !(ph == .active || ph == .suspended || (ph == .drained && r.cur == some n))

/-- Read the container at `va` for slot `n` of the region that `desc` names, in context `x` (R222): the image, or the cause. The
slot's state has been found to admit a load where `free` holds; so must the state of that slot wherever the footprint reaches. -/
def State.readImage (s : State) (x : Nat) (desc : Word) (n va : Nat) (free : Bool) (mine : Nat → Bool) : Except Nat Img :=
  let rd (a k : Nat) : Except Nat (List Byte) := s.seqFetch (loaderDie desc) x a k
  if va % 32 ≠ 0 then .error tCfgKind
  else match rd va 32 with
    | .error c => .error c
    | .ok head =>
      if slice head 0 4 ≠ 0x00474D49 then .error tCfgKind
      else if ¬ free then .error tCfgState
      else if bit (s.ctx x).imgpol 8 ∧ slice head 20 4 = 0xFFFFFFFF then .error tCfgSig
      else match rd (va + 32) 32 with
        | .error c => .error c
        | .ok bs =>
          let f := BitVec.ofNat 256 (natLE bs)
          match headerCause f (slice head 12 4), orgsOf desc f with
          | some c, _ => .error c
          | none, none => .error tCfgField
          | none, some os =>
            let gs := s.overlapped os f
            match footprintCause os f mine (s.clashes n os f) with
            | some c => .error c
            | none =>
              if gs.any fun g => !(s.region g).loadable n then .error tCfgState else
              let used := s.channels gs n
              match readFrames (fun i => rd (va + 32 + 32 * i) 32) used (hdNframes f - 1) 1 { orgs := os, hdr := f, frames := [f] } with
              | .error c => .error c
              | .ok m =>
                match ccrcBad (fun i => rd ((s.ctx x).ccrc.toNat + 8 * (slice head 16 4 + i)) 8) 0 m.pats with
                | some c => .error c
                | none =>
                  if slice head 20 4 = 0xFFFFFFFF then .ok m
                  else match rd ((s.ctx x).csig.toNat + 3392 * slice head 20 4) 3392 with
                    | .error c => .error c
                    | .ok e => if s.sigBad x e (imageDigest head m) then .error tCfgSig else .ok m

/-- A site outside the footprint that slot `n` gets: what it held of the slot goes, but for the flags of its context (R36). -/
def Site.unslot (t : Site) (n : Nat) : Site :=
  { t.setSlot n { flags := (t.slot n).flags } with forks := t.forks.filter (fun f => f.slot != n), dry := Table.del t.dry n }

/-- Region `g` takes the footprint of an image for slot `n`, where it has another, and the order of its relative dies (R215). -/
def State.reshape (s : State) (g n : Nat) (desc : Word) (m : Img) : State :=
  let r := s.region g
  if r.desc = desc ∧ r.shaped m.orgs m.hdr then s
  else
    (r.sites.foldl (fun s p => if m.holds p then s else s.modSite p fun t => t.unslot n) s).setRegion g
      { r with desc, wq := hdWq m.hdr, hq := hdHq m.hdr, nd := hdNd m.hdr }

/-- Slot `n` of region `g` is replaced by a load whose footprint only shares quads with it: it is EMPTY, and a region that holds no
configuration any more is none (R215). -/
def State.dissolve (s : State) (n g : Nat) : State :=
  let s := (s.region g).sites.foldl (fun s p => s.modSite p fun t => t.unslot n) s
  let r := (s.region g).setSlot n {}
  if [0, 1, 2, 3].all fun m => (r.slot m).phase == .empty then { s with regions := Table.del s.regions g } else s.setRegion g r

/-- A region of its own for a footprint in quads of a group that hold no configuration (R215). -/
def State.newRegion (s : State) (desc : Word) (m : Img) : State :=
  let own := s.region ((s.regionOf (descOrg desc 0)).getD s.nextRegion)
  let r : Region := { desc, wq := hdWq m.hdr, hq := hdHq m.hdr, nd := hdNd m.hdr, group := own.group, quads := own.quads }
  { s with regions := Table.put s.regions s.nextRegion r, nextRegion := s.nextRegion + 1 }

/-- Commit an image to slot `n` of region `g` on every die at once; a CE context's flags stay (R36). Where the region runs no slot
its elements are LOADING until a swap (R127, R217). -/
def State.commitImage (s : State) (g n : Nat) (m : Img) (va : Word) : State :=
  let still := (s.region g).cur.isNone
  let s := (s.region g).sites.foldl (fun s p => s.modSite p fun t =>
    let t := if still ∧ t.phase = .idle ∧ (m.install p).works then { t with phase := .loading } else t
    { t.setSlot n { m.install p with flags := (t.slot n).flags } with
      forks := t.forks.filter (fun f => f.slot != n), dry := Table.del t.dry n }) s
  s.modRegion g fun r =>
    r.setSlot n { phase := .loaded, image := hdId m.hdr, heat := hdHeat m.hdr, container := va, cuts := m.edges
                  crossed := (r.slot n).crossed }

/-- cfg.load's effect (R222). -/
def State.loadSlot (s : State) (x : Nat) (desc : Word) (n : Nat) (va : Word) (mine : Nat → Bool) : Except Nat State :=
  let g := s.loadRegion desc
  let free := match g with | some g => (s.region g).loadable n | none => true
  match s.readImage x desc n va.toNat free mine with
  | .error c => .error c
  | .ok m => .ok (match s.overlapped m.orgs m.hdr with
    | g :: gs => ((gs.foldl (State.dissolve · n) s).reshape g n desc m).commitImage g n m va
    | [] => (s.newRegion desc m).commitImage s.nextRegion n m va)

/-- The translations that die `d`'s sequencer or loader used to read a container stay in its cache (R366). -/
def State.imageSeen (s : State) (d x va : Nat) : State :=
  match s.seqRead d x va 16 with
  | none => s
  | some h => s.seqSeen d x va (32 + 32 * slice h 12 4)

/-- A stream whose bytes lie outside its window (R206). -/
def State.streamOut (s : State) (p n : Nat) : Bool :=
  let f := ((s.site p).slot n).elem
  isStream f &&
    let u := s.win (siteCluster p) (agWin f)
    let (lo, hi) := agBytes f
    !(u.bound && decide ((u.base : Int) ≤ lo) && decide (hi < (u.stop : Int)))

/-- A configuration as arming leaves it: counters, marks and pending cancellations clear, q0 to q3 from the constants, or clear
at a cnt (R136), every run at its start. DESIGN CHOICE (log 84): the discard count is none of the counters that an arm clears. -/
def Cfg.armed (c : Cfg) : Cfg :=
  { elem := c.elem, sw := c.sw, k := c.k, q := if frKind c.elem = 1 ∧ ceOp c.elem = 0x1F then [] else c.q0, q0 := c.q0, lut := c.lut, cbk := c.cbk, flags := c.flags,
    discard := c.discard, edge := c.edge }

/-- The stream of slot `n` at site `p` that has no gate owns its window from the arm on (R211). -/
def State.ownWindow (s : State) (p n : Nat) : State :=
  let c := (s.site p).slot n
  if isStream c.elem ∧ swSelect c.sw 19 = 0 then
    s.modWin (siteCluster p) (agWin c.elem) fun u => { u with owner := some p }
  else s

/-- cfg.arm's effect (R217, R224). -/
def State.armSlot (s : State) (g n : Nat) (tc : Word) : Except Nat State :=
  let r := s.region g
  let ph := (r.slot n).phase
  let idle : Bool := ph == .loaded || ph == .armed || (ph == .drained && r.cur != some n)
  if fld tc 63 32 ≠ 0 then .error tCfgField
  else if ¬ (idle ∨ ph = .active ∨ ph = .suspended) then .error tCfgState
  else if r.sites.any fun p => s.streamOut p n then .error tStreamBounds
  else
    let s := if idle then r.sites.foldl (fun s p => s.modSite p fun t =>
        { t.setSlot n (t.slot n).armed with dry := Table.del t.dry n }) s else s
    let s := if idle then r.sites.foldl (fun s p => s.ownWindow p n) s else s
    .ok (s.modRegion g fun r =>
      let u := r.slot n
      r.setSlot n { u with phase := if idle then .armed else u.phase, tc := BitVec.ofNat 32 (fld tc 31 0),
                           limited := fld tc 31 0 != 0, ending := false })

/-! ## Quiescence (R227, R230, R447) -/

/-- Every fault that a site holds is T_STRAY_TOKEN, or is that of a generator which read poison (R230, R419). -/
def State.onlyStray (s : State) (p : Nat) : Bool :=
  let u := s.cluster (siteCluster p)
  let mine (h : Holder) : Bool := match h with | .site q _ => q == p | _ => false
  let ok (cause : Nat) : Bool := cause == tStrayToken || (siteKind p == .ag && cause == tEccUncorr)
  (s.site p).phase != .fault
    || ((u.held.all fun e => !mine e.2.holder || ok e.2.cause) && u.owed.all fun o => !mine o.2 || ok o.1.cause)

/-- The generator of a site in FAULT holds its outstanding requests until it is resumed: they delay nothing (R212, R230). -/
def State.genFaulted (s : State) (p : Nat) : Bool := siteKind p == .ag && (s.site p).phase == .fault

/-- No packet of slot `n` in a family of buffers. -/
def noneOf (b : Table (List Pkt)) (n : Nat) : Bool := b.all fun e => e.2.all fun k => k.slot != n

/-- A result of a memory tile that follows, on its port, a result of an entry still queued: it is no firing in progress. -/
def Site.behind (t : Site) (r : Result) : Bool :=
  t.mtq.any fun e => e.slot == r.pkt.slot && (e.outs ++ e.done.toList).any fun o => o.1 == r.port && ordBefore o.2 r.ord

/-- A site at rest for a swap: no firing in progress, no request outstanding (R230). -/
def State.siteQuiet (s : State) (p n : Nat) : Bool :=
  let t := s.site p
  (t.pipe.all fun r => r.pkt.slot != n || t.behind r) && ((t.slot n).reqs.isEmpty || s.genFaulted p) && (t.slot n).due.isEmpty
    && s.onlyStray p

/-- The quiescent point of slot `n` of region `g` (R230); a cut or a kill that runs through the slot is waited for. -/
def State.quiescent (s : State) (g n : Nat) : Bool :=
  let r := s.region g
  (r.sites.all fun p => s.siteQuiet p n) && s.noAnti g n
    && ((s.workers r n).all fun p => !((s.site p).slot n).killing && (s.site p).phase != .idle)
    && ((s.region g).sites.map siteDie).all fun d => (s.die d).cutRegion != some g || s.cutSt d == 0

/-- A source has emitted its final EOS of level 0 (R226, R227). -/
def State.sourceDone (s : State) (p n : Nat) : Bool :=
  let t := s.site p
  let c := t.slot n
  let f := c.elem
  if frKind f = 1 then
    match ceOp f with
    | 0x1F => c.cntDone
    | 0x22 => c.rngDone
    | 0x31 | 0x32 => c.once == 0
    | _ => true
  else if frKind f = 4 ∧ agOp f = 5 then c.stopped && c.todo.isEmpty
  else if frKind f = 4 ∧ agOp f = 1 ∧ ¬ agDir f then
    c.todo.isEmpty && c.reqs.isEmpty && (c.stopped || (c.readDone && !c.hold) || (isGated c && c.pos == 0 && !c.gate && (t.inData n 3).isNone))
  else true

/-- No EOS of level 0 of the slot is on its way to a consumer: one in a lane buffer that no destination selects has arrived. -/
def Site.eosArrived (t : Site) (n : Nat) : Bool :=
  let isEnd (k : Pkt) : Bool := k.slot == n && k.kind == 1 && k.aux == 0
  let c := t.slot n
  let routed (r : Nat) : Bool := (List.range 20).any fun j => swSelect c.sw j == r + 1
  (t.lane.all fun e => !routed e.1 || e.2.all fun k => !isEnd k) && (t.wire.all fun e => e.2.all fun k => !isEnd k)
    && (t.outb.all fun e => !routed (16 + e.1) || e.2.all fun k => !isEnd k)

/-- The coalescing buffers of the windows that a slot's write streams name are written back. -/
def State.coalesced (s : State) (p n : Nat) : Bool :=
  let f := ((s.site p).slot n).elem
  !(isStream f && agDir f) || (s.win (siteCluster p) (agWin f)).cbuf.isEmpty

/-- The drain condition of the current slot `n` of region `g` (R227). -/
def State.drained (s : State) (g n : Nat) : Bool :=
  ((s.region g).sites.all fun p =>
    let t := s.site p
    s.siteQuiet p n && s.sourceDone p n && t.eosArrived n && (t.matq.all fun e => e.slot != n) && (t.mtq.all fun e => e.slot != n)
      && s.coalesced p n) && s.noAnti g n

/-! ## The swap (R230, R231, R436) -/

/-- The end of a configuration interval at a site (R436): its live counts go to its record. The cycle counts are free values
(log 5). -/
def State.endInterval (s : State) (p : Nat) : State :=
  let t := s.site p
  let (ws, s) := (List.range 5).foldl (fun (st : Table Word × State) i =>
    let (w, s) := st.2.draw
    (Table.put st.1 i w, s)) (([] : Table Word), s)
  s.setSite p { t with
    cycles := ws
    rec28 := BitVec.ofNat 64 (t.missing % 256 * 2 ^ 40 + t.blocked % 256 * 2 ^ 32 + t.strayAnti.toNat)
    rec30 := BitVec.ofNat 64 (t.cancelledErr.toNat * 2 ^ 32 + t.strayTok.toNat)
    missing := 0, blocked := 0, strayAnti := 0, cancelledErr := 0, strayTok := 0 }

/-- A site whose slot `n` becomes current: its element waits or, with no pattern, is idle; acc.rd and acc.clr fire once more
(R169, R226, R448), if no drain stopped them, at once where the queue and their ports have room; a watcher emits the counts it
missed (R357). -/
def Site.swapIn (t : Site) (n : Nat) : Site :=
  let c := t.slot n
  let ph : ElemPhase := if c.works then .wait else .idle
  let t := if t.phase = .fault then { t with before := ph } else { t with phase := ph }
  let again : Bool := frKind c.elem == 1 && (ceOp c.elem == 0x31 || ceOp c.elem == 0x32) && !c.stopped
  let t := t.setSlot n { c with once := c.once + if again then 1 else 0, missed := [] }
  let t := c.missed.foldl (fun t v => t.emitAll n (mtDataPorts c.elem) { elems := [v] }) t
  match (if t.live ∧ frKind c.elem = 1 ∧ (ceOp c.elem = 0x31 ∨ ceOp c.elem = 0x32) then t.oncePlace n else .wait) with
  | .run u => u
  | _ => t

/-- What a swap of region `g` to slot `n` does in the cycle that it takes effect; drains that still wait for the outgoing slot
end (R221). -/
def State.swapTo (s : State) (g n : Nat) : State :=
  let s := match (s.region g).cur with | some m => s.endDrains g m tCfgState | none => s
  let r := s.region g
  let out (r : Region) : Region := match r.cur with
    | none => r
    | some m => if (r.slot m).phase = .active then r.setSlot m { r.slot m with phase := .suspended } else r
  let r' := out r
  let s := s.setRegion g { r'.setSlot n { r'.slot n with phase := .active, ending := false } with cur := some n }
  let s := r.sites.foldl (fun s p => (s.endInterval p).modSite p fun t => t.swapIn n) s
  (r.sites.foldl (fun s p => s.strays g p) s).killPoint g

/-- May a swap select slot `n` (R230)? -/
def Region.swappable (r : Region) (n : Nat) : Bool :=
  r.cur != some n && ((r.slot n).phase == .armed || (r.slot n).phase == .suspended)

/-! ## The drain (R228) -/

/-- An acc.rd's queue under mode 1: its executing entry ends with the packet it is making, one that has not begun becomes the EOS
alone, and no other follows (R228). -/
def Site.endReads (t : Site) (n : Nat) : Site :=
  let c := t.slot n
  let mine (e : MatEntry) : Bool := e.slot == n && ceOp e.frame == 0x31
  let last (e : MatEntry) : MatEntry :=
    if e.left.isSome then { e with left := some [(drivenPorts e.frame, { kind := 1 })] } else { e with eos := some 0 }
  match t.matq.find? mine with
  | some e =>
    { t.setSlot n { c with once := 0, stopped := true } with
      matq := (t.matq.takeWhile fun x => !mine x) ++ last e :: (t.matq.dropWhile fun x => !mine x).tail.filter fun x => !mine x }
  | none => t.setSlot n { c with once := min 1 c.once, stopped := true }

/-- Mode 1 at a site: a source emits the EOS of every open level, then that of level 0, and stops. An acc.clr's firing that its
swap has made due still clears its tile (R226). -/
def Site.endSource (t : Site) (n : Nat) : Site :=
  let c := t.slot n
  let f := c.elem
  let close (depth : Nat) : Site := t.setSlot n { c with todo := c.openLevels 0 depth, stopped := true }
  if frKind f = 1 ∧ ceOp f = 0x1F then if c.cntDone then t else close (c.cntLevels - 1)
  else if frKind f = 1 ∧ ceOp f = 0x22 then
    if c.rngDone then t else t.setSlot n { c with todo := [0], stopped := true }
  else if frKind f = 1 ∧ ceOp f = 0x31 then if c.stopped then t else t.endReads n
  else if frKind f = 1 ∧ ceOp f = 0x32 then t.setSlot n { c with once := min 1 c.once, stopped := true }
  else if frKind f = 4 ∧ agOp f = 5 then if c.stopped then t else close 1
  else if frKind f = 4 ∧ agOp f = 1 ∧ ¬ agDir f then
    if c.stopped ∨ (c.readDone ∧ c.reqs = [] ∧ c.todo = []) then t else t.setSlot n { c with hold := true }
  else t

/-- Mode 2 at a site: left-over packets are discarded and counted, with the releases that a matrix element owes for TILEs
(R196), T_STRAY_TOKEN faults freed. -/
def State.purgeSite (s : State) (g p : Nat) : State :=
  let r := s.region g
  let cut (b : Table (List Pkt)) : Table (List Pkt) := b.map fun e => (e.1, e.2.filter fun k => !r.leftOver k)
  let s := s.modSite p fun t =>
    let gone := (t.buffers.flatten.filter r.leftOver).length
    let t := (t.inb.flatMap fun e => e.2.filter r.leftOver).foldl (fun (t : Site) k => t.owe k.slot k) t
    { t with lane := cut t.lane, wire := cut t.wire, inb := cut t.inb, outb := cut t.outb,
             strayTok := BitVec.ofNat 32 (min (t.strayTok.toNat + gone) (2 ^ 32 - 1)) }
  s.freeFaults p fun cause _ => cause == tStrayToken

/-! ## Saving (R143, R174, R200, R213, R232, R233) -/

/-- The barrier whose completions slot `n` of site `p` watches. -/
def Site.watched (t : Site) (p n : Nat) : Option Nat :=
  let f := (t.slot n).elem
  if frKind f = 2 ∧ mtOp f = 0x0A then some (wordAddr p (mtBase f)) else none

/-- The state that a save of slot `n` writes of site `p`; `bare` is the save at a quiet point, which holds no tile and no bins
(R174). A watcher's context keeps its barrier's count (R357). -/
def State.capture (s : State) (r : Region) (p n : Nat) (bare : Bool) : SavedSite :=
  let t := s.site p
  let mine (b : Table (List Pkt)) : Table (List Pkt) := b.map fun e => (e.1, e.2.filter fun k => k.slot == n)
  let lo := accAddr p 0 0
  let own : List Nat := if siteKind p = .ce ∧ ¬ bare then (List.range 8).filter fun k => (Table.get {} t.acc k).owner = n else []
  { site := r.relSite p, cfg := { t.slot n with seen := (t.watched p n).map s.barCount }, inb := mine t.inb
    acc := own.map fun k => (k, Table.get {} t.acc k)
    words :=
      (s.accWords.filter fun e => decide (lo ≤ e.1) && decide (e.1 < lo + 0x10000) && own.contains ((e.1 - lo) / 0x2000)).map fun e =>
        (e.1 - lo, e.2)
    bin := if bare then none else t.bin.filter fun b => b.slot == n
    blocks := t.blocks.filter fun b => b.slot == n
    forks := t.forks.filter fun f => f.slot == n }

/-- What a save takes out of a site: the residue, the bin run, the live blocks and the fork entries of the slot. -/
def Site.leave (t : Site) (n : Nat) : Site :=
  let rest (b : Table (List Pkt)) : Table (List Pkt) := b.map fun e => (e.1, e.2.filter fun k => k.slot != n)
  { t with inb := rest t.inb, bin := t.bin.filter (fun b => b.slot != n),
           blocks := t.blocks.filter (fun b => b.slot != n), forks := t.forks.filter fun f => f.slot != n }

/-- The stepping that %devid reports (R23). -/
def stepping : Nat := if Config.steppingB then 0x0B else 0x0A

/-- The kinds of the records of a save area with their relative sites: an element's before its switch's (R233). -/
def Region.records (r : Region) : List (Nat × Nat) :=
  r.sites.flatMap fun p => [(r.relSite p, (siteKind p).record), (r.relSite p, 3)]

/-- The bytes of a save area; bodies are free values from number `fresh` on (log 12). -/
def Region.area (r : Region) (n fresh : Nat) : List Byte :=
  let u := r.slot n
  let recs := r.records
  let body : List Byte := (recs.zipIdx).flatMap fun e =>
    let len := (Config.saveLen e.1.2).toNat
    bytesLE 2 e.1.1 ++ bytesLE 2 e.1.2 ++ bytesLE 4 len ++ bytesLE 8 0
      ++ (List.range (round16 len)).map fun i => if i < len then Config.saveByte (fresh + 2 ^ 32 * e.2 + i) else 0
  bytesLE 4 0x00564153 ++ bytesLE 7 u.image ++ bytesLE 1 stepping ++ bytesLE 4 recs.length ++ bytesLE 8 r.saveBytes
    ++ bytesLE 8 r.desc.toNat ++ bytesLE 8 (u.tc.toNat + if u.limited then 2 ^ 32 else 0) ++ bytesLE 24 0 ++ body

/-- The releases that the matrix elements of a region have sent arrive at their tiles before a save records the live blocks
(R196). -/
def State.settleBlocks (s : State) (g : Nat) : State :=
  (s.region g).sites.foldl (fun s p =>
    (s.site p).freed.foldl (fun s e => s.modSite e.1 fun t => { t with blocks := releaseBlock e.2 t.blocks })
      (s.modSite p fun t => { t with freed := [] })) s

/-- The area that a save of slot `n` of region `g` writes, kept with the state that its bodies stand for. -/
def State.saveRecord (s : State) (g n : Nat) (bare : Bool) : Saved :=
  let r := s.region g
  let u := r.slot n
  { area := r.area n s.fresh, sites := r.sites.map fun p => s.capture r p n bare, tc := u.tc, limited := u.limited }

/-- The slot has been saved: LOADED, no slot current, its residue gone, the interval ended, drains that wait for it ended
(R217, R221, R436). -/
def State.saveDone (s : State) (g n : Nat) : State :=
  let r := s.region g
  let s := s.endDrains g n tCfgState
  let s := s.setRegion g { r.setSlot n { r.slot n with phase := .loaded, ending := false } with cur := if r.cur = some n then none else r.cur }
  r.sites.foldl (fun s p => (s.endInterval p).modSite p fun t =>
    let t := t.leave n
    if t.phase = .fault then { t with before := .idle } else { t with phase := .idle }) s

/-- The stopped generators of a slot that is saved at rest are let go: no fault stays pending in the save (R368). -/
def State.letGo (s : State) (g n : Nat) : State := (s.region g).sites.foldl (fun s p => s.dropStop p n) s

/-- Write the save area of slot `n` of region `g` at `va` in context `x`; none where it does not translate (R232). -/
def State.saveSlot (s : State) (x g n va : Nat) : Option State :=
  let s := (s.settleBlocks g).letGo g n
  let sv := s.saveRecord g n false
  (s.seqWrite (loaderDie (s.region g).desc) x va sv.area).map fun s =>
    ({ s with saved := sv :: s.saved, fresh := s.fresh + 2 ^ 48 } : State).saveDone g n

/-- Every worker of slot `n` of region `g` is SAVED, no anti-token is on a reverse lane (R112, R232), and what its write streams
wrote is at memory (R382). -/
def State.allSaved (s : State) (g n : Nat) : Bool :=
  ((s.workers (s.region g) n).all fun p => (s.site p).phase == .saved) && s.noAnti g n
    && (s.region g).sites.all fun p => s.coalesced p n

/-! ## Restoring (R234) -/

/-- The records of an area: site and kind of each, walked by their lengths. -/
def areaRecords : Nat → List Byte → List (Nat × Nat)
  | 0, _ => []
  | k + 1, bs => (slice bs 0 2, slice bs 2 2) :: areaRecords k (bs.drop (16 + round16 (slice bs 4 4)))

/-- The state that a save area stands for: what was saved where this machine wrote those bytes, else what its body bytes say
(log 12). -/
def State.savedOf (s : State) (bs : List Byte) (r : Region) : Saved :=
  match s.saved.find? fun v => v.area == bs with
  | some v => v
  | none =>
    { area := bs, sites := (List.range r.sites.length).map fun i => { Config.restoredSite bs i with site := r.relSite (r.sites.getD i 0) },
      tc := BitVec.ofNat 32 (slice bs 32 4), limited := slice bs 36 1 % 2 == 1 }

/-- The counts of the completions that a restored watcher missed since its save (R357): those between the count it kept and
its barrier's now, taken modulo 2^32 (log 70). -/
def missedSince (was now : BitVec 32) : List (BitVec 32) :=
  (List.range (now - was).toNat).map fun i => was + 1 + BitVec.ofNat 32 i

/-- Put a saved site back into slot `n` of site `p`, whose image stands loaded: the tiles that its context owned are rewritten
whole (R159). -/
def State.putBack (s : State) (p n : Nat) (v : SavedSite) : State :=
  let c := (s.site p).slot n
  let here (k : Pkt) : Pkt := { k with slot := n }
  let ahead (b old : Table (List Pkt)) : Table (List Pkt) :=
    b.foldl (fun t e => Table.put t e.1 (e.2.map here ++ Table.get [] t e.1)) old
  let missed := match (s.site p).watched p n, v.cfg.seen with
    | some pa, some k => v.cfg.missed ++ missedSince k (s.barCount pa)
    | _, _ => v.cfg.missed
  let s := v.acc.foldl (fun s e => s.zeroAcc p e.1) s
  let s := s.modSite p fun t =>
    { t.setSlot n { v.cfg with elem := c.elem, sw := c.sw, k := c.k, q0 := c.q0, lut := c.lut, cbk := c.cbk, edge := c.edge,
                               missed, seen := none } with
      inb := ahead v.inb t.inb
      acc := v.acc.foldl (fun a e => Table.put a e.1 { e.2 with owner := n }) t.acc
      bin := match v.bin with | some b => some { b with slot := n } | none => t.bin
      blocks := t.blocks ++ v.blocks.map fun b => { b with slot := n }
      forks := t.forks ++ v.forks.map fun f => { f with slot := n } }
  { s with accWords := v.words.foldl (fun t e => Table.put t (accAddr p 0 0 + e.1) e.2) s.accWords }

/-- What a saved state puts back into slot `n` of region `g`: the slot is SUSPENDED (R234). -/
def State.installSaved (s : State) (g n : Nat) (v : Saved) : State :=
  let r := s.region g
  let s := r.sites.foldl (fun s p =>
    match v.sites.find? fun e => e.site == r.relSite p with
    | some e => s.putBack p n e
    | none => s) s
  s.modRegion g fun r => r.setSlot n { r.slot n with phase := .suspended, tc := v.tc, limited := v.limited }

/-- Install the save area `bs` into slot `n` of region `g`, or the cause (R234); `src` are the bytes as they were written. DESIGN CHOICE (log 85):
a wrong magic is T_CFG_STATE. -/
def State.restore (s : State) (g n : Nat) (bs src : List Byte) : Except Nat State :=
  let r := s.region g
  let u := r.slot n
  if u.phase ≠ .loaded ∨ slice bs 0 4 ≠ 0x00564153 ∨ slice bs 4 7 ≠ u.image ∨ slice bs 24 8 ≠ r.desc.toNat ∨ slice bs 11 1 ≠ stepping then
    .error tCfgState
  else if slice bs 12 4 ≠ r.records.length ∨ areaRecords r.records.length (bs.drop 64) ≠ r.records then .error tCfgField
  else .ok (s.installSaved g n (s.savedOf src r))

/-- The translations that reading a save area used stay in its loader's cache (R366). -/
def State.areaSeen (s : State) (x g va : Nat) : State :=
  let d := loaderDie (s.region g).desc
  match s.seqRead d x va 64 with
  | none => s
  | some h => s.seqSeen d x va (max 64 (slice h 16 8))

/-- Read the save area at `va` and install it (R234). -/
def State.restSlot (s : State) (x g n va : Nat) : Except Nat State :=
  let d := loaderDie (s.region g).desc
  match s.seqFetch d x va 64 with
  | .error c => .error c
  | .ok h =>
    match s.seqFetch d x va (max 64 (slice h 16 8)) with
    | .error c => .error c
    | .ok bs => s.restore g n bs bs

end Sys2Proof.Machine
end

