-- ==== Sys2Proof/Machine/Region.lean ====
section
/-! DEFINITION. The CFG commands of a region as its loader carries them out (R219 to R234): their order (R221), their
completion, the drain and the swap. -/

namespace Sys2Proof.Machine

/-! ## Order and end (R219, R221) -/

/-- The origins that a CFG command uses: a load's as many as the header of its image tells, where it can be read, else those
of its descriptor that are not zero (R214). -/
def State.cfgOrgs (s : State) (m : Cmd) : List Nat :=
  let ds := match (if m.op = 0x40 then s.seqRead (loaderDie m.b) m.ctx (m.a.toNat + 32) 32 else none) with
    | some bs => List.range (hdNd (BitVec.ofNat 256 (natLE bs)) + 1)
    | none => descDies m.b
  ds.map (descOrg m.b)

/-- Is a region one that a CFG command is of: a load's, one that holds the site of an origin? -/
def State.cfgOf (s : State) (m : Cmd) (r : Region) : Bool := r.named m.b || (m.op == 0x40 && (s.cfgOrgs m).any r.holds)

/-- Does CFG command `e` go before command `m`: it is of the same region, or both are loads on one die (R221)? -/
def State.cfgBefore (s : State) (e m : Cmd) : Bool :=
  e.b == m.b || (s.regions.any fun r => s.cfgOf e r.2 && s.cfgOf m r.2)
    || (e.op == 0x40 && m.op == 0x40 && ((s.cfgOrgs e).map siteDie).any ((s.cfgOrgs m).map siteDie).contains)

/-- It is a command's turn: no earlier CFG command that goes before it is still to act; a drain that waits holds none back
(R221). DESIGN CHOICE (log 76): commands of different cores reach a loader in the order of their issue, as those of one core do. -/
def State.cfgTurn (s : State) (k : Nat) (m : Cmd) : Bool :=
  s.cmds.all fun e => decide (k ≤ e.1) || decide (e.2.op < 0x40) || !s.cfgBefore e.2 m || e.2.stage == 2 || (e.2.op == 0x43 && e.2.stage == 1)

/-- A CFG command ends with a cause; the loader's own swap has no token and no result (R319). -/
def State.endCfg (s : State) (k : Nat) (m : Cmd) (cause : Nat) : State :=
  if m.cls = 9 then { s with cmds := Table.del s.cmds k } else s.finishCmd k cause

/-- End a command with the outcome of an operation that changes nothing where it fails (R219). -/
def State.endWith (s : State) (k : Nat) (m : Cmd) (r : Except Nat State) : State :=
  match r with
  | .error c => s.endCfg k m c
  | .ok s' => s'.endCfg k m 0

/-- The command waits from now on (R221). -/
def State.hold (s : State) (k : Nat) (m : Cmd) : State := s.setCmd k { m with stage := 1 }

/-! ## Commands -/

/-- cfg.swap's turn: the target must be ARMED or SUSPENDED and not current; then it waits for the quiescent point (R230). -/
def State.cfgSwap (s : State) (k : Nat) (m : Cmd) (g : Nat) : State :=
  let r := s.region g
  if m.stage = 1 then if r.swap = some k then s else s.endCfg k m tCfgState
  else if ¬ r.swappable (fld m.c 1 0) then s.endCfg k m tCfgState
  else (s.hold k m).setRegion g { r with swap := some k }

/-- cfg.drain's turn (R221, R228): one that waits ends when its slot is drained or stops being current. -/
def State.cfgDrain (s : State) (k : Nat) (m : Cmd) (g : Nat) : State :=
  let r := s.region g
  let n := fld m.c 1 0
  match fld m.c 3 2 with
  | 3 => s.endCfg k m tCfgField
  | 2 => (r.sites.foldl (fun s p => s.purgeSite g p) s).endCfg k m 0
  | mode =>
    if m.stage = 1 then s
    else if r.cur ≠ some n then s.endCfg k m tCfgState
    else if (r.slot n).phase = .drained then s.endCfg k m 0
    else
      let s := s.hold k m
      if mode = 1 ∧ ¬ (r.slot n).ending then
        (r.sites.foldl (fun s p => s.modSite p fun t => t.endSource n) s).setRegion g (r.setSlot n { r.slot n with ending := true })
      else s

/-- A cut runs through region `g`: a swap, a save or a pre-emption waits for its release (R441). -/
def State.cutting (s : State) (g : Nat) : Bool :=
  ((s.region g).sites.map siteDie).any fun d => (s.die d).cutRegion == some g && s.cutSt d != 0

/-- cfg.save's turn and its end (R232). The markers of a save that no pre-emption asked for carry a free value (log 7). -/
def State.cfgSave (s : State) (k : Nat) (m : Cmd) (g : Nat) : State :=
  let r := s.region g
  let n := fld m.c 1 0
  let write : State := match s.saveSlot m.ctx g n m.a.toNat with
    | none => s.endCfg k m <| match s.openAddrs (seqPlace (loaderDie r.desc)) m.ctx .store m.a.toNat r.saveBytes with
      | .error a => s.openCause (seqPlace (loaderDie r.desc)) m.ctx .store a
      | .ok _ => tPageFault
    | some s' => if s.harms s' then s else s'.endCfg k m 0
  if m.a.toNat % 256 ≠ 0 then s.endCfg k m tCfgField
  else if r.cur ≠ some n then s.endCfg k m tCfgState
  else if m.stage ≠ 1 ∧ s.cutting g then s
  else if ((r.slot n).phase = .drained ∧ m.stage ≠ 1) ∨ s.allSaved g n then write
  else if m.stage = 1 then s
  else
    let (w, s) := s.draw
    (s.inject g n mkDormouse (fld w 31 0)).hold k m

/-- CFG_COMPLETE: command `k` takes its turn, goes on waiting, or completes and writes its result word (R219, R221). -/
def execCfgComplete (k : Nat) (s : State) : Res :=
  .next (match s.cmd? k with
    | none => s
    | some m =>
      let n := fld m.c 1 0
      if m.op < 0x40 then s
      else if m.stage = 2 then s.endCfg k m m.cause
      else if ¬ s.cfgTurn k m then s
      else if m.op = 0x40 then
        let s := s.imageSeen (loaderDie m.b) m.ctx m.a.toNat
        s.endWith k m (s.loadSlot m.ctx m.b n m.a (s.quadMine m.ctx m.bound))
      else match s.regionNamed m.b with
        | none => s.endCfg k m tCfgState
        | some g =>
          match m.op with
          | 0x41 => s.endWith k m (s.armSlot g n m.a)
          | 0x42 => s.cfgSwap k m g
          | 0x43 => s.cfgDrain k m g
          | 0x44 => s.cfgSave k m g
          | _ =>
            let s := s.areaSeen m.ctx g m.a.toNat
            s.endWith k m (s.restSlot m.ctx g n m.a.toNat))

/-- SLOT_DRAINED: the drain condition of the ACTIVE current slot of region `g` holds (R227), and drains that wait for it are done
(R221). -/
def execSlotDrained (g : Nat) (s : State) : Res :=
  .next (let r := s.region g
    match r.cur with
    | none => s
    | some n =>
      if (r.slot n).phase = .active ∧ s.drained g n then
        (s.endDrains g n 0).setRegion g (r.setSlot n { r.slot n with phase := .drained })
      else s)

/-- SWAP_TAKES_EFFECT: at the quiescent point of the current slot, if there is one, the waiting swap of region `g` takes effect
at every element and switch (R230, R231). -/
def execSwapTakesEffect (g : Nat) (s : State) : Res :=
  .next (let r := s.region g
    match r.swap with
    | none => s
    | some k =>
      match s.cmd? k with
      | none => s.setRegion g { r with swap := none }
      | some m =>
        let n := fld m.c 1 0
        let s' := s.setRegion g { r with swap := none }
        if ¬ r.swappable n then s'.setCmd k { m with stage := 2, cause := tCfgState }
        else if !s.cutting g && (match r.cur with | some c => s.quiescent g c | none => true) then
          (s'.setCmd k { m with stage := 2, cause := 0 }).swapTo g n
        else s)

end Sys2Proof.Machine
end

