-- ==== Sys2Proof/Machine/Jobs.lean ====
section
/-! DEFINITION. The graph sequencer's jobs (R289 to R295): intake, the walk of a graph, entry into the ready pool, release
and completion. -/

namespace Sys2Proof.Machine

/-! ## Memory as a sequencer reads and writes it -/

/-- Bytes of context `x` at `va`, or the first address that does not translate. -/
def State.seqGet (s : State) (d x va n : Nat) : Except Nat (List Byte) :=
  (s.openAddrs (seqPlace d) x .load va n).map fun ps => ps.map s.byteAt

/-- Bytes stored at `va` of context `x`, or the first address that does not translate; then nothing is written. -/
def State.seqPut (s : State) (d x va : Nat) (bs : List Byte) : Except Nat State :=
  (s.openAddrs (seqPlace d) x .store va bs.length).map fun ps => (s.cacheRun (seqPlace d) x .store va bs.length).writeAt ps bs

/-- The walk of job `n` of die `d` stops on a translation fault, on ch0 of the die's cluster 0 (R294), or with T_ACCESS where
protection closes what it reads or writes (R431). -/
def State.stopWalk (s : State) (d n x : Nat) (need : Need) (va : Nat) : State :=
  (s.openDenied (32 * d) (seqPlace d) x need va).holdFault (32 * d)
    { src := 2, cause := s.openCause (seqPlace d) x need va, ctx := x, val := BitVec.ofNat 64 va } (.walk d n)

/-! ## Descriptors and records (R291, R293, R307, R326) -/

def Job.graph (j : Job) : Nat := slice j.desc 0 8
def Job.cpl (j : Job) : Nat := slice j.desc 8 8
def Job.work (j : Job) : Nat := slice j.desc 24 8
def Job.count (j : Job) : Nat := slice j.desc 32 2
def Job.arg (j : Job) : Word := BitVec.ofNat 64 (slice j.desc 40 8)
/-- fe and irq (R291). -/
def Job.fe (j : Job) : Bool := slice j.desc 35 1 % 2 == 1
def Job.irq (j : Job) : Bool := slice j.desc 35 1 / 2 % 2 == 1

/-- What a descriptor breaks of R291; byte 255, the fill byte, is one of the reserved bytes. -/
def Job.bad (j : Job) : Bool :=
  let b := j.desc
  j.graph % 64 != 0 || j.cpl % 8 != 0 || j.work % 8 != 0 || j.count == 0 || slice b 22 2 != 0 || decide (slice b 34 1 ≥ 4)
    || decide (slice b 35 1 ≥ 4) || slice b 38 2 != 0 || slice b 48 208 != 0

/-- The completion word's address lies in a tile's data window, where fe = 1 asks it (R295). -/
def State.cplOk (s : State) (d : Nat) (j : Job) : Bool :=
  !j.fe || match s.translate (seqPlace d) j.ctx j.cpl .store with
    | .ok pa => (placeOf pa).isTileData
    | .fault _ => false

def Task.nin (t : Task) : Nat := t.fieldAt 12 2
def Task.nout (t : Task) : Nat := t.fieldAt 14 2

/-- A reserved kind or a non-zero reserved bit of the part of a record that R293 gives. -/
def Task.recordBad (t : Task) : Bool :=
  let k := t.fieldAt 8 1
  let chan := t.fieldAt 11 1
  decide (k ≥ 5) || decide (t.fieldAt 9 1 ≥ 16) || decide (t.fieldAt 10 1 ≥ 4) || decide (chan ≥ 16)
    || (chan != 0 && k != 3 && k != 4) || (if k = 0 then t.ngrp == 0 || decide (t.ngrp > 65536) else t.ngrp != 0)
    || ((k == 1 || k == 2) && t.fieldAt 28 36 != 0)

/-- What a control or search record breaks of R326. -/
def Task.specBad (t : Task) : Bool :=
  let fl := t.fieldAt 28 1
  decide (fl ≥ 4) || (fl / 2 == 0 && (t.fieldAt 29 1 != 0 || t.fieldAt 32 4 != 0)) || t.fieldAt 30 2 != 0 || t.fieldAt 36 4 != 0
    || (fl % 2 == 0 && t.fieldAt 40 8 != 0) || t.fieldAt 48 16 != 0

/-- What a kernel record breaks of R307. -/
def Task.kernelBad (t : Task) : Bool :=
  decide (t.fieldAt 28 1 ≥ 16) || decide (t.fieldAt 29 1 ≥ 16) || decide (t.fieldAt 30 1 ≥ 64) || t.fieldAt 31 1 != 0
    || t.fieldAt 36 4 % 256 != 0 || t.fieldAt 40 8 % 256 != 0 || t.fieldAt 48 8 % 4 != 0 || t.fieldAt 56 8 % 32 != 0

/-- A successor list that is not 2-byte aligned (R293). -/
def Task.succBad (t : Task) : Bool := t.nout != 0 && t.fieldAt 16 8 % 2 != 0

/-- The rules that end a task at dispatch (R293, R307, R326). -/
def Task.bad (t : Task) : Bool :=
  t.succBad || (if t.kind = 0 then t.kernelBad else if t.kind = 3 ∨ t.kind = 4 then t.specBad else false)

/-- A list of .n16 numbers. -/
def halves : List Byte → List Nat
  | a :: b :: bs => natLE [a, b] :: halves bs
  | _ => []

/-- The successors of a task (R293). -/
def State.successors (s : State) (d : Nat) (t : Task) : Except Nat (List Nat) :=
  (s.seqGet d t.ctx (t.fieldAt 16 8) (2 * t.nout)).map halves

/-! ## Intake (R292, R294) -/

/-- Record `i` of job `n` as a task, its successor list judged against ntask (R294); none at an address that does not
translate. -/
def State.readTask (s : State) (d n : Nat) (j : Job) (i : Nat) : Except Nat Task :=
  let va := j.graph + 64 * i
  match s.seqGet d j.ctx va 64 with
  | .error a => .error a
  | .ok bs =>
    let t : Task := { ctx := j.ctx, job := n, idx := i, spawned := false, recAddr := BitVec.ofNat 64 va, bytes := bs }
    match (if t.recordBad then .ok [] else s.successors d t) with
    | .error a => .error a
    | .ok us => .ok (if t.recordBad ∨ us.any fun u => decide (j.count ≤ u) then t.fail tJobArg else t)

/-- A task of a graph that waits for its predecessors; one whose record is bad ends at once (R294). -/
def State.placeTask (s : State) (d : Nat) (t : Task) : State :=
  let k := (s.die d).nextTask
  let s := s.modDie d fun u => { u with tasks := Table.put u.tasks k t, nextTask := k + 1 }
  if t.failed then s.complete (d, k) t else s

/-- The tasks of job `n` without predecessors are ready (R294). -/
def State.readyFirst (s : State) (d n : Nat) : State :=
  s.modDie d fun u => { u with tasks := u.tasks.map fun e =>
    if e.2.job = n ∧ ¬ e.2.spawned ∧ e.2.nin = 0 ∧ e.2.phase = .waiting then (e.1, { e.2 with phase := .ready }) else e }

/-- The first part of the walk of job `n`, from the record that it has reached: each record is read and its work word written;
after the last the tasks without predecessors are ready (R294). -/
def State.walkJob (s : State) (d n : Nat) : Nat → Job → State
  | 0, j => (s.setJob d n { j with taken := true }).readyFirst d n
  | k + 1, j =>
    let i := j.at_
    match s.readTask d n j i with
    | .error a => (s.setJob d n j).stopWalk d n j.ctx .load a
    | .ok t =>
      match (s.seqSeen d j.ctx t.recAddr.toNat 64).seqPut d j.ctx (j.work + 2 * i) (bytesLE 2 t.nin) with
      | .error a => (s.setJob d n j).stopWalk d n j.ctx .store a
      | .ok s =>
        let s := (s.setJob d n { j with at_ := i + 1 }).placeTask d t
        s.walkJob d n k ((s.job? d n).getD j)

/-- The walk of job `n`, now `j`, goes on. -/
def State.walkOn (s : State) (d n : Nat) (j : Job) : State := s.walkJob d n (j.count - j.at_) j

/-- A job that fails at intake: it completes with T_JOB_ARG. -/
def Job.refuse (j : Job) : Job := { j with taken := true, failed := true, cause := tJobArg }

/-- Take a job of context `x` whose descriptor is `bs` into an entry, under the next job number, and begin its walk. -/
def State.takeJob (s : State) (d x : Nat) (bs : List Byte) : State :=
  let n := ((s.die d).jobCtr + 1).toNat
  let s := s.modDie d fun u => { u with jobCtr := u.jobCtr + 1 }
  let j : Job := { ctx := x, desc := bs }
  if j.bad ∨ ¬ s.cplOk d j then s.setJob d n j.refuse
  else
    let j := { j with ntask := j.count, left := j.count }
    (s.setJob d n j).walkOn d n j

/-- The eligible sources of die `d` with their intake priorities: a queue whose head slot is full, 64 for the pending-launch
store (R292). -/
def State.jobSources (s : State) (d : Nat) : List (Nat × Nat) :=
  let qs := (List.range 64).filterMap fun j =>
    if s.qEn d j ∧ s.slotFull d j (s.qHead d j) then some (j, s.qPrio d j) else none
  qs ++ match (s.die d).launches with
    | [] => []
    | (a, x) :: _ =>
      let p := match s.seqGet d x (a.toNat + 34) 1 with | .ok bs => slice bs 0 1 % 4 | .error _ => 0
      [(64, p)]

/-- The source taken next: the smallest priority, ties broken round-robin from `rr` on. -/
def pickSource (rr : Nat) : List (Nat × Nat) → Option (Nat × Nat)
  | [] => none
  | x :: xs =>
    let turn (e : Nat × Nat) : Nat := (e.1 + 65 - rr % 65) % 65
    match pickSource rr xs with
    | none => some x
    | some y => if y.2 < x.2 ∨ (y.2 = x.2 ∧ turn y < turn x) then some y else some x

/-- A freed entry of the pending-launch store posts to every park slot of the die that waits on notification 0 (R302). -/
def State.launchFreed (s : State) (d : Nat) : State :=
  { s with cores := s.cores.map fun (c, k) =>
      (c, if c / 32 = d then k.firePark fun p => if p.form = 6 then some 0 else none else k) }

/-- The fault on the completion word of job `n`, whose entry is freed (R295, R413). -/
def State.cplFault (s : State) (d n x : Nat) (va : Word) : State :=
  s.holdFault (32 * d) { src := 2, cause := tJobArg, ctx := x, val := va } (.walk d n)

/-- A job whose descriptor does not translate has no completion word: its fault is posted, and its entry is free (R295, R302). -/
def State.lostJob (s : State) (d x : Nat) : State :=
  (s.modDie d fun u => { u with jobCtr := u.jobCtr + 1 }).cplFault d ((s.die d).jobCtr + 1).toNat x 0

/-- Take the job at the head of source `src` (R292). -/
def State.takeSource (s : State) (d src : Nat) : State :=
  let s := s.modDie d fun u => { u with rr := (src + 1) % 65 }
  let go (s : State) (x va : Nat) : State := match s.seqGet d x va 256 with
    | .ok bs => (s.seqSeen d x va 256).takeJob d x bs
    | .error _ => s.lostJob d x
  if src < 64 then
    let i := s.qHead d src
    let s1 := (s.modDie d fun u => { u with full := u.full.filter (· ≠ slotKey src i) }).setRegFld (queuePa d src + 16) 27 16
      ((i + 1) % 2 ^ s.qLg d src)
    go s1 (s.qCtx d src) (s.qBase d src + 256 * i)
  else match (s.die d).launches with
    | [] => s
    | (a, x) :: rest => go ((s.modDie d fun u => { u with launches := rest }).launchFreed d) x a.toNat

/-- JOB_INTAKE: a walk that was resumed goes on from its step, or with a free entry of 256 one eligible job is taken (R292,
R294). -/
def execJobIntake (d : Nat) (s : State) : Res :=
  .next (if d ≥ 4 then s
    else s.heldBack <| match (s.die d).jobs.find? fun e => !e.2.taken && e.2.held.isNone && !e.2.broken with
      | some (n, j) => s.walkOn d n j
      | none =>
        if (s.die d).jobs.length ≥ 256 then s
        else match pickSource (s.die d).rr (s.jobSources d) with
          | none => s
          | some (src, _) => s.takeSource d src)

/-! ## The ready pool (R294, R296, R327, R351) -/

/-- A task enters the pool: its id, its age, and for a bounded record its bound word (R326, R327, R344); a child has them since its
spawn or its spawner's commit (R331, R351). -/
def State.enterPool (s : State) (h : Nat × Nat) (t : Task) : State :=
  let u := s.die h.1
  let bound : Word :=
    if (t.kind = 3 ∨ t.kind = 4) ∧ t.fieldAt 28 1 / 2 % 2 = 1 then
      BitVec.ofNat 64 (2 ^ 40 + t.fieldAt 29 1 * 2 ^ 32 + t.fieldAt 32 4)
    else 0
  if t.spawned then s.setTask h { t with phase := .pooled }
  else
    (s.modDie h.1 fun u => { u with idCtr := u.idCtr + 1, clock := u.clock + 1 }).setTask h
      { t with phase := .pooled, id := (u.idCtr + 1).toNat, age := u.clock, bound }

/-- What a spawned record breaks of R351: predecessors or successors, R326, or a timestamp below its ordered spawner's. -/
def Task.childBad (t : Task) : Bool :=
  t.recordBad || t.bad || t.nin != 0 || t.nout != 0 || (t.ordered && decide (t.ts < t.minTs))

/-- The task of index below `i` of the same graph that is ready has to enter the pool first: tasks become ready in the order of
the walk (R294). -/
def State.readyBefore (s : State) (d n i : Nat) : Bool :=
  (s.die d).tasks.any fun e => e.2.job == n && !e.2.spawned && e.2.phase == .ready && decide (e.2.idx < i)

/-- TASK_READY: task `t` of die `d`, released by its predecessors or spawned, enters the ready pool, one of a graph while the
pool has room and in the order of the walk; a child's record is read now (R294, R296, R351). -/
def execTaskReady (d t : Nat) (s : State) : Res :=
  .next (match s.task? (d, t) with
    | none => s
    | some k =>
      let held : Bool := match s.job? d k.job with | some j => j.held.isSome | none => true
      if k.phase ≠ TaskPhase.ready ∨ held then s
      else if k.spawned then
        match s.seqGet d k.ctx k.recAddr.toNat 64 with
        | .error a => s.stopWalk d k.job k.ctx .load a
        | .ok bs =>
          let k := { k with bytes := bs }
          let s := s.seqSeen d k.ctx k.recAddr.toNat 64
          if k.childBad then s.complete (d, t) (k.fail tJobArg) else s.enterPool (d, t) k
      else if s.poolUse d ≥ 4096 ∨ s.readyBefore d k.job k.idx then s
      else s.enterPool (d, t) k)

/-! ## Release (R294, R300) -/

/-- A job that ends because of a work word: what was not dispatched yet is not dispatched any more (R294). -/
def State.breakJob (s : State) (d n : Nat) : State :=
  match s.job? d n with
  | none => s
  | some j =>
    s.setJob d n { j with broken := true, failed := true, cause := if j.failed then j.cause else tJobArg }

/-- The task of a job's graph with an index. -/
def State.graphTask (s : State) (d n i : Nat) : Option (Nat × Task) :=
  (s.die d).tasks.find? fun e => e.2.job == n && e.2.idx == i && !e.2.spawned

/-- Walk a successor list from entry `k` on: each work word falls by one, and a task whose word reaches 0 is ready. The walk stops
after one that becomes ready, which is to enter the pool before the walk goes on, and at a fault; it leaves the number of entries
done. -/
def State.walkSucc (s : State) (d n : Nat) (j : Job) : List Nat → Nat → State × Nat × Option (Need × Nat)
  | [], k => (s, k, none)
  | u :: us, k =>
    if j.count ≤ u then s.walkSucc d n j us (k + 1)
    else
      let va := j.work + 2 * u
      match s.seqGet d j.ctx va 2 with
      | .error a => (s, k, some (.load, a))
      | .ok bs =>
        let w := slice bs 0 2
        if w = 0 then (s.breakJob d n).walkSucc d n j us (k + 1)
        else match s.seqPut d j.ctx va (bytesLE 2 (w - 1)) with
          | .error a => (s, k, some (.store, a))
          | .ok s =>
            match s.graphTask d n u with
            | some (i, t) =>
              if w = 1 ∧ t.phase = TaskPhase.waiting then (s.setTask (d, i) { t with phase := TaskPhase.ready }, k + 1, none)
              else s.walkSucc d n j us (k + 1)
            | none => s.walkSucc d n j us (k + 1)

/-- A task of the graph of job `n` is ready and has not entered the pool yet: the job's walk waits (R294). -/
def State.walkWaits (s : State) (d n : Nat) : Bool :=
  (s.die d).tasks.any fun e => e.2.job == n && !e.2.spawned && e.2.phase == .ready

/-- TASK_RELEASE: task `t` of die `d` has been released: its successors' work words fall, in list order, as far as the pool takes
those that become ready (R294, R300). -/
def execTaskRelease (d t : Nat) (s : State) : Res :=
  .next (match s.task? (d, t) with
    | none => s
    | some k =>
      if ¬ k.released ∨ k.walked then s
      else match s.job? d k.job with
        | none => s
        | some j =>
          if j.held.isSome then s
          else if k.spawned then s.setTask (d, t) { k with walked := true }
          else if ¬ j.taken ∨ (s.walkWaits d k.job ∧ ¬ j.broken) then s
          else s.heldBack <| match s.successors d k with
            | .error a => s.stopWalk d k.job k.ctx .load a
            | .ok us =>
              let (s, n, f) := (s.seqSeen d k.ctx (k.fieldAt 16 8) (2 * k.nout)).walkSucc d k.job j (us.drop k.walk) k.walk
              let s := match s.task? (d, t) with
                | some k => s.setTask (d, t) { k with walk := n, walked := f.isNone && decide (us.length ≤ n) }
                | none => s
              match f with
              | some (need, a) => s.stopWalk d k.job k.ctx need a
              | none => s)

/-! ## Completion (R295) -/

/-- A task that counts no more for its job's end: it is finished and its successors are told; in a job that breaks, also one
that was never dispatched. -/
def Task.isOver (t : Task) (broken : Bool) : Bool :=
  (t.phase == .finished && (t.walked || broken)) || (broken && (t.phase == .waiting || t.phase == .ready || t.phase == .pooled))

/-- Every write of every task of job `n` has been performed: no store or atomic of theirs is outstanding, no command, no
coalescing buffer of the context (R295). -/
def State.jobWritten (s : State) (d n x : Nat) : Bool :=
  let mine (h : Option (Nat × Nat)) : Bool := match h with
    | some (e, t) => e == d && (match s.task? (e, t) with | some k => k.job == n | none => false)
    | none => false
  (s.cores.all fun e => e.2.ops.all fun o => !(o.writes && mine o.task))
    && (s.cmds.all fun e => !(mine e.2.issuer || mine e.2.task))
    && s.clusters.all fun e => e.2.wins.all fun w => !(w.2.bound && w.2.ctx == x && !w.2.cbuf.isEmpty)

/-- The completion word (R295). -/
def Job.word (j : Job) : Word :=
  BitVec.ofNat 64 ((if j.failed then 2 ^ 63 + j.cause % 128 * 2 ^ 56 else 0) + slice j.desc 16 6)

/-- The job's entry and its tasks are gone. -/
def State.dropJob (s : State) (d n : Nat) : State :=
  s.modDie d fun u => { u with jobs := Table.del u.jobs n, tasks := u.tasks.filter fun e => e.2.job != n }

/-- JOB_COMPLETE: every task of job `n` has completed and its writes are performed: the completion word is written, with fe = 1
set full, with irq = 1 followed by its interrupt (R295). -/
def execJobComplete (d n : Nat) (s : State) : Res :=
  .next (match s.job? d n with
    | none => s
    | some j =>
      let mine := (s.die d).tasks.filter fun e => e.2.job == n
      if ¬ (j.taken ∨ j.broken) ∨ j.held.isSome ∨ (j.left ≠ 0 ∧ ¬ j.broken) then s
      else if mine.any fun e => !e.2.isOver j.broken then s
      else if ¬ s.jobWritten d n j.ctx then s
      else
        let lost := (s.cplFault d n j.ctx (BitVec.ofNat 64 j.cpl)).dropJob d n
        match j.cpl % 8, s.translate (seqPlace d) j.ctx j.cpl .store with
        | 0, .ok pa =>
          if s.shut j.ctx .store [pa] ∨ ¬ (placeOf pa).plain then lost
          else if ¬ s.accessFree pa 8 true then s
          else
          let s := (s.fillTlb (seqPlace d) j.ctx j.cpl .store).storeNum pa 8 j.word.toNat
          let s := if j.fe then (s.setFull pa true).setFull (pa + 4) true else s
          let s := if j.irq then { s with interrupts := s.interrupts ++ [(d / 2, slice j.desc 36 2)] } else s
          s.dropJob d n
        | _, _ => lost)

end Sys2Proof.Machine
end

