-- ==== Sys2Proof/Machine/Group.lean ====
section
/-! DEFINITION. Groups of kernel tasks (R307 to R324): what a task's images ask, the placement, the group's life from dispatch
to FREE. -/

namespace Sys2Proof.Machine

/-! ## What the images ask (R307, R308) -/

/-- Bit `i` of gflags: persist, step, share, cores (R307). -/
def Task.gflag (t : Task) (i : Nat) : Bool := t.fieldAt 29 1 / 2 ^ i % 2 == 1
def Task.tiles (t : Task) : Nat := t.fieldAt 32 4
def Task.sstride (t : Task) : Nat := t.fieldAt 36 4
def Task.saveAt (t : Task) (g : Nat) : Nat := if t.fieldAt 40 8 = 0 then 0 else t.fieldAt 40 8 + t.sstride * g

/-- The cut edges of a frame. -/
def frameEdges (f : BitVec 256) : List (BitVec 48) :=
  if frKind f = 9 then (List.range (fld f 251 250 + 1)).map fun j => BitVec.ofNat 48 (fld f (48 * j + 47) (48 * j)) else []

/-- The header frame and the cut edges of the image in a container, or why they cannot be read. -/
def State.peekImage (s : State) (d x va : Nat) : Except Nat (BitVec 256 × List (BitVec 48)) :=
  match s.seqFetch d x va 64 with
  | .error c => .error c
  | .ok bs =>
    let f := BitVec.ofNat 256 (natLE (bs.drop 32))
    match headerCause f (slice bs 12 4) with
    | some c => .error c
    | none =>
      match s.seqFetch d x (va + 64) (32 * (hdNframes f - 1)) with
      | .error c => .error c
      | .ok fs => .ok (f, (List.range (hdNframes f - 1)).flatMap fun i => frameEdges (BitVec.ofNat 256 (slice fs (32 * i) 32)))

/-- Peek at each image of a list of containers by slot. -/
def State.peekAll (s : State) (d x : Nat) : List (Nat × Word) → Except Nat (List (BitVec 256 × List (BitVec 48)))
  | [] => .ok []
  | (_, a) :: as =>
    match s.peekImage d x a.toNat with
    | .error c => .error c
    | .ok f => (s.peekAll d x as).map fun fs => f :: fs

/-- The live map at a .clive header (R87): its entries, the id judged against the slot-0 image's (R308). DESIGN CHOICE (log 73):
its reserved bytes are not looked at, nor are entries of kind 0 or 3 and reserved bits of entries. -/
def State.liveMap (s : State) (d x va id : Nat) : Except Nat (List Word) :=
  if va = 0 then .ok []
  else match s.seqFetch d x va 16 with
    | .error c => .error c
    | .ok h =>
      if slice h 0 7 ≠ id then .error tJobArg
      else match s.seqFetch d x (va + 16) (8 * slice h 8 4) with
        | .error c => .error c
        | .ok bs => .ok ((List.range (slice h 8 4)).map fun i => BitVec.ofNat 64 (slice bs (8 * i) 8))

/-- What a kernel task's record and images ask of a placement, or the cause that ends the task at dispatch (R307, R308). -/
def State.shapeOf (s : State) (d : Nat) (t : Task) : Except Nat Shape :=
  if t.bad then .error tJobArg
  else match (if t.fieldAt 56 8 = 0 then .ok (List.replicate 32 0) else s.seqFetch d t.ctx (t.fieldAt 56 8) 32) with
    | .error c => .error c
    | .ok st =>
      let more := [1, 2, 3].filterMap fun i => if slice st (8 * i) 8 = 0 then none else some (i, BitVec.ofNat 64 (slice st (8 * i) 8))
      let images := (0, BitVec.ofNat 64 (t.fieldAt 0 8)) :: more
      match s.peekAll d t.ctx images with
      | .error c => .error c
      | .ok [] => .error tJobArg
      | .ok ((f, es) :: fs) =>
        if fs.any fun e => hdWq e.1 != hdWq f || hdHq e.1 != hdHq f || hdNd e.1 != hdNd f then .error tJobArg
        else match s.liveMap d t.ctx (slice st 0 8) (hdId f) with
          | .error c => .error c
          | .ok live =>
            .ok { wq := hdWq f, hq := hdHq f, nd := hdNd f, edges := es ++ fs.flatMap (·.2), images, live
                  heat := ((f, es) :: fs).foldl (fun h e => max h (hdHeat e.1)) (t.fieldAt 9 1) }

/-- The translations that reading a record's stages, their images and the live map used stay in the sequencer's cache (R366). -/
def State.shapeSeen (s : State) (d : Nat) (t : Task) (sh : Shape) : State :=
  let va := t.fieldAt 56 8
  let s := if va = 0 then s else
    let s := s.seqSeen d t.ctx va 32
    match s.seqRead d t.ctx va 8 with
    | some bs => if slice bs 0 8 = 0 then s else s.seqSeen d t.ctx (slice bs 0 8) (16 + 8 * sh.live.length)
    | none => s
  sh.images.foldl (fun s e => s.imageSeen d t.ctx e.2.toNat) s

/-- The live rows of group `g`: none asked for, or their number (R307, R314). -/
def State.rowsOf (s : State) (d : Nat) (t : Task) (g : Nat) : Except Nat (Option Nat) :=
  if t.fieldAt 48 8 = 0 then .ok none
  else match s.seqFetch d t.ctx (t.fieldAt 48 8 + 4 * g) 4 with
    | .error c => .error c
    | .ok bs => .ok (some (slice bs 0 4))

/-- TC at arm (R314). -/
def Task.armTc (t : Task) (rows : Option Nat) : Word :=
  match rows with
  | none => BitVec.ofNat 64 t.tiles
  | some r => BitVec.ofNat 64 (t.tiles * ((r + 63) / 64) % 2 ^ 32)

/-! ## Placement (R309, R398) -/

/-- A quad in which no slot belongs to a group, in a cluster that is powered. -/
def State.quadFree (s : State) (q : Nat) : Bool := (s.regionOf q).isNone && (s.cluster (siteCluster q)).gate == .on

/-- A footprint that may be taken: inside its die, its quads free and, where `zones` holds, its zones usable and no pressure
excursion on the die, during which every admission is refused (R400). -/
def State.footFits (s : State) (sh : Shape) (zones : Bool) (o : Nat) : Bool :=
  let qs := footprintQuads o sh.wq sh.hq
  !leavesDie o sh.wq sh.hq && !(zones && (s.die (siteDie o)).pressHeld)
    && qs.all fun q => s.quadFree q && (!zones || s.zUsable (siteCluster q))

/-- The origins of a die in the order of R309. -/
def dieOrigins (d : Nat) : List Nat := (List.range 8).flatMap fun y => (List.range 16).map fun x => siteAt d (4 * x) (4 * y)

/-- Every cut edge joins its dies across their boundary (R223, R309). -/
def edgesFit (sh : Shape) (os : List Nat) : Bool := sh.edges.all fun e => edgeFaces { orgs := os, hdr := 0 } (Edge.of e)

/-- The first placement in the order of R309 that extends `os` by `k` relative dies and that `ok` admits. -/
def State.placeFrom (s : State) (sh : Shape) (own : Nat) (zones : Bool) (ok : List Nat → Bool) : Nat → List Nat → Option (List Nat)
  | 0, os => if ok os then some os else none
  | k + 1, os =>
    let ds := if os = [] then own :: [0, 1, 2, 3].filter (· ≠ own) else [0, 1, 2, 3].filter fun d => !(os.map siteDie).contains d
    ds.findSome? fun d => (dieOrigins d).findSome? fun o =>
      if s.footFits sh zones o then s.placeFrom sh own zones ok k (os ++ [o]) else none

/-- The region descriptor of a placement (R214). -/
def descOf (os : List Nat) : Word := BitVec.ofNat 64 (os.zipIdx.foldl (fun a e => a + e.1 * 2 ^ (13 * e.2)) 0)

/-- Group `g` of task `h` takes a placement: a region of its quads, its zones with its heat class (R313, R399). -/
def State.takePlace (s : State) (h : Nat × Nat) (g : Nat) (sh : Shape) (rows : Option Nat) (os : List Nat) : State :=
  match s.task? h with
  | none => s
  | some t =>
    let v := t.group g
    let n := s.nextRegion
    let r : Region := { desc := descOf os, wq := sh.wq, hq := sh.hq, nd := sh.nd, group := some (h.1, h.2, g)
                        quads := os.flatMap fun o => footprintQuads o sh.wq sh.hq }
    let ph := if v.phase = .preempted then GroupPhase.restoring else .loading
    let v := { v with phase := ph, region := some n, desc := r.desc, rows := rows.getD 0, heat := sh.heat, order := s.groupCtr,
                      fell := false, started := false, marked := false, ready := false }
    (({ s with regions := Table.put s.regions n r, nextRegion := n + 1, groupCtr := s.groupCtr + 1 } : State).setTask h
      (t.setGroup g v)).reMins r.clusters

/-- The sum of mins stays within the budget on every die of a placement, with the group admitted (R398). -/
def State.admits (s : State) (h : Nat × Nat) (g : Nat) (sh : Shape) (os : List Nat) : Bool :=
  let t := s.takePlace h g sh none os
  os.all fun o => decide (t.sumMins (siteDie o) ≤ t.zbudget (siteDie o))

/-- The placement of group `g`, if there is one now. -/
def State.placement (s : State) (h : Nat × Nat) (g : Nat) (sh : Shape) : Option (List Nat) :=
  s.placeFrom sh h.1 true (fun os => edgesFit sh os && s.admits h g sh os) (sh.nd + 1) []

/-- Take group `g` from the pool: a group with no live rows is triggered and exited at once (R314), another is placed. -/
def State.takeGroup (s : State) (h : Nat × Nat) (g : Nat) (sh : Shape) : Option State :=
  match s.task? h with
  | none => none
  | some t =>
    let s := if t.fieldAt 48 8 = 0 then s else s.seqSeen h.1 t.ctx (t.fieldAt 48 8 + 4 * g) 4
    match s.rowsOf h.1 t g with
    | .error c => some ((s.setTask h (t.fail c)).groupExit h g)
    | .ok (some 0) => some (s.groupExit h g)
    | .ok rows => (s.placement h g sh).map fun os => s.takePlace h g sh rows os

/-- Take every group of a list, or none (R311). -/
def State.takeGroups (s : State) (h : Nat × Nat) (sh : Shape) : List Nat → Option State
  | [] => some s
  | g :: gs => (s.takeGroup h g sh).bind fun s => s.takeGroups h sh gs

/-- Does group `g` take no placement: it has no live rows (R314), or they cannot be read? -/
def State.placeless (s : State) (h : Nat × Nat) (g : Nat) : Bool :=
  match s.task? h with
  | none => true
  | some t => match s.rowsOf h.1 t g with | .error _ | .ok (some 0) => true | .ok _ => false

/-- Would the groups of a list that take a placement fit in a package that holds nothing (R311)? -/
def State.fitsEmpty (s : State) (h : Nat × Nat) (sh : Shape) : List Nat → Bool
  | [] => true
  | g :: gs =>
    if s.placeless h g then s.fitsEmpty h sh gs
    else match s.placeFrom sh h.1 false (edgesFit sh) (sh.nd + 1) [] with
      | none => false
      | some os => (s.takePlace h g sh none os).fitsEmpty h sh gs

/-! ## Bindings and quads -/

/-- The channel bound to one group more, or to none (R313). -/
def Chan.bind (h : Chan) (b : Option (Nat × Nat × Nat)) : Chan :=
  { h with group := b, also := if b.isNone then [] else (h.group.toList ++ h.also).filter fun g => some g != b }

/-- The channel no longer bound to `g`; a group that shares the cluster keeps its binding (R313). -/
def Chan.unbind (h : Chan) (g : Nat × Nat × Nat) : Chan :=
  let gs := (h.group.toList ++ h.also).filter (· != g)
  { h with group := gs.head?, also := gs.tail }

/-- Bind channel `ch` of every core under a region (R313). -/
def State.bindChans (s : State) (r : Region) (ch : Nat) (b : Option (Nat × Nat × Nat)) : State :=
  r.clusters.foldl (fun s c => s.modCore c fun k => k.setChannel ch ((k.channel ch).bind b)) s

/-- Unbind channel `ch` of every core under a region from group `g` (R313). -/
def State.unbindChans (s : State) (r : Region) (ch : Nat) (g : Nat × Nat × Nat) : State :=
  r.clusters.foldl (fun s c => s.modCore c fun k => k.setChannel ch ((k.channel ch).unbind g)) s

/-- The messages that the channels under a region hold for group `g` are discarded (R313). -/
def State.dropMessages (s : State) (r : Region) (ch : Nat) (g : Nat × Nat × Nat) : State :=
  r.clusters.foldl (fun s c => s.modCore c fun k =>
    let h := k.channel ch
    k.setChannel ch { h with queue := h.queue.filter fun m => m.group != some g }) s

/-- A site whose quad is freed: nothing of a slot is left in it but its contexts' flags (R36); its record and its live counts
stay. -/
def Site.freed_ (t : Site) : Site :=
  { cfg := t.cfg.filterMap fun e => if e.2.flags = 0 then none else some (e.1, { flags := e.2.flags })
    cycles := t.cycles, rec28 := t.rec28, rec30 := t.rec30, cut := t.cut, strayAnti := t.strayAnti, strayTok := t.strayTok,
    cancelledErr := t.cancelledErr, missing := t.missing, blocked := t.blocked, nextEntry := t.nextEntry }

/-- Free the quads of region `g`'s group, of context `x`: every slot EMPTY, faults of its sites freed, its zones' mins computed
afresh (R313, R399, R417). -/
def State.freeRegion (s : State) (g x : Nat) : State :=
  let r := s.region g
  let gone := s.regionsOf g
  let s := r.land.foldl (fun (s : State) p =>
    let s := s.freeFaults p fun _ _ => true
    let s := (List.range 4).foldl (fun (s : State) n => s.dropStop p n) s
    s.modSite p Site.freed_) s
  let qs := dedup (r.land.map quadOf)
  ({ s with regions := s.regions.filter fun e => !gone.contains e.1
            quadCtx := qs.foldl (fun t q => Table.put t q x) s.quadCtx } : State).reMins r.clusters

/-- Set every word of a tile to zero and empty (R310); a write of a whole word clears its poison (R419). -/
def State.zeroTile (s : State) (p : Nat) : State :=
  let lo := tileBase p
  { s with mem := s.mem.filter (fun e => !(decide (lo ≤ e.1) && decide (e.1 < lo + 0x80000)))
           fullBits := s.fullBits.filter fun e => !(decide (lo ≤ e.1) && decide (e.1 < lo + 0x80000))
           poison := s.poison.filter fun a => !(decide (lo ≤ a) && decide (a < lo + 0x80000)) }

/-- What the loader does to the quads of a placement before it loads: tiles whose last group was of another context become zero
and empty (R310), every accumulator tile is cleared (R157, R313). -/
def State.prepare (s : State) (r : Region) (x : Nat) : State :=
  r.sites.foldl (fun s p =>
    let q := quadOf p
    let s := if siteKind p = .mt ∧ Table.has s.quadCtx q ∧ Table.get 0 s.quadCtx q ≠ x then s.zeroTile p else s
    if siteKind p = .ce then
      ((List.range 8).foldl (fun s k => s.zeroAcc p k) s).modSite p fun t => { t with acc := [], bin := none }
    else s) s

/-! ## Loading, running, exit (R313 to R316) -/

/-- A group whose load, arm, swap or restore fails: its task is marked failed, and it goes to EXITING; one that was LOADING counts
as triggered (R313). -/
def State.failGroup (s : State) (h : Nat × Nat) (g cause : Nat) : State :=
  match s.task? h with
  | none => s
  | some t =>
    let t' := t.fail cause
    let t' := if (t.group g).phase = .loading then t'.trigger g else t'
    (s.setTask h t').groupToExit h g

/-- Load each image of a list into its slot of region `r`, and where `tc` is given arm it (R313, R314). -/
def State.loadImages (s : State) (x r : Nat) (tc : Option Word) : List (Nat × Word) → Except Nat State
  | [] => .ok s
  | (n, a) :: as =>
    let s := s.imageSeen (loaderDie (s.region r).desc) x a.toNat
    match s.loadSlot x (s.region r).desc n a (fun q => s.regionOf q == some r) with
    | .error c => .error c
    | .ok s =>
      match (match tc with | some w => s.armSlot r n w | none => .ok s) with
      | .error c => .error c
      | .ok s => s.loadImages x r tc as

/-- A task, its group, its region and its shape, where the group stands in a phase. -/
def State.groupIn (s : State) (h : Nat × Nat) (g : Nat) (ph : GroupPhase) : Option (Task × Group × Nat × Shape) :=
  match s.task? h with
  | none => none
  | some t =>
    let v := t.group g
    match v.region, t.shape with
    | some r, some sh => if v.phase = ph then some (t, v, r, sh) else none
    | _, _ => none

/-- GROUP_DISPATCH: a placed group binds its channels, clears its accumulator tiles, loads its images and arms them with TC
(R313, R314). -/
def execGroupDispatch (d t g : Nat) (s : State) : Res :=
  .next (match s.groupIn (d, t) g .loading with
    | none => s
    | some (k, v, r, sh) =>
      if v.ready then s
      else
        let reg := s.region r
        let s := (s.bindChans reg k.gch (some (d, t, g))).prepare reg k.ctx
        let rows := if k.fieldAt 48 8 = 0 then none else some v.rows
        match s.loadImages k.ctx r (some (k.armTc rows)) sh.images with
        | .error c => s.failGroup (d, t) g c
        | .ok s => s.setGroup (d, t) g { v with ready := true })

/-- The dispatch message of a group (R299, R315). -/
def Task.groupMsg (t : Task) (d : Nat) (j : Job) (g : Nat) (v : Group) (resumed : Bool) : Msg :=
  { words := [BitVec.ofNat 64 (6 * 2 ^ 56), handleWord d t.serial, t.recAddr, j.arg, BitVec.ofNat 64 (t.fieldAt 0 8), v.desc,
      BitVec.ofNat 64 (v.rows * 2 ^ 32 + (if resumed then 2 ^ 16 else 0) + g % 2 ^ 16), BitVec.ofNat 64 (t.saveAt g)] }

/-- GROUP_RUNNING: its loads done, the group's slot 0, or after a restore the slot that was current, is swapped in, and the
dispatch message goes to the lead core's gch; a slot that no swap may select fails the group (R230, R313, R315). -/
def execGroupRunning (d t g : Nat) (s : State) : Res :=
  let go (k : Task) (v : Group) (r : Nat) (resumed : Bool) : State :=
    let reg := s.region r
    match s.job? d k.job with
    | none => s
    | some j =>
      if ¬ v.ready ∨ ¬ ((s.core reg.lead).channel k.gch).takes then s
      else
        let n := if resumed then v.savedCur else 0
        if ¬ reg.swappable n then s.failGroup (d, t) g tCfgState
        else
          let s := s.setGroup (d, t) g { v with phase := .running, ready := false, areas := [] }
          (s.postTo reg.lead k.gch { k.groupMsg d j g v resumed with group := some (d, t, g) }).swapTo r n
  .next (match s.groupIn (d, t) g .loading, s.groupIn (d, t) g .restoring with
    | some (k, v, r, _), _ => go k v r false
    | none, some (k, v, r, _) => go k v r true
    | none, none => s)

/-- A list, chain or descriptor that an engine command has still to read is unreadable for now: a page that a fault waits for, a
lock of another. -/
def Halt.later : Halt → Bool
  | .absent _ | .busy => true
  | .refused _ _ => false

/-- The descriptors that are left of a chain: destination and length of each (R277); none where one cannot be read yet. -/
def State.chainRanges (s : State) (m : Cmd) : Nat → Nat → Option (List (Nat × Nat))
  | 0, _ => some []
  | fuel + 1, a =>
    match s.readNum m a 32 with
    | (_, some e) => if e.later then none else some []
    | (d, none) =>
      let here := (d % 2 ^ 64, d / 2 ^ 128 % 2 ^ 32)
      if d / 2 ^ 192 = 0 then some [here] else (s.chainRanges m fuel (d / 2 ^ 192)).map (here :: ·)

/-- The words that a scatter writes, of those from `i` on; none where an offset cannot be read yet. -/
def State.scatterRanges (s : State) (m : Cmd) : Nat → Nat → Option (List (Nat × Nat))
  | 0, _ => some []
  | n + 1, i =>
    match s.readNum m (m.c.toNat + 4 + 4 * i) 4 with
    | (_, some e) => if e.later then none else some []
    | (v, none) => (s.scatterRanges m n (i + 1)).map ((m.a.toNat + 4 * v, 4) :: ·)

/-- The ranges that an engine command writes; none where what names them cannot be read yet. -/
def State.writeRanges (s : State) (m : Cmd) : Option (List (Nat × Nat)) :=
  match m.op with
  | 0 | 3 => some [(m.a.toNat, m.c.toNat)]
  | 1 | 2 =>
    match s.listCount m with
    | (_, some e) => if e.later then none else some []
    | (n, none) => if m.op = 1 then some [(m.a.toNat, 4 * n)] else s.scatterRanges m n 0
  | 4 => s.chainRanges m 4096 (if m.c = 0 then m.a.toNat else m.c.toNat)
  | _ =>
    if 8 ≤ m.op ∧ m.op < 0x20 then
      match s.part 0 m with
      | (p, none) => some [(m.a.toNat, dstLen p)]
      | (_, some e) => if e.later then none else some []
    else some []

/-- An engine command that is in flight writes the data window of a tile of region `r`, of a group of context `x` (R324); one of
that context whose destinations cannot be read yet may. -/
def State.writesInto (s : State) (r : Region) (x : Nat) (m : Cmd) : Bool :=
  m.stage != 2 && match s.writeRanges m with
    | none => m.ctx == x
    | some es => es.any fun e => e.2 != 0 &&
      (List.range (e.2 / 0x10000 + 2)).any fun i =>
        let va := if i = 0 then e.1 else (e.1 / 0x10000 + i) * 0x10000
        decide (va < e.1 + e.2) && match s.placeAt m.core m.ctx (BitVec.ofNat 64 va) with
          | some (.tile c t) => r.owns (tileSite c t)
          | _ => false

/-- GROUP_FREE: an EXITING group into whose tiles no engine write is in flight, and which has received the KILL that a kill of its
task sends it (R341), is FREE: its quads, zones and channels are freed, its queued messages discarded, and it counts as exited
(R313, R324). -/
def execGroupFree (d t g : Nat) (s : State) : Res :=
  .next (match s.task? (d, t) with
    | none => s
    | some k =>
      let v := k.group g
      if v.phase ≠ .exiting then s
      else match v.region with
        | none => s.groupExit (d, t) g
        | some r =>
          let reg := s.region r
          if (k.killed ∧ ¬ v.killSent) ∨ s.cmds.any fun e => decide (e.2.no < v.mark) && s.writesInto reg k.ctx e.2 then s
          else
            let s := (s.dropMessages reg k.gch (d, t, g)).unbindChans reg k.gch (d, t, g)
            let s := s.setGroup (d, t) g { v with region := none, zreq := [] }
            ((s.freeRegion r k.ctx).reMins (v.zreq.map (·.1))).groupExit (d, t) g)

end Sys2Proof.Machine
end

