-- ==== Sys2Proof/Machine/Handler.lean ====
section
/-! DEFINITION. The steps of a control core that no instruction takes: starting a handler (R242), the core switch (R245),
the budget and stall traps (R242, R251), and the posting of continuations (R248). -/

namespace Sys2Proof.Machine

/-! ## Starting a handler (R242) -/

/-- A fault holds a core switch (R245). -/
def CoreSt.switchHeld (k : CoreSt) : Bool := k.nextHeld || k.later.any (·.2)

/-- Channels that could start a handler: enabled with a message queued; while a core switch is held, only those of the
resident context (R245). -/
def CoreSt.startable (k : CoreSt) : List Nat :=
  (List.range 16).filter fun n =>
    let h := k.channel n
    h.en && !h.queue.isEmpty && (!k.switchHeld || h.ctx == k.ctx)

/-- The priority of a channel; ch0's is 0 (R240). -/
def CoreSt.prioOf (k : CoreSt) (n : Nat) : Nat := if n = 0 then 0 else (k.channel n).prio

/-- The channel with the smallest prio, ties to the lower number. -/
def CoreSt.pickChan (k : CoreSt) : List Nat → Option Nat
  | [] => none
  | n :: ns =>
    match k.pickChan ns with
    | none => some n
    | some j => if k.prioOf n ≤ k.prioOf j then some n else some j

/-- The m-registers that a message loads; unused ones read zero (R241). -/
def msgRegs (ws : List Word) : Table Word := (List.range 8).map fun i => (i, ws.getD i 0)

/-- The current task of a handler that a message of channel `h` starts (R327): that of a dispatch message, else the kernel task of
the message's group. -/
def State.startTask (s : State) (h : Chan) (m : Msg) : Option (Nat × Nat) :=
  let own := if m.words.getD 0 0 >>> 56 == 6 then (s.handle? (m.words.getD 1 0) h.ctx).map (·.1) else none
  match own with
  | some t => some t
  | none => (h.bound m.group).map fun g => (g.1, g.2.1)

/-- May core `c` start a handler now? -/
def State.mayStart (s : State) (c : Nat) : Bool :=
  let k := s.core c
  decide (c < 128) && !k.running && !k.halted && !k.dead && (k.next.isNone || k.nextHeld)
    && (s.cluster c).gate != .off

/-- HANDLER_START: a handler whose core switch was put off starts, once no fault holds it (R245); else what has been written to the
channels takes effect (R240), and the oldest message of the enabled, non-empty channel with the smallest prio starts its handler
(R242). -/
def execHandlerStart (c : Nat) (s : State) : Res :=
  .next (if ¬ s.mayStart c then s
    else match (s.core c).later.find? fun e => !e.2 with
    | some e => (s.modCore c fun k => { k with later := k.later.erase e }).startOn c e.1
    | none =>
      let k := (s.core c).settle
      match k.pickChan k.startable with
      | none => s
      | some n =>
        let h := k.channel n
        match h.queue with
        | [] => s
        | m :: q =>
          let st : Start := { ctx := h.ctx, chan := n, m := msgRegs m.words, pc := h.entry, issued := 0, budget := h.budget,
                              priv := h.priv, task := s.startTask h m, group := h.bound m.group }
          (s.setCore c (k.setChannel n { h with queue := q })).startOn c st)

/-! ## The core switch (R245) -/

/-- Every outstanding counter and scoreboard count is zero. -/
def CoreSt.quiet (k : CoreSt) : Bool := (k.ocnt.all fun e => e.2 == 0) && k.board.all fun e => e.2 == 0

/-- CORE_SWITCH: with the counters and scoreboard zero the outgoing record is written, the incoming one read, and the
handler that waits begins; a translation fault is held until it is resumed (R245, R417). -/
def execCoreSwitch (c : Nat) (s : State) : Res :=
  let k := s.core c
  .next (match k.next with
    | none => s
    | some st =>
      if k.running ∨ k.nextHeld ∨ ¬ k.quiet then s
      else
        let fail (x : Nat) (need : Need) (va : Nat) : State :=
          ((s.openDenied c c x need va).modCore c fun k => { k with nextHeld := true }).holdFault c
            { src := 0, cause := s.openCause c x need va, ctx := k.ctx, ord := k.tpc.toNat, loc := st.chan, val := BitVec.ofNat 64 va } (.coreSwitch c)
        match s.openAddrs c k.ctx .store (s.recordVa k.ctx c) 512, s.openAddrs c st.ctx .load (s.recordVa st.ctx c) 512 with
        | .error va, _ => fail k.ctx .store va
        | _, .error va => fail st.ctx .load va
        | .ok ps, .ok qs =>
          if s.liveAt ps then s
          else
          let s := ((s.cacheRun c k.ctx .store (s.recordVa k.ctx c) 512).cacheRun c st.ctx .load (s.recordVa st.ctx c) 512).writeAt ps k.record
          let bs := qs.map s.byteAt
          (s.modCore c fun k => ({ k with ctx := st.ctx, next := none, nextHeld := false, arrival := none }.loadRecord bs).begin st).traceStart c st)

/-! ## Traps of the core's own (R242, R251) -/

/-- The handler has issued its budget without ending (R242). -/
def CoreSt.overBudget (k : CoreSt) : Bool := k.running && k.budget != 0 && decide (k.budget ≤ k.issued)

/-- HANDLER_BUDGET: such a handler traps. -/
def execHandlerBudget (c : Nat) (s : State) : Res :=
  .next (if (s.core c).overBudget then s.trap c tHandlerBudget 0 else s)

/-- STALL_LIMIT: a stall that has lasted more than %stallmax cycles; time is left out (log 5), so any stall may reach it
but that of an ordered task on its commit buffer (R251, R333). -/
def execStallLimit (c : Nat) (s : State) : Res :=
  .next (match (s.core c).stall with
    | none | some (.commit _) => s
    | some _ => if (s.core c).running then s.trap c tStallLimit 0 else s)

/-- The commands of core `c` of a kind that stand still: their fault message has been posted (R251). -/
def State.stopped (s : State) (c : Nat) (f : Cmd → Bool) : Nat :=
  (s.cmds.filter fun e =>
    e.2.core == c && e.2.task.isNone && f e.2 && (match e.2.held with | some n => n != 0 | none => false)).length

/-- The stall of core `c` depends on a command that stands still (R251): no register's count can fall to zero without it, or a
full count, a full class counter or a WAIT has too many of them. -/
def State.stallHeld (s : State) (c : Nat) : Bool :=
  (s.core c).running &&
    match (s.core c).stall with
    | some (.reg rs) | some (.pending rs) => decide (0 < s.stopped c fun m => rs.contains m.tok)
    | some (.full r) => decide (15 ≤ s.stopped c fun m => m.tok == r)
    | some (.counter n) => decide (1023 ≤ s.stopped c fun m => m.cls == n)
    | some (.wait n lim) => decide (lim < s.stopped c fun m => m.cls == n)
    | _ => false

/-- STALL_FAULT (R251). -/
def execStallFault (c : Nat) (s : State) : Res := .next (if s.stallHeld c then s.trap c tStallFault 0 else s)

/-! ## Continuations (R248) -/

/-- Another slot of the channel whose event came before that of slot `i`, now `p`, can post as well: it goes first (R248). -/
def State.parkBefore (s : State) (u : CoreSt) (i : Nat) (p : Park) : Bool :=
  u.parks.any fun (j, q) =>
    q.fired.isSome && q.chan == p.chan && (s.ctx q.ctx).phase == .opened
      && (decide (q.turn < p.turn) || (q.turn == p.turn && decide (j < i)))

/-- PARK_POST: slot `k`, whose event has happened, posts its continuation once its channel has room and its context is
OPEN, in order with the other waiting slots of the channel, and frees itself. -/
def execParkPost (c k : Nat) (s : State) : Res :=
  let u := s.core c
  .next (match (u.parks.find? fun e => e.1 = k).map (·.2) with
    | none => s
    | some p =>
      match p.fired with
      | none => s
      | some v =>
        if (u.channel p.chan).takes ∧ (s.ctx p.ctx).phase = .opened ∧ ¬ s.parkBefore u k p then
          (s.setCore c { u with parks := Table.del u.parks k }).postTo c p.chan
            { words := [BitVec.ofNat 64 (2 * 2 ^ 56 + p.form), p.tag, v], group := (u.channel p.chan).bound p.group }
        else s)

end Sys2Proof.Machine
end

