-- ==== Sys2Proof/Machine/Preempt.lean ====
section
/-! DEFINITION. Pre-emption and restore of groups (R313, R320 to R323). -/

namespace Sys2Proof.Machine

/-! ## The save area of a group (R87, R322) -/

def round256 (n : Nat) : Nat := (n + 255) / 256 * 256

/-- The site that a live-map entry names in a region (R87). -/
def liveSite (r : Region) (e : Word) : Nat :=
  let o := descOrg r.desc (fld e 61 60)
  siteAt (siteDie o) (siteX o + fld e 59 54) (siteY o + fld e 53 49)

def liveBase (e : Word) : Nat := fld e 33 17
def liveLen (e : Word) : Nat := fld e 16 0 + 1

/-- The live arrays and the quiet entries of a map. -/
def Shape.arrays (sh : Shape) : List Word := sh.live.filter fun e => fld e 63 62 == 1
def Shape.quiets (sh : Shape) : List Word := sh.live.filter fun e => fld e 63 62 == 2

/-- The bytes that an array takes in the area. -/
def arrayBytes (e : Word) : Nat := round16 (4 * liveLen e + 4 * ((liveLen e + 31) / 32))

/-- An array's words and full-empty groups as the area holds them (R179, R322). -/
def State.arrayOut (s : State) (r : Region) (e : Word) : List Byte :=
  let a (i : Nat) : Nat := wordAddr (liveSite r e) (liveBase e + i)
  let n := liveLen e
  let bits (k : Nat) : Nat := (List.range 32).foldl (fun v i => v + if 32 * k + i < n ∧ s.isFull (a (32 * k + i)) then 2 ^ i else 0) 0
  let bs := ((List.range n).flatMap fun i => bytesLE 4 (s.word (a i)).toNat) ++ (List.range ((n + 31) / 32)).flatMap fun k => bytesLE 4 (bits k)
  bs ++ List.replicate (arrayBytes e - bs.length) 0

/-- An array's words and full-empty bits put back from the area (R323). -/
def State.arrayIn (s : State) (r : Region) (e : Word) (bs : List Byte) : State :=
  let n := liveLen e
  (List.range n).foldl (fun s i =>
    let pa := wordAddr (liveSite r e) (liveBase e + i)
    let full := slice bs (4 * n + 4 * (i / 32)) 4 / 2 ^ (i % 32) % 2 == 1
    (s.setWord pa (BitVec.ofNat 32 (slice bs (4 * i) 4))).setFull pa full) s

/-- The slots that a pre-emption saves: the current one and the SUSPENDED ones (R321). -/
def Region.savable (r : Region) : List Nat :=
  (List.range 4).filter fun n => r.cur == some n || (r.slot n).phase == .suspended

/-- The bytes of a group's save area with `k` saved slots. -/
def areaSize (sh : Shape) (r : Region) (k : Nat) : Nat :=
  let head := 64 + sh.arrays.foldl (fun a e => a + arrayBytes e) 0
  if k = 0 then head else (List.range (k - 1)).foldl (fun a _ => a + round256 r.saveBytes) (round256 head) + r.saveBytes

/-- The bytes of a group's save area. -/
def State.groupArea (s : State) (r : Region) (sh : Shape) (g : Nat) (v : Group) : List Byte :=
  let live := sh.arrays.flatMap (s.arrayOut r)
  let pad (bs : List Byte) : List Byte := bs ++ List.replicate (round256 bs.length - bs.length) 0
  let head := bytesLE 4 0x00505247 ++ bytesLE 2 g ++ bytesLE 1 v.mode ++ bytesLE 1 v.savedCur ++ bytesLE 8 live.length
    ++ bytesLE 8 (areaSize sh r v.areas.length) ++ bytesLE 40 0
  v.areas.foldl (fun bs e => pad bs ++ e.2.area) (head ++ live)

/-! ## Failure -/

/-- Counters that were asked to hold go on (R313, R321). -/
def State.releaseCnts (s : State) (r : Region) (n : Nat) : State :=
  r.sites.foldl (fun s p => s.modSite p fun t =>
    let c := t.slot n
    if frKind c.elem = 1 ∧ ceOp c.elem = 0x1F then t.setSlot n { c with hold := false, gate := false } else t) s

/-- The save fails: GPSTAT reports the cause, what was saved is put back, and the group runs on (R313, R322). -/
def State.failSave (s : State) (h : Nat × Nat) (g : Nat) (v : Group) (r cause : Nat) : State :=
  let s := v.areas.foldl (fun s e => s.installSaved r e.1 e.2) (s.gpFail h.1 v.req cause)
  let s := match v.areas.find? fun e => e.1 = v.savedCur with
    | none => s
    | some (n, sv) =>
      let reg := s.region r
      let once (p : Nat) : Nat := match sv.sites.find? fun (e : SavedSite) => e.site == reg.relSite p with
        | some e => e.cfg.once
        | none => 0
      reg.sites.foldl (fun s p => s.modSite p fun t => t.setSlot n { t.slot n with once := once p }) (s.swapTo r n)
  let s := s.releaseCnts (s.region r) v.savedCur
  s.setGroup h g { v with phase := .running, areas := [], started := false, marked := false }

/-! ## The save, slot by slot (R321) -/

/-- Slot `n` of the group's region has come to rest: its state is taken, with its tiles unless `bare` (R174), and it is
LOADED. -/
def State.takeSlot (s : State) (h : Nat × Nat) (g : Nat) (v : Group) (r n : Nat) (bare : Bool) : State :=
  let s := (s.settleBlocks r).letGo r n
  let sv := s.saveRecord r n bare
  (({ s with fresh := s.fresh + 2 ^ 48 } : State).saveDone r n).setGroup h g { v with areas := Table.put v.areas n sv, marked := false }

/-- A pre-emption begins: an area that would exceed sstride fails it before a byte is written (R322); `f` goes on. -/
def State.beginSave (s : State) (h : Nat × Nat) (g : Nat) (t : Task) (v : Group) (r : Nat) (sh : Shape) (f : Group → State) : State :=
  let reg := s.region r
  if areaSize sh reg reg.savable.length > t.sstride then s.failSave h g v r tSaveSpace
  else f { v with started := true, marked := false, savedCur := reg.cur.getD 0, areas := [] }

/-- GPREQ_MARKER: a marker pre-emption goes one step on: a DORMOUSE into the current slot, its state once every element is SAVED,
or the next SUSPENDED slot swapped in; what it has not begun waits while a cut runs through the region (R321, R441). -/
def execGpreqMarker (d t g : Nat) (s : State) : Res :=
  .next (match s.groupIn (d, t) g .preempting with
    | none => s
    | some (k, v, r, sh) =>
      if v.mode ≠ 1 ∧ ¬ Table.has v.areas v.savedCur then s
      else if ¬ v.marked ∧ s.cutting r then s
      else if ¬ v.started then s.beginSave (d, t) g k v r sh fun v => s.setGroup (d, t) g v
      else
        let reg := s.region r
        match reg.cur with
        | some n =>
          if (if v.marked then s.allSaved r n else (reg.slot n).phase == .drained) then s.takeSlot (d, t) g v r n false
          else if v.marked then s
          else (s.inject r n mkDormouse (Config.requestNumber v.req).toNat).setGroup (d, t) g { v with marked := true }
        | none =>
          match reg.savable.find? fun n => !Table.has v.areas n with
          | some n => s.swapTo r n
          | none => s)

/-- The sites of the counters that a live map's quiet entries name. DESIGN CHOICE (log 73): an entry that names no cnt is
ignored. -/
def State.quietSites (s : State) (r : Region) (sh : Shape) (n : Nat) : List Nat :=
  (sh.quiets.map (liveSite r)).filter fun p =>
    let f := ((s.site p).slot n).elem
    frKind f == 1 && ceOp f == 0x1F

/-- A step save falls back to a marker: the counters are released and GPSTAT.fell is set (R321). -/
def State.fallBack (s : State) (h : Nat × Nat) (g : Nat) (v : Group) (r : Nat) : State :=
  let s := s.releaseCnts (s.region r) v.savedCur
  (if s.gpPending h.1 v.req then s.setRegFld (gpstat h.1) 0 0 1 else s).setGroup h g { v with mode := 1, fell := true }

/-- The step deadline of a die in microseconds (R320). -/
def State.gpdl (s : State) (d : Nat) : Nat := fld (s.reg (dieBase d + 0x1018)) 19 0

/-- GPREQ_STEP: a step pre-emption asks each quiet counter to hold after its next EOS of level 0; without one, or with a deadline
of 0, it falls back at once (R320, R321). -/
def execGpreqStep (d t g : Nat) (s : State) : Res :=
  .next (match s.groupIn (d, t) g .preempting with
    | none => s
    | some (k, v, r, sh) =>
      if v.mode ≠ 2 ∨ v.started ∨ s.cutting r then s
      else s.beginSave (d, t) g k v r sh fun v =>
        let ps := match (s.region r).cur with | some n => s.quietSites (s.region r) sh n | none => []
        if ps = [] ∨ s.gpdl d = 0 then s.fallBack (d, t) g v r
        else
          let s := ps.foldl (fun s p => s.modSite p fun u => u.setSlot v.savedCur { u.slot v.savedCur with hold := true }) s
          s.setGroup (d, t) g v)

/-- The quiet point (R321): every quiet counter holds, every packet of the slot is consumed, nothing of it is in progress, and no
tile owned by one of its contexts is OPEN. -/
def State.quietPoint (s : State) (r n : Nat) (ps : List Nat) : Bool :=
  let reg := s.region r
  (ps.all fun p => ((s.site p).slot n).gate) && s.noAnti r n &&
    reg.sites.all fun p =>
      let t := s.site p
      s.siteQuiet p n && s.coalesced p n && (t.matq.all fun e => e.slot != n) && (t.mtq.all fun e => e.slot != n)
        && noneOf t.lane n && noneOf t.wire n && noneOf t.inb n && noneOf t.outb n && t.acc.all fun e => !(e.2.opened && e.2.owner == n)

/-- QUIET_POINT: the slot's records are taken as those of a DRAINED slot, with no tile and no bins (R174, R321). -/
def execQuietPoint (d t g : Nat) (s : State) : Res :=
  .next (match s.groupIn (d, t) g .preempting with
    | none => s
    | some (_, v, r, sh) =>
      match (s.region r).cur with
      | none => s
      | some n =>
        if v.mode = 2 ∧ v.started ∧ n = v.savedCur ∧ ¬ Table.has v.areas n ∧ ¬ s.cutting r
            ∧ s.quietPoint r n (s.quietSites (s.region r) sh n) then
          (s.releaseCnts (s.region r) n).takeSlot (d, t) g v r n true
        else s)

/-- STEP_DEADLINE: GPDL passes before the quiet point; time is left out (log 5), so it may pass at any step (R321). -/
def execStepDeadline (d t g : Nat) (s : State) : Res :=
  .next (match s.groupIn (d, t) g .preempting with
    | none => s
    | some (_, v, r, _) => if v.mode = 2 ∧ v.started ∧ ¬ Table.has v.areas v.savedCur then s.fallBack (d, t) g v r else s)

/-- With no group of a pending request left PREEMPTING it is done (R320). -/
def State.gpDone (s : State) (h : Nat × Nat) (req : Nat) : State :=
  match s.task? h with
  | none => s
  | some t =>
    if (t.groups.any fun e => e.2.phase == .preempting && e.2.req == req) || !s.gpPending h.1 req then s
    else s.setRegFld (gpstat h.1) 31 30 2

/-- A pre-empted group is back in the pool, its task's entry of the age of the return (log 67). -/
def State.backInPool (s : State) (h : Nat × Nat) : State :=
  match s.task? h with
  | none => s
  | some t => s.repool h t

/-- PREEMPT_SAVED: every slot is saved: the area is written, and the group is PREEMPTED, its quads, zones and channels free
(R313, R322). -/
def execPreemptSaved (d t g : Nat) (s : State) : Res :=
  .next (match s.groupIn (d, t) g .preempting with
    | none => s
    | some (k, v, r, sh) =>
      let reg := s.region r
      if ¬ v.started ∨ reg.cur.isSome ∨ (reg.savable.any fun n => !Table.has v.areas n) ∨ (v.mode = 2 ∧ ¬ Table.has v.areas v.savedCur) then s
      else match s.seqPut (loaderDie reg.desc) k.ctx (k.saveAt g) (s.groupArea reg sh g v) with
        | .error a => s.failSave (d, t) g v r (s.openCause (seqPlace (loaderDie reg.desc)) k.ctx .store a)
        | .ok u =>
          if s.harms u then s
          else
          let s := ({ u with saved := v.areas.map (·.2) ++ s.saved } : State).unbindChans reg k.gch (d, t, g)
          let s := s.setGroup (d, t) g { v with phase := .preempted, region := none, zreq := [], started := false }
          ((((s.freeRegion r k.ctx).reMins (v.zreq.map (·.1)))).gpDone (d, t) v.req).backInPool (d, t))

/-! ## Restore (R313, R323) -/

/-- Put the saved slots of an area back, from offset `o` on; the descriptor in each is replaced by the new placement's. -/
def State.restoreSlots (s : State) (r : Nat) (bs : List Byte) : Nat → List Nat → Except Nat State
  | _, [] => .ok s
  | o, n :: ns =>
    let o := round256 o
    let size := slice bs (o + 16) 8
    let a := (bs.drop o).take size
    match s.restore r n (a.take 24 ++ bytesLE 8 (s.region r).desc.toNat ++ a.drop 32) a with
    | .error c => .error c
    | .ok s => s.restoreSlots r bs (o + size) ns

/-- Put the live arrays of an area back, from offset 64 on. -/
def State.restoreArrays (s : State) (r : Region) (bs : List Byte) : Nat → List Word → State
  | _, [] => s
  | o, e :: es => (s.arrayIn r e (bs.drop o)).restoreArrays r bs (o + arrayBytes e) es

/-- Every image loaded, every live array and saved slot back from the area (R323). -/
def State.restoreGroup (s : State) (k : Task) (g : Nat) (v : Group) (r : Nat) (sh : Shape) : Except Nat State :=
  match s.loadImages k.ctx r none sh.images with
  | .error c => .error c
  | .ok s =>
    let d := loaderDie (s.region r).desc
    let s := s.areaSeen k.ctx r (k.saveAt g)
    match s.seqFetch d k.ctx (k.saveAt g) 64 with
    | .error c => .error c
    | .ok h =>
      match s.seqFetch d k.ctx (k.saveAt g) (max 64 (slice h 16 8)) with
      | .error c => .error c
      | .ok bs =>
        if slice bs 0 4 ≠ 0x00505247 then .error tCfgState
        else (s.restoreArrays (s.region r) bs 64 sh.arrays).restoreSlots r bs (64 + slice bs 8 8) (v.areas.map (·.1))

/-- GROUP_RESTORE: a PREEMPTED group that has been placed anew binds its channels, clears its accumulator tiles, loads its images
and restores (R313, R323). -/
def execGroupRestore (d t g : Nat) (s : State) : Res :=
  .next (match s.groupIn (d, t) g .restoring with
    | none => s
    | some (k, v, r, sh) =>
      if v.ready then s
      else
        let reg := s.region r
        let s := (s.bindChans reg k.gch (some (d, t, g))).prepare reg k.ctx
        match s.restoreGroup k g v r sh with
        | .error c => s.failGroup (d, t) g c
        | .ok s => s.setGroup (d, t) g { v with ready := true })

end Sys2Proof.Machine
end

