-- ==== Sys2Proof/Machine/Speculate.lean ====
section
/-! DEFINITION. Speculative commit (R329 to R333), incumbent slots at their homes and their copies (R334 to R336, R345), and the
kills that updates and markers bring (R338, R341). -/

namespace Sys2Proof.Machine

/-! ## Order (R331) -/

/-- An ordered task is oldest: no other of its job that is POOLED, RUNNING or DONE comes before it; a child on its way into the
pool, whose record is not read yet, counts as coming before it (R331). In a job that ends because of a work word a task that was
not dispatched counts no more (R294). -/
def State.oldest (s : State) (h : Nat × Nat) (t : Task) : Bool :=
  let broken : Bool := match s.job? h.1 t.job with | some j => j.broken | none => false
  (s.die h.1).tasks.all fun e =>
    let u := e.2
    let live := (u.phase == .pooled && !broken) || u.phase == .running || u.phase == .done
    e.1 == h.2 || u.job != t.job || !((live && u.ordered && u.before t) || (u.spawned && u.phase == .ready && !broken))

/-! ## The commit step (R331, R333) -/

/-- Perform a run of buffered bytes at their targets, in ascending address; a register's unit is written whole. -/
def State.commitBytes (s : State) (c : Nat) : Nat → List (Nat × Byte) → State
  | 0, _ => s
  | _, [] => s
  | fuel + 1, (a, b) :: bs =>
    let place := placeOf a
    if place.plain then (s.storeBytes a [b]).commitBytes c fuel bs
    else
      let n := match place with | .fullWords _ _ _ => 4 | _ => 8
      let v := natLE (b :: (bs.take (n - 1)).map (·.2))
      let s := match place with
        | .die _ _ | .debug _ _ => s.devWrite (.core c) a (BitVec.ofNat 64 v)
        | _ => s.writePlace a n v
      s.commitBytes c fuel (bs.drop (n - 1))

/-- A task's buffered write lines are performed, and the conflicts judged where it is ordered. -/
def State.performBuffer (s : State) (h : Nat × Nat) (t : Task) : State :=
  let s := s.commitBytes (t.core.getD (32 * h.1)) t.wbuf.length t.wbuf
  if t.ordered then s.abortReaders h t (linesOf t.wbuf) else s

/-- A write that task `h` made as an irrevocable one is outstanding (R333). -/
def State.writing (s : State) (h : Nat × Nat) (t : Task) : Bool :=
  match t.core with
  | some c => (s.core c).ops.any fun o => o.writes && o.task == some h
  | none => false

/-- The queues of the tiles that a task's buffered bytes go to let them through (R181, R183). -/
def State.bufferFree (s : State) (t : Task) : Bool := t.wbuf.all fun e => s.accessFree (e.1 / 4 * 4) 4 true

/-- SPEC_COMMIT: a DONE task that is unordered, or oldest of its job, commits: its writes, its children, and with all its writes
performed its offer (R331). -/
def execSpecCommit (d t : Nat) (s : State) : Res :=
  .next (match s.task? (d, t) with
    | none => s
    | some k =>
      if ¬ k.spec ∨ k.phase ≠ .done ∨ (k.ordered ∧ ¬ s.oldest (d, t) k) ∨ s.writing (d, t) k ∨ ¬ s.bufferFree k then s
      else
        let s := s.performBuffer (d, t) k
        let s := s.addChildren d k.job k.ctx k.ts k.kids
        let s := match k.offer with
          | none => s
          | some (n, key, pay) =>
            s.sendOffer { slot := n, key, payload := pay, ctx := k.ctx, die := d, cluster := k.core.getD (32 * d), reply := false }
        s.complete (d, t) { k with kids := [] })

/-- A core waits for a commit-buffer entry for task `h`: its own, or one that a tspawn names (R333, R351). -/
def State.overflows (s : State) (h : Nat × Nat) : Bool := s.cores.any fun e => e.2.running && e.2.stall == some (.commit h)

/-- SPEC_IRREVOCABLE: a task whose access found no free entry performs its buffered lines and goes on irrevocably, an ordered
one when it is oldest (R333). -/
def execSpecIrrevocable (d t : Nat) (s : State) : Res :=
  .next (match s.task? (d, t) with
    | none => s
    | some k =>
      if ¬ k.spec ∨ k.phase ≠ .running ∨ k.irrev ∨ ¬ s.overflows (d, t) ∨ (k.ordered ∧ ¬ s.oldest (d, t) k) ∨ ¬ s.bufferFree k then s
      else
        let s := (s.performBuffer (d, t) k).setTask (d, t) { k with irrev := true, wbuf := [], rlines := [] }
        { s with cores := s.cores.map fun e => (e.1, if e.2.stall = some (.commit (d, t)) then { e.2 with stall := none } else e.2) })

/-! ## Incumbent slots (R335, R336, R345) -/

def State.homeInc (s : State) (n : Nat) : Inc := Table.get {} s.incs n

/-- The home sends its state to the four copies; `init` marks the new state of an INC.INIT. -/
def State.sendUpdates (s : State) (n : Nat) (u : Inc) (init : Bool) : State :=
  { s with updates := s.updates ++ (List.range 4).map fun d => (n, d, u, init) }

/-- The answer to a request that a core's instruction waits for (R345, R348). -/
def State.answer (s : State) (c : Nat) (r : Req) (v : Word) : State :=
  if (s.core c).req = some r then s.modCore c fun k => { k with req := some (.answered v), stall := none } else s

/-- Take the first element of a list that satisfies `p`, with the rest. -/
def takeFirst {α : Type} (p : α → Bool) : List α → Option (α × List α)
  | [] => none
  | x :: xs => if p x then some (x, xs) else (takeFirst p xs).map fun e => (e.1, x :: e.2)

/-- OFFER_ARRIVE: the oldest offer on its way to slot `n` reaches the home, which accepts a strictly better key; offers wait while
an INC.INIT is in progress (R335, R345, R348). -/
def execOfferArrive (n : Nat) (s : State) : Res :=
  .next (if Table.has s.inits n then s
    else match takeFirst (fun o => o.slot == n) s.offers with
      | none => s
      | some (o, rest) =>
        let s := { s with offers := rest }
        let u := s.homeInc n
        let ok := u.valid && u.owner == o.ctx && better u.dir o.key u.key
        let u' := if ok then { u with key := o.key, payload := o.payload, count := u.count + 1 } else u
        let s := if ok then ({ s with incs := Table.put s.incs n u' } : State).sendUpdates n u' false else s
        if o.reply then s.answer o.cluster .offer (BitVec.ofNat 64 ((if ok then 2 ^ 63 else 0) + u'.key.toNat)) else s)

def State.setCopy (s : State) (d n : Nat) (u : IncCopy) : State := s.modDie d fun k => { k with incs := Table.put k.incs n u }

def sweepPa (d : Nat) : Nat := dieBase d + 0x2018

/-- INC_UPDATE_COPY: the next update of slot `n` reaches the copy of die `d`, and a Lynx sweep begins there; the last copy to hold
an INC.INIT's new state lets its instruction write d (R336, R338, R345). -/
def execIncUpdateCopy (n d : Nat) (s : State) : Res :=
  .next (match takeFirst (fun (e : Nat × Nat × Inc × Bool) => e.1 == n && e.2.1 == d) s.updates with
    | none => s
    | some ((_, _, u, init), rest) =>
      let s := (({ s with updates := rest } : State).setCopy d n { inc := u }).modDie d fun k =>
        { k with sweeps := if k.sweeps.contains n then k.sweeps else k.sweeps ++ [n] }
      let s := s.setRegFld (sweepPa d) 32 32 1
      match s.inits.find? fun e => e.1 = n with
      | none => s
      | some (_, i) =>
        if ¬ init then s
        else
          let done := d :: i.done
          if done.length < 4 then { s with inits := Table.put s.inits n { i with done := done } }
          else ({ s with inits := Table.del s.inits n } : State).answer i.core (.incInit n) 0)

/-- INC_WITHDRAW_COPY: the withdrawal of an INC.INIT reaches the copy of die `d`, behind the updates sent before it; with all four
withdrawn the home takes the new state and sends it out (R345). -/
def execIncWithdrawCopy (n d : Nat) (s : State) : Res :=
  .next (match s.inits.find? fun e => e.1 = n with
    | none => s
    | some (_, i) =>
      if d ≥ 4 ∨ i.acks.contains d ∨ s.updates.any fun e => e.1 == n && e.2.1 == d then s
      else
        let s := s.setCopy d n { s.incCopy d n with withdrawn := true }
        let acks := d :: i.acks
        let s := { s with inits := Table.put s.inits n { i with acks := acks } }
        if acks.length < 4 then s
        else ({ s with incs := Table.put s.incs n i.next } : State).sendUpdates n i.next true)

/-! ## The Lynx sweep and a kernel's kill (R338, R341) -/

/-- LYNX_SWEEP: the pool of die `d` tests every entry bound to an updated slot, a kernel task's with groups in the pool too, and
the sweep ends (R338, R342). -/
def execLynxSweep (d : Nat) (s : State) : Res :=
  .next (let ns := (s.die d).sweeps
    if ns = [] then s
    else
      let hit := (s.die d).tasks.filter fun e => e.2.queued && bBounded e.2.bound && ns.contains (bSlot e.2.bound) && s.killable d e.2
      let s := hit.foldl (fun s e => s.kill (d, e.1)) s
      ((s.modDie d fun k => { k with sweeps := [] }).tally d 0x2018).setRegFld (sweepPa d) 32 32 0)

/-- KERNEL_KILL: the kill of task `t` of die `d` reaches the loaders of its groups, which inject KILL at the ingress ports of
their current slots (R341, R99, R327). -/
def execKernelKill (d t : Nat) (s : State) : Res :=
  .next (match s.task? (d, t) with
    | none => s
    | some k =>
      if ¬ k.killed ∨ k.kind ≠ 0 then s
      else k.groups.foldl (fun (s : State) e =>
        match e.2.region with
        | none => s
        | some r =>
          if e.2.phase ≠ GroupPhase.exiting ∨ e.2.killSent then s
          else
            let s := (s.regionsOf r).foldl (fun (s : State) i =>
              match (s.region i).cur with | some n => s.inject i n mkKill (k.id % 2 ^ 32) | none => s) s
            s.setGroup (d, t) e.1 { e.2 with killSent := true }) s)

end Sys2Proof.Machine
end

