-- ==== Sys2Proof/Machine/Sequencer.lean ====
section
/-! DEFINITION. The dispatch of tasks (R296 to R299, R309, R311, R329, R333, R338, R450). -/

namespace Sys2Proof.Machine

/-- The arg of a task's job. -/
def State.argOf (s : State) (d : Nat) (t : Task) : Word := match s.job? d t.job with | some j => j.arg | none => 0

/-- A dispatch: the die's counter and a new serial, which is the handle of `t` (R297, R299, R327). -/
def State.numbered (s : State) (d : Nat) (t : Task) : State × Task :=
  let u := s.die d
  (s.modDie d fun u => { u with dispatches := u.dispatches + 1, serial := u.serial + 1 }, { t with serial := (u.serial + 1).toNat })

/-! ## Control and search tasks (R296, R299, R329, R450) -/

/-- The cores of a die whose channel is enabled for a context and has room. -/
def State.freeCores (s : State) (d ch x : Nat) : List Nat :=
  ((List.range 32).map (32 * d + ·)).filter fun c =>
    let h := (s.core c).channel ch
    h.takes && h.actCtx == x && (s.cluster c).gate == .on

/-- The dispatch message of a control or search task (R299). -/
def taskMsg (d : Nat) (t : Task) (arg : Word) : Msg :=
  { words := [BitVec.ofNat 64 (6 * 2 ^ 56 + t.kind * 2 ^ 53), handleWord d t.serial, t.recAddr, arg, BitVec.ofNat 64 (t.fieldAt 0 8)] }

/-- The messages that channel `ch` of core `c` holds, a running handler of it counted as one, as is one whose message is taken
and whose core switch is to come (R245, R450). -/
def State.chanLoad (s : State) (ch c : Nat) : Nat :=
  let k := s.core c
  (k.channel ch).queue.length + (if k.running ∧ k.chan = ch then 1 else 0)
    + ((k.next.toList ++ k.later.map (·.1)).filter fun st => st.chan == ch).length

/-- The core of a list whose channel holds the fewest messages, ties to the one that comes first (R450). -/
def State.leastLoaded (s : State) (ch : Nat) : List Nat → Option Nat
  | [] => none
  | c :: cs =>
    match s.leastLoaded ch cs with
    | none => some c
    | some c' => if s.chanLoad ch c ≤ s.chanLoad ch c' then some c else some c'

/-- Dispatch a control or search task to the core that R450 chooses. A task of four aborts waits until it is oldest, and then
runs irrevocably (R333); a record that breaks R293 or R326 ends its task at this dispatch. -/
def State.dispatchCore (s : State) (h : Nat × Nat) (t : Task) : Option State :=
  let ch := t.fieldAt 11 1
  if t.aborts ≥ 4 ∧ ¬ s.oldest h t then none
  else match s.leastLoaded ch (s.freeCores h.1 ch t.ctx) with
    | none => none
    | some c =>
      let (s, t) := s.numbered h.1 t
      if t.bad then some (s.complete h (t.fail tJobArg))
      else
        let t := { t with phase := .running, core := some c, slice := t.serial % 6, irrev := decide (t.aborts ≥ 4) }
        some ((s.setTask h t).enqueue c ch (taskMsg h.1 t (s.argOf h.1 t)))

/-! ## Copies and collectives (R293, R300) -/

/-- The command of a copy or collective task, at cluster index 0 of its die; a collective's block gives a, b, c and op, the
extension word in op's upper half. -/
def State.taskCmd (s : State) (h : Nat × Nat) (t : Task) : Except Nat Cmd :=
  let base : Cmd :=
    { core := 32 * h.1, ctx := t.ctx, op := 4, tok := 0, a := BitVec.ofNat 64 (t.fieldAt 0 8), b := 0, c := 0, bar := none,
      fe := false, scope := 0, red := 0, sfx := 0, ahead := none, seq := 0, cls := 9, task := some h, issuer := some h }
  if t.kind = 1 then if engineBad 4 base.a 0 0 false 0 0 then .error tEngineArg else .ok base
  else match s.seqFetch h.1 t.ctx (t.fieldAt 0 8) 32 with
    | .error c => .error c
    | .ok bs =>
      let op := slice bs 24 4
      match engExt (BitVec.ofNat 32 (slice bs 28 4)) with
      | none => .error tEngineArg
      | some e =>
        let c := BitVec.ofNat 64 (slice bs 16 8)
        if op < 8 ∨ op > 12 ∨ fld c 5 0 ≠ 0 ∨ e.bar ≠ 0 ∨ e.fe = true then .error tEngineArg
        else .ok { base with op := op, a := BitVec.ofNat 64 (slice bs 0 8), b := BitVec.ofNat 64 (slice bs 8 8), c := c,
                             scope := e.scope.toNat, red := e.red.toNat, sfx := e.sfx.toNat }

/-- An engine of the die is free for a task of a kind, 1 or 2. DESIGN CHOICE (log 77): the spec does not say how many a die has; one
is free while none works for such a task, and beyond that the implementation decides. -/
def State.engineFree (s : State) (d kind : Nat) : Bool :=
  let busy := (s.cmds.filter fun e => (e.2.task.map (·.1)) == some d && decide (e.2.op < 8) == (kind == 1)).length
  busy == 0 || decide (busy ≤ Config.spareEngines kind)

/-- Dispatch a copy or collective task, to a free engine (R296). -/
def State.dispatchEngine (s : State) (h : Nat × Nat) (t : Task) : Option State :=
  if ¬ s.engineFree h.1 t.kind then none else
  let (s, t) := s.numbered h.1 t
  let s := if t.kind = 2 then s.seqSeen h.1 t.ctx (t.fieldAt 0 8) 32 else s
  some (match (if t.bad then .error tJobArg else s.taskCmd h t) with
    | .error c => s.complete h (t.fail c)
    | .ok m => ({ s with cmds := Table.put s.cmds s.nextCmd { m with no := s.nextCmd }, nextCmd := s.nextCmd + 1 } : State).setTask h { t with phase := .running })

/-! ## Kernel tasks (R309, R311, R316, R442) -/

/-- A group of the die is RUNNING. -/
def State.runsGroup (s : State) (d : Nat) : Bool :=
  s.dies.any fun e => e.2.tasks.any fun t => t.2.groups.any fun g =>
    g.2.phase == .running && match g.2.region with | some r => ((s.region r).sites.any fun p => siteDie p == d) | none => false

/-- PROF.serial forbids the dispatch of a group on a die while another is RUNNING there (R442). -/
def State.serialHolds (s : State) (d : Nat) : Bool := bit (s.reg (profPa d)) 62 && s.runsGroup d

/-- The first dispatch of a persistent grid writes 0 to its ticket counter's value (R316). -/
def State.resetTick (s : State) (d : Nat) (t : Task) : State :=
  if t.gflag 0 then
    let n := t.fieldAt 30 1 % 64
    s.modDie d fun u => { u with ticks := Table.put u.ticks n { Table.get {} u.ticks n with value := 0 } }
  else s

/-- `n` dispatches more of a grid with cores = 1, whose groups are placed at once, follow in a row (R311). -/
def State.pushGrid (s : State) (h : Nat × Nat) (n : Nat) : State :=
  if n = 0 then s else s.modDie h.1 fun u => { u with grids := u.grids ++ [(h.2, n)] }

/-- Dispatch a kernel task: its next group is taken from the pool, of a grid with cores = 1 all of them, at first and when they
were pre-empted (R309, R311). A record or image that breaks R307 or R308 ends the task. -/
def State.dispatchKernel (s : State) (h : Nat × Nat) (t : Task) : Option State :=
  let first := t.phase == .pooled
  match (match t.shape with | some sh => .ok sh | none => s.shapeOf h.1 t : Except Nat Shape) with
  | .error c => some ((s.numbered h.1 t).1.complete h (t.fail c))
  | .ok sh =>
    let all := List.range t.ngrp
    if s.serialHolds h.1 then none
    else if first then
      let empty : State := { s with regions := [], clusters := s.clusters.map fun e => (e.1, { e.2 with gate := .on }) }
      if t.gflag 3 ∧ ¬ (empty.setTask h t).fitsEmpty h sh all then some ((s.numbered h.1 t).1.complete h (t.fail tGroupFit))
      else
        let gs := if t.gflag 3 then all else [0]
        let (s, t) := (s.shapeSeen h.1 t sh).numbered h.1 t
        ((((s.setTask h { t with phase := .running, shape := some sh }).resetTick h.1 t)).pushGrid h (gs.length - 1)).takeGroups h sh gs
    else
      let s := s.modDie h.1 fun u => { u with dispatches := u.dispatches + 1 }
      match t.poolGroups with
      | [] => none
      | g :: gs =>
        if ¬ t.gflag 3 then s.takeGroup h g sh
        else if (List.range t.ngrp).any fun i => (t.group i).phase == .preempting then none
        else (s.pushGrid h gs.length).takeGroups h sh (g :: gs)

/-! ## The choice (R297, R338) -/

/-- The state after a task's dispatch, where it is dispatchable (R296); a context that is not OPEN dispatches nothing (R236), a job
that ends because of a work word no task more (R294). -/
def State.dispatch (s : State) (h : Nat × Nat) (t : Task) : Option State :=
  let broken : Bool := match s.job? h.1 t.job with | some j => j.broken | none => true
  if (broken ∧ t.phase = .pooled) ∨ (s.ctx t.ctx).phase ≠ .opened ∨ ¬ t.queued then none
  else match t.kind with
    | 0 => s.dispatchKernel h t
    | 1 | 2 => s.dispatchEngine h t
    | _ => s.dispatchCore h t

/-- Is key `x` smaller than key `y`: priority, timestamp, age (R297)? -/
def keyLess (x y : Nat × Nat × Nat) : Bool :=
  decide (x.1 < y.1) || (x.1 == y.1 && (decide (x.2.1 < y.2.1) || (x.2.1 == y.2.1 && decide (x.2.2 < y.2.2))))

/-- The key of a task; at every 64th dispatch its age alone. -/
def Task.key (t : Task) (guard : Bool) : Nat × Nat × Nat := if guard then (0, 0, t.age) else (t.fieldAt 10 1 % 4, t.ts, t.age)

/-- The task with the smallest key. -/
def leastTask (guard : Bool) : List (Nat × Task) → Option (Nat × Task)
  | [] => none
  | x :: xs =>
    match leastTask guard xs with
    | none => some x
    | some y => if keyLess (y.2.key guard) (x.2.key guard) then some y else some x

/-- A guarded dispatch removes a task from those that are older than others: a kernel task with groups left to dispatch takes the
age of one that enters the pool now (R298, log 67). -/
def State.reAge (s : State) (h : Nat × Nat) : State :=
  match s.task? h with
  | some t => if t.phase = .running ∧ (t.poolGroups ≠ [] ∨ (s.die h.1).grids.any fun e => e.1 == h.2) then s.repool h t else s
  | none => s

/-- The tasks of a die that its sequencer could dispatch now (R296). -/
def State.dispatchable (s : State) (d : Nat) : List (Nat × Task) := (s.die d).tasks.filter fun e => (s.dispatch (d, e.1) e.2).isSome

/-- The grid whose dispatches are in progress on a die, with those that are left; one whose task has ended is done with. -/
def State.gridNow (s : State) (d : Nat) : Option (Nat × Task × Nat) :=
  ((s.die d).grids.filterMap fun e => (s.task? (d, e.1)).map fun t => (e.1, t, e.2)).head?

/-- One dispatch more of grid `i`, of which `n` are left: its group is placed already (R311). -/
def State.gridOne (s : State) (d i n : Nat) : State :=
  s.modDie d fun u =>
    { u with dispatches := u.dispatches + 1
             grids := (u.grids.dropWhile fun e => e.1 != i).drop 1 |> fun es => if n ≤ 1 then es else (i, n - 1) :: es }

/-- TASK_DISPATCH: the sequencer of die `d` dispatches the next group of a grid with cores = 1 whose dispatches are in progress, or
the dispatchable task with the smallest key, or kills it if it is killable; at every 64th dispatch the oldest of them all goes
(R297, R298, R311, R338). -/
def execTaskDispatch (d : Nat) (s : State) : Res :=
  .next (
    let guard := ((s.die d).dispatches + 1) % 64 == 0
    let one (s : State) (i : Nat) (t : Task) : State :=
      if s.killable d t then s.kill (d, i)
      else
        let u := (s.dispatch (d, i) t).getD s
        if guard then u.reAge (d, i) else u
    match s.gridNow d with
    | none =>
      match leastTask guard (s.dispatchable d) with
      | none => s
      | some (i, t) => one s i t
    | some (i, t, n) =>
      if ¬ guard then s.gridOne d i n
      else match leastTask true (s.dispatchable d ++ [(i, t)]) with
        | some (j, u) => if j = i then (s.gridOne d i n).reAge (d, i) else one s j u
        | none => s)

end Sys2Proof.Machine
end

