-- ==== Sys2Proof/Machine/Dispatch.lean ====
section
/-! DEFINITION. The dispatch: one arm per instruction, each one call of its meaning. -/

namespace Sys2Proof.Machine

def exec (i : Instr) (s : State) : Host.Outcome State Fault Refusal :=
  match i with
  | .add d a b => Sys2Proof.Machine.execAdd d a b s
  | .sub d a b => Sys2Proof.Machine.execSub d a b s
  | .and d a b => Sys2Proof.Machine.execAnd d a b s
  | .or d a b => Sys2Proof.Machine.execOr d a b s
  | .xor d a b => Sys2Proof.Machine.execXor d a b s
  | .andn d a b => Sys2Proof.Machine.execAndn d a b s
  | .sll d a b => Sys2Proof.Machine.execSll d a b s
  | .srl d a b => Sys2Proof.Machine.execSrl d a b s
  | .sra d a b => Sys2Proof.Machine.execSra d a b s
  | .minS d a b => Sys2Proof.Machine.execMinS d a b s
  | .minN d a b => Sys2Proof.Machine.execMinN d a b s
  | .maxS d a b => Sys2Proof.Machine.execMaxS d a b s
  | .maxN d a b => Sys2Proof.Machine.execMaxN d a b s
  | .mul d a b => Sys2Proof.Machine.execMul d a b s
  | .mulhS d a b => Sys2Proof.Machine.execMulhS d a b s
  | .mulhN d a b => Sys2Proof.Machine.execMulhN d a b s
  | .divS d a b => Sys2Proof.Machine.execDivS d a b s
  | .divN d a b => Sys2Proof.Machine.execDivN d a b s
  | .remS d a b => Sys2Proof.Machine.execRemS d a b s
  | .remN d a b => Sys2Proof.Machine.execRemN d a b s
  | .clz d a => Sys2Proof.Machine.execClz d a s
  | .ctz d a => Sys2Proof.Machine.execCtz d a s
  | .popc d a => Sys2Proof.Machine.execPopc d a s
  | .sel d a b c => Sys2Proof.Machine.execSel d a b c s
  | .msgrd d a => Sys2Proof.Machine.execMsgrd d a s
  | .addi d a imm => Sys2Proof.Machine.execAddi d a imm s
  | .andi d a imm => Sys2Proof.Machine.execAndi d a imm s
  | .ori d a imm => Sys2Proof.Machine.execOri d a imm s
  | .xori d a imm => Sys2Proof.Machine.execXori d a imm s
  | .slli d a sh => Sys2Proof.Machine.execSlli d a sh s
  | .srli d a sh => Sys2Proof.Machine.execSrli d a sh s
  | .srai d a sh => Sys2Proof.Machine.execSrai d a sh s
  | .rori d a sh => Sys2Proof.Machine.execRori d a sh s
  | .ins16 d h imm => Sys2Proof.Machine.execIns16 d h imm s
  | .ltiS d a imm => Sys2Proof.Machine.execLtiS d a imm s
  | .ltiN d a imm => Sys2Proof.Machine.execLtiN d a imm s
  | .cmpEq d a b => Sys2Proof.Machine.execCmpEq d a b s
  | .cmpNe d a b => Sys2Proof.Machine.execCmpNe d a b s
  | .cmpLtS d a b => Sys2Proof.Machine.execCmpLtS d a b s
  | .cmpLtN d a b => Sys2Proof.Machine.execCmpLtN d a b s
  | .cmpLeS d a b => Sys2Proof.Machine.execCmpLeS d a b s
  | .cmpLeN d a b => Sys2Proof.Machine.execCmpLeN d a b s
  | .br a b cond off => Sys2Proof.Machine.execBr a b cond off s
  | .jmp off => Sys2Proof.Machine.execJmp off s
  | .call off => Sys2Proof.Machine.execCall off s
  | .jr d a imm => Sys2Proof.Machine.execJr d a imm s
  | .fadd d a b rm => Sys2Proof.Machine.execFadd d a b rm s
  | .fsub d a b rm => Sys2Proof.Machine.execFsub d a b rm s
  | .fmul d a b rm => Sys2Proof.Machine.execFmul d a b rm s
  | .fdiv d a b rm => Sys2Proof.Machine.execFdiv d a b rm s
  | .fsqrt d a rm => Sys2Proof.Machine.execFsqrt d a rm s
  | .fmin d a b => Sys2Proof.Machine.execFmin d a b s
  | .fmax d a b => Sys2Proof.Machine.execFmax d a b s
  | .fneg d a => Sys2Proof.Machine.execFneg d a s
  | .fabs d a => Sys2Proof.Machine.execFabs d a s
  | .fkey d a => Sys2Proof.Machine.execFkey d a s
  | .fcmpEq d a b => Sys2Proof.Machine.execFcmpEq d a b s
  | .fcmpLt d a b => Sys2Proof.Machine.execFcmpLt d a b s
  | .fcmpLe d a b => Sys2Proof.Machine.execFcmpLe d a b s
  | .fcvtS32F32 d a rm => Sys2Proof.Machine.execFcvtS32F32 d a rm s
  | .fcvtN32F32 d a rm => Sys2Proof.Machine.execFcvtN32F32 d a rm s
  | .fcvtF32S32 d a rm => Sys2Proof.Machine.execFcvtF32S32 d a rm s
  | .fcvtF32N32 d a rm => Sys2Proof.Machine.execFcvtF32N32 d a rm s
  | .fmvS d a => Sys2Proof.Machine.execFmvS d a s
  | .fmvF d a => Sys2Proof.Machine.execFmvF d a s
  | .fcvtBf16F32 d a rm => Sys2Proof.Machine.execFcvtBf16F32 d a rm s
  | .fcvtF32Bf16 d a => Sys2Proof.Machine.execFcvtF32Bf16 d a s
  | .fcvtF16F32 d a rm => Sys2Proof.Machine.execFcvtF16F32 d a rm s
  | .fcvtF32F16 d a => Sys2Proof.Machine.execFcvtF32F16 d a s
  | .fma d a b c rm => Sys2Proof.Machine.execFma d a b c rm s
  | .fms d a b c rm => Sys2Proof.Machine.execFms d a b c rm s
  | .fnma d a b c rm => Sys2Proof.Machine.execFnma d a b c rm s
  | .fnms d a b c rm => Sys2Proof.Machine.execFnms d a b c rm s
  | .ldS8 d a imm => Sys2Proof.Machine.execLdS8 d a imm s
  | .ldN8 d a imm => Sys2Proof.Machine.execLdN8 d a imm s
  | .ldS16 d a imm => Sys2Proof.Machine.execLdS16 d a imm s
  | .ldN16 d a imm => Sys2Proof.Machine.execLdN16 d a imm s
  | .ldS32 d a imm => Sys2Proof.Machine.execLdS32 d a imm s
  | .ldN32 d a imm => Sys2Proof.Machine.execLdN32 d a imm s
  | .ldB64 d a imm => Sys2Proof.Machine.execLdB64 d a imm s
  | .fld d a imm => Sys2Proof.Machine.execFld d a imm s
  | .stB8 d a imm => Sys2Proof.Machine.execStB8 d a imm s
  | .stB16 d a imm => Sys2Proof.Machine.execStB16 d a imm s
  | .stB32 d a imm => Sys2Proof.Machine.execStB32 d a imm s
  | .stB64 d a imm => Sys2Proof.Machine.execStB64 d a imm s
  | .fst d a imm => Sys2Proof.Machine.execFst d a imm s
  | .ldAcqB32 d a b => Sys2Proof.Machine.execLdAcqB32 d a b s
  | .ldAcqB64 d a b => Sys2Proof.Machine.execLdAcqB64 d a b s
  | .stRelB32 d a b => Sys2Proof.Machine.execStRelB32 d a b s
  | .stRelB64 d a b => Sys2Proof.Machine.execStRelB64 d a b s
  | .fence sc => Sys2Proof.Machine.execFence sc s
  | .amoAddB64 d a b ord => Sys2Proof.Machine.execAmoAddB64 d a b ord s
  | .amoMinSB64 d a b ord => Sys2Proof.Machine.execAmoMinSB64 d a b ord s
  | .amoMinNB64 d a b ord => Sys2Proof.Machine.execAmoMinNB64 d a b ord s
  | .amoMaxSB64 d a b ord => Sys2Proof.Machine.execAmoMaxSB64 d a b ord s
  | .amoMaxNB64 d a b ord => Sys2Proof.Machine.execAmoMaxNB64 d a b ord s
  | .amoAndB64 d a b ord => Sys2Proof.Machine.execAmoAndB64 d a b ord s
  | .amoOrB64 d a b ord => Sys2Proof.Machine.execAmoOrB64 d a b ord s
  | .amoXorB64 d a b ord => Sys2Proof.Machine.execAmoXorB64 d a b ord s
  | .amoSwapB64 d a b ord => Sys2Proof.Machine.execAmoSwapB64 d a b ord s
  | .amoCasB64 d a b c ord => Sys2Proof.Machine.execAmoCasB64 d a b c ord s
  | .amoAddB32 d a b ord => Sys2Proof.Machine.execAmoAddB32 d a b ord s
  | .amoMinSB32 d a b ord => Sys2Proof.Machine.execAmoMinSB32 d a b ord s
  | .amoMinNB32 d a b ord => Sys2Proof.Machine.execAmoMinNB32 d a b ord s
  | .amoMaxSB32 d a b ord => Sys2Proof.Machine.execAmoMaxSB32 d a b ord s
  | .amoMaxNB32 d a b ord => Sys2Proof.Machine.execAmoMaxNB32 d a b ord s
  | .amoAndB32 d a b ord => Sys2Proof.Machine.execAmoAndB32 d a b ord s
  | .amoOrB32 d a b ord => Sys2Proof.Machine.execAmoOrB32 d a b ord s
  | .amoXorB32 d a b ord => Sys2Proof.Machine.execAmoXorB32 d a b ord s
  | .amoSwapB32 d a b ord => Sys2Proof.Machine.execAmoSwapB32 d a b ord s
  | .amoCasB32 d a b c ord => Sys2Proof.Machine.execAmoCasB32 d a b c ord s
  | .ticket d a b => Sys2Proof.Machine.execTicket d a b s
  | .copy x tok a b c e => Sys2Proof.Machine.execCopy x tok a b c e s
  | .gather x tok a b c e => Sys2Proof.Machine.execGather x tok a b c e s
  | .scatter x tok a b c e => Sys2Proof.Machine.execScatter x tok a b c e s
  | .fill x tok a b c e => Sys2Proof.Machine.execFill x tok a b c e s
  | .copyChain x tok a b c e => Sys2Proof.Machine.execCopyChain x tok a b c e s
  | .collBcast x tok a b c e => Sys2Proof.Machine.execCollBcast x tok a b c e s
  | .collReduce x tok a b c e => Sys2Proof.Machine.execCollReduce x tok a b c e s
  | .collAllreduce x tok a b c e => Sys2Proof.Machine.execCollAllreduce x tok a b c e s
  | .collAllgather x tok a b c e => Sys2Proof.Machine.execCollAllgather x tok a b c e s
  | .collA2a x tok a b c e => Sys2Proof.Machine.execCollA2a x tok a b c e s
  | .wait cls lim => Sys2Proof.Machine.execWait cls lim s
  | .sspec x tok a b c ahead => Sys2Proof.Machine.execSspec x tok a b c ahead s
  | .sbar x tok a b c => Sys2Proof.Machine.execSbar x tok a b c s
  | .scond x tok a b ahead => Sys2Proof.Machine.execScond x tok a b ahead s
  | .cfgLoad d a b c => Sys2Proof.Machine.execCfgLoad d a b c s
  | .cfgArm d a b c => Sys2Proof.Machine.execCfgArm d a b c s
  | .cfgSwap d b c => Sys2Proof.Machine.execCfgSwap d b c s
  | .cfgDrain d b c => Sys2Proof.Machine.execCfgDrain d b c s
  | .cfgSave d a b c => Sys2Proof.Machine.execCfgSave d a b c s
  | .cfgRest d a b c => Sys2Proof.Machine.execCfgRest d a b c s
  | .cfgQuery d b c => Sys2Proof.Machine.execCfgQuery d b c s
  | .launch d a => Sys2Proof.Machine.execLaunch d a s
  | .tspawn d a b c => Sys2Proof.Machine.execTspawn d a b c s
  | .trig => Sys2Proof.Machine.execTrig s
  | .exit a b how => Sys2Proof.Machine.execExit a b how s
  | .parkWord a b c => Sys2Proof.Machine.execParkWord a b c s
  | .parkBar a b c => Sys2Proof.Machine.execParkBar a b c s
  | .parkChan a b c => Sys2Proof.Machine.execParkChan a b c s
  | .msgSend d a c => Sys2Proof.Machine.execMsgSend d a c s
  | .incInit d a b c => Sys2Proof.Machine.execIncInit d a b c s
  | .incRd d a => Sys2Proof.Machine.execIncRd d a s
  | .incOffer a b c => Sys2Proof.Machine.execIncOffer a b c s
  | .incOfferI d a b c => Sys2Proof.Machine.execIncOfferI d a b c s
  | .killpt a => Sys2Proof.Machine.execKillpt a s
  | .boundSet a b => Sys2Proof.Machine.execBoundSet a b s
  | .barInit a b => Sys2Proof.Machine.execBarInit a b s
  | .barExpect a b => Sys2Proof.Machine.execBarExpect a b s
  | .barArrive d a b => Sys2Proof.Machine.execBarArrive d a b s
  | .barTest d a => Sys2Proof.Machine.execBarTest d a s
  | .xprobe d a => Sys2Proof.Machine.execXprobe d a s
  | .xhintMig d a b c => Sys2Proof.Machine.execXhintMig d a b c s
  | .xhintPref d a b => Sys2Proof.Machine.execXhintPref d a b s
  | .xinv d a b c => Sys2Proof.Machine.execXinv d a b c s
  | .trap code => Sys2Proof.Machine.execTrap code s
  | .tret => Sys2Proof.Machine.execTret s
  | .sysrd d reg => Sys2Proof.Machine.execSysrd d reg s
  | .syswr a reg => Sys2Proof.Machine.execSyswr a reg s
  | .halt => Sys2Proof.Machine.execHalt s
  | .brk => Sys2Proof.Machine.execBrk s
  | .nop => Sys2Proof.Machine.execNop s
  | .zreqQuery d a => Sys2Proof.Machine.execZreqQuery d a s
  | .zreqRaise d a cls => Sys2Proof.Machine.execZreqRaise d a cls s
  | .zreqDrop d a => Sys2Proof.Machine.execZreqDrop d a s
  | .li d mode ext => Sys2Proof.Machine.execLi d mode ext s
  | .handlerBudget c => Sys2Proof.Machine.execHandlerBudget c s
  | .stallLimit c => Sys2Proof.Machine.execStallLimit c s
  | .stallFault c => Sys2Proof.Machine.execStallFault c s
  | .loadReturn c k => Sys2Proof.Machine.execLoadReturn c k s
  | .storePerformed c k => Sys2Proof.Machine.execStorePerformed c k s
  | .engineComplete k => Sys2Proof.Machine.execEngineComplete k s
  | .streamCmdComplete k => Sys2Proof.Machine.execStreamCmdComplete k s
  | .xlateCmdComplete k => Sys2Proof.Machine.execXlateCmdComplete k s
  | .cfgComplete k => Sys2Proof.Machine.execCfgComplete k s
  | .handlerStart c => Sys2Proof.Machine.execHandlerStart c s
  | .coreSwitch c => Sys2Proof.Machine.execCoreSwitch c s
  | .parkPost c k => Sys2Proof.Machine.execParkPost c k s
  | .ctxOpen who x => Sys2Proof.Machine.execCtxOpen who x s
  | .ctxQuiesce who x => Sys2Proof.Machine.execCtxQuiesce who x s
  | .ctxResume who x => Sys2Proof.Machine.execCtxResume who x s
  | .ctxClose who x => Sys2Proof.Machine.execCtxClose who x s
  | .ctxQuiesced x => Sys2Proof.Machine.execCtxQuiesced x s
  | .registerWrite who pa v => Sys2Proof.Machine.execRegisterWrite who pa v s
  | .frbaseWrite who pa v => Sys2Proof.Machine.execFrbaseWrite who pa v s
  | .streamFill c w => Sys2Proof.Machine.execStreamFill c w s
  | .packetHop p j ok => Sys2Proof.Machine.execPacketHop p j ok s
  | .switchForward p r => Sys2Proof.Machine.execSwitchForward p r s
  | .packetAccept p j => Sys2Proof.Machine.execPacketAccept p j s
  | .antiTokenHop p j ok => Sys2Proof.Machine.execAntiTokenHop p j ok s
  | .antiTokenProducer p j => Sys2Proof.Machine.execAntiTokenProducer p j s
  | .forkAntiToken p j => Sys2Proof.Machine.execForkAntiToken p j s
  | .ceFire p => Sys2Proof.Machine.execCeFire p s
  | .firingResult p => Sys2Proof.Machine.execFiringResult p s
  | .eosForward p => Sys2Proof.Machine.execEosForward p s
  | .earlyJoinFire p => Sys2Proof.Machine.execEarlyJoinFire p s
  | .steerFire p => Sys2Proof.Machine.execSteerFire p s
  | .lcmergeStep p => Sys2Proof.Machine.execLcmergeStep p s
  | .cntEmit p => Sys2Proof.Machine.execCntEmit p s
  | .rngEmit p => Sys2Proof.Machine.execRngEmit p s
  | .bcvtBlock p => Sys2Proof.Machine.execBcvtBlock p s
  | .redResult p => Sys2Proof.Machine.execRedResult p s
  | .markerArrive p j => Sys2Proof.Machine.execMarkerArrive p j s
  | .markerComplete p => Sys2Proof.Machine.execMarkerComplete p s
  | .matrixEntryPlace p => Sys2Proof.Machine.execMatrixEntryPlace p s
  | .mmaExecute p => Sys2Proof.Machine.execMmaExecute p s
  | .matrixEosExecute p => Sys2Proof.Machine.execMatrixEosExecute p s
  | .accReadExecute p => Sys2Proof.Machine.execAccReadExecute p s
  | .accClrExecute p => Sys2Proof.Machine.execAccClrExecute p s
  | .cbkLdExecute p => Sys2Proof.Machine.execCbkLdExecute p s
  | .lutFire p => Sys2Proof.Machine.execLutFire p s
  | .tileCountReached g n => Sys2Proof.Machine.execTileCountReached g n s
  | .mtRequest p => Sys2Proof.Machine.execMtRequest p s
  | .mtEntryRetire p k => Sys2Proof.Machine.execMtEntryRetire p k s
  | .ldfeWake p k => Sys2Proof.Machine.execLdfeWake p k s
  | .amoFire p => Sys2Proof.Machine.execAmoFire p s
  | .qpush p => Sys2Proof.Machine.execQpush p s
  | .qpop p => Sys2Proof.Machine.execQpop p s
  | .queueDry p => Sys2Proof.Machine.execQueueDry p s
  | .doneFire p => Sys2Proof.Machine.execDoneFire p s
  | .tileLd p => Sys2Proof.Machine.execTileLd p s
  | .blockRelease p k => Sys2Proof.Machine.execBlockRelease p k s
  | .committedStoreAnti p j => Sys2Proof.Machine.execCommittedStoreAnti p j s
  | .tileGatherElement k => Sys2Proof.Machine.execTileGatherElement k s
  | .streamRequest p => Sys2Proof.Machine.execStreamRequest p s
  | .streamResponse p => Sys2Proof.Machine.execStreamResponse p s
  | .streamWrite p => Sys2Proof.Machine.execStreamWrite p s
  | .feedbackEmit p => Sys2Proof.Machine.execFeedbackEmit p s
  | .xltFire p => Sys2Proof.Machine.execXltFire p s
  | .ownHandover p => Sys2Proof.Machine.execOwnHandover p s
  | .barArrFire p => Sys2Proof.Machine.execBarArrFire p s
  | .barrierStep pa e y n => Sys2Proof.Machine.execBarrierStep pa e y n s
  | .slotDrained g => Sys2Proof.Machine.execSlotDrained g s
  | .swapTakesEffect g => Sys2Proof.Machine.execSwapTakesEffect g s
  | .hostSlotWrite m x d j o bytes => Sys2Proof.Machine.execHostSlotWrite m x d j o bytes s
  | .qctlWrite who d j v => Sys2Proof.Machine.execQctlWrite who d j v s
  | .jobIntake d => Sys2Proof.Machine.execJobIntake d s
  | .taskReady d t => Sys2Proof.Machine.execTaskReady d t s
  | .taskDispatch d => Sys2Proof.Machine.execTaskDispatch d s
  | .taskRelease d t => Sys2Proof.Machine.execTaskRelease d t s
  | .jobComplete d n => Sys2Proof.Machine.execJobComplete d n s
  | .groupDispatch d t g => Sys2Proof.Machine.execGroupDispatch d t g s
  | .groupRunning d t g => Sys2Proof.Machine.execGroupRunning d t g s
  | .gpreqMarker d t g => Sys2Proof.Machine.execGpreqMarker d t g s
  | .gpreqStep d t g => Sys2Proof.Machine.execGpreqStep d t g s
  | .quietPoint d t g => Sys2Proof.Machine.execQuietPoint d t g s
  | .stepDeadline d t g => Sys2Proof.Machine.execStepDeadline d t g s
  | .preemptSaved d t g => Sys2Proof.Machine.execPreemptSaved d t g s
  | .groupRestore d t g => Sys2Proof.Machine.execGroupRestore d t g s
  | .groupFree d t g => Sys2Proof.Machine.execGroupFree d t g s
  | .specCommit d t => Sys2Proof.Machine.execSpecCommit d t s
  | .specIrrevocable d t => Sys2Proof.Machine.execSpecIrrevocable d t s
  | .offerArrive n => Sys2Proof.Machine.execOfferArrive n s
  | .incUpdateCopy n d => Sys2Proof.Machine.execIncUpdateCopy n d s
  | .lynxSweep d => Sys2Proof.Machine.execLynxSweep d s
  | .kernelKill d t => Sys2Proof.Machine.execKernelKill d t s
  | .beaverInterval d sens press => Sys2Proof.Machine.execBeaverInterval d sens press s
  | .primeTimeout d z => Sys2Proof.Machine.execPrimeTimeout d z s
  | .allocTimeout d z => Sys2Proof.Machine.execAllocTimeout d z s
  | .alarmLockTimeout d z => Sys2Proof.Machine.execAlarmLockTimeout d z s
  | .alarmRecover d z => Sys2Proof.Machine.execAlarmRecover d z s
  | .evacStepEnd d z => Sys2Proof.Machine.execEvacStepEnd d z s
  | .dryDetect d z => Sys2Proof.Machine.execDryDetect d z s
  | .pressureExcursion d => Sys2Proof.Machine.execPressureExcursion d s
  | .zcmdPrime who d z => Sys2Proof.Machine.execZcmdPrime who d z s
  | .zcmdEvacuate who d z => Sys2Proof.Machine.execZcmdEvacuate who d z s
  | .zcmdLock who d z => Sys2Proof.Machine.execZcmdLock who d z s
  | .zcmdUnlock who d z => Sys2Proof.Machine.execZcmdUnlock who d z s
  | .zbudgetWrite who d v => Sys2Proof.Machine.execZbudgetWrite who d v s
  | .powerStep d watts supply temps => Sys2Proof.Machine.execPowerStep d watts supply temps s
  | .currentWindow d amps => Sys2Proof.Machine.execCurrentWindow d amps s
  | .meterWindow n => Sys2Proof.Machine.execMeterWindow n s
  | .pcapWrite who d v => Sys2Proof.Machine.execPcapWrite who d v s
  | .faultPost c => Sys2Proof.Machine.execFaultPost c s
  | .fltresResume c n => Sys2Proof.Machine.execFltresResume c n s
  | .fltresEnd c n => Sys2Proof.Machine.execFltresEnd c n s
  | .eccScrubError d bad pa => Sys2Proof.Machine.execEccScrubError d bad pa s
  | .pgateGate who c => Sys2Proof.Machine.execPgateGate who c s
  | .pgateUngate who c => Sys2Proof.Machine.execPgateUngate who c s
  | .gateDraining c => Sys2Proof.Machine.execGateDraining c s
  | .gateOff c => Sys2Proof.Machine.execGateOff c s
  | .gateTimeout c => Sys2Proof.Machine.execGateTimeout c s
  | .reset => Sys2Proof.Machine.execReset s
  | .boot digests => Sys2Proof.Machine.execBoot digests s
  | .hostWrite m x va bytes => Sys2Proof.Machine.execHostWrite m x va bytes s
  | .ownClaim m => Sys2Proof.Machine.execOwnClaim m s
  | .ownOffer m o => Sys2Proof.Machine.execOwnOffer m o s
  | .hostLinkDown m => Sys2Proof.Machine.execHostLinkDown m s
  | .runResume m c => Sys2Proof.Machine.execRunResume m c s
  | .evqheadWrite m v => Sys2Proof.Machine.execEvqheadWrite m v s
  | .accessRefused m x o wr => Sys2Proof.Machine.execAccessRefused m x o wr s
  | .attestStart m v => Sys2Proof.Machine.execAttestStart m v s
  | .attestDone => Sys2Proof.Machine.execAttestDone s
  | .pwbaseWrite who k n v => Sys2Proof.Machine.execPwbaseWrite who k n v s
  | .readoutRequest m x len => Sys2Proof.Machine.execReadoutRequest m x len s
  | .readoutDone k => Sys2Proof.Machine.execReadoutDone k s
  | .manifestSign m x v => Sys2Proof.Machine.execManifestSign m x v s
  | .cutStart who d => Sys2Proof.Machine.execCutStart who d s
  | .cutComplete d => Sys2Proof.Machine.execCutComplete d s
  | .cutRelease who d => Sys2Proof.Machine.execCutRelease who d s
  | .profWrite who d v => Sys2Proof.Machine.execProfWrite who d v s
  | .traceDrain c => Sys2Proof.Machine.execTraceDrain c s
  | .trctlWrite who c v => Sys2Proof.Machine.execTrctlWrite who c v s
  | .enginePageFault k => Sys2Proof.Machine.execEnginePageFault k s
  | .incWithdrawCopy n d => Sys2Proof.Machine.execIncWithdrawCopy n d s
  | .pageRequestResponse m ok => Sys2Proof.Machine.execPageRequestResponse m ok s
  | .kinLinkDown l => Sys2Proof.Machine.execKinLinkDown l s

end Sys2Proof.Machine
end

