-- ==== Sys2Proof/Machine/Fetch.lean ====
section
/-! DEFINITION. Fetching an instruction (R52, R60, R360, R366): what an instruction fetch reads, the traps of R60 in their
order, and the turn of a control core (R242, R245, R251). -/

namespace Sys2Proof.Machine

/-- What a fetch of one word gives: a trap with %tval, or the state with the translation cached, the physical address and
the word. -/
inductive Fetched where
  | trap (cause : Nat) (val : Word)
  | word (s : State) (w : BitVec 32)
  deriving Repr

/-- Fetch the word at `va` for core `c` (R364: the x bit). A misaligned address raises T_ALIGN (log 10), a poisoned word
T_ECC_UNCORR (log 15); a protected window reads as ones and posts T_ACCESS (R425, R431). -/
def State.fetchWord (s : State) (c : Nat) (va : Word) : Fetched :=
  let x := (s.core c).ctx
  match s.translate c x va.toNat .fetch with
  | .fault _ => .trap tPageFault va
  | .ok pa =>
    if va.toNat % 4 ≠ 0 then .trap tAlign va
    else if s.poisoned pa 4 then .trap tEccUncorr va
    else
      let s := s.fillTlb c x va.toNat .fetch
      match s.protectedBy pa with
      | some _ => .word (s.denied c pa) (BitVec.allOnes 32)
      | none => .word s (BitVec.ofNat 32 (natLE (s.bytesAt pa 4)))

/-- What the fetch at the pc of core `c` finds: a trap with %tval, or the state and the instruction to execute. -/
inductive FetchRes where
  | trap (s : State) (cause : Nat) (val : Word)
  | run (s : State) (i : Instr)
  deriving Repr

/-- Fetch and decode at the pc of core `c`, with the traps of R60 in their order (R285: %tval holds the first word, and
the extension word once it was fetched). -/
def State.fetch (s : State) (c : Nat) : FetchRes :=
  let pc := (s.core c).pc
  match s.fetchWord c pc with
  | .trap cause v => .trap s cause v
  | .word s w =>
    match decodeFirst w with
    | .illegal => .trap s tIllegal (w.zeroExtend 64)
    | .undef => .trap s tUndefOp (w.zeroExtend 64)
    | .one i => .run s i
    | .two =>
      match s.fetchWord c (pc + 4) with
      | .trap cause v => .trap s cause v
      | .word s e =>
        match decodeTwo w e with
        | some i => .run s i
        | none => .trap s tUndefOp (e.zeroExtend 64 <<< 32 ||| w.zeroExtend 64)

/-- What a core does when its turn comes: rest, take one of its own steps, or fetch the instruction at its pc. -/
inductive CoreTurn where
  | rest
  | own (i : Instr)
  | fetch
  deriving DecidableEq, Repr

/-- The turn of core `c`: a core that is dead or halted rests; one with no handler switches or starts one (R242, R245); a
handler past its budget, or stalled on a command that holds a posted fault, traps (R242, R251); a speculative task that found no
commit-buffer entry rests until it is irrevocable or aborted (R333); otherwise it fetches. -/
def State.coreTurn (s : State) (c : Nat) : CoreTurn :=
  let k := s.core c
  if k.dead ∨ k.halted then .rest
  else if ¬ k.running then
    if k.next.isSome ∧ ¬ k.nextHeld then .own (.coreSwitch c) else .own (.handlerStart c)
  else if k.overBudget then .own (.handlerBudget c)
  else if s.stallHeld c then .own (.stallFault c)
  else match k.stall, s.specOf c with
    | some (.commit _), some _ => .rest
    | _, _ => .fetch

/-! ## Placing an instruction for the next step (log 9) -/

/-- The virtual and physical page that `withFetchWord` runs its instruction in: near memory of die 0, mapped at the same
address, and the tables of the walk to it. -/
def probePage : Nat := 0x100000
def probeRoot : Nat := 0x8000
def probeL2 : Nat := 0x20000
def probeL1 : Nat := 0x40000
def probeL0 : Nat := 0x41000

/-- Memory with the four table entries of R364 that map the probe page readable and executable. -/
def probeTables (m : Memory) : Memory :=
  let put (m : Memory) (a v : Nat) : Memory := m.writeBytes a (bytesLE 8 v)
  put (put (put (put m (probeRoot + 8 * tableIndex 3 probePage) (probeL2 + 1)) (probeL2 + 8 * tableIndex 2 probePage) (probeL1 + 1))
    (probeL1 + 8 * tableIndex 1 probePage) (probeL0 + 1)) (probeL0 + 8 * tableIndex 0 probePage) (probePage + 0x17)

/-- The state whose next step fetches and runs the instruction whose bits are `w` on the current core: the core runs a
handler of its resident context, which is OPEN with tables that map the probe page, and the words stand there (log 9). -/
def State.placeWord (s : State) (nbits w : Nat) : State :=
  let x := (s.core s.cur).ctx
  let s := { s with agenda := [], tlbs := Table.put s.tlbs s.cur [],
                    mem := (probeTables s.mem).writeBytes probePage (bytesLE 8 (w % 2 ^ nbits)) }
  let s := { s with poison := s.poison.filter fun a => decide (a + 4 ≤ probePage ∨ probePage + 8 ≤ a) }
  let s := s.modCtx x fun u => { u with phase := .opened, ptroot := BitVec.ofNat 64 (probeRoot + 1) }
  s.modCore s.cur fun k =>
    { k with running := true, halted := false, dead := false, pc := BitVec.ofNat 64 probePage, issued := 0, budget := 0, stall := none,
             next := none, nextHeld := false }

end Sys2Proof.Machine
end

