-- ==== Sys2Proof/Machine/Step.lean ====
section
/-! DEFINITION. One step of the package: the schedule names whose turn it is (log 3); a device step takes its meaning, a
core's turn is a step of its own or the instruction that it fetches; a master's read and an ECC error that an access finds take
turns as well. -/

namespace Sys2Proof.Machine

/-- The turn of core `c`: it becomes the current core, and takes its own step or runs the instruction at its pc; a fetch
that fails traps (R60). -/
def stepCore (c : Nat) (s : State) : Host.Outcome State Fault Refusal :=
  let s := { s with cur := c }
  match s.coreTurn c with
  | .rest => .next s
  | .own i => exec i s
  | .fetch =>
    match s.fetch c with
    | .trap s cause v => .next (s.trap c cause v)
    | .run s i => exec i s

/-- One step: the next turn of the agenda, or with none left the current core's. A turn that names an instruction which is
no device step does nothing. -/
def step (s : State) : Host.Outcome State Fault Refusal :=
  match s.agenda with
  | [] => stepCore s.cur s
  | .core c :: l => stepCore c { s with agenda := l }
  | .read m r :: l => .next (({ s with agenda := l } : State).hostTurn m r)
  | .found c bad pa :: l => .next (({ s with agenda := l } : State).eccFound c bad pa)
  | .event i :: l => if i.isEvent then exec i { s with agenda := l } else .next { s with agenda := l }

/-- The state whose next step runs the instruction whose bits are `w` (log 9). -/
def State.withFetchWord (s : State) (nbits w : Nat) : State := s.placeWord nbits w

end Sys2Proof.Machine
end

