-- ==== Sys2Proof/Safety.lean ====
section
/-! DEFINITION. What counts as a safe run, and the words that statements about steps use: the canonical form of memory, an
instruction that completes in place, what a step leaves alone. -/

namespace Sys2Proof.Machine

/-- The form every state of a run keeps: memory is canonical, so that equal memories are equal data. -/
def State.Canonical (s : State) : Prop := s.mem.wf = true

/-- A safe step: the machine goes on, and memory keeps its form. -/
def State.StepsSafely (s : State) : Prop := ∃ t, step s = .next t ∧ t.Canonical

/-- A safe run of `n` steps. -/
def State.RunsSafely : Nat → State → Prop
  | 0, s => s.Canonical
  | n + 1, s => ∃ t, step s = .next t ∧ State.RunsSafely n t

/-- The registers that an instruction of the current core names let it issue now (R249, R250): none is pending, and none
that it reads has a scoreboard count (R243). -/
def State.Ready (s : State) (rs rf ws wf : List Nat) : Prop := (s.core s.cur).waits rs rf ws wf = none

/-- The core that the step belongs to. -/
def State.me (s : State) : CoreSt := s.core s.cur

/-- Of the whole state only core `c` differs, and every byte of memory reads as before. -/
structure State.OnlyCore (s t : State) (c : Nat) : Prop where
  core : t = s.setCore c (t.core c)
  mem : ∀ a, t.mem.read a = s.mem.read a

/-- An instruction of `len` bytes completed in place: only the current core changed; its pc stands past the instruction,
its stall is over, one more is issued; of its fields only s, f and %fflags may differ besides. What these may change to is
for each statement to say. -/
structure State.InPlace (s t : State) (len : Nat) : Prop where
  only : s.OnlyCore t s.cur
  pc : (t.core s.cur).pc = s.me.pc + BitVec.ofNat 64 len
  issued : (t.core s.cur).issued = s.me.issued + 1
  stall : (t.core s.cur).stall = none
  req : (t.core s.cur).req = none
  rest : { t.core s.cur with s := s.me.s, f := s.me.f, fflags := s.me.fflags, pc := s.me.pc, issued := s.me.issued,
                             stall := s.me.stall, req := s.me.req } = s.me

/-- Of core `c`'s s-registers only `d` may differ, and it reads `v`, or zero where `d` is s0 (R54). -/
structure State.WritesS (s t : State) (c d : Nat) (v : Word) : Prop where
  value : (t.core c).rd d = if d = 0 then 0 else v
  others : ∀ r, r ≠ d → (t.core c).rd r = (s.core c).rd r

/-- No s-register of core `c` differs. -/
def State.KeepsS (s t : State) (c : Nat) : Prop := ∀ r, (t.core c).rd r = (s.core c).rd r

/-- Of core `c`'s f-registers only `d` may differ, and it holds `v`. -/
structure State.WritesF (s t : State) (c d : Nat) (v : Word) : Prop where
  value : (t.core c).rdF d = v
  others : ∀ r, r ≠ d → (t.core c).rdF r = (s.core c).rdF r

/-- No f-register of core `c` differs. -/
def State.KeepsF (s t : State) (c : Nat) : Prop := ∀ r, (t.core c).rdF r = (s.core c).rdF r

/-- Outside core `c`, the trap's fault serial, trace and owner events, a trap leaves the state alone: memory, contexts, sites,
regions, commands and every other core are as they were. -/
structure State.TrapFrame (s t : State) (c : Nat) : Prop where
  mem : ∀ a, t.mem.read a = s.mem.read a
  ctxs : t.ctxs = s.ctxs
  sites : t.sites = s.sites
  regions : t.regions = s.regions
  cmds : t.cmds = s.cmds
  fullBits : t.fullBits = s.fullBits
  accWords : t.accWords = s.accWords
  cores : ∀ j, j ≠ c → j ≠ 0 → t.core j = s.core j

end Sys2Proof.Machine
end

