-- ==== Sys2Proof/Certificates/Slice0/Obligations.lean ====
section
/-! DEFINITION. The statements for the provers: what the spec's rules say the machine does, in terms of the model. -/

open Sys2Proof Sys2Proof.Machine

/-! ## Encoding and decoding -/

/-- Every well-formed control-core instruction is what its own bytes decode to, whatever bytes follow: no operand bit is
dropped by encoder or decoder. -/
def Obligations.DecodeOfEncodeIsIdentity : Prop :=
  ∀ i : Instr, i.isEvent = false → i.wf = true →
    ∀ rest : List Byte, decode (encodeBytes i ++ rest) = .ok i (encode i).length

/-- The other direction: bytes that decode to an instruction are its encoding, so no two words mean the same and a non-zero
unused field is never accepted. -/
def Obligations.EncodeOfDecodeIsIdentity : Prop :=
  ∀ (bs : List Byte) (i : Instr) (n : Nat), decode bs = .ok i n →
    i.isEvent = false ∧ i.wf = true ∧ n = (encode i).length ∧ bs.take (4 * n) = encodeBytes i

/-- Words that the spec writes out decode to the instructions it says they are; major 0x00 is T_ILLEGAL, and a major that
the table of R57 does not assign T_UNDEF_OP, whatever the other bits (R60). -/
def Obligations.WordsOfTheSpecDecode : Prop :=
  decodeTableWord 32 0x04611000 = some (.add 3 1 2) ∧
  decodeTableWord 32 0x40801FFD = some (.br 4 0 0 0x1FFD) ∧
  decodeTableWord 32 0x28E11003 = some (.cmpLtN 7 1 2) ∧
  decodeTableWord 32 0x4C1F0000 = some (.jr 0 31 0) ∧
  decodeTableWord 32 0x4BFFFFF0 = some (.call 0x3FFFFF0) ∧
  decodeTableWord 32 0xC0400202 = some (.sysrd 2 0x008) ∧
  decodeTableWord 32 0xC00414C3 = some (.syswr 4 0x053) ∧
  decodeTableWord 32 0xAD203A86 = some (.cfgQuery 9 7 10) ∧
  decodeTableWord 32 0xB0000083 = some (.exit 0 0 2) ∧
  decodeTableWord 32 0x5507_62C0 = some (.fma 8 7 12 11 0) ∧
  decodeTableWord 64 0x74800000_A14B6360 =
    some (.copy true 10 11 12 13 { bar := 14, fe := true, scope := 1, red := 0, sfx := 0 }) ∧
  (∀ w : BitVec 32,
    ((wMaj w).toNat = 0 → decodeFirst w = .illegal) ∧
    ((wMaj w).toNat ∈ [0x0B, 0x0C, 0x0D, 0x0E, 0x0F, 0x16, 0x17, 0x32, 0x33, 0x34, 0x35, 0x36, 0x37, 0x38, 0x39, 0x3A, 0x3B,
      0x3C, 0x3D, 0x3F] → decodeFirst w = .undef))

/-! ## The step and its invariant -/

/-- Where the word at the current core's pc decodes to one instruction, and no turn of another agent is scheduled, a step is
that instruction's meaning, in the state that the fetch leaves (its translation is cached, nothing else differs); for an
instruction of two words the second is fetched at pc + 4. The schedule of turns is the model's (log 3). -/
def Obligations.StepRunsTheDecodedInstruction : Prop :=
  ∀ (s u : State) (w : BitVec 32),
    s.agenda = [] → (s.core s.cur).running = true → (s.core s.cur).halted = false → (s.core s.cur).dead = false →
    (s.core s.cur).overBudget = false → s.stallHeld s.cur = false →
    s.fetchWord s.cur (s.core s.cur).pc = .word u w →
    (∀ i, decodeFirst w = .one i → step s = exec i u) ∧
    (∀ v e i, decodeFirst w = .two → u.fetchWord s.cur ((s.core s.cur).pc + 4) = .word v e → decodeTwo w e = some i →
      step s = exec i v)

/-- The model's form of the spec's machine, no instruction or event of which ends a run: in every state, reachable or not, a
step answers a next state, and so does every meaning. -/
def Obligations.EveryStepAnswersNext : Prop :=
  (∀ s : State, ∃ t, step s = .next t) ∧ ∀ (i : Instr) (s : State), ∃ t, exec i s = .next t

/-- Memory keeps the model's canonical form, equal memories being equal data, through every step. -/
def Obligations.StepKeepsMemoryCanonical : Prop :=
  ∀ s t : State, s.Canonical → step s = .next t → t.Canonical

/-- What the spec says reset leaves: on every core ch0 enabled and privileged and every other channel disabled (R240), no
handler running, %tstat.valid clear, %stallmax 0x0010_0000 (R287), and the resident context 0 with the privilege bit set
(R239); every context FREE (R237); a tile word empty and zero (R177). That every register without a reset value of the spec's
is zero is the model's choice (log 1), and that near and far memory reads zero is too (log 2). Memory is canonical. -/
def Obligations.ResetLeavesTheSpecsValues : Prop :=
  (∀ c n : Nat, ((State.reset.core c).channel n).en = (n == 0) ∧ ((State.reset.core c).channel n).priv = (n == 0)) ∧
  (∀ c : Nat, (State.reset.core c).running = false ∧ (State.reset.core c).tvalid = false ∧
    (State.reset.core c).stallmax = 0x00100000 ∧ (State.reset.core c).ctx = 0 ∧ (State.reset.core c).priv = true ∧
    (State.reset.core c).fflags = 0) ∧
  (∀ x : Nat, (State.reset.ctx x).phase = .free ∧ (State.reset.ctx x).err = false) ∧
  (∀ a : Nat, State.reset.isFull a = false) ∧ (∀ a : Nat, State.reset.mem.read a = 0) ∧ State.reset.Canonical

/-! ## Integer and address arithmetic -/

namespace Sys2Proof

/-- Signed and unsigned division as R252 and R253 give them, on the integers the words stand for. -/
def quotient (x y : Int) : Int := if y = 0 then -1 else x.tdiv y

/-- The register instructions of R252 with two operands, each with what d receives from a and b. -/
def aluTable (d a b : BitVec 5) : List (Instr × (Word → Word → Word)) :=
  [(.add d a b, fun x y => BitVec.ofNat 64 (x.toNat + y.toNat)),
   (.sub d a b, fun x y => BitVec.ofInt 64 (x.toInt - y.toInt)),
   (.and d a b, fun x y => x &&& y), (.or d a b, fun x y => x ||| y), (.xor d a b, fun x y => x ^^^ y),
   (.andn d a b, fun x y => x &&& ~~~y),
   (.sll d a b, fun x y => x <<< (fld y 5 0)), (.srl d a b, fun x y => x >>> (fld y 5 0)),
   (.sra d a b, fun x y => x.sshiftRight (fld y 5 0)),
   (.minS d a b, fun x y => if x.toInt ≤ y.toInt then x else y), (.minN d a b, fun x y => if x.toNat ≤ y.toNat then x else y),
   (.maxS d a b, fun x y => if x.toInt ≤ y.toInt then y else x), (.maxN d a b, fun x y => if x.toNat ≤ y.toNat then y else x),
   (.mul d a b, fun x y => BitVec.ofNat 64 (x.toNat * y.toNat)),
   (.mulhS d a b, fun x y => BitVec.ofInt 64 ((x.toInt * y.toInt) / 2 ^ 64)),
   (.mulhN d a b, fun x y => BitVec.ofNat 64 (x.toNat * y.toNat / 2 ^ 64)),
   (.divS d a b, fun x y => BitVec.ofInt 64 (quotient x.toInt y.toInt)),
   (.divN d a b, fun x y => BitVec.ofInt 64 (quotient x.toNat y.toNat)),
   (.remS d a b, fun x y => BitVec.ofInt 64 (x.toInt - y.toInt * quotient x.toInt y.toInt)),
   (.remN d a b, fun x y => BitVec.ofInt 64 (x.toNat - y.toNat * quotient x.toNat y.toNat))]

/-- `n` counts the bits of `x` above its highest one: 64 for zero. -/
def LeadingZeros (x : Word) (n : Nat) : Prop :=
  n ≤ 64 ∧ (∀ i, i < n → x.getLsbD (63 - i) = false) ∧ (n < 64 → x.getLsbD (63 - n) = true)

/-- `n` counts the bits of `x` below its lowest one: 64 for zero. -/
def TrailingZeros (x : Word) (n : Nat) : Prop :=
  n ≤ 64 ∧ (∀ i, i < n → x.getLsbD i = false) ∧ (n < 64 → x.getLsbD n = true)

/-- The compares of R255 with the relation each writes. -/
def cmpTable (d a b : BitVec 5) : List (Instr × (Word → Word → Prop)) :=
  [(.cmpEq d a b, fun x y => x = y), (.cmpNe d a b, fun x y => x ≠ y),
   (.cmpLtS d a b, fun x y => x.toInt < y.toInt), (.cmpLtN d a b, fun x y => x.toNat < y.toNat),
   (.cmpLeS d a b, fun x y => x.toInt ≤ y.toInt), (.cmpLeN d a b, fun x y => x.toNat ≤ y.toNat)]

end Sys2Proof

/-- R252, R253, R255: the two-operand instructions and the compares: with a, b and d ready, d receives the table's value, or 1
where the relation holds and 0 where it does not (nothing where d is s0), the pc moves past the word, no flag is set, and
nothing else changes. -/
def Obligations.AluWritesItsResult : Prop :=
  ∀ (s : State) (d a b : BitVec 5), s.Ready [a.toNat, b.toNat] [] [d.toNat] [] →
    (∀ i f, (i, f) ∈ aluTable d a b → ∃ t, exec i s = .next t ∧ s.InPlace t 4 ∧
      s.WritesS t s.cur d.toNat (f (s.me.rd a.toNat) (s.me.rd b.toNat)) ∧ s.KeepsF t s.cur ∧
      (t.core s.cur).fflags = s.me.fflags) ∧
    (∀ i R, (i, R) ∈ cmpTable d a b → ∃ t v, exec i s = .next t ∧ s.InPlace t 4 ∧ s.WritesS t s.cur d.toNat v ∧
      (R (s.me.rd a.toNat) (s.me.rd b.toNat) → v = 1) ∧ (¬ R (s.me.rd a.toNat) (s.me.rd b.toNat) → v = 0) ∧
      s.KeepsF t s.cur ∧ (t.core s.cur).fflags = s.me.fflags)

namespace Sys2Proof

/-- The immediate instructions of R254 that read a, with what d receives. -/
def immTable (d a : BitVec 5) (imm : BitVec 16) (sh : BitVec 6) : List (Instr × (Word → Word)) :=
  [(.addi d a imm, fun x => BitVec.ofInt 64 (x.toInt + imm.toInt)),
   (.andi d a imm, fun x => x &&& BitVec.ofNat 64 imm.toNat), (.ori d a imm, fun x => x ||| BitVec.ofNat 64 imm.toNat),
   (.xori d a imm, fun x => x ^^^ BitVec.ofNat 64 imm.toNat),
   (.slli d a sh, fun x => x <<< sh.toNat), (.srli d a sh, fun x => x >>> sh.toNat), (.srai d a sh, fun x => x.sshiftRight sh.toNat),
   (.rori d a sh, fun x => x >>> sh.toNat ||| x <<< (64 - sh.toNat)),
   (.ltiS d a imm, fun x => if x.toInt < imm.toInt then 1 else 0),
   (.ltiN d a imm, fun x => if x.toNat < (imm.signExtend 64).toNat then 1 else 0)]

end Sys2Proof

/-- R252, R254: the one-operand instructions, sel and msgrd, and the RI and LI arithmetic instructions; ins16 and mode 2 of li
read d, and keep its other bits. -/
def Obligations.OneOperandAndImmediates : Prop :=
  (∀ (s : State) (d a : BitVec 5), s.Ready [a.toNat] [] [d.toNat] [] →
    (∃ t n, exec (.clz d a) s = .next t ∧ s.InPlace t 4 ∧ LeadingZeros (s.me.rd a.toNat) n ∧
      s.WritesS t s.cur d.toNat (BitVec.ofNat 64 n) ∧ s.KeepsF t s.cur ∧ (t.core s.cur).fflags = s.me.fflags) ∧
    (∃ t n, exec (.ctz d a) s = .next t ∧ s.InPlace t 4 ∧ TrailingZeros (s.me.rd a.toNat) n ∧
      s.WritesS t s.cur d.toNat (BitVec.ofNat 64 n) ∧ s.KeepsF t s.cur ∧ (t.core s.cur).fflags = s.me.fflags) ∧
    (∃ t, exec (.popc d a) s = .next t ∧ s.InPlace t 4 ∧
      s.WritesS t s.cur d.toNat
        (BitVec.ofNat 64 ((List.range 64).foldl (fun n i => n + ((s.me.rd a.toNat).getLsbD i).toNat) 0)) ∧
      s.KeepsF t s.cur ∧ (t.core s.cur).fflags = s.me.fflags)) ∧
  (∀ (s : State) (d a b c : BitVec 5), s.Ready [a.toNat, b.toNat, c.toNat] [] [d.toNat] [] →
    ∃ t, exec (.sel d a b c) s = .next t ∧ s.InPlace t 4 ∧
      s.WritesS t s.cur d.toNat (if s.me.rd c.toNat = 0 then s.me.rd b.toNat else s.me.rd a.toNat) ∧
      s.KeepsF t s.cur ∧ (t.core s.cur).fflags = s.me.fflags) ∧
  (∀ (s : State) (d a : BitVec 5), s.Ready [] [] [d.toNat] [] →
    ∃ t, exec (.msgrd d a) s = .next t ∧ s.InPlace t 4 ∧ s.WritesS t s.cur d.toNat (s.me.rdM a.toNat) ∧
      s.KeepsF t s.cur ∧ (t.core s.cur).fflags = s.me.fflags) ∧
  (∀ (s : State) (d a : BitVec 5) (imm : BitVec 16) (sh : BitVec 6), s.Ready [a.toNat] [] [d.toNat] [] →
    ∀ i f, (i, f) ∈ immTable d a imm sh → ∃ t, exec i s = .next t ∧ s.InPlace t 4 ∧
      s.WritesS t s.cur d.toNat (f (s.me.rd a.toNat)) ∧ s.KeepsF t s.cur ∧ (t.core s.cur).fflags = s.me.fflags) ∧
  (∀ (s : State) (d : BitVec 5) (h : BitVec 2) (imm : BitVec 16), s.Ready [d.toNat] [] [d.toNat] [] →
    ∃ t v, exec (.ins16 d h imm) s = .next t ∧ s.InPlace t 4 ∧ s.WritesS t s.cur d.toNat v ∧
      (∀ j, j < 64 → v.getLsbD j = if j / 16 = h.toNat then imm.getLsbD (j % 16) else (s.me.rd d.toNat).getLsbD j) ∧
      s.KeepsF t s.cur ∧ (t.core s.cur).fflags = s.me.fflags) ∧
  (∀ (s : State) (d mode : BitVec 5) (ext : BitVec 32), mode.toNat < 2 → s.Ready [] [] [d.toNat] [] →
    ∃ t, exec (.li d mode ext) s = .next t ∧ s.InPlace t 8 ∧
      s.WritesS t s.cur d.toNat (if mode = 0 then BitVec.ofInt 64 ext.toInt else BitVec.ofNat 64 ext.toNat) ∧
      s.KeepsF t s.cur ∧ (t.core s.cur).fflags = s.me.fflags) ∧
  (∀ (s : State) (d : BitVec 5) (ext : BitVec 32), s.Ready [d.toNat] [] [d.toNat] [] →
    ∃ t v, exec (.li d 2 ext) s = .next t ∧ s.InPlace t 8 ∧ s.WritesS t s.cur d.toNat v ∧
      (∀ j, j < 64 → v.getLsbD j = if 32 ≤ j then ext.getLsbD (j - 32) else (s.me.rd d.toNat).getLsbD j) ∧
      s.KeepsF t s.cur ∧ (t.core s.cur).fflags = s.me.fflags)

/-! ## Control transfers -/

namespace Sys2Proof

/-- When br is taken, by its cond field (R57). -/
def taken (cond : Nat) (x y : Word) : Prop :=
  match cond with
  | 0 => x = y
  | 1 => x ≠ y
  | 2 => x.toInt < y.toInt
  | 3 => y.toInt ≤ x.toInt
  | 4 => x.toNat < y.toNat
  | _ => y.toNat ≤ x.toNat

/-- A control transfer to `target`: only the current core changes, its pc is the target, one more instruction is issued. -/
structure TransfersTo (s t : State) (target : Word) : Prop where
  only : s.OnlyCore t s.cur
  pc : (t.core s.cur).pc = target
  issued : (t.core s.cur).issued = s.me.issued + 1
  rest : { t.core s.cur with s := s.me.s, pc := s.me.pc, issued := s.me.issued, stall := s.me.stall, req := s.me.req } = s.me

end Sys2Proof

/-- R256: br, jmp and call, with offsets counted in words from the transfer's own address; call puts the return address into
s31. jr reads a before d is written; a target whose low two bits are not zero raises T_ALIGN with the target in %tval, and d
is unchanged. A fault on fetching, as at a target, is raised with %tpc holding the pc it fetches at. -/
def Obligations.BranchesAndCalls : Prop :=
  (∀ (s : State) (a b : BitVec 5) (cond : BitVec 3) (off : BitVec 13), s.Ready [a.toNat, b.toNat] [] [] [] → cond.toNat < 6 →
    ∃ t, exec (.br a b cond off) s = .next t ∧ s.KeepsS t s.cur ∧
      (taken cond.toNat (s.me.rd a.toNat) (s.me.rd b.toNat) →
        TransfersTo s t (s.me.pc + BitVec.ofInt 64 (4 * off.toInt))) ∧
      (¬ taken cond.toNat (s.me.rd a.toNat) (s.me.rd b.toNat) → TransfersTo s t (s.me.pc + 4))) ∧
  (∀ (s : State) (off : BitVec 26), s.Ready [] [] [] [] →
    ∃ t, exec (.jmp off) s = .next t ∧ s.KeepsS t s.cur ∧ TransfersTo s t (s.me.pc + BitVec.ofInt 64 (4 * off.toInt))) ∧
  (∀ (s : State) (off : BitVec 26), s.Ready [] [] [31] [] →
    ∃ t, exec (.call off) s = .next t ∧ s.WritesS t s.cur 31 (s.me.pc + 4) ∧
      TransfersTo s t (s.me.pc + BitVec.ofInt 64 (4 * off.toInt))) ∧
  (∀ (s : State) (d a : BitVec 5) (imm : BitVec 16), s.Ready [a.toNat] [] [d.toNat] [] →
    let target := s.me.rd a.toNat + BitVec.ofInt 64 imm.toInt
    (target.toNat % 4 = 0 → ∃ t, exec (.jr d a imm) s = .next t ∧ s.WritesS t s.cur d.toNat (s.me.pc + 4) ∧ TransfersTo s t target) ∧
    (target.toNat % 4 ≠ 0 → exec (.jr d a imm) s = .next (s.trap s.cur tAlign target) ∧
      s.KeepsS (s.trap s.cur tAlign target) s.cur)) ∧
  (∀ (s : State) (cause : Nat) (v : Word), s.agenda = [] → s.me.running = true → s.me.halted = false → s.me.dead = false →
    s.me.overBudget = false → s.stallHeld s.cur = false → s.fetchWord s.cur s.me.pc = .trap cause v → s.me.tvalid = false →
    ∃ t, step s = .next t ∧ (t.core s.cur).tpc = s.me.pc ∧ (t.core s.cur).tcause = BitVec.ofNat 7 cause ∧
      (t.core s.cur).tval = v ∧ (t.core s.cur).tvalid = true) ∧
  decodeTableWord 32 0x28E1_1003 = some (.cmpLtN 7 1 2) ∧ decodeTableWord 32 0x4C1F_0000 = some (.jr 0 31 0) ∧
  decodeTableWord 32 0x4BFF_FFF0 = some (.call 0x3FFFFF0)

/-- R243, R250: registers are not ready when one among those read or written is pending, or one read has a count; s0 is never
waited for. Then an instruction of the scalar two-operand and compare tables does not issue: the core only notes what it waits
for, and its pc, registers and everything outside it stay. -/
def Obligations.UnreadyInstructionsStall : Prop :=
  (∀ (k : CoreSt) (rs rf ws wf : List Nat),
    (k.waits rs rf ws wf = none ↔
      (∀ r, r ∈ rs ∨ r ∈ ws → r ≠ 0 → r ∉ k.pendS) ∧ (∀ r, r ∈ rf ∨ r ∈ wf → r ∉ k.pendF) ∧
      (∀ r, r ∈ rs → r ≠ 0 → k.count r = 0))) ∧
  (∀ (s : State) (d a b : BitVec 5) (w : Stall), s.me.waits [a.toNat, b.toNat] [] [d.toNat] [] = some w →
    (∀ i f, (i, f) ∈ aluTable d a b → exec i s = .next (s.setCore s.cur { s.me with stall := some w })) ∧
    (∀ i R, (i, R) ∈ cmpTable d a b → exec i s = .next (s.setCore s.cur { s.me with stall := some w })))

/-! ## Floating point -/

namespace Sys2Proof

/-- The FP32 value in f-register `r` (R257). -/
def Machine.State.fp32 (s : State) (r : BitVec 5) : FVal := FVal.decode .f32 ((s.me.rdF r.toNat).toNat % 2 ^ 32)

/-- The f-register instructions of R258 and R261 that round, with the FP32 result and the flags of each. -/
def fpTable (s : State) (d a b c : BitVec 5) (rm : BitVec 3) : List (Instr × (Nat × Flags)) :=
  let m := Rm.of rm.toNat
  let x := s.fp32 a
  let y := s.fp32 b
  let z := s.fp32 c
  [(.fadd d a b rm, finish .f32 m false (x.add m y)), (.fsub d a b rm, finish .f32 m false (x.add m y.neg)),
   (.fmul d a b rm, finish .f32 m false (x.mul y)), (.fdiv d a b rm, fDiv .f32 m x y), (.fsqrt d a rm, fSqrt .f32 m x),
   (.fma d a b c rm, fFma .f32 m x y z), (.fms d a b c rm, fFma .f32 m x y z.neg),
   (.fnma d a b c rm, fFma .f32 m x.neg y z), (.fnms d a b c rm, fFma .f32 m x.neg y z.neg),
   (.fcvtBf16F32 d a rm, x.round .bf16 m false), (.fcvtF16F32 d a rm, x.round .f16 m false)]

end Sys2Proof

/-- R257, R258, R261: with their registers ready, the rounding instructions write their result to f-register d with zero
above it, add its flags to %fflags, and change nothing else. -/
def Obligations.FloatArithmeticWritesItsResult : Prop :=
  ∀ (s : State) (d a b c : BitVec 5) (rm : BitVec 3), s.Ready [] [a.toNat, b.toNat, c.toNat] [] [d.toNat] →
    ∀ i r, (i, r) ∈ fpTable s d a b c rm → ∃ t, exec i s = .next t ∧ s.InPlace t 4 ∧
      s.WritesF t s.cur d.toNat (BitVec.ofNat 64 r.1) ∧ s.KeepsS t s.cur ∧ (t.core s.cur).fflags = s.me.fflags ||| r.2

namespace Sys2Proof

/-- R26: the FP32 NaNs. -/
def IsNaN32 (x : BitVec 32) : Prop := fld x 30 23 = 0xFF ∧ fld x 22 0 ≠ 0

end Sys2Proof

/-- R147, R257, R258, R260: the other FP instructions. fneg and fabs act on bit 31 and a NaN gives the canonical NaN; fmin and
fmax return the other operand for a NaN and order -0 below +0; fmv copies 64 bits; integers convert with one rounding. Into
an s-register: a compare with a NaN is 0, and lt and le then set NV; conversions saturate, NaN gives 0, and what is out of
range sets NV alone. That the range is judged before the rounding is the model's reading (log 17). -/
def Obligations.FloatMovesComparesConversions : Prop :=
  (∀ (s : State) (d a : BitVec 5), s.Ready [] [a.toNat] [] [d.toNat] →
    let x : BitVec 32 := (s.me.rdF a.toNat).truncate 32
    (∃ t v, exec (.fneg d a) s = .next t ∧ s.InPlace t 4 ∧ s.WritesF t s.cur d.toNat (BitVec.zeroExtend 64 (v : BitVec 32)) ∧
      (IsNaN32 x → v = 0x7FC00000) ∧ (¬ IsNaN32 x → v = x ^^^ 0x80000000) ∧ s.KeepsS t s.cur ∧
      (t.core s.cur).fflags = s.me.fflags) ∧
    (∃ t v, exec (.fabs d a) s = .next t ∧ s.InPlace t 4 ∧ s.WritesF t s.cur d.toNat (BitVec.zeroExtend 64 (v : BitVec 32)) ∧
      (IsNaN32 x → v = 0x7FC00000) ∧ (¬ IsNaN32 x → v = x &&& 0x7FFFFFFF) ∧ s.KeepsS t s.cur ∧
      (t.core s.cur).fflags = s.me.fflags) ∧
    (∃ t, exec (.fcvtF32Bf16 d a) s = .next t ∧ s.InPlace t 4 ∧
      s.WritesF t s.cur d.toNat
        (BitVec.ofNat 64 ((FVal.decode .bf16 ((s.me.rdF a.toNat).toNat % 2 ^ 16)).round .f32 .rne false).1) ∧
      s.KeepsS t s.cur ∧ (t.core s.cur).fflags = s.me.fflags) ∧
    (∃ t, exec (.fcvtF32F16 d a) s = .next t ∧ s.InPlace t 4 ∧
      s.WritesF t s.cur d.toNat
        (BitVec.ofNat 64 ((FVal.decode .f16 ((s.me.rdF a.toNat).toNat % 2 ^ 16)).round .f32 .rne false).1) ∧
      s.KeepsS t s.cur ∧ (t.core s.cur).fflags = s.me.fflags)) ∧
  (∀ (s : State) (d a b : BitVec 5), s.Ready [] [a.toNat, b.toNat] [] [d.toNat] →
    ∀ mx : Bool, ∃ t v, exec (if mx then .fmax d a b else .fmin d a b) s = .next t ∧ s.InPlace t 4 ∧
      s.WritesF t s.cur d.toNat v ∧ s.KeepsS t s.cur ∧ (t.core s.cur).fflags = s.me.fflags ∧
      (let x : BitVec 32 := (s.me.rdF a.toNat).truncate 32
       let y : BitVec 32 := (s.me.rdF b.toNat).truncate 32
       (IsNaN32 x → IsNaN32 y → v = 0x7FC00000) ∧ (IsNaN32 x → ¬ IsNaN32 y → v = y.zeroExtend 64) ∧
       (¬ IsNaN32 x → IsNaN32 y → v = x.zeroExtend 64) ∧
       (¬ IsNaN32 x → ¬ IsNaN32 y → v = (if (fkeyOf x).toNat < (fkeyOf y).toNat ↔ mx then y else x).zeroExtend 64))) ∧
  (∀ (s : State) (d a : BitVec 5), s.Ready [a.toNat] [] [] [d.toNat] →
    (∃ t, exec (.fmvF d a) s = .next t ∧ s.InPlace t 4 ∧ s.WritesF t s.cur d.toNat (s.me.rd a.toNat) ∧ s.KeepsS t s.cur ∧
      (t.core s.cur).fflags = s.me.fflags) ∧
    (∀ rm : BitVec 3, let v : BitVec 32 := (s.me.rd a.toNat).truncate 32
      let m := Rm.of rm.toNat
      (∃ t, exec (.fcvtF32S32 d a rm) s = .next t ∧ s.InPlace t 4 ∧
        s.WritesF t s.cur d.toNat (BitVec.ofNat 64 (roundRat .f32 m false false v.msb v.toInt.natAbs 1).1) ∧ s.KeepsS t s.cur ∧
        (t.core s.cur).fflags = s.me.fflags ||| (roundRat .f32 m false false v.msb v.toInt.natAbs 1).2) ∧
      (∃ t, exec (.fcvtF32N32 d a rm) s = .next t ∧ s.InPlace t 4 ∧
        s.WritesF t s.cur d.toNat (BitVec.ofNat 64 (roundRat .f32 m false false false v.toNat 1).1) ∧ s.KeepsS t s.cur ∧
        (t.core s.cur).fflags = s.me.fflags ||| (roundRat .f32 m false false false v.toNat 1).2))) ∧
  (∀ (s : State) (d a : BitVec 5), s.Ready [] [a.toNat] [d.toNat] [] →
    (∃ t, exec (.fmvS d a) s = .next t ∧ s.InPlace t 4 ∧ s.WritesS t s.cur d.toNat (s.me.rdF a.toNat) ∧ s.KeepsF t s.cur ∧
      (t.core s.cur).fflags = s.me.fflags) ∧
    (∃ t, exec (.fkey d a) s = .next t ∧ s.InPlace t 4 ∧
      s.WritesS t s.cur d.toNat ((fkeyOf ((s.me.rdF a.toNat).truncate 32)).zeroExtend 64) ∧ s.KeepsF t s.cur ∧
      (t.core s.cur).fflags = s.me.fflags) ∧
    (∀ (rm : BitVec 3) (sgn : Bool), rm.toNat < 4 →
      let lo : Int := if sgn then -2 ^ 31 else 0
      let hi : Int := if sgn then 2 ^ 31 - 1 else 2 ^ 32 - 1
      ∃ t v fl, exec (if sgn then .fcvtS32F32 d a rm else .fcvtN32F32 d a rm) s = .next t ∧ s.InPlace t 4 ∧
        s.WritesS t s.cur d.toNat (BitVec.ofInt 64 v) ∧ lo ≤ v ∧ v ≤ hi ∧ s.KeepsF t s.cur ∧
        (t.core s.cur).fflags = s.me.fflags ||| fl ∧
        (s.fp32 a = .nan → v = 0 ∧ fl = fNV) ∧
        (∀ n, s.fp32 a = .inf n → v = (if n then lo else hi) ∧ fl = fNV) ∧
        (∀ n m e num den, s.fp32 a = .fin n m e → dyadic m e = (num, den) →
          (n = true ∧ -lo * den < num → v = lo ∧ fl = fNV) ∧ (n = false ∧ hi * den < num → v = hi ∧ fl = fNV) ∧
          (¬ (n = true ∧ -lo * den < num) → ¬ (n = false ∧ hi * den < num) →
            (fl = if num % den = 0 then 0 else fNX) ∧ (v * den - (if n then -1 else 1) * (num : Int)).natAbs < den ∧
            (num % den = 0 → v * den = (if n then -1 else 1) * (num : Int)) ∧
            (rm = 0 → 2 * (v * den - (if n then -1 else 1) * (num : Int)).natAbs ≤ den) ∧
            (rm = 1 → v.natAbs * den ≤ num) ∧ (rm = 2 → v * den ≤ (if n then -1 else 1) * (num : Int)) ∧
            (rm = 3 → (if n then -1 else 1) * (num : Int) ≤ v * den))))) ∧
  (∀ (s : State) (d a b : BitVec 5), s.Ready [] [a.toNat, b.toNat] [d.toNat] [] →
    ∀ i R nv, (i, R, nv) ∈ [((.fcmpEq d a b : Instr), (fun o : Int => o = 0), (0 : Flags)),
        (.fcmpLt d a b, fun o => o < 0, fNV), (.fcmpLe d a b, fun o => o ≤ 0, fNV)] →
      ∃ t v, exec i s = .next t ∧ s.InPlace t 4 ∧ s.WritesS t s.cur d.toNat v ∧ s.KeepsF t s.cur ∧
        ((s.fp32 a).cmp (s.fp32 b) = none → v = 0 ∧ (t.core s.cur).fflags = s.me.fflags ||| nv) ∧
        (∀ o, (s.fp32 a).cmp (s.fp32 b) = some o → ((v = 1 ∧ R o) ∨ (v = 0 ∧ ¬ R o)) ∧
          (t.core s.cur).fflags = s.me.fflags))

/-- R259: the key of fkey orders as the values do, -0 below +0, and every NaN has the largest key. -/
def Obligations.FkeyOrdersAsTheValues : Prop :=
  (∀ (s : State) (d a : BitVec 5), s.Ready [] [a.toNat] [d.toNat] [] → let x : BitVec 32 := (s.me.rdF a.toNat).truncate 32
    ∃ t k, exec (.fkey d a) s = .next t ∧ s.InPlace t 4 ∧ s.WritesS t s.cur d.toNat (BitVec.zeroExtend 64 (k : BitVec 32)) ∧
      s.KeepsF t s.cur ∧ (t.core s.cur).fflags = s.me.fflags ∧
      (IsNaN32 x → k = 0xFFFFFFFF) ∧ (¬ IsNaN32 x → x.msb = false → k = x ^^^ 0x80000000) ∧
      (¬ IsNaN32 x → x.msb = true → k = ~~~x)) ∧
  (∀ x y : BitVec 32, ¬ IsNaN32 x → ¬ IsNaN32 y →
    ((fkeyOf x).toNat < (fkeyOf y).toNat ↔
      (FVal.decode .f32 x.toNat).cmp (.decode .f32 y.toNat) = some (-1) ∨ (x = 0x80000000 ∧ y = 0))) ∧
  (∀ x : BitVec 32, IsNaN32 x → fkeyOf x = 0xFFFFFFFF) ∧
  (∀ x : BitVec 32, ¬ IsNaN32 x → (fkeyOf x).toNat < 0xFFFFFFFF) ∧
  fkeyOf 0 = 0x80000000 ∧ fkeyOf 0x80000000 = 0x7FFFFFFF ∧ fkeyOf 0x3F800000 = 0xBF800000 ∧ fkeyOf 0xBF800000 = 0x407FFFFF ∧
  fkeyOf 0x7F800000 = 0xFF800000 ∧ fkeyOf 0xFF800000 = 0x007FFFFF

/-- R33 to R36: what a rounding gives where it does not overflow, for FP32, of the exact value (-1)^neg num/den. The result is
finite with the sign of the value and less than one unit in its last place away; NX is set exactly when it differs from the
value; to nearest it is at most half a unit away; toward zero it is not larger in magnitude, and rdn and rup do not pass the
value upwards and downwards. -/
def Obligations.RoundingIsCorrect : Prop :=
  ∀ (rm : BitVec 3) (neg : Bool) (num den : Nat), rm.toNat < 4 → 0 < den →
    let r := roundRat .f32 (.of rm.toNat) false false neg num den
    r.2 &&& fOF = 0 → ∃ m e, FVal.decode .f32 r.1 = .fin neg m e ∧
      let (p, q) := dyadic m e
      let u := (dyadic 1 e).1
      let err := ((p * den : Int) - (num * q : Int)).natAbs
      err < u * den ∧ (r.2 &&& fNX = 0 ↔ p * den = num * q) ∧
      (rm = 0 → 2 * err ≤ u * den) ∧
      (rm = 1 ∨ (rm = 2 ∧ neg = false) ∨ (rm = 3 ∧ neg = true) → p * den ≤ num * q) ∧
      ((rm = 2 ∧ neg = true) ∨ (rm = 3 ∧ neg = false) → num * q ≤ p * den)

/-- R145, R27: the special values. A NaN operand gives the canonical NaN and no flag; infinity minus infinity, zero times
infinity, 0/0, infinity over infinity and the root of a value below zero give it and set NV; a finite non-zero over zero gives
a signed infinity and sets DZ; the root of -0 is -0. -/
def Obligations.FloatSpecialValues : Prop :=
  ∀ (s : State) (d a b : BitVec 5) (rm : BitVec 3), s.Ready [] [a.toNat, b.toNat] [] [d.toNat] →
    let gives (i : Instr) (v : Word) (fl : Flags) : Prop :=
      ∃ t, exec i s = .next t ∧ (t.core s.cur).rdF d.toNat = v ∧ (t.core s.cur).fflags = s.me.fflags ||| fl
    (s.fp32 a = .nan ∨ s.fp32 b = .nan → gives (.fadd d a b rm) 0x7FC00000 0 ∧ gives (.fsub d a b rm) 0x7FC00000 0 ∧
      gives (.fmul d a b rm) 0x7FC00000 0 ∧ gives (.fdiv d a b rm) 0x7FC00000 0) ∧
    (∀ m n, s.fp32 a = .inf m → s.fp32 b = .inf n →
      (m ≠ n → gives (.fadd d a b rm) 0x7FC00000 fNV) ∧ (m = n → gives (.fsub d a b rm) 0x7FC00000 fNV) ∧
      gives (.fdiv d a b rm) 0x7FC00000 fNV) ∧
    (∀ m n e, (s.fp32 a = .inf m ∧ s.fp32 b = .fin n 0 e) ∨ (s.fp32 a = .fin n 0 e ∧ s.fp32 b = .inf m) →
      gives (.fmul d a b rm) 0x7FC00000 fNV) ∧
    (∀ m n p e e', s.fp32 a = .fin m p e → s.fp32 b = .fin n 0 e' →
      (p = 0 → gives (.fdiv d a b rm) 0x7FC00000 fNV) ∧
      (p ≠ 0 → gives (.fdiv d a b rm) (if m = n then 0x7F800000 else 0xFF800000) fDZ)) ∧
    (s.fp32 a = .inf true ∨ (∃ p e, p ≠ 0 ∧ s.fp32 a = .fin true p e) → gives (.fsqrt d a rm) 0x7FC00000 fNV) ∧
    ((s.me.rdF a.toNat).truncate 32 = (0x80000000 : BitVec 32) → gives (.fsqrt d a rm) 0x80000000 0)

/-! ## Loads, stores and atomics -/

namespace Sys2Proof

/-- The registers a result goes to, as the lists that an instruction waits for. -/
def destS : Dest → List Nat
  | .s r => [r]
  | _ => []
def destF : Dest → List Nat
  | .f r => [r]
  | _ => []

/-- An access of class `cls` issued: the core's pc is past the instruction, the access is its youngest outstanding one, its
class counts one more, its result register is pending; nothing else of the core differs, nor anything outside it but the
translation that the issue cached. -/
structure Issued (s t : State) (cls : Nat) (op : MemOp) : Prop where
  frame : t = { s with cores := t.cores, tlbs := t.tlbs }
  others : ∀ c, c ≠ s.cur → t.core c = s.core c
  core : t.core s.cur = { s.me with
    pc := s.me.pc + 4, issued := s.me.issued + 1, stall := none, req := none, ops := s.me.ops ++ [op],
    nextOp := s.me.nextOp + 1, ocnt := (t.core s.cur).ocnt, pendS := (destS op.dest).filter (· ≠ 0) ++ s.me.pendS,
    pendF := destF op.dest ++ s.me.pendF }
  counts : ∀ x, (t.core s.cur).out x = s.me.out x + if x = cls then 1 else 0

/-- A load, as R262, R263 and R266 write it: its address, size, extension, result, the registers it reads, acquire. -/
structure LoadForm where
  va : Word
  size : Nat
  signed : Bool
  dest : Dest
  rs : List Nat
  acq : Bool

def loadTable (k : CoreSt) (d a b : BitVec 5) (imm : BitVec 16) : List (Instr × LoadForm) :=
  let va := k.rd a.toNat + BitVec.ofInt 64 imm.toInt
  let vx := k.rd a.toNat + k.rd b.toNat
  let f (size : Nat) (signed : Bool) : LoadForm := ⟨va, size, signed, .s d.toNat, [a.toNat], false⟩
  [(.ldS8 d a imm, f 1 true), (.ldN8 d a imm, f 1 false), (.ldS16 d a imm, f 2 true), (.ldN16 d a imm, f 2 false),
   (.ldS32 d a imm, f 4 true), (.ldN32 d a imm, f 4 false), (.ldB64 d a imm, f 8 false),
   (.fld d a imm, ⟨va, 4, false, .f d.toNat, [a.toNat], false⟩),
   (.ldAcqB32 d a b, ⟨vx, 4, false, .s d.toNat, [a.toNat, b.toNat], true⟩),
   (.ldAcqB64 d a b, ⟨vx, 8, false, .s d.toNat, [a.toNat, b.toNat], true⟩)]

/-- A store, as R264 and R266 write it: its address, size and value, the registers it reads, release. -/
structure StoreForm where
  va : Word
  size : Nat
  value : Word
  rs : List Nat
  rf : List Nat
  rel : Bool

def storeTable (k : CoreSt) (d a b : BitVec 5) (imm : BitVec 16) : List (Instr × StoreForm) :=
  let va := k.rd a.toNat + BitVec.ofInt 64 imm.toInt
  let vx := k.rd a.toNat + k.rd b.toNat
  let f (size : Nat) : StoreForm := ⟨va, size, k.rd d.toNat, [a.toNat, d.toNat], [], false⟩
  [(.stB8 d a imm, f 1), (.stB16 d a imm, f 2), (.stB32 d a imm, f 4), (.stB64 d a imm, f 8),
   (.fst d a imm, ⟨va, 4, k.rdF d.toNat, [a.toNat], [d.toNat], false⟩),
   (.stRelB32 d a b, ⟨vx, 4, k.rd d.toNat, [a.toNat, b.toNat, d.toNat], [], true⟩),
   (.stRelB64 d a b, ⟨vx, 8, k.rd d.toNat, [a.toNat, b.toNat, d.toNat], [], true⟩)]

/-- The atomics of R268 with their operation's number in their minor, their size, and whether they read c. -/
def amoTable (d a b c : BitVec 5) (ord : BitVec 2) : List (Instr × Nat × Nat × Bool) :=
  [(.amoAddB64 d a b ord, 0, 8, false), (.amoMinSB64 d a b ord, 1, 8, false), (.amoMinNB64 d a b ord, 2, 8, false),
   (.amoMaxSB64 d a b ord, 3, 8, false), (.amoMaxNB64 d a b ord, 4, 8, false), (.amoAndB64 d a b ord, 5, 8, false),
   (.amoOrB64 d a b ord, 6, 8, false), (.amoXorB64 d a b ord, 7, 8, false), (.amoSwapB64 d a b ord, 8, 8, false),
   (.amoCasB64 d a b c ord, 9, 8, true),
   (.amoAddB32 d a b ord, 0, 4, false), (.amoMinSB32 d a b ord, 1, 4, false), (.amoMinNB32 d a b ord, 2, 4, false),
   (.amoMaxSB32 d a b ord, 3, 4, false), (.amoMaxNB32 d a b ord, 4, 4, false), (.amoAndB32 d a b ord, 5, 4, false),
   (.amoOrB32 d a b ord, 6, 4, false), (.amoXorB32 d a b ord, 7, 4, false), (.amoSwapB32 d a b ord, 8, 4, false),
   (.amoCasB32 d a b c ord, 9, 4, true)]

/-- What an atomic reads. -/
def amoReads (a b c : BitVec 5) (cas : Bool) : List Nat := [a.toNat, b.toNat] ++ if cas then [c.toNat] else []

end Sys2Proof

/-- R262 to R264, R266, R268 to R270: a load, store or atomic whose page is mapped for the access, whose address is aligned,
and which the place does not refuse, issues with the physical address, in class 0 or, for a store, 1; it has no other effect
until it returns or is performed. So does a ticket with a counter number at most 63; a larger one raises T_UNDEF_OP. Atomics
and tickets are stated of a core with no speculative task. In one a load takes the task's own buffered bytes as they are at its
issue, an ordered one's is noted, and a store goes to the buffer (R328, R329; that it is buffered by physical address and is no
outstanding store is DEDUCED, log 42). -/
def Obligations.AccessesIssue : Prop :=
  (∀ (s : State) (d a b : BitVec 5) (imm : BitVec 16) (i : Instr) (f : LoadForm) (pa : Nat),
    (i, f) ∈ loadTable s.me d a b imm → s.Ready f.rs [] (destS f.dest) (destF f.dest) → s.me.acqWait = false →
    s.me.out 0 < 1023 → s.translate s.cur s.me.ctx f.va.toNat .load = .ok pa →
    f.va.toNat % f.size = 0 → s.coreRead s.cur s.me.ctx s.me.priv pa f.size = .ok → s.poisoned pa f.size = false →
    let op : MemOp := { id := s.me.nextOp, kind := .load f.signed, va := f.va, pa, size := f.size, data := 0, cmp := 0,
                        dest := f.dest, acq := f.acq, rel := false, priv := s.me.priv, ctx := s.me.ctx, task := s.me.task }
    (s.specOf s.cur = none → ∃ t, exec i s = .next t ∧ Issued s t 0 op) ∧
    (∀ h k, s.specOf s.cur = some (h, k) → k.ordered = false →
      ∃ t fwd, exec i s = .next t ∧ Issued s t 0 { op with fwd } ∧
        ∀ x, Table.has fwd x = (decide (pa ≤ x ∧ x < pa + f.size) && Table.has k.wbuf x) ∧
          (Table.has fwd x = true → Table.get 0 fwd x = Table.get 0 k.wbuf x)) ∧
    (∀ h k, s.specOf s.cur = some (h, k) → k.ordered = true → k.holdsAll pa f.size = false → s.bufferRoom h k = true →
      ∃ t k', exec i s = .next t ∧ t.task? h = some k' ∧ pa / 64 ∈ k'.rlines ∧ k'.wbuf = k.wbuf ∧ t.mem = s.mem ∧
        (t.core s.cur).pc = s.me.pc + 4 ∧ (t.core s.cur).out 0 = s.me.out 0 + 1)) ∧
  (∀ (s : State) (d a b : BitVec 5) (imm : BitVec 16) (i : Instr) (f : StoreForm) (pa : Nat) (h : Nat × Nat) (k : Task),
    (i, f) ∈ storeTable s.me d a b imm → s.Ready f.rs f.rf [] [] → s.me.acqWait = false →
    s.me.out 1 < 1023 → s.specOf s.cur = some (h, k) → s.translate s.cur s.me.ctx f.va.toNat .store = .ok pa →
    f.va.toNat % f.size = 0 → s.coreWrite s.cur s.me.ctx s.me.priv pa f.size = .ok → s.bufferRoom h k = true →
    ∃ t k', exec i s = .next t ∧ t.task? h = some k' ∧ t.mem = s.mem ∧ (t.core s.cur).ops = s.me.ops ∧
      (t.core s.cur).pc = s.me.pc + 4 ∧ (∀ x, (t.core s.cur).out x = s.me.out x) ∧
      ∀ x, (if Table.has k'.wbuf x then some (Table.get 0 k'.wbuf x) else none) =
        if pa ≤ x ∧ x < pa + f.size then some (BitVec.ofNat 8 (f.value.toNat / 2 ^ (8 * (x - pa))))
        else if Table.has k.wbuf x then some (Table.get 0 k.wbuf x) else none) ∧
  (∀ (s : State) (d a b : BitVec 5) (imm : BitVec 16) (i : Instr) (f : StoreForm) (pa : Nat),
    (i, f) ∈ storeTable s.me d a b imm → s.Ready f.rs f.rf [] [] → s.me.acqWait = false →
    s.me.out 1 < 1023 → s.specOf s.cur = none → s.translate s.cur s.me.ctx f.va.toNat .store = .ok pa →
    f.va.toNat % f.size = 0 → s.coreWrite s.cur s.me.ctx s.me.priv pa f.size = .ok →
    ∃ t, exec i s = .next t ∧ Issued s t 1
      { id := s.me.nextOp, kind := .store, va := f.va, pa, size := f.size, data := f.value, cmp := 0, dest := .nowhere,
        acq := false, rel := f.rel, priv := s.me.priv, ctx := s.me.ctx, task := s.me.task }) ∧
  (∀ (s : State) (d a b c : BitVec 5) (ord : BitVec 2) (i : Instr) (op size : Nat) (cas : Bool) (pa : Nat),
    (i, op, size, cas) ∈ amoTable d a b c ord → s.Ready (amoReads a b c cas) [] [d.toNat] [] → s.me.acqWait = false →
    s.me.out 0 < 1023 → s.specOf s.cur = none → s.translate s.cur s.me.ctx (s.me.rd a.toNat).toNat .atomic = .ok pa →
    (s.me.rd a.toNat).toNat % size = 0 → (placeOf pa).plain = true → s.protectedBy pa = none →
    s.coreWrite s.cur s.me.ctx s.me.priv pa size true = .ok → s.poisoned pa size = false →
    ∃ t, exec i s = .next t ∧ Issued s t 0
      { id := s.me.nextOp, kind := .amo op, va := s.me.rd a.toNat, pa, size, data := s.me.rd b.toNat,
        cmp := if cas then s.me.rd c.toNat else 0, dest := .s d.toNat, acq := ord.getLsbD 0, rel := ord.getLsbD 1,
        priv := s.me.priv, ctx := s.me.ctx, task := s.me.task }) ∧
  (∀ (s : State) (d a b : BitVec 5), s.Ready [a.toNat, b.toNat] [] [d.toNat] [] → s.me.acqWait = false →
    s.specOf s.cur = none →
    (s.me.out 0 < 1023 → (s.me.rd a.toNat).toNat ≤ 63 → ∃ t, exec (.ticket d a b) s = .next t ∧ Issued s t 0
      { id := s.me.nextOp, kind := .ticket, va := s.me.rd a.toNat, pa := 0, size := 0, data := s.me.rd b.toNat, cmp := 0,
        dest := .s d.toNat, acq := false, rel := false, priv := s.me.priv, ctx := s.me.ctx, task := s.me.task }) ∧
    (63 < (s.me.rd a.toNat).toNat →
      exec (.ticket d a b) s = .next (s.trap s.cur tUndefOp (instrWords (.ticket d a b)))))

/-- R262: the checks of an address, in their order, for every load, store and atomic: an address with bits in [63:56], or one
whose page is not mapped for the access, raises T_PAGE_FAULT with the address in %tval; otherwise one that is not a multiple
of the access size raises T_ALIGN. Where the walk stops at an entry in a protected window, the owner hears of it besides (log 6). -/
def Obligations.AddressChecksTrap : Prop :=
  ∀ (s : State) (d a b c : BitVec 5) (imm : BitVec 16) (ord : BitVec 2), s.me.acqWait = false → s.specOf s.cur = none →
    let bad (i : Instr) (va : Word) (size : Nat) (need : Need) : Prop :=
      (va.toNat ≥ 2 ^ 56 ∨ (∃ r, s.translate s.cur s.me.ctx va.toNat need = .fault r) →
        exec i s = .next ((s.walkDenied s.cur s.cur s.me.ctx va.toNat).trap s.cur tPageFault va) ∧
          ((∀ x, s.leafFor s.cur s.me.ctx va.toNat ≠ .shut x) → exec i s = .next (s.trap s.cur tPageFault va))) ∧
      (∀ pa, s.translate s.cur s.me.ctx va.toNat need = .ok pa → va.toNat % size ≠ 0 → exec i s = .next (s.trap s.cur tAlign va))
    (∀ i f, (i, f) ∈ loadTable s.me d a b imm → s.Ready f.rs [] (destS f.dest) (destF f.dest) → s.me.out 0 < 1023 →
      bad i f.va f.size .load) ∧
    (∀ i f, (i, f) ∈ storeTable s.me d a b imm → s.Ready f.rs f.rf [] [] → s.me.out 1 < 1023 → bad i f.va f.size .store) ∧
    (∀ i op size cas, (i, op, size, cas) ∈ amoTable d a b c ord → s.Ready (amoReads a b c cas) [] [d.toNat] [] →
      s.me.out 0 < 1023 → bad i (s.me.rd a.toNat) size .atomic)

namespace Sys2Proof

/-- An outstanding access of core `c` ended: it left the outstanding ones, its class counts one fewer, its result register is
no longer pending and holds `v`; of the core nothing else differs. -/
structure Returned (k k' : CoreSt) (o : MemOp) (cls : Nat) (v : Word) : Prop where
  core : k' = { k with s := k'.s, f := k'.f, ocnt := k'.ocnt, pendS := k'.pendS, pendF := k'.pendF,
                       ops := k.ops.filter (·.id ≠ o.id) }
  counts : ∀ x, k'.out x = k.out x - if x = cls then 1 else 0
  valueS : ∀ r, k'.rd r = if o.dest = .s r ∧ r ≠ 0 then v else k.rd r
  valueF : ∀ r, k'.rdF r = if o.dest = .f r then v else k.rdF r
  pendS : k'.pendS = (destS o.dest).foldl List.erase k.pendS
  pendF : k'.pendF = (destF o.dest).foldl List.erase k.pendF

/-- The store `e` is the latest among `older` to the byte at `a`. -/
def LatestStore (older : List MemOp) (a : Nat) (e : MemOp) : Prop :=
  ∃ p q, older = p ++ e :: q ∧ e.isStore = true ∧ e.pa ≤ a ∧ a < e.pa + e.size ∧
    ∀ x ∈ q, x.isStore = true → ¬ (x.pa ≤ a ∧ a < x.pa + x.size)

end Sys2Proof

/-- R250, R263, R265: LOAD_RETURN of a load of memory or tile data writes its d: the bytes from its address on, least significant
first, each from the task's buffer (R328) where the load found it there when it issued (DEDUCED, log 42), else from the core's
latest earlier store to it, or else from memory; sign- or zero-extended. Memory and everything
outside the core stay as they were. -/
def Obligations.LoadReturnWritesTheValue : Prop :=
  ∀ (s : State) (c : Nat) (older newer : List MemOp) (o : MemOp) (signed : Bool) (byte : Nat → Byte),
    (s.core c).ops = older ++ o :: newer → (∀ e ∈ older, e.id ≠ o.id) → o.kind = .load signed → s.mayPerform older o = true →
    (placeOf o.pa).plain = true → o.size ∈ [1, 2, 4, 8] →
    (∀ a, Table.has o.fwd a = true → byte a = Table.get 0 o.fwd a) →
    (∀ a e, Table.has o.fwd a = false → LatestStore older a e →
      byte a = BitVec.ofNat 8 (e.data.toNat / 2 ^ (8 * (a - e.pa)))) →
    (∀ a, Table.has o.fwd a = false → (∀ e, ¬ LatestStore older a e) → byte a = s.mem.read a) →
    ∃ t v, exec (.loadReturn c o.id) s = .next t ∧ s.OnlyCore t c ∧ Returned (s.core c) (t.core c) o 0 v ∧
      ∀ j, j < 64 → v.getLsbD j =
        if j < 8 * o.size then (byte (o.pa + j / 8)).getLsbD (j % 8)
        else signed && (byte (o.pa + o.size - 1)).getLsbD 7

namespace Sys2Proof

/-- Every byte of memory outside `n` bytes from `pa` on reads as before. -/
def KeepsMemory (s t : State) (pa n : Nat) : Prop := ∀ a, ¬ (pa ≤ a ∧ a < pa + n) → t.mem.read a = s.mem.read a

/-- The access is none of an irrevocable ordered task, whose writes abort the later tasks that read their lines (R332). -/
def Unjudged (s : State) (o : MemOp) : Prop :=
  ∀ h k, o.task = some h → s.task? h = some k → (k.ordered && k.irrev) = false

/-- The value an atomic stores (R269). -/
def amoResult (w op : Nat) (old b c : BitVec w) : BitVec w :=
  match op with
  | 0 => BitVec.ofNat w (old.toNat + b.toNat)
  | 1 => if old.toInt ≤ b.toInt then old else b
  | 2 => if old.toNat ≤ b.toNat then old else b
  | 3 => if old.toInt ≤ b.toInt then b else old
  | 4 => if old.toNat ≤ b.toNat then b else old
  | 5 => old &&& b
  | 6 => old ||| b
  | 7 => old ^^^ b
  | 8 => b
  | _ => if old = c then b else old

end Sys2Proof

/-- R264, R269: an atomic returns in one step: d receives the value that memory held, zero-extended, and memory holds the
operation's result. STORE_PERFORMED writes the low bytes of the stored register at the store's address. Every other byte, and
every full-empty bit, is unchanged; the class counts one fewer. An access of an irrevocable ordered task does the same to memory,
and the tasks that it aborts change too. -/
def Obligations.AtomicsAndStoresWriteMemory : Prop :=
  (∀ (s : State) (c : Nat) (older newer : List MemOp) (o : MemOp) (op : Nat),
    (s.core c).ops = older ++ o :: newer → (∀ e ∈ older, e.id ≠ o.id) → o.kind = .amo op → s.mayPerform older o = true →
    (o.size = 8 → let old := BitVec.ofNat 64 (s.memNum o.pa 8)
      ∃ t, exec (.loadReturn c o.id) s = .next t ∧ t.memNum o.pa 8 = (amoResult 64 op old o.data o.cmp).toNat ∧
        KeepsMemory s t o.pa 8 ∧ t.fullBits = s.fullBits ∧
        (Unjudged s o → t = { s with cores := t.cores, mem := t.mem, poison := t.poison } ∧
          (∀ x, x ≠ c → t.core x = s.core x) ∧ Returned (s.core c) (t.core c) o 0 old)) ∧
    (o.size = 4 → let old := BitVec.ofNat 32 (s.memNum o.pa 4)
      ∃ t, exec (.loadReturn c o.id) s = .next t ∧
        t.memNum o.pa 4 = (amoResult 32 op old (o.data.truncate 32) (o.cmp.truncate 32)).toNat ∧ KeepsMemory s t o.pa 4 ∧
        t.fullBits = s.fullBits ∧
        (Unjudged s o → t = { s with cores := t.cores, mem := t.mem, poison := t.poison } ∧
          (∀ x, x ≠ c → t.core x = s.core x) ∧ Returned (s.core c) (t.core c) o 0 (old.zeroExtend 64)))) ∧
  (∀ (s : State) (c : Nat) (older newer : List MemOp) (o : MemOp),
    (s.core c).ops = older ++ o :: newer → (∀ e ∈ older, e.id ≠ o.id) → o.kind = .store → s.mayPerform older o = true →
    (placeOf o.pa).plain = true →
    ∃ t, exec (.storePerformed c o.id) s = .next t ∧
      (∀ j, j < o.size → t.mem.read (o.pa + j) = BitVec.ofNat 8 (o.data.toNat / 2 ^ (8 * j))) ∧ KeepsMemory s t o.pa o.size ∧
      t.fullBits = s.fullBits ∧
      (Unjudged s o → t = { s with cores := t.cores, mem := t.mem, poison := t.poison } ∧
        (∀ x, x ≠ c → t.core x = s.core x) ∧ (∀ r, (t.core c).rd r = (s.core c).rd r) ∧
        (t.core c).out 1 = (s.core c).out 1 - 1))

/-! ## Asynchronous commands -/

namespace Sys2Proof

/-- An asynchronous command as its word gives it: the registers it reads, its bytes, whether it takes the configuration
counter, what its operands must satisfy, and what it hands to its engine. -/
structure CmdForm where
  rs : List Nat
  len : Nat
  cfg : Bool
  ok : Prop
  cmd : Cmd

/-- Does a virtual address that is mapped name a tile's data words in the core's context; do the pages of a range; does it name
those or a core's registers? -/
def IntoTile (s : State) (va : Word) : Prop := ∀ p, s.placeAt s.cur s.me.ctx va = some p → p.isTileData = true
def IntoTiles (s : State) (va n : Word) : Prop := ∀ w ∈ pageHeads va.toNat n.toNat, IntoTile s (BitVec.ofNat 64 w)
def IntoWindow (s : State) (va : Word) : Bool :=
  match s.placeAt s.cur s.me.ctx va with
  | some (.tile _ _) | some (.cregs _ _) => true
  | _ => false

/-- The engine commands (R273 to R278): op, the operand checks, among them that of fe, which an unmapped destination passes
and which looks at the pages of copy's and fill's range (log 18), the class by the destination; one into a tile of a group
that exits is refused and completes with that cause (R324, log 72). -/
def engineTable (s : State) (x : Bool) (d a b c : BitVec 5) (e : EngExt) : List (Instr × CmdForm) :=
  let va := s.me.rd a.toNat
  let vb := s.me.rd b.toNat
  let vc := s.me.rd c.toNat
  let cmd (op : Nat) (cls : Nat) : Cmd :=
    { core := s.cur, ctx := s.me.ctx, op, tok := d.toNat, a := va, b := vb, c := vc,
      bar := if e.bar = 0 then none else some (s.me.rd e.bar.toNat), fe := e.fe, scope := e.scope.toNat, red := e.red.toNat,
      sfx := e.sfx.toNat, ahead := none, seq := s.me.eseq + 1, cls, issuer := s.me.task, no := s.nextCmd,
      stage := if s.intoExiting s.cur s.me.ctx op va then 2 else 0,
      cause := if s.intoExiting s.cur s.me.ctx op va then tRemoteRefused else 0 }
  let form (op : Nat) (cls : Nat) (ok : Prop) : CmdForm :=
    ⟨[a.toNat, b.toNat, c.toNat, e.bar.toNat], if x then 8 else 4, false, ok, cmd op cls⟩
  let near := if IntoWindow s va then 3 else 2
  let words := e.fe = true → va.toNat % 4 = 0 ∧ vc.toNat % 4 = 0
  let fe := e.fe = true → IntoTile s va
  let all := e.fe = true → IntoTiles s va vc
  let list := vc.toNat % 8 = 0 ∧ va.toNat % 4 = 0 ∧ vb.toNat % 4 = 0
  [(.copy x d a b c e, form 0x00 near (vc.toNat < 2 ^ 32 ∧
      (vc.toNat = 0 ∨ va.toNat + vc.toNat ≤ vb.toNat ∨ vb.toNat + vc.toNat ≤ va.toNat) ∧ words ∧ all)),
   (.gather x d a b c e, form 0x01 near (list ∧ fe)), (.scatter x d a b c e, form 0x02 near (list ∧ fe)),
   (.fill x d a b c e, form 0x03 near (vc.toNat < 2 ^ 32 ∧ words ∧ all)),
   (.copyChain x d a b c e, form 0x04 2 (b = 0 ∧ c = 0 ∧ va.toNat % 32 = 0)),
   (.collBcast x d a b c e, form 0x08 2 (vc.toNat % 64 = 0 ∧ fe)), (.collReduce x d a b c e, form 0x09 2 (vc.toNat % 64 = 0 ∧ fe)),
   (.collAllreduce x d a b c e, form 0x0A 2 (vc.toNat % 64 = 0 ∧ fe)), (.collAllgather x d a b c e, form 0x0B 2 (vc.toNat % 64 = 0 ∧ fe)),
   (.collA2a x d a b c e, form 0x0C 2 (vc.toNat % 64 = 0 ∧ fe))]

/-- The stream and translation commands (R280 to R282, R370 to R374). -/
def streamTable (s : State) (x : Bool) (d a b c : BitVec 5) (ahead : BitVec 16) : List (Instr × CmdForm) :=
  let va := s.me.rd a.toNat
  let vb := s.me.rd b.toNat
  let vc := s.me.rd c.toNat
  let cmd (op : Nat) (c : Word) (scope : Nat) (ah : Option Nat) : Cmd :=
    { core := s.cur, ctx := s.me.ctx, op, tok := d.toNat, a := va, b := vb, c, bar := none, fe := false, scope, red := 0,
      sfx := 0, ahead := ah, seq := s.me.eseq + 1, cls := 2, issuer := s.me.task, no := s.nextCmd }
  let len := if x then 8 else 4
  let lenOk := vb.toNat % 128 = 0 ∧ 128 ≤ vb.toNat ∧ vb.toNat ≤ 2 ^ 40
  let ah := if ahead = 0 then 256 else ahead.toNat
  let pages := va.toNat % 2 ^ 16 = 0 ∧ vb.toNat % 2 ^ 16 = 0
  [(.sspec x d a b c ahead, ⟨[a.toNat, b.toNat, c.toNat], len, false,
      va.toNat % 128 = 0 ∧ va.toNat < 2 ^ 56 ∧ lenOk ∧ vc.toNat < 2 ^ 16 ∧ vc.toNat / 32 % 8 ≤ 5 ∧ vc.toNat / 256 % 128 ≤ 127,
      cmd 0x20 vc 0 (some ah)⟩),
   (.sbar x d a b c, ⟨[a.toNat, b.toNat, c.toNat], len, false, va.toNat ≤ 31 ∧ vb.toNat ≤ 31 ∧ vc.toNat ≤ 4,
      cmd 0x21 vc vc.toNat none⟩),
   (.scond x d a b ahead, ⟨[a.toNat, b.toNat], len, false, va.toNat ≤ 31 ∧ lenOk, cmd 0x22 0 0 (if x then some ah else none)⟩),
   (.xhintMig d a b c, ⟨[a.toNat, b.toNat, c.toNat], 4, false,
      s.me.priv = true ∧ pages ∧ 2 ^ 16 ≤ vb.toNat ∧ vb.toNat ≤ 2 ^ 28 ∧ vc.toNat % 8 = 0, cmd 0x31 vc 0 none⟩),
   (.xhintPref d a b, ⟨[a.toNat, b.toNat], 4, false, pages ∧ 2 ^ 16 ≤ vb.toNat ∧ vb.toNat ≤ 2 ^ 30, cmd 0x32 0 0 none⟩),
   (.xinv d a b c, ⟨[a.toNat, b.toNat, c.toNat], 4, false, s.me.priv = true ∧ pages ∧ vc.toNat ≤ 127, cmd 0x33 vc 0 none⟩)]

/-- The asynchronous CFG commands (R218 to R220); `used` is above every bit of c that the form uses. -/
def cfgTable (s : State) (d a b c : BitVec 5) : List (Instr × CmdForm) :=
  let vb := s.me.rd b.toNat
  let vc := s.me.rd c.toNat
  let form (op used : Nat) (a : Option (BitVec 5)) : CmdForm :=
    ⟨[b.toNat, c.toNat] ++ (a.map (·.toNat)).toList, 4, true,
     vc.toNat < used ∧ descOk vb = true ∧ s.descMine s.cur vb = true,
     { core := s.cur, ctx := s.me.ctx, op := 0x40 + op, tok := d.toNat,
       a := match a with | some r => s.me.rd r.toNat | none => 0
       b := vb, c := vc, bar := none, fe := false, scope := 0, red := 0, sfx := 0, ahead := none, seq := s.me.cseq + 1,
       cls := 2, bound := s.boundGroup s.cur, issuer := s.me.task, no := s.nextCmd }⟩
  [(.cfgLoad d a b c, form 0 4 (some a)), (.cfgArm d a b c, form 1 4 (some a)), (.cfgSwap d b c, form 2 4 none),
   (.cfgDrain d b c, form 3 16 none), (.cfgSave d a b c, form 4 4 (some a)), (.cfgRest d a b c, form 5 4 (some a))]

end Sys2Proof

/-- R219, R243, R244, R273: a command whose operands pass their checks issues and returns at once: its sequence counter adds 1
and the command carries it, its token register counts one more and its class too, and it is handed on with the values its
registers held. No register's value changes and nothing outside the core and the list of commands does. A command that would
take its token's count to 16 or its class counter past 1,023 stalls, and nothing else happens. What fe asks at issue is log 18's
reading, and a command into an exiting group's tile, which completes at once with T_REMOTE_REFUSED, is R324's (log 72). -/
def Obligations.CommandsIssueOrStall : Prop :=
  (∀ (s : State) (x : Bool) (d a b c : BitVec 5) (e : EngExt) (ahead : BitVec 16) (i : Instr) (f : CmdForm),
    (i, f) ∈ engineTable s x d a b c e ++ streamTable s x d a b c ahead ++ cfgTable s d a b c → f.ok →
    s.Ready f.rs [] [d.toNat] [] → s.me.acqWait = false → s.specOf s.cur = none → (d = 0 ∨ s.me.count d.toNat < 15) →
    s.me.out f.cmd.cls < 1023 →
    ∃ t, exec i s = .next t ∧
      t = { s with cores := t.cores, cmds := Table.put s.cmds s.nextCmd f.cmd, nextCmd := s.nextCmd + 1 } ∧
      (∀ k, k ≠ s.cur → t.core k = s.core k) ∧
      t.core s.cur = { s.me with
        pc := s.me.pc + BitVec.ofNat 64 f.len, issued := s.me.issued + 1, stall := none, req := none,
        eseq := if f.cfg then s.me.eseq else f.cmd.seq, cseq := if f.cfg then f.cmd.seq else s.me.cseq,
        board := (t.core s.cur).board, ocnt := (t.core s.cur).ocnt } ∧
      (∀ r, (t.core s.cur).count r = s.me.count r + if r = d.toNat ∧ d ≠ 0 then 1 else 0) ∧
      (∀ k, (t.core s.cur).out k = s.me.out k + if k = f.cmd.cls then 1 else 0)) ∧
  (∀ (s : State) (x : Bool) (d a b c : BitVec 5) (e : EngExt) (ahead : BitVec 16) (i : Instr) (f : CmdForm),
    (i, f) ∈ engineTable s x d a b c e ++ streamTable s x d a b c ahead ++ cfgTable s d a b c → f.ok →
    s.Ready f.rs [] [d.toNat] [] → s.specOf s.cur = none →
    ((d ≠ 0 ∧ 15 ≤ s.me.count d.toNat) ∨ 1023 ≤ s.me.out f.cmd.cls) →
    ∃ w, exec i s = .next (s.setCore s.cur { s.me with stall := some w }))

/-- R60, R220, R273, R274, R280 to R282, R370: a register value outside its limits traps precisely: T_ENGINE_ARG for engine, stream
and translation commands; for a CFG command T_PRIV where a quad is not the issuer's, then T_CFG_FIELD for a bad c or descriptor.
That a copy.chain word with a b or c field traps at issue, and what fe asks, is log 18's reading. -/
def Obligations.CommandChecksTrap : Prop :=
  ∀ (s : State) (x : Bool) (d a b c : BitVec 5) (e : EngExt) (ahead : BitVec 16), s.specOf s.cur = none →
    (∀ i f, (i, f) ∈ engineTable s x d a b c e → s.Ready f.rs [] [d.toNat] [] → ¬ f.ok →
      exec i s = .next (s.trap s.cur tEngineArg 0)) ∧
    (∀ i f, (i, f) ∈ streamTable s x d a b c ahead → s.Ready f.rs [] [d.toNat] [] → s.me.priv = true → ¬ f.ok →
      exec i s = .next (s.trap s.cur tEngineArg 0)) ∧
    (s.me.priv = false → exec (.xhintMig d a b c) s = .next (s.trap s.cur tPriv 0) ∧
      exec (.xinv d a b c) s = .next (s.trap s.cur tPriv 0)) ∧
    (∀ i f, (i, f) ∈ cfgTable s d a b c → s.Ready f.rs [] [d.toNat] [] →
      ((s.descMine s.cur f.cmd.b = false → exec i s = .next (s.trap s.cur tPriv 0)) ∧
       (s.descMine s.cur f.cmd.b = true → ¬ f.ok → exec i s = .next (s.trap s.cur tCfgField 0))))

/-- R60, R235: cfg.query answers at once. A region that is not the handler's raises T_PRIV, then bad operands T_CFG_FIELD; otherwise
d receives the item of the slot, and only item 5 changes anything outside the core: it clears the slot's flags words and discard
counts. The region is the one at the origin of the descriptor's relative die 0 (log 57), and the size of item 4 is that of the
model's save (log 12). -/
def Obligations.ConfigQueryAnswers : Prop :=
  ∀ (s : State) (d b c : BitVec 5), s.Ready [b.toNat, c.toNat] [] [d.toNat] [] →
    let vb := s.me.rd b.toNat
    let vc := s.me.rd c.toNat
    let item := fld vc 7 4
    let n := fld vc 1 0
    let g := s.region ((s.regionOf (descOrg vb 0)).getD 0)
    let u := g.slot n
    (s.descMine s.cur vb = false → exec (.cfgQuery d b c) s = .next (s.trap s.cur tPriv 0)) ∧
    (s.descMine s.cur vb = true → fld vc 63 8 ≠ 0 ∨ fld vc 3 2 ≠ 0 ∨ descOk vb = false ∨ 7 ≤ item →
      exec (.cfgQuery d b c) s = .next (s.trap s.cur tCfgField 0)) ∧
    (fld vc 63 8 = 0 → fld vc 3 2 = 0 → descOk vb = true → item < 7 → s.descMine s.cur vb = true →
      ∃ t v, exec (.cfgQuery d b c) s = .next t ∧ s.WritesS t s.cur d.toNat v ∧ s.KeepsF t s.cur ∧
        (t.core s.cur).pc = s.me.pc + 4 ∧ (item ≠ 5 → s.InPlace t 4) ∧
        (item = 0 → fld v 2 0 = u.phase.number ∧ (bit v 3 = true ↔ g.cur = some n) ∧ fld v 7 4 = 0 ∧
          fld v 63 8 = (if u.phase = .empty then 0 else u.image) % 2 ^ 56) ∧
        (item = 1 → (bit v 32 = true ↔ u.limited = true) ∧ fld v 31 0 = u.tc.toNat ∧ fld v 63 33 = 0) ∧
        (item = 2 ∨ item = 5 → fld v 63 6 = 0 ∧
          ∀ j, j < 6 → (bit v j = true ↔ ∃ p ∈ g.sites, siteKind p = .ce ∧ ((s.site p).slot n).flags.getLsbD j = true)) ∧
        (item = 3 → v = BitVec.ofNat 64 ((g.sites.map fun p => ((s.site p).slot n).discard.toNat).sum)) ∧
        (item = 4 → v = BitVec.ofNat 64 g.saveBytes) ∧
        (item = 6 → v = BitVec.ofNat 64 ((g.sites.map fun p => ((s.site p).buffers.filter (·.any g.leftOver)).length).sum)) ∧
        (item = 5 → t = { s with cores := t.cores, sites := t.sites } ∧
          (∀ p ∈ g.sites, ((t.site p).slot n).flags = 0 ∧ ((t.site p).slot n).discard = 0) ∧
          (∀ p m, m ≠ n → (t.site p).slot m = (s.site p).slot m) ∧ ∀ p, p ∉ g.sites → t.site p = s.site p))

/-! ## Traps, system registers, halt -/

/-- R284: what any precise trap does. With no frame held it ends the handler, fills the trap frame, keeps the message and the
budget count, and posts a fault message of kind 0x03 to ch0, whose other messages stay; registers, memory, contexts, sites
and commands stay. With a frame held it raises T_DOUBLE instead: the frame is kept and the core starts no further handler. -/
def Obligations.TrapsFillTheFrameOrStopTheCore : Prop :=
  (∀ (s : State) (c cause : Nat) (val : Word), (s.core c).tvalid = false → cause < 128 →
    let t := s.trap c cause val
    let k := s.core c
    let k' := t.core c
    s.TrapFrame t c ∧ k'.tpc = k.pc ∧ k'.tcause.toNat = cause ∧ k'.tval = val ∧ k'.tvalid = true ∧ k'.tchan = k.chan ∧
      k'.tctx = k.ctx ∧ k'.tm = k.m ∧ k'.tissued = k.issued ∧ k'.running = false ∧ k'.dead = k.dead ∧
      k'.s = k.s ∧ k'.f = k.f ∧ k'.fflags = k.fflags ∧ k'.ops = k.ops ∧ k'.ocnt = k.ocnt ∧ k'.board = k.board ∧
      k'.parks = k.parks ∧ (∀ n, n ≠ 0 → k'.channel n = k.channel n) ∧
      ∃ m, (k'.channel 0).queue = (k.channel 0).queue ++ [m] ∧ m.trap = true ∧ fld (m.words.getD 0 0) 63 56 = 3 ∧
        fld (m.words.getD 0 0) 52 46 = cause ∧ m.words.getD 4 0 = val) ∧
  (∀ (s : State) (c cause : Nat) (val : Word), (s.core c).tvalid = true →
    let k := s.core c
    let k' := (s.trap c cause val).core c
    s.TrapFrame (s.trap c cause val) c ∧ k'.dead = true ∧ k'.running = false ∧ k'.tpc = k.tpc ∧ k'.tcause = k.tcause ∧
      k'.tval = k.tval ∧ k'.tvalid = true ∧ k'.tchan = k.tchan ∧ k'.tctx = k.tctx ∧ k'.tm = k.tm ∧ k'.tissued = k.tissued ∧
      k'.s = k.s ∧ k'.f = k.f ∧ ∀ n, k'.channel n = k.channel n)

/-- R283, R288, R443: trap and brk raise their causes; brk of a context whose grant sets OBSG.brk halts the core at the next
word; halt ends the handler and halts, and outside a privileged handler raises T_PRIV; nop has no effect. -/
def Obligations.TrapBreakHaltAndNop : Prop :=
  (∀ (s : State) (code : BitVec 10), exec (.trap code) s = .next (s.trap s.cur tTrap (BitVec.ofNat 64 code.toNat))) ∧
  (∀ s : State, bit (s.reg (iodN + 0x20800 + 8 * s.me.ctx)) 61 = false → exec .brk s = .next (s.trap s.cur tBrk 0)) ∧
  (∀ s : State, bit (s.reg (iodN + 0x20800 + 8 * s.me.ctx)) 61 = true → ∃ t, exec .brk s = .next t ∧
    (t.core s.cur).halted = true ∧ (t.core s.cur).running = s.me.running ∧ (t.core s.cur).pc = s.me.pc + 4 ∧
    s.TrapFrame t s.cur ∧ s.KeepsS t s.cur) ∧
  (∀ s : State, s.me.priv = true → ∃ t, exec .halt s = .next t ∧ s.OnlyCore t s.cur ∧ (t.core s.cur).halted = true ∧
    (t.core s.cur).running = false ∧ s.KeepsS t s.cur ∧ s.KeepsF t s.cur) ∧
  (∀ s : State, s.me.priv = false → exec .halt s = .next (s.trap s.cur tPriv 0)) ∧
  (∀ s : State, ∃ t, exec .nop s = .next t ∧ s.InPlace t 4 ∧ s.KeepsS t s.cur ∧ s.KeepsF t s.cur ∧
    (t.core s.cur).fflags = s.me.fflags)

/-- R286: tret. Its three checks trap in order, the frame kept; otherwise the running handler ends, %tstat.valid is cleared, and
the trapped handler resumes at %tpc with its message, budget count and its channel's privilege: at once where its context is
resident, else after a core switch. -/
def Obligations.TrapReturn : Prop :=
  ∀ s : State,
    (s.me.priv = false → exec .tret s = .next (s.trap s.cur tPriv 0)) ∧
    (s.me.priv = true → s.me.tvalid = false → exec .tret s = .next (s.trap s.cur tTretState 0)) ∧
    (s.me.priv = true → s.me.tvalid = true → (s.ctx s.me.tctx).phase ≠ .opened →
      exec .tret s = .next (s.trap s.cur tCtxState 0)) ∧
    (s.me.priv = true → s.me.tvalid = true → (s.ctx s.me.tctx).phase = .opened → s.me.tctx = s.me.ctx →
      ∃ t, exec .tret s = .next t ∧ (∀ a, t.mem.read a = s.mem.read a) ∧ (∀ j, j ≠ s.cur → t.core j = s.core j) ∧
        let k := t.core s.cur
        k.running = true ∧ k.tvalid = false ∧ k.pc = s.me.tpc ∧ k.m = s.me.tm ∧ k.issued = s.me.tissued ∧
        k.chan = s.me.tchan ∧ k.priv = (s.me.channel s.me.tchan).priv ∧ k.ctx = s.me.ctx ∧ k.arrival = s.me.arrival ∧
        s.KeepsS t s.cur ∧ s.KeepsF t s.cur ∧ k.fflags = s.me.fflags) ∧
    (s.me.priv = true → s.me.tvalid = true → (s.ctx s.me.tctx).phase = .opened → s.me.tctx ≠ s.me.ctx →
      ∃ t st, exec .tret s = .next t ∧ s.OnlyCore t s.cur ∧ (t.core s.cur).running = false ∧ (t.core s.cur).tvalid = false ∧
        (t.core s.cur).next = some st ∧ st.priv = (s.me.channel s.me.tchan).priv ∧ st.ctx = s.me.tctx ∧ st.pc = s.me.tpc ∧ st.m = s.me.tm ∧ st.chan = s.me.tchan ∧
        st.issued = s.me.tissued ∧ s.KeepsS t s.cur)

namespace Sys2Proof

/-- The values that R287 gives the system registers but %cycle, in terms of the state of the current core. -/
def sysTable (s : State) : List (Nat × Word) :=
  let k := s.me
  let x := s.ctx k.ctx
  [(0x00, devid s.cur), (0x01, BitVec.ofNat 64 ((if k.priv then 64 else 0) + k.ctx)), (0x02, BitVec.ofNat 64 k.fflags.toNat),
   (0x04, BitVec.ofNat 64 k.cseq.toNat), (0x05, BitVec.ofNat 64 k.eseq.toNat),
   (0x06, BitVec.ofNat 64 (k.out 0 % 1024 + 2 ^ 10 * (k.out 1 % 1024) + 2 ^ 20 * (k.out 2 % 1024) + 2 ^ 30 * (k.out 3 % 1024))),
   (0x08, k.tpc), (0x09, BitVec.ofNat 64 k.tcause.toNat), (0x0A, k.tval),
   (0x0B, BitVec.ofNat 64 ((if k.tvalid then 0x10000 else 0) + 256 * k.tchan + k.tctx)),
   (0x0C, BitVec.ofNat 64 (if k.stallmax.toNat < 1024 then 1024 else k.stallmax.toNat)),
   (0x10, x.ccrc), (0x11, x.csig), (0x12, x.csave), (0x13, x.ptroot), (0x14, if k.fltErr then 0x0001000000000000 else 0),
   (0x15, BitVec.ofNat 64 (2 ^ 32 * k.fltDrop.toNat + 2 ^ 16 * (s.cluster s.cur).queue.length)),
   (0x16, BitVec.ofNat 64 (2 ^ 48 * k.eccThr.toNat + 2 ^ 32 * k.eccUnc.toNat + k.eccCorr.toNat)),
   (0x140, BitVec.ofNat 64 x.imgpol.toNat), (0x150, BitVec.ofNat 64 x.dbgevt.toNat)] ++
  ((List.range 16).map fun n => (0x40 + n, (k.channel n).entry)) ++
  ((List.range 16).map fun n => let h := k.channel n
    (0x50 + n, BitVec.ofNat 64 ((if h.en then 2 ^ 63 else 0) + (if h.priv then 2 ^ 62 else 0) + 2 ^ 56 * h.ctx +
      2 ^ 52 * (if n = 0 then 0 else h.prio) + 2 ^ 32 * h.queue.length + h.budget))) ++
  ((List.range 64).map fun y => let u := s.ctx y
    (0x60 + y, BitVec.ofNat 64 ((if u.err then 128 else 0) + 4 * u.phase.number))) ++
  ((List.range 64).map fun n => let u : Tick := Table.get {} (s.die (dieOf s.cur)).ticks n
    (0x100 + n, BitVec.ofNat 64 ((if u.bc then 2 ^ 63 else 0) + 2 ^ 32 * u.word.toNat + u.value.toNat)))

end Sys2Proof

/-- R287: sysrd. A number that no chapter assigns raises T_UNDEF_OP; one that the privilege may not read raises T_PRIV;
otherwise d receives the register's value, %cycle excepted, whose value nothing states. That any handler may read %dbgevt
(0x150) is DEDUCED (log 56). -/
def Obligations.SystemRegisterReads : Prop :=
  ∀ (s : State) (d : BitVec 5) (reg : BitVec 10), s.Ready [] [] [d.toNat] [] →
    (sysAssigned reg.toNat = false → exec (.sysrd d reg) s = .next (s.undef (.sysrd d reg))) ∧
    (sysAssigned reg.toNat = true → 7 ≤ reg.toNat → reg.toNat ≠ 0x0C → reg.toNat ≠ 0x150 → s.me.priv = false →
      exec (.sysrd d reg) s = .next (s.trap s.cur tPriv 0)) ∧
    (sysAssigned reg.toNat = true → reg.toNat ≠ 3 → (s.me.priv = true ∨ reg.toNat ≤ 6 ∨ reg.toNat = 0x0C ∨ reg.toNat = 0x150) →
      ∃ t v, exec (.sysrd d reg) s = .next t ∧ s.InPlace t 4 ∧ s.WritesS t s.cur d.toNat v ∧ s.KeepsF t s.cur ∧
        (t.core s.cur).fflags = s.me.fflags ∧ (reg.toNat, v) ∈ sysTable s) ∧
    (reg.toNat = 3 → ∃ t v, exec (.sysrd d reg) s = .next t ∧ s.WritesS t s.cur d.toNat v ∧ s.KeepsF t s.cur ∧
      (t.core s.cur).pc = s.me.pc + 4 ∧ ∀ a, t.mem.read a = s.mem.read a)

/-- R36, R237, R240, R271, R285, R287: syswr. Numbers not assigned raise T_UNDEF_OP; registers whose fields are all RO, those
that the privilege may not write, and %tpc with no frame held raise T_PRIV; otherwise the register's RW bits take a's, and
%fflags and %tstat.valid are cleared by ones. What is written to a channel's en and ctx acts from the next handler start. A
write of %ctxctl or %fltres has the effect of its event or act. That any handler may write %dbgevt (0x150) is DEDUCED (log
56). -/
def Obligations.SystemRegisterWrites : Prop :=
  ∀ (s : State) (a : BitVec 5) (reg : BitVec 10), s.Ready [a.toNat] [] [] [] →
    let v := s.me.rd a.toNat
    let n := reg.toNat
    (sysAssigned n = false → exec (.syswr a reg) s = .next (s.undef (.syswr a reg))) ∧
    (n ∈ [0, 1, 3, 4, 5, 6, 9, 10] → exec (.syswr a reg) s = .next (s.trap s.cur tPriv 0)) ∧
    (sysAssigned n = true → n ≠ 2 → n ≠ 0x150 → s.me.priv = false → exec (.syswr a reg) s = .next (s.trap s.cur tPriv 0)) ∧
    (n = 8 → s.me.tvalid = false → exec (.syswr a reg) s = .next (s.trap s.cur tPriv 0)) ∧
    (n = 2 → ∃ t, exec (.syswr a reg) s = .next t ∧ s.InPlace t 4 ∧ s.KeepsS t s.cur ∧ s.KeepsF t s.cur ∧
      ∀ j, j < 6 → (t.core s.cur).fflags.getLsbD j = (s.me.fflags.getLsbD j && !v.getLsbD j)) ∧
    (n = 0x150 → ∃ t, exec (.syswr a reg) s = .next t ∧ (t.core s.cur).pc = s.me.pc + 4 ∧ s.KeepsS t s.cur ∧
      (t.ctx s.me.ctx).dbgevt = BitVec.ofNat 11 v.toNat) ∧
    (s.me.priv = true → sysAssigned n = true → n ∉ [0, 1, 3, 4, 5, 6, 9, 10] → (n = 8 → s.me.tvalid = true) →
      (n < 0x60 ∨ 0x9F < n) → n ≠ 0x14 →
      ∃ t, exec (.syswr a reg) s = .next t ∧ (t.core s.cur).pc = s.me.pc + 4 ∧ s.KeepsS t s.cur ∧ s.KeepsF t s.cur ∧
        (∀ b, t.mem.read b = s.mem.read b) ∧
        (n = 8 → (t.core s.cur).tpc = v) ∧
        (n = 0x0B → (t.core s.cur).tvalid = (s.me.tvalid && !v.getLsbD 16)) ∧
        (n = 0x0C → (t.core s.cur).stallmax.toNat = v.toNat % 2 ^ 32) ∧
        (n = 0x10 → (t.ctx s.me.ctx).ccrc = v) ∧ (n = 0x11 → (t.ctx s.me.ctx).csig = v) ∧
        (n = 0x12 → (t.ctx s.me.ctx).csave = v) ∧
        (n = 0x13 → ∀ j, j < 64 → (t.ctx s.me.ctx).ptroot.getLsbD j = (v.getLsbD j && decide (j = 0 ∨ 15 ≤ j ∧ j ≤ 51))) ∧
        (∀ ch, ch < 16 → n = 0x40 + ch → ∀ j, j < 64 →
          ((t.core s.cur).channel ch).entry.getLsbD j = (v.getLsbD j && decide (2 ≤ j ∧ j ≤ 55))) ∧
        (∀ ch, ch < 16 → n = 0x50 + ch → ((t.core s.cur).channel ch).en = v.getLsbD 63 ∧
          ((t.core s.cur).channel ch).priv = (s.me.channel ch).priv ∧ ((t.core s.cur).channel ch).ctx = fld v 61 56 ∧
          (ch ≠ 0 → ((t.core s.cur).channel ch).prio = fld v 55 52) ∧ ((t.core s.cur).channel ch).budget = fld v 31 0 ∧
          ((t.core s.cur).channel ch).actEn = (s.me.channel ch).actEn ∧
          ((t.core s.cur).channel ch).actCtx = (s.me.channel ch).actCtx ∧
          ((t.core s.cur).channel ch).queue = (s.me.channel ch).queue) ∧
        (∀ k, k < 64 → n = 0x100 + k → Table.get {} (t.die (dieOf s.cur)).ticks k =
          { bc := v.getLsbD 63, word := BitVec.ofNat 17 (fld v 48 32), value := BitVec.ofNat 32 (fld v 31 0) }) ∧
        (n = 0x15 → (t.core s.cur).fltDrop = BitVec.ofNat 32 (fld v 63 32)) ∧
        (n = 0x16 → (t.core s.cur).eccThr = BitVec.ofNat 16 (fld v 63 48) ∧ (t.core s.cur).eccUnc = s.me.eccUnc ∧
          (t.core s.cur).eccCorr = BitVec.ofNat 32 (fld v 31 0)) ∧
        (n = 0x140 → (t.ctx s.me.ctx).imgpol = BitVec.ofNat 9 v.toNat)) ∧
    (s.me.priv = true → let u := s.setCore s.cur (s.me.issue 4)
      (∀ y, y < 64 → n = 0x60 + y → exec (.syswr a reg) s = .next (u.ctxWrite y v)) ∧
      (n = 0x14 → exec (.syswr a reg) s = .next (u.fltres s.cur v)))

/-! ## The queue, tasks and search -/

namespace Sys2Proof

/-- A register instruction of the current core that also changes other parts of the state: the core's pc is past its word, `d`
reads `v`, and no other register or handler state of the core differs. -/
structure Done (s t : State) (d : Nat) (v : Word) : Prop where
  writes : s.WritesS t s.cur d v
  floats : s.KeepsF t s.cur
  pc : (t.core s.cur).pc = s.me.pc + 4
  issued : (t.core s.cur).issued = s.me.issued + 1
  stall : (t.core s.cur).stall = none
  ctx : (t.core s.cur).ctx = s.me.ctx
  tpc : (t.core s.cur).tpc = s.me.tpc
  mem : ∀ a, t.mem.read a = s.mem.read a

/-- The same for one that writes no register. -/
def Runs (s t : State) : Prop := Done s t 0 0

end Sys2Proof

/-- R241, R302, R306: launch appends the descriptor, with the resident context, to its die's store of 512 entries and writes
ACCEPTED, or writes FULL and changes nothing; a misaligned or oversized address raises T_ALIGN. msg.send of n words from
register c on: the first that applies of REFUSED, CLOSED and FULL is written to d and nothing is sent; otherwise d takes
QUEUED and the message, under kind 0x01 and the sender's number, is the channel's last. That a gated cluster answers another's
msg.send REFUSED is DEDUCED (log 57). -/
def Obligations.LaunchesAndMessages : Prop :=
  (∀ (s : State) (d a : BitVec 5), s.Ready [a.toNat] [] [d.toNat] [] → s.specOf s.cur = none →
    let av := s.me.rd a.toNat
    let n := dieOf s.cur
    (av.toNat % 256 ≠ 0 ∨ 2 ^ 56 ≤ av.toNat → exec (.launch d a) s = .next (s.trap s.cur tAlign av)) ∧
    (av.toNat % 256 = 0 → av.toNat < 2 ^ 56 → (s.die n).launches.length < 512 →
      ∃ t, exec (.launch d a) s = .next t ∧ Done s t d.toNat 0 ∧ t = { s with cores := t.cores, dies := t.dies } ∧
        (t.die n).launches = (s.die n).launches ++ [(av, s.me.ctx)] ∧ (∀ m, m ≠ n → t.die m = s.die m)) ∧
    (av.toNat % 256 = 0 → av.toNat < 2 ^ 56 → 512 ≤ (s.die n).launches.length →
      ∃ t, exec (.launch d a) s = .next t ∧ s.InPlace t 4 ∧ s.WritesS t s.cur d.toNat 0x4000000000000000)) ∧
  (∀ (s : State) (d a c : BitVec 5), s.Ready [a.toNat] [] [d.toNat] [] → s.specOf s.cur = none →
    let av := s.me.rd a.toNat
    let n := av.toNat / 2 ^ 12 % 8 + 1
    let cl := av.toNat % 128
    let ch := av.toNat / 2 ^ 8 % 16
    let h := (s.core cl).channel ch
    let closed := (s.ctx h.actCtx).phase = .quiescing ∨ (s.ctx h.actCtx).phase = .quiesced
    let refused := h.actEn = false ∨ (h.actCtx ≠ s.me.ctx ∧ s.me.priv = false) ∨ (cl ≠ s.cur ∧ (s.cluster cl).gate ≠ .on)
    av.toNat < 2 ^ 15 → av.toNat / 128 % 2 = 0 → (c ≠ 0 ∨ n = 1) → c.toNat + n ≤ 32 →
    s.me.waits ((List.range n).map (c.toNat + ·)) [] [] [] = none →
    (refused → ∃ t, exec (.msgSend d a c) s = .next t ∧ s.InPlace t 4 ∧ s.WritesS t s.cur d.toNat 2) ∧
    (¬ refused → closed → ∃ t, exec (.msgSend d a c) s = .next t ∧ s.InPlace t 4 ∧ s.WritesS t s.cur d.toNat 3) ∧
    (¬ refused → ¬ closed → h.room = false →
      ∃ t, exec (.msgSend d a c) s = .next t ∧ s.InPlace t 4 ∧ s.WritesS t s.cur d.toNat 1) ∧
    (¬ refused → ¬ closed → h.room = true →
      ∃ t m, exec (.msgSend d a c) s = .next t ∧ Done s t d.toNat 0 ∧ t = { s with cores := t.cores } ∧
        ((t.core cl).channel ch).queue = h.queue ++ [m] ∧ m.words.length = n ∧ m.trap = false ∧
        m.words.getD 0 0 = BitVec.ofNat 64 (2 ^ 56 + s.cur * 2 ^ 48 + (s.me.rd c.toNat).toNat % 2 ^ 48) ∧
        (∀ i, 0 < i → i < n → m.words.getD i 0 = s.me.rd (c.toNat + i)) ∧
        (∀ j, j ≠ ch → (t.core cl).channel j = (s.core cl).channel j)))

/-- R300, R303 to R305, R313, R330: trig marks the group bound to the running handler's channel as triggered, which releases its
task once every group is. exit ends the handler: how = 0 does nothing else; how = 1 completes the control or search task of
its handle (a speculative one with status 0 is DONE and waits to commit), a non-zero status failing it with that cause, and
changes nothing of a task that runs no more (R7: no row of R330 moves it); how = 2 takes the bound group to EXITING and
triggers it; what names no such task or group raises T_TASK_STATE, and the other forms T_UNDEF_OP. -/
def Obligations.TriggersAndExits : Prop :=
  (∀ s : State,
    (s.boundGroup s.cur = none → exec .trig s = .next (s.trap s.cur tTaskState 0)) ∧
    (∀ d k g v, s.boundGroup s.cur = some (d, k, g) → s.task? (d, k) = some v →
      ∃ t u, exec .trig s = .next t ∧ Runs s t ∧ t = { s with cores := t.cores, dies := t.dies } ∧ t.task? (d, k) = some u ∧
        (u.group g).trig = true ∧ (∀ j, j ≠ g → u.group j = v.group j) ∧ u.phase = v.phase ∧
        ((∀ j, j < v.ngrp → (u.group j).trig = true) → u.released = true))) ∧
  (∀ s : State, s.specOf s.cur = none → ∃ t, exec (.exit 0 0 0) s = .next t ∧ s.OnlyCore t s.cur ∧
    (t.core s.cur).running = false ∧ s.KeepsS t s.cur ∧ s.KeepsF t s.cur) ∧
  (∀ (s : State) (a b how : BitVec 5), 3 ≤ how.toNat ∨ (how = 0 ∧ (a ≠ 0 ∨ b ≠ 0)) →
    exec (.exit a b how) s = .next (s.undef (.exit a b how))) ∧
  (∀ (s : State) (a b : BitVec 5), s.Ready [a.toNat, b.toNat] [] [] [] →
    (s.specOf s.cur = none ∨ ∃ h t, s.specOf s.cur = some (h, t) ∧ s.me.rd b.toNat = handleWord h.1 t.serial) →
    (s.handle? (s.me.rd b.toNat) s.me.ctx = none → exec (.exit a b 1) s = .next (s.trap s.cur tTaskState 0)) ∧
    (∀ h v, s.handle? (s.me.rd b.toNat) s.me.ctx = some (h, v) →
      (v.kind ≠ 3 → v.kind ≠ 4 → exec (.exit a b 1) s = .next (s.trap s.cur tTaskState 0)) ∧
      (v.kind = 3 ∨ v.kind = 4 → v.phase ≠ .running → ∃ t, exec (.exit a b 1) s = .next t ∧ s.OnlyCore t s.cur ∧
        (t.core s.cur).running = false ∧ s.KeepsS t s.cur) ∧
      (v.kind = 3 ∨ v.kind = 4 → v.phase = .running → ∃ t u, exec (.exit a b 1) s = .next t ∧
        (t.core s.cur).running = false ∧ s.KeepsS t s.cur ∧ (∀ x, t.mem.read x = s.mem.read x) ∧ t.task? h = some u ∧
        (v.spec = true → s.me.rd a.toNat = 0 → u.phase = .done) ∧
        (v.spec = false ∨ s.me.rd a.toNat ≠ 0 → u.phase = .finished ∧ u.released = true) ∧
        (s.me.rd a.toNat ≠ 0 → v.failed = false → u.failed = true ∧ u.cause = (s.me.rd a.toNat).toNat % 128)))) ∧
  (∀ (s : State) (a b : BitVec 5), s.Ready [a.toNat, b.toNat] [] [] [] → s.specOf s.cur = none →
    (s.boundGroup s.cur = none → exec (.exit a b 2) s = .next (s.trap s.cur tTaskState 0)) ∧
    (∀ d k g v, s.boundGroup s.cur = some (d, k, g) → s.task? (d, k) = some v → ((v.group g).phase = .running ∨ (v.group g).phase = .preempting) →
      ∃ t u, exec (.exit a b 2) s = .next t ∧ (t.core s.cur).running = false ∧ s.KeepsS t s.cur ∧
        t.task? (d, k) = some u ∧ (u.group g).phase = .exiting ∧ (u.group g).trig = true))

/-- R335, R345 to R348: the instructions on incumbent slots. inc.rd reads the die's copy, and a slot that is not the context's, or
withdrawn, as zero; inc.init of a slot another context owns writes 1 and changes nothing, else it begins at the home and the
core waits; the answer, when it is there, is written. inc.offer holds the better key as the task's pending offer; inc.offer.i
sends the offer at once, and with d other than s0 waits for the home's answer; a slot that is not the context's raises
T_INC_OWNER, and inc.offer outside a running speculative task T_SPEC_OP. -/
def Obligations.IncumbentInstructions : Prop :=
  (∀ (s : State) (d a : BitVec 5), s.Ready [a.toNat] [] [d.toNat] [] →
    let av := (s.me.rd a.toNat).toNat
    let u := s.incCopy (dieOf s.cur) (av % 256)
    let own := u.inc.valid = true ∧ u.withdrawn = false ∧ u.inc.owner = s.me.ctx
    (1024 ≤ av ∨ av / 256 % 4 = 3 → exec (.incRd d a) s = .next (s.trap s.cur tIncArg 0)) ∧
    (av < 1024 → av / 256 % 4 ≠ 3 → s.me.out 0 < 1023 →
      ∃ t v, exec (.incRd d a) s = .next t ∧ s.InPlace t 4 ∧ s.WritesS t s.cur d.toNat v ∧ (¬ own → v = 0) ∧
        (own → av / 256 % 4 = 0 → fld v 63 32 = u.inc.count.toNat ∧ fld v 31 0 = u.inc.key.toNat) ∧
        (own → av / 256 % 4 = 1 → v = u.inc.payload) ∧
        (own → s.me.ctx < 64 → av / 256 % 4 = 2 → fld v 33 33 = 1 ∧ fld v 32 32 = u.inc.dir.toNat))) ∧
  (∀ (s : State) (d a b c : BitVec 5), s.Ready [a.toNat, b.toNat, c.toNat] [] [d.toNat] [] → s.specOf s.cur = none →
    let av := (s.me.rd a.toNat).toNat
    let bv := (s.me.rd b.toNat).toNat
    let home := Table.get {} s.incs (av % 256)
    (1024 ≤ av ∨ 2 ^ 32 ≤ bv → exec (.incInit d a b c) s = .next (s.trap s.cur tIncArg 0)) ∧
    (av < 1024 → bv < 2 ^ 32 → s.me.out 0 < 1023 →
      (∀ v, s.me.req = some (.answered v) → ∃ t, exec (.incInit d a b c) s = .next t ∧ s.InPlace t 4 ∧ s.WritesS t s.cur d.toNat v) ∧
      (s.me.req = none → Table.has s.inits (av % 256) = false →
        (home.valid = true ∧ home.owner ≠ s.me.ctx →
          ∃ t, exec (.incInit d a b c) s = .next t ∧ s.InPlace t 4 ∧ s.WritesS t s.cur d.toNat 1) ∧
        (¬ (home.valid = true ∧ home.owner ≠ s.me.ctx) →
          ∃ t, exec (.incInit d a b c) s = .next t ∧ t.incs = s.incs ∧ (t.core s.cur).pc = s.me.pc ∧
            (t.core s.cur).stall = some .answer ∧
            (Table.get { core := 0, next := {}, acks := [], done := [] } t.inits (av % 256)).core = s.cur ∧
            (Table.get { core := 0, next := {}, acks := [], done := [] } t.inits (av % 256)).next =
              (if av / 512 % 2 = 1 then { home with valid := false }
               else { key := BitVec.ofNat 32 bv, payload := s.me.rd c.toNat, count := 0, dir := av / 256 % 2 == 1, valid := true,
                      owner := s.me.ctx }))))) ∧
  (∀ (s : State) (d a b c : BitVec 5),
    let av := (s.me.rd a.toNat).toNat
    let bv := (s.me.rd b.toNat).toNat
    let key : BitVec 32 := BitVec.ofNat 32 bv
    let own := s.ownInc (dieOf s.cur) av s.me.ctx
    av < 256 → bv < 2 ^ 32 →
    (s.Ready [a.toNat, b.toNat, c.toNat] [] [] [] →
      (s.me.task = none → exec (.incOffer a b c) s = .next (s.trap s.cur tSpecOp 0)) ∧
      (∀ h v, s.me.task = some h → s.task? h = some v → v.spec = true → v.phase = .running →
        (own = none → exec (.incOffer a b c) s = .next (s.trap s.cur tIncOwner 0)) ∧
        (∀ u, own = some u →
          (∀ m old p, v.offer = some (m, old, p) → m ≠ av → exec (.incOffer a b c) s = .next (s.trap s.cur tIncArg 0)) ∧
          (v.offer = none ∨ (∃ old p, v.offer = some (av, old, p) ∧
              (if u.dir then old.toNat < key.toNat else key.toNat < old.toNat)) →
            ∃ t, exec (.incOffer a b c) s = .next t ∧ Runs s t ∧
              t.task? h = some { v with offer := some (av, key, s.me.rd c.toNat) }) ∧
          (∀ old p, v.offer = some (av, old, p) → ¬ (if u.dir then old.toNat < key.toNat else key.toNat < old.toNat) →
            ∃ t, exec (.incOffer a b c) s = .next t ∧ s.InPlace t 4 ∧ s.KeepsS t s.cur)))) ∧
    (s.Ready [a.toNat, b.toNat, c.toNat] [] [d.toNat] [] → s.specOf s.cur = none →
      (∀ v, s.me.req = some (.answered v) →
        ∃ t, exec (.incOfferI d a b c) s = .next t ∧ s.InPlace t 4 ∧ s.WritesS t s.cur d.toNat v) ∧
      (s.me.req = none → own = none → exec (.incOfferI d a b c) s = .next (s.trap s.cur tIncOwner 0)) ∧
      (s.me.req = none → own.isSome = true → s.me.out 0 < 1023 →
        ∃ t, exec (.incOfferI d a b c) s = .next t ∧ t = { s with cores := t.cores, offers := t.offers } ∧
          t.offers = s.offers ++ [{ slot := av, key, payload := s.me.rd c.toNat, ctx := s.me.ctx, die := dieOf s.cur,
                                    cluster := s.cur, reply := decide (d ≠ 0) }] ∧
          (d = 0 → Runs s t) ∧ (d ≠ 0 → (t.core s.cur).pc = s.me.pc ∧ (t.core s.cur).stall = some .answer))))

/-- R337, R349 to R351: kill points, bounds and spawned tasks of a task named by its handle. killpt kills a task that its bound
makes killable here, while it runs, but for a copy or collective task (R325, R330), and else does nothing; bound.set replaces
the bound, of a slot that is the context's; tspawn answers FULL, or holds the child of a speculative task, or puts it into
the pool with its id and age, to be readied. That FULL is judged by the pool of the handle's die and that the child enters
that die's are DEDUCED (log 44), and what a pool holds is log 67. -/
def Obligations.KillPointsBoundsAndSpawns : Prop :=
  ∀ (s : State) (d a b c : BitVec 5),
    (s.Ready [a.toNat] [] [] [] →
      (s.handle? (s.me.rd a.toNat) s.me.ctx = none → exec (.killpt a) s = .next (s.trap s.cur tTaskState 0)) ∧
      (∀ h v, s.handle? (s.me.rd a.toNat) s.me.ctx = some (h, v) →
        (s.killable (dieOf s.cur) v = false ∨ v.phase ≠ .running ∨ v.kind = 1 ∨ v.kind = 2 → ∃ t, exec (.killpt a) s = .next t ∧ s.InPlace t 4 ∧ s.KeepsS t s.cur) ∧
        (s.killable (dieOf s.cur) v = true → v.phase = .running → v.kind ≠ 1 → v.kind ≠ 2 → v.killed = false →
          ∃ t u, exec (.killpt a) s = .next t ∧ t.task? h = some u ∧
          u.killed = true ∧ (v.kind ≠ 0 → u.phase = .finished) ∧ s.KeepsS t s.cur ∧
          (s.me.task = some h → (t.core s.cur).running = false) ∧ (∀ x, t.mem.read x = s.mem.read x)))) ∧
    (s.Ready [a.toNat, b.toNat] [] [] [] →
      (bOk (s.me.rd b.toNat) = false → exec (.boundSet a b) s = .next (s.trap s.cur tIncArg 0)) ∧
      (∀ h v, bOk (s.me.rd b.toNat) = true → s.handle? (s.me.rd a.toNat) s.me.ctx = some (h, v) →
        (bBounded (s.me.rd b.toNat) = false ∨ (s.ownInc (dieOf s.cur) (bSlot (s.me.rd b.toNat)) s.me.ctx).isSome = true →
          ∃ t, exec (.boundSet a b) s = .next t ∧ Runs s t ∧ t.task? h = some { v with bound := s.me.rd b.toNat }) ∧
        (bBounded (s.me.rd b.toNat) = true → s.ownInc (dieOf s.cur) (bSlot (s.me.rd b.toNat)) s.me.ctx = none →
          exec (.boundSet a b) s = .next (s.trap s.cur tIncOwner 0)))) ∧
    (s.Ready [a.toNat, b.toNat, c.toNat] [] [d.toNat] [] → bOk (s.me.rd b.toNat) = true →
      (s.me.rd a.toNat).toNat % 64 = 0 → (s.me.rd a.toNat).toNat < 2 ^ 56 → s.me.out 0 < 1023 →
      ∀ h v, s.handle? (s.me.rd c.toNat) s.me.ctx = some (h, v) →
        (s.specOf s.cur = none ∨ (s.specOf s.cur).map (·.1) = some h) →
        (4096 ≤ s.poolUse h.1 ∨ 64 ≤ v.kids.length →
          ∃ t, exec (.tspawn d a b c) s = .next t ∧ s.InPlace t 4 ∧ s.WritesS t s.cur d.toNat 1) ∧
        (s.poolUse h.1 < 4096 → v.kids.length < 64 → v.spec = true → v.irrev = false → s.bufferRoom h v = true →
          ∃ t, exec (.tspawn d a b c) s = .next t ∧ Done s t d.toNat 0 ∧
            t.task? h = some { v with kids := v.kids ++ [(s.me.rd a.toNat, s.me.rd b.toNat)] }) ∧
        (s.poolUse h.1 < 4096 → v.kids.length < 64 → ¬ (v.spec = true ∧ v.irrev = false) →
          ∃ t u, exec (.tspawn d a b c) s = .next t ∧ Done s t d.toNat 0 ∧ t.task? (h.1, (s.die h.1).nextTask) = some u ∧
            u.id = ((s.die h.1).idCtr + 1).toNat ∧ u.age = (s.die h.1).clock ∧ u.phase = .ready ∧ u.recAddr = s.me.rd a.toNat ∧ u.bound = s.me.rd b.toNat ∧ u.spawned = true ∧ u.job = v.job ∧ u.ctx = v.ctx ∧
            (Table.get emptyJob (t.die h.1).jobs v.job).left = (Table.get emptyJob (s.die h.1).jobs v.job).left + 1))

/-! ## Barriers, parks, zones and probes -/

/-- R353: a barrier step on the four words at a 16-byte-aligned address. More arrivals than remain are refused; otherwise
bytes takes the expectation and the arrivals, rem falls, and a phase with both at zero counts one more, starts the next with
rem := init, wakes every park.bar whose recorded count differs from the count, after the slots that wait to post, and notifies
every watcher: a current one emits one packet of the count, one of another slot keeps it. Every other byte and every
full-empty bit stays. -/
def Obligations.BarrierStepRule : Prop :=
  ∀ (s : State) (pa : Nat) (e y : BitVec 32) (n : Nat), pa % 16 = 0 →
    ((s.barRem pa).toNat < n → s.barStep pa e y n = none) ∧
    (n ≤ (s.barRem pa).toNat → ∃ t, s.barStep pa e y n = some t ∧ KeepsMemory s t pa 16 ∧ t.fullBits = s.fullBits ∧
      t.barInitW pa = s.barInitW pa ∧ t.barBytes pa = s.barBytes pa + e - y ∧
      (n = (s.barRem pa).toNat ∧ s.barBytes pa + e - y = 0 →
        t.barCount pa = s.barCount pa + 1 ∧ t.barRem pa = s.barInitW pa ∧
        (∀ c, ∃ turn, (∀ e ∈ (s.core c).parks, e.2.fired.isSome = true → e.2.turn < turn) ∧
          (t.core c).parks = (s.core c).parks.map fun (i, p) => (i,
            if p.fired = none ∧ p.form = 5 ∧ p.target = pa ∧ p.count ≠ (s.barCount pa + 1).toNat then
              { p with fired := some (BitVec.ofNat 64 (p.count % 2)), turn }
            else p)) ∧
        (∀ p x m, tileOf pa = some (p, x) → m < 4 → isWatcher ((s.site p).slot m) x = true →
          (s.curSlot p ≠ some m → ((t.site p).slot m).missed = ((s.site p).slot m).missed ++ [s.barCount pa + 1]) ∧
          (s.curSlot p = some m → let u := (s.site p).emitAll m (mtDataPorts ((s.site p).slot m).elem) { elems := [s.barCount pa + 1] }
            (t.site p).pipe = u.pipe ∧ (t.site p).slot m = u.slot m))) ∧
      (¬ (n = (s.barRem pa).toNat ∧ s.barBytes pa + e - y = 0) →
        t.barCount pa = s.barCount pa ∧ (t.barRem pa).toNat = (s.barRem pa).toNat - n ∧ t.cores = s.cores ∧ t.sites = s.sites))

namespace Sys2Proof

/-- The barrier that register a names for the current core, with its tile: the checks of R356 pass. -/
def BarrierAt (s : State) (va : Word) (need : Need) (pa p : Nat) : Prop :=
  s.translate s.cur s.me.ctx va.toNat need = .ok pa ∧ va.toNat % 16 = 0 ∧
    ∃ c m, placeOf pa = .tile c m ∧ p = tileSite c m ∧ s.tileRefuses s.cur c m (decide (need = .atomic)) = false

end Sys2Proof

/-- R354, R356: the barrier instructions. bar.init and bar.expect issue in class 1 and take their step when it is performed;
bar.arrive, once nothing of the core is outstanding, expects b bytes and arrives once, and writes the state after the step, or
raises T_BAR_OVER; a b outside its limits raises T_BAR_ARG; bar.test writes the state as read. The last two set the arrival
record to the count before. -/
def Obligations.BarrierInstructions : Prop :=
  (∀ (s : State) (a b : BitVec 5) (pa p : Nat), s.Ready [a.toNat, b.toNat] [] [] [] → s.specOf s.cur = none →
    s.me.acqWait = false → s.me.out 1 < 1023 → BarrierAt s (s.me.rd a.toNat) .atomic pa p →
    let op (kind : OpKind) : MemOp :=
      { id := s.me.nextOp, kind, va := s.me.rd a.toNat, pa, size := 16, data := s.me.rd b.toNat, cmp := 0, dest := .nowhere,
        acq := false, rel := false, priv := s.me.priv, ctx := s.me.ctx, task := s.me.task }
    (1 ≤ (s.me.rd b.toNat).toNat → (s.me.rd b.toNat).toNat ≤ 65535 →
      ∃ t, exec (.barInit a b) s = .next t ∧ Issued s t 1 (op .barInit)) ∧
    ((s.me.rd b.toNat).toNat < 2 ^ 32 → ∃ t, exec (.barExpect a b) s = .next t ∧ Issued s t 1 (op .barExpect)) ∧
    ((s.me.rd b.toNat).toNat = 0 ∨ 65535 < (s.me.rd b.toNat).toNat →
      exec (.barInit a b) s = .next (s.trap s.cur tBarArg 0)) ∧
    (2 ^ 32 ≤ (s.me.rd b.toNat).toNat → exec (.barExpect a b) s = .next (s.trap s.cur tBarArg 0))) ∧
  (∀ (s : State) (d a b : BitVec 5) (pa p : Nat), s.Ready [a.toNat, b.toNat] [] [d.toNat] [] → s.specOf s.cur = none →
    s.me.out 0 < 1023 → s.me.ops = [] → BarrierAt s (s.me.rd a.toNat) .atomic pa p →
    (2 ^ 32 ≤ (s.me.rd b.toNat).toNat → exec (.barArrive d a b) s = .next (s.trap s.cur tBarArg 0)) ∧
    ((s.me.rd b.toNat).toNat < 2 ^ 32 → s.tileFree p (barWords pa) true = true →
      ((s.barRem pa).toNat = 0 → exec (.barArrive d a b) s =
        .next ((s.fillTlb s.cur s.me.ctx (s.me.rd a.toNat).toNat .atomic).trap s.cur tBarOver 0)) ∧
      (1 ≤ (s.barRem pa).toNat →
        ∃ t, exec (.barArrive d a b) s = .next t ∧ (t.core s.cur).pc = s.me.pc + 4 ∧
          s.WritesS t s.cur d.toNat (t.barState pa) ∧ (t.core s.cur).arrival = some (pa, s.barCount pa) ∧
          KeepsMemory s t pa 16 ∧ t.barBytes pa = s.barBytes pa + BitVec.ofNat 32 (s.me.rd b.toNat).toNat))) ∧
  (∀ (s : State) (d a : BitVec 5) (pa p : Nat), s.Ready [a.toNat] [] [d.toNat] [] → s.me.acqWait = false →
    s.specOf s.cur = none → s.me.out 0 < 1023 → BarrierAt s (s.me.rd a.toNat) .load pa p →
    (∀ o ∈ s.me.ops, ¬ (o.pa < pa + 16 ∧ pa < o.pa + o.size)) →
    s.tileFree p (barWords pa) false = true →
    ∃ t, exec (.barTest d a) s = .next t ∧ (t.core s.cur).pc = s.me.pc + 4 ∧ s.WritesS t s.cur d.toNat (s.barState pa) ∧
      (t.core s.cur).arrival = some (pa, s.barCount pa) ∧ t.mem = s.mem ∧ t.fullBits = s.fullBits) ∧
  (∀ (s : State) (c : Nat) (older newer : List MemOp) (o : MemOp), (s.core c).ops = older ++ o :: newer →
    (∀ e ∈ older, e.id ≠ o.id) → s.mayPerform older o = true → o.pa % 16 = 0 →
    (o.kind = .barInit → ∃ t, exec (.storePerformed c o.id) s = .next t ∧ KeepsMemory s t o.pa 16 ∧ t.fullBits = s.fullBits ∧
      t.barBytes o.pa = 0 ∧ t.barCount o.pa = 0 ∧ (t.barRem o.pa).toNat = o.data.toNat % 2 ^ 16 ∧
      (t.barInitW o.pa).toNat = o.data.toNat % 2 ^ 16) ∧
    (o.kind = .barExpect → ∃ t, exec (.storePerformed c o.id) s = .next t ∧ KeepsMemory s t o.pa 16 ∧
      t.barBytes o.pa = s.barBytes o.pa + BitVec.ofNat 32 o.data.toNat))

namespace Sys2Proof

/-- The PARK form took slot `i`, which was free, and ended the handler; where its event has happened it posts after the slots
whose events came before. -/
def Parked (s t : State) (form target : Nat) (b c : BitVec 5) (count : Nat) (fired : Option Word) : Prop :=
  ∃ i turn, i < 32 ∧ Table.has s.me.parks i = false ∧ (t.core s.cur).running = false ∧ s.KeepsS t s.cur ∧
    (∀ a, t.mem.read a = s.mem.read a) ∧ (∀ e ∈ s.me.parks, e.2.fired.isSome = true → e.2.turn < turn) ∧
    ((t.core s.cur).parks.find? fun e => e.1 = i) = some (i,
      { form, target, chan := (s.me.rd b.toNat).toNat, tag := s.me.rd c.toNat, ctx := s.me.ctx, count, fired, group := s.me.group, turn })

/-- What a PARK form does whose target is legal, in the state `u` that its address check leaves (R247): the channel that b
names must be enabled for the resident context, then a slot must be free. -/
def ParkForm (s u : State) (b : BitVec 5) (i : Instr) (done : State → Prop) : Prop :=
  let h := s.me.channel (s.me.rd b.toNat).toNat
  let mine := h.actEn = true ∧ h.actCtx = s.me.ctx
  let free := ∃ i, i < 32 ∧ Table.has s.me.parks i = false
  (¬ mine → exec i s = .next (u.trap s.cur tParkArg 0)) ∧ (mine → ¬ free → exec i s = .next (u.trap s.cur tParkFull 0)) ∧
    (mine → free → ∃ t, exec i s = .next t ∧ done t)

end Sys2Proof

/-- R246 to R248, R359: the PARK forms. With b naming a channel enabled for the resident context and a slot free, the form takes
a slot (park.word and park.bar once nothing of the core on those bytes is pending, R265; at a tile of a gated cluster too,
log 86), whose event has happened already where the word is full, the barrier's count differs from the recorded one, or the
store has room, and ends the handler; a bad b or an illegal target raises T_PARK_ARG and no free slot T_PARK_FULL. -/
def Obligations.ParkTakesASlotAndEndsTheHandler : Prop :=
  ∀ (s : State) (a b c : BitVec 5), s.Ready [a.toNat, b.toNat, c.toNat] [] [] [] → s.specOf s.cur = none →
    let av := s.me.rd a.toNat
    let u := s.fillTlb s.cur s.me.ctx av.toNat .load
    (16 ≤ (s.me.rd b.toNat).toNat → ∀ i ∈ [(.parkWord a b c : Instr), .parkBar a b c, .parkChan a b c],
      exec i s = .next (s.trap s.cur tParkArg 0)) ∧
    ((s.me.rd b.toNat).toNat < 16 →
      (av ≠ 0 → exec (.parkChan a b c) s = .next (s.trap s.cur tParkArg 0)) ∧
      (av = 0 → ParkForm s s b (.parkChan a b c) fun t => Parked s t 6 0 b c 0
        (if (s.die (dieOf s.cur)).launches.length < 512 then some 0 else none)) ∧
      (∀ pa, s.translate s.cur s.me.ctx av.toNat .load = .ok pa → (∀ ci m, placeOf pa ≠ .tile ci m) →
        ∀ i ∈ [(.parkWord a b c : Instr), .parkBar a b c], exec i s = .next (s.trap s.cur tParkArg 0)) ∧
      (∀ pa ci m, s.translate s.cur s.me.ctx av.toNat .load = .ok pa → placeOf pa = .tile ci m →
        (av.toNat % 4 ≠ 0 → exec (.parkWord a b c) s = .next (s.trap s.cur tParkArg 0)) ∧
        (av.toNat % 16 ≠ 0 → exec (.parkBar a b c) s = .next (s.trap s.cur tParkArg 0)) ∧
        (av.toNat % 4 = 0 → s.me.pendingAt pa 4 = false → s.tileFree (tileSite ci m) [pa % 0x80000 / 4] false = true →
          ParkForm s u b (.parkWord a b c) fun t => Parked s t 4 pa b c 0
            (if s.isFull pa then some (BitVec.ofNat 64 (s.word pa).toNat) else none)) ∧
        (av.toNat % 16 = 0 → s.me.pendingAt pa 16 = false → s.tileFree (tileSite ci m) (barWords pa) false = true →
          ParkForm s u b (.parkBar a b c) fun t => ∃ n,
            Parked s t 5 pa b c n (if (s.barCount pa).toNat ≠ n then some (BitVec.ofNat 64 (n % 2)) else none) ∧
            (∀ k, s.me.arrival = some (pa, k) → n = k.toNat) ∧
            ((∀ k, s.me.arrival ≠ some (pa, k)) → n = (s.barCount pa).toNat))))

namespace Sys2Proof

/-- What zreq writes to d for zone `c` (R406): its status and the zone's fields as they then stand. -/
structure ZoneAnswer (t : State) (c status : Nat) (w : Word) : Prop where
  status : fld w 63 62 = status
  state : fld w 61 59 = t.zState c
  valve : fld w 58 55 = t.zValve c
  temp : fld w 54 45 = fld (t.zsens c) 63 54
  flow : fld w 44 36 = fld (t.zsens c) 53 45
  min : fld w 35 27 = t.zMin c
  zero : fld w 26 0 = 0

/-- A zone's min is the largest flow of the claims on it, and zero with none (R399). -/
def MinIsLargest (t : State) (c : Nat) : Prop :=
  (∀ k ∈ t.claims c, k.flow ≤ t.zMin c) ∧ (t.claims c = [] → t.zMin c = 0) ∧
    (t.claims c ≠ [] → ∃ k ∈ t.claims c, k.flow = t.zMin c)

end Sys2Proof

/-- R399, R406: zreq. The query writes the zone's fields with status 0 and changes nothing else; a raise of a zone that is not
WET-IDLE, ALLOCATED or FLOWING, or held by pressure, is REFUSED, one that would put the die's sum of mins above its budget is
FULL, and a refused or full raise changes nothing; else the raise replaces the group's reservation and the drop takes it
away, and min is computed afresh. A number above 127 raises T_ZONE_ARG; the raise and the drop raise T_TASK_STATE without a
bound group and T_PRIV outside its footprint. -/
def Obligations.ZoneRequests : Prop :=
  ∀ (s : State) (d a : BitVec 5) (cls : BitVec 4), s.Ready [a.toNat] [] [d.toNat] [] → s.specOf s.cur = none →
    let av := (s.me.rd a.toNat).toNat
    let quiet (i : Instr) (status : Nat) : Prop :=
      ∃ t w, exec i s = .next t ∧ s.InPlace t 4 ∧ s.WritesS t s.cur d.toNat w ∧ s.KeepsF t s.cur ∧ ZoneAnswer s av status w
    let changed (t : State) (w : Word) : Prop :=
      s.WritesS t s.cur d.toNat w ∧ (t.core s.cur).pc = s.me.pc + 4 ∧ t.mem = s.mem ∧ ZoneAnswer t av 0 w ∧ MinIsLargest t av
    (128 ≤ av → ∀ i ∈ [(.zreqQuery d a : Instr), .zreqRaise d a cls, .zreqDrop d a], exec i s = .next (s.trap s.cur tZoneArg 0)) ∧
    (av < 128 → s.me.out 0 < 1023 → quiet (.zreqQuery d a) 0) ∧
    (av < 128 → s.me.out 0 < 1023 → s.boundGroup s.cur = none → ∀ i ∈ [(.zreqRaise d a cls : Instr), .zreqDrop d a],
      exec i s = .next (s.trap s.cur tTaskState 0)) ∧
    (∀ td k g v r, av < 128 → s.me.out 0 < 1023 → s.boundGroup s.cur = some (td, k, g) → s.task? (td, k) = some v →
      (v.group g).region = some r →
      ((s.region r).inCluster av = false → ∀ i ∈ [(.zreqRaise d a cls : Instr), .zreqDrop d a],
        exec i s = .next (s.trap s.cur tPriv 0)) ∧
      ((s.region r).inCluster av = true →
        let usable := s.zState av = zWetIdle ∨ s.zState av = zAllocated ∨ s.zState av = zFlowing
        let held := (s.die (dieOf av)).pressHeld = true
        let raised := s.reserve av (td, k) g (v.group g) (some cls.toNat)
        (¬ usable ∨ held → quiet (.zreqRaise d a cls) 2) ∧
        (usable → ¬ held → s.zbudget (dieOf av) < raised.sumMins (dieOf av) → quiet (.zreqRaise d a cls) 1) ∧
        (usable → ¬ held → raised.sumMins (dieOf av) ≤ s.zbudget (dieOf av) →
          ∃ t w u, exec (.zreqRaise d a cls) s = .next t ∧ changed t w ∧ t.task? (td, k) = some u ∧
            ((u.group g).zreq.find? fun e => e.1 = av).map (·.2.1) = some cls.toNat) ∧
        ∃ t w u, exec (.zreqDrop d a) s = .next t ∧ changed t w ∧ t.task? (td, k) = some u ∧
          Table.has (u.group g).zreq av = false))

/-- R267, R272, R371: fence completes when no load, atomic or store of the core is outstanding, at scope 0 always, and otherwise
stalls; wait completes when its class counts at most lim, or lim is 1023 or more, and otherwise stalls. xprobe never faults: d
receives bit 63 clear and the physical address where a read would translate, else bit 63 set and the reason. -/
def Obligations.FenceWaitAndProbe : Prop :=
  (∀ (s : State) (sc : BitVec 5),
    (sc = 0 ∨ s.me.ops = [] → ∃ t, exec (.fence sc) s = .next t ∧ s.InPlace t 4 ∧ s.KeepsS t s.cur ∧ s.KeepsF t s.cur) ∧
    (sc ≠ 0 → s.me.ops ≠ [] → ∃ w, exec (.fence sc) s = .next (s.setCore s.cur { s.me with stall := some w }))) ∧
  (∀ (s : State) (cls : BitVec 5) (lim : BitVec 16),
    (s.me.out cls.toNat ≤ lim.toNat ∨ 1023 ≤ lim.toNat →
      ∃ t, exec (.wait cls lim) s = .next t ∧ s.InPlace t 4 ∧ s.KeepsS t s.cur ∧ s.KeepsF t s.cur) ∧
    (lim.toNat < s.me.out cls.toNat → lim.toNat < 1023 →
      ∃ w, exec (.wait cls lim) s = .next (s.setCore s.cur { s.me with stall := some w }))) ∧
  (∀ (s : State) (d a : BitVec 5), s.Ready [a.toNat] [] [d.toNat] [] → s.me.acqWait = false → s.me.out 0 < 1023 →
    let va := (s.me.rd a.toNat).toNat
    ∃ t v, exec (.xprobe d a) s = .next t ∧ Done s t d.toNat v ∧ t = { s with cores := t.cores, tlbs := t.tlbs } ∧
      (∀ pa, s.translate s.cur s.me.ctx va .load = .ok pa → pa < 2 ^ 52 → fld v 63 63 = 0 ∧ fld v 62 61 = 0 ∧ fld v 51 0 = pa) ∧
      (∀ r, s.translate s.cur s.me.ctx va .load = .fault r → r < 4 → fld v 63 63 = 1 ∧ fld v 62 61 = r ∧ fld v 51 0 = 0))

/-! ## Handlers, the core switch and the context -/

/-- R240, R242: with no handler put off behind a core switch that could start, HANDLER_START takes the oldest message of the
enabled, non-empty channel with the smallest prio, ties to the lower number, ch0 counting as 0. In the resident context the
handler begins at once: its message in m0 to m7, unused ones zero, the privilege and budget of its channel, at the channel's
entry, with the arrival record cleared; otherwise it waits for a core switch. -/
def Obligations.HandlerStartRunsTheFirstMessage : Prop :=
  ∀ (s : State) (c n : Nat) (m : Msg) (q : List Msg), s.mayStart c = true → n < 16 →
    (∀ e ∈ (s.core c).later, e.2 = true) →
    let k := s.core c
    let prio (j : Nat) := if j = 0 then 0 else (k.channel j).prio
    n ∈ k.startable → (∀ j ∈ k.startable, prio n < prio j ∨ (prio n = prio j ∧ n ≤ j)) → (k.channel n).queue = m :: q →
    ∃ t, exec (.handlerStart c) s = .next t ∧ ((t.core c).channel n).queue = q ∧ (∀ a, t.mem.read a = s.mem.read a) ∧
      (∀ j, j ≠ c → t.core j = s.core j) ∧ (∀ r, (t.core c).rd r = k.rd r) ∧
      ((k.channel n).ctx = k.ctx → (t.core c).running = true ∧ (t.core c).chan = n ∧ (t.core c).pc = (k.channel n).entry ∧
        (t.core c).priv = (k.channel n).priv ∧ (t.core c).issued = 0 ∧ (t.core c).budget = (k.channel n).budget ∧
        (t.core c).arrival = none ∧ ∀ i, i < 8 → (t.core c).rdM i = m.words.getD i 0) ∧
      ((k.channel n).ctx ≠ k.ctx → (t.core c).running = false ∧ ∃ st, (t.core c).next = some st ∧ st.ctx = (k.channel n).ctx ∧
        st.pc = (k.channel n).entry ∧ st.priv = (k.channel n).priv ∧ st.chan = n)

namespace Sys2Proof

/-- The 512 bytes of a core's record (R245): s1 to s31, f0 to f15, %fflags, the two sequence counters, valid. -/
structure IsRecord (k : CoreSt) (bs : List Byte) : Prop where
  length : bs.length = 512
  s : ∀ r, 1 ≤ r → r < 32 → BitVec.ofNat 64 (natLE ((bs.drop (8 * (r - 1))).take 8)) = k.rd r
  f : ∀ r, r < 16 → BitVec.ofNat 64 (natLE ((bs.drop (248 + 8 * r)).take 8)) = k.rdF r
  fflags : BitVec.ofNat 6 (natLE ((bs.drop 376).take 8)) = k.fflags
  cseq : BitVec.ofNat 48 (natLE ((bs.drop 384).take 8)) = k.cseq
  eseq : BitVec.ofNat 48 (natLE ((bs.drop 392).take 8)) = k.eseq

end Sys2Proof

/-- R245: with its counters and scoreboard zero, a core that waits for a switch writes the outgoing record, reads the incoming
one, and begins the handler: registers of a record with valid byte 0 are zero, else its words; a translation fault keeps the
outgoing context resident. The switch stands aside from a live block (R196). -/
def Obligations.CoreSwitchExchangesTheRecords : Prop :=
  ∀ (s : State) (c : Nat) (st : Start), (s.core c).next = some st → (s.core c).running = false → (s.core c).nextHeld = false →
    (s.core c).quiet = true →
    let k := s.core c
    (∀ ps qs, s.vaddrs c k.ctx .store (s.recordVa k.ctx c) 512 = (ps, none) →
      s.vaddrs c st.ctx .load (s.recordVa st.ctx c) 512 = (qs, none) → (∀ p ∈ ps ++ qs, isRam p = true ∧ s.protectedBy p = none) →
      ps.Nodup → s.liveAt ps = false →
      ∃ t, exec (.coreSwitch c) s = .next t ∧ (t.core c).ctx = st.ctx ∧ (t.core c).next = none ∧ (t.core c).running = true ∧
        (t.core c).chan = st.chan ∧ (t.core c).pc = st.pc ∧ (t.core c).priv = st.priv ∧ (t.core c).m = st.m ∧
        (t.core c).chans = k.chans ∧ (t.core c).parks = k.parks ∧ (∀ j, j ≠ c → t.core j = s.core j) ∧
        (∀ a, a ∉ ps → t.mem.read a = s.mem.read a) ∧
        IsRecord k (ps.map t.mem.read) ∧ (ps.map t.mem.read).getD 400 0 = 1 ∧
        let bs := qs.map t.mem.read
        (bs.getD 400 0 = 0 → (∀ r, (t.core c).rd r = 0) ∧ (∀ r, (t.core c).rdF r = 0) ∧ (t.core c).fflags = 0 ∧
          (t.core c).cseq = 0 ∧ (t.core c).eseq = 0) ∧
        (bs.getD 400 0 ≠ 0 → IsRecord (t.core c) bs)) ∧
    (∀ ps va r, (s.vaddrs c k.ctx .store (s.recordVa k.ctx c) 512 = (ps, some (va, r)) ∨
        (s.vaddrs c k.ctx .store (s.recordVa k.ctx c) 512).2 = none ∧
          s.vaddrs c st.ctx .load (s.recordVa st.ctx c) 512 = (ps, some (va, r))) →
      ∃ t, exec (.coreSwitch c) s = .next t ∧ (t.core c).ctx = k.ctx ∧ (t.core c).nextHeld = true ∧ (t.core c).next = some st ∧
        (t.core c).running = false ∧ (∀ a, t.mem.read a = s.mem.read a))

/-- R242, R248, R251: the traps that no instruction raises: a handler over its budget, a stall that has reached its limit (no
time is modelled, so any stall may have: DESIGN CHOICE, log 5) but on a commit buffer, and one that only commands which a fault
has stopped could end; and the posting of a continuation, in order with the other slots of its channel whose events have
happened (log 59). -/
def Obligations.CoreEventsTrapOrPost : Prop :=
  (∀ (s : State) (c : Nat), (s.core c).running = true → (s.core c).budget ≠ 0 → (s.core c).budget ≤ (s.core c).issued →
    exec (.handlerBudget c) s = .next (s.trap c tHandlerBudget 0)) ∧
  (∀ (s : State) (c : Nat) (w : Stall), (s.core c).running = true → (s.core c).stall = some w → (∀ h, w ≠ .commit h) →
    exec (.stallLimit c) s = .next (s.trap c tStallLimit 0)) ∧
  (∀ (s : State) (c k : Nat) (rs : List Nat) (m : Cmd) (n : Nat), (s.core c).running = true →
    ((s.core c).stall = some (.reg rs) ∨ (s.core c).stall = some (.pending rs)) →
    (k, m) ∈ s.cmds → m.core = c → m.tok ∈ rs → m.task = none → m.held = some n → n ≠ 0 →
    exec (.stallFault c) s = .next (s.trap c tStallFault 0)) ∧
  (∀ (s : State) (c : Nat) (w : Stall) (still : List (Nat × Cmd)) (f : Cmd → Nat) (x n : Nat), (s.core c).running = true →
    (s.core c).stall = some w →
    (w = .full x ∧ f = Cmd.tok ∧ n = 15 ∨ w = .counter x ∧ f = Cmd.cls ∧ n = 1023 ∨
      ∃ lim, w = .wait x lim ∧ f = Cmd.cls ∧ n = lim + 1) →
    still.Sublist s.cmds → n ≤ still.length →
    (∀ e ∈ still, e.2.core = c ∧ f e.2 = x ∧ e.2.task = none ∧ ∃ m, e.2.held = some m ∧ m ≠ 0) →
    exec (.stallFault c) s = .next (s.trap c tStallFault 0)) ∧
  (∀ (s : State) (c k : Nat) (p : Park) (v : Word), ((s.core c).parks.find? fun e => e.1 = k) = some (k, p) → p.fired = some v →
    ((s.core c).channel p.chan).takes = true → (s.ctx p.ctx).phase = .opened →
    (∀ e ∈ (s.core c).parks, e.2.fired.isSome = true → e.2.chan = p.chan → (s.ctx e.2.ctx).phase = .opened →
      p.turn < e.2.turn ∨ (p.turn = e.2.turn ∧ k ≤ e.1)) →
    ∃ t m, exec (.parkPost c k) s = .next t ∧ s.OnlyCore t c ∧ Table.has (t.core c).parks k = false ∧
      ((t.core c).channel p.chan).queue = ((s.core c).channel p.chan).queue ++ [m] ∧
      m.words = [BitVec.ofNat 64 (2 * 2 ^ 56 + p.form), p.tag, v])

/-- R236, R237: a privileged handler's or the owner master's event moves a context as the table says: FREE opens, OPEN
quiesces, QUIESCED resumes or closes; any other event sets err and leaves the state. A QUIESCING context that no core is busy
with saves the records of the cores that hold it and is QUIESCED. That open clears the counters of the cores where the context
is resident, that close disables its channels and that the saves are one step are DEDUCED (log 39). -/
def Obligations.ContextLifeCycle : Prop :=
  ∀ (s : State) (who : Agent) (x : Nat),
    (match who with | .core c => (s.core c).running = true ∧ (s.core c).priv = true | .master m => s.owner = m ∧ s.waiting m = []) →
    ((s.ctx x).phase = .free →
      (∃ t, exec (.ctxOpen who x) s = .next t ∧ (t.ctx x).phase = .opened ∧ (t.ctx x).err = (s.ctx x).err ∧
        ∀ c, c < 128 → (∀ e ∈ (t.core c).parks, e.2.ctx ≠ x) ∧ ((s.core c).ctx = x → (t.core c).cseq = 0 ∧ (t.core c).eseq = 0 ∧ ∀ n, (t.core c).out n = 0) ∧
          ∀ n, n < 16 → ((s.core c).channel n).actCtx = x → ((t.core c).channel n).queue = []) ∧
      ∀ i ∈ [(.ctxQuiesce who x : Instr), .ctxResume who x, .ctxClose who x],
        ∃ t, exec i s = .next t ∧ (t.ctx x).phase = .free ∧ (t.ctx x).err = true ∧ t = { s with ctxs := t.ctxs }) ∧
    ((s.ctx x).phase = .opened →
      (∃ t, exec (.ctxQuiesce who x) s = .next t ∧ (t.ctx x).phase = .quiescing ∧
        t = { s with ctxs := t.ctxs } ∧ ∀ y, y ≠ x → t.ctx y = s.ctx y) ∧
      ∀ i ∈ [(.ctxOpen who x : Instr), .ctxClose who x],
        ∃ t, exec i s = .next t ∧ (t.ctx x).phase = .opened ∧ (t.ctx x).err = true ∧ t = { s with ctxs := t.ctxs }) ∧
    ((s.ctx x).phase = .quiesced →
      (∃ t, exec (.ctxResume who x) s = .next t ∧ (t.ctx x).phase = .opened ∧ t = { s with ctxs := t.ctxs }) ∧
      (∃ t, exec (.ctxOpen who x) s = .next t ∧ (t.ctx x).phase = .quiesced ∧ (t.ctx x).err = true ∧ t = { s with ctxs := t.ctxs }) ∧
      (∃ t, exec (.ctxClose who x) s = .next t ∧ (t.ctx x).phase = .free ∧
        (∀ c, c < 128 → (∀ n, n < 16 → (((s.core c).channel n).ctx = x → ((t.core c).channel n).en = false) ∧
          (((s.core c).channel n).actCtx = x → ((t.core c).channel n).queue = [])) ∧ ∀ e ∈ (t.core c).parks, e.2.ctx ≠ x))) ∧
    ((s.ctx x).phase = .quiescing →
      (∀ i ∈ [(.ctxOpen who x : Instr), .ctxQuiesce who x, .ctxResume who x, .ctxClose who x],
        ∃ t, exec i s = .next t ∧ (t.ctx x).phase = .quiescing ∧ (t.ctx x).err = true ∧ t = { s with ctxs := t.ctxs }) ∧
      ((∀ c, c < 128 → (s.core c).busyWith x = false ∧ (s.core c).ctx ≠ x) →
        ∃ t, exec (.ctxQuiesced x) s = .next t ∧ (t.ctx x).phase = .quiesced ∧ t = { s with ctxs := t.ctxs }) ∧
      (∀ u, (∀ c, c < 128 → (s.core c).busyWith x = false) → s.saveAll x (List.range 128) = some u →
        ∃ t, exec (.ctxQuiesced x) s = .next t ∧ (t.ctx x).phase = .quiesced ∧ t = { u with ctxs := t.ctxs }) ∧
      ((∃ c, c < 128 ∧ (s.core c).busyWith x = true) → exec (.ctxQuiesced x) s = .next s))

/-! ## Links, tokens and elements -/

namespace Sys2Proof

/-- The packet that waits in in port `j` at site `t` for slot `n` was consumed: it is gone from the buffer, whose other packets
stay. -/
def Consumed (t u : Site) (n : Nat) (js : List Nat) : Prop :=
  ∀ j ∈ js, Table.get [] u.inb j = dropHead (Table.get [] t.inb j) n

/-- The packet `o`, of a kind that counts and no EOS, enters the pipeline once for each out port of `js`, with that port's next
ordinal (R99, R123). -/
structure Sends (t u : Site) (n : Nat) (js : List Nat) (o : Out) : Prop where
  pipe : u.pipe = t.pipe ++ js.map fun j =>
    { port := j, ord := ((t.slot n).outPort j).ord,
      pkt := { kind := o.kind, elems := o.elems, last := o.last, aux := o.aux, ord := ((t.slot n).outPort j).ord,
               slot := n, tag := o.tag } }
  ords : ∀ j ∈ js, ((u.slot n).outPort j).ord = ((t.slot n).outPort j).ord + 1

/-- Only site `p` differs. -/
structure OnlySite (s t : State) (p : Nat) : Prop where
  frame : t = { s with sites := t.sites }
  others : ∀ q, q ≠ p → t.site q = s.site q

end Sys2Proof

/-- R94, R96, R99, R103, R113, R114, R384, R420: how a packet travels. The head packet of a source moves to the wire of every
destination that selects it, and an AG in BLOCK at its meter is so no more; the packet on a link's wire enters the far lane
buffer while it has room, marked where the link damaged it; at an in port, a damaged packet faults the site and stays on the
wire to be sent again, and a packet with the next ordinal enters the buffer and the port expects the one after; one whose
length breaks its kind's rule, at a port that the element does not read, a DONE where none may end, or one outside the ordinal
window, faults the site and stays. -/
def Obligations.PacketsTravel : Prop :=
  (∀ (s : State) (p n r : Nat) (c : Cfg) (k : Pkt), s.active p = some (n, c) → headOf ((s.site p).source r) n = some k →
    (s.site p).dests n r ≠ [] → (s.site p).struck r k = [] → (∀ j ∈ (s.site p).dests n r, s.roomAt p n j = true ∧
      (s.site p).antiFor j k = false) → s.metered p r k = false →
    (s.site p).damaged k ((s.site p).dests n r) = none →
    s.breakHit p ((if r < 16 then [] else [srcPort r]) ++ ((s.site p).dests n r).filter (· < 16)) k = none →
    ∃ t, exec (.switchForward p r) s = .next t ∧ OnlySite s t p ∧ (t.site p).source r = dropHead ((s.site p).source r) n ∧
      (∀ j ∈ (s.site p).dests n r, (t.site p).wireAt j = [k]) ∧ (t.site p).inb = (s.site p).inb ∧
      (t.site p).phase = if siteKind p = .ag ∧ r = 16 ∧ k.counts = true ∧ (s.site p).phase = .block then .wait
        else (s.site p).phase) ∧
  (∀ (s : State) (p j q r : Nat) (ok : Bool) (k : Pkt) (w : List Pkt), j < 16 → (s.site p).phase ≠ .fault →
    (s.site p).wireAt j = k :: w → k.kind ≠ mkKill →
    s.hopTo p k.slot j = some (q, r) → (Table.get [] (s.site q).lane r).length < 4 →
      ∃ t, exec (.packetHop p j ok) s = .next t ∧ t = { s with sites := t.sites } ∧ (t.site p).wireAt j = w ∧
        Table.get [] (t.site q).lane r = Table.get [] (s.site q).lane r ++ [{ k with bad := k.bad || !ok }] ∧
        ∀ x, x ≠ p → x ≠ q → t.site x = s.site x) ∧
  (∀ (s : State) (p j : Nat) (k : Pkt) (w : List Pkt), j < 4 → (s.site p).phase ≠ .fault → (s.site p).wireAt (16 + j) = k :: w →
    (k.bad = true → ∃ t, exec (.packetAccept p j) s = .next t ∧ (t.site p).phase = .fault ∧
      (t.site p).wireAt (16 + j) = { k with bad := false } :: w) ∧
    (k.bad = false → k.lenOk = false → ((s.site p).slot k.slot).killing = false →
      ∃ t, exec (.packetAccept p j) s = .next t ∧ (t.site p).phase = .fault ∧ (t.site p).wireAt (16 + j) = k :: w) ∧
    (k.bad = false → k.lenOk = true → k.marker = false → (s.site p).antiFor (16 + j) k = false →
      (j ∉ readPorts ((s.site p).slot k.slot) →
        ∃ t, exec (.packetAccept p j) s = .next t ∧ (t.site p).phase = .fault ∧ (t.site p).wireAt (16 + j) = k :: w) ∧
      (j ∈ readPorts ((s.site p).slot k.slot) → k.kind = 3 → doneAt ((s.site p).slot k.slot).elem j = false →
        ∃ t, exec (.packetAccept p j) s = .next t ∧ (t.site p).phase = .fault ∧ (t.site p).wireAt (16 + j) = k :: w) ∧
      (j ∈ readPorts ((s.site p).slot k.slot) → (k.kind = 3 → doneAt ((s.site p).slot k.slot).elem j = true) →
        ((s.site p).slot k.slot).killing = false →
        (∀ g, s.regionOf p = some g → (s.region g).leftOver k = false) →
        (((s.site p).slot k.slot).inPort j).marks = [] →
        (k.ord.truncate 16 = ((((s.site p).slot k.slot).inPort j).exp.truncate 16 : BitVec 16) →
          ∃ t, exec (.packetAccept p j) s = .next t ∧ OnlySite s t p ∧ (t.site p).wireAt (16 + j) = w ∧
            Table.get [] (t.site p).inb j = Table.get [] (s.site p).inb j ++ [k] ∧
            (((t.site p).slot k.slot).inPort j).exp = (((s.site p).slot k.slot).inPort j).exp + 1) ∧
        (k.ord.truncate 16 ≠ ((((s.site p).slot k.slot).inPort j).exp.truncate 16 : BitVec 16) →
          ∃ t, exec (.packetAccept p j) s = .next t ∧ (t.site p).phase = .fault ∧ (t.site p).wireAt (16 + j) = k :: w))))

/-- R95, R96, R107 to R110, R198: anti-tokens. On its way up a channel an anti-token that meets nothing passes to the reverse
buffer of the hop that feeds its source, unchecked and tagged with the lane it is then for, and one that meets its packet
annihilates it, unless it was damaged on its way, which faults the site and holds it to be sent again; at a producer that has
not sent its ordinal it leaves a pending cancellation, and at a committed store a held one; at a fork it strikes its branch.
-/
def Obligations.AntiTokensTravel : Prop :=
  ∀ (s : State) (p j sel key : Nat) (a : Anti) (rest : List Anti), (s.site p).phase ≠ .fault →
    (s.site p).antiAt j = some (key, a, rest) →
    swSelect ((s.site p).slot a.slot).sw j = sel + 1 → meets ((s.site p).wireAt j) a = .nothing →
    ((s.site p).antiKind j a = .hop →
      (∀ q i ok, sel < 16 → meets ((s.site p).source sel) a = .nothing → s.hopFrom p a.slot sel = some (q, i) → q ≠ p →
        meets ((s.site q).wireAt i) a = .nothing → ((s.site q).revAt ((s.site q).revKey a.slot i)).length < 4 →
        ∃ t, exec (.antiTokenHop p j ok) s = .next t ∧ t = { s with sites := t.sites } ∧ (t.site p).revAt key = rest ∧
          (t.site q).revAt ((s.site q).revKey a.slot i) =
            (s.site q).revAt ((s.site q).revKey a.slot i) ++ [{ a with bad := a.bad || !ok, vl := i % 4 }]) ∧
      (∀ k, meets ((s.site p).source sel) a = .packet k →
        (a.bad = false → ∃ t, exec (.antiTokenHop p j true) s = .next t ∧ OnlySite s t p ∧ (t.site p).revAt key = rest ∧
          (t.site p).source sel = dropNamed a ((s.site p).source sel)) ∧
        (∀ ok, (a.bad || !ok) = true → ∃ t, exec (.antiTokenHop p j ok) s = .next t ∧ (t.site p).phase = .fault ∧
          (t.site p).revAt key = { a with bad := false } :: rest))) ∧
    (16 ≤ sel → meets ((s.site p).source sel) a = .nothing →
      let c := (s.site p).slot a.slot
      let o := c.outPort (sel - 16)
      let m := fullOrd o.ord a.ord
      meets (Table.get [] (s.site p).outb (sel - 16)) a = .nothing → c.killing = false → (s.site p).phase ≠ .idle →
      (s.site p).pipe = [] → (s.site p).mtq = [] → (m - o.ord).toNat < 2 ^ 15 → a.bad = false →
      ((s.site p).antiKind j a = .producer → isCommitted c.elem = false → o.pend.length < 8 →
        ∃ t, exec (.antiTokenProducer p j) s = .next t ∧ OnlySite s t p ∧ (t.site p).revAt key = rest ∧
          (((t.site p).slot a.slot).outPort (sel - 16)).pend = o.pend ++ [m]) ∧
      ((s.site p).antiKind j a = .store → o.held.length < 8 →
        ∃ t, exec (.committedStoreAnti p j) s = .next t ∧ OnlySite s t p ∧ (t.site p).revAt key = rest ∧
          (((t.site p).slot a.slot).outPort (sel - 16)).held = o.held ++ [m])) ∧
    ((s.site p).antiKind j a = .fork → a.bad = false → (s.site p).forks = [] → meets ((s.site p).source sel) a = .nothing →
      ∃ t, exec (.forkAntiToken p j) s = .next t ∧ OnlySite s t p ∧ (t.site p).revAt key = rest ∧
        (t.site p).forks = [{ src := sel, slot := a.slot, ord := a.ord, off := [j] }])

namespace Sys2Proof

/-- The element of site `p`, a compute element configured as `c` in the current slot `n`, may start a firing: it stands in a
state that fires, no KILL has reached it, it has been given no marker, and no result of an earlier firing still waits for room
(R122, R127, R144). -/
def MayStep (s : State) (p n : Nat) (c : Cfg) : Prop :=
  s.active p = some (n, c) ∧ frKind c.elem = 1 ∧ (s.site p).mayFire = true ∧ c.killing = false ∧ c.inj = none ∧
    c.due = []

end Sys2Proof

/-- R99, R104, R119, R122 to R124, R129, R131, R134, R135: the firings of a compute element. An element-wise firing consumes
one packet from every port it reads and sends one result, the operation's value of its operands, on every port it drives, an
ERR of its inputs passing through, and add of .n32 values adding element by element; a result leaves the pipeline for its
output buffer unless its ordinal is cancelled; EOS at every read port is consumed and sent on with its count; a settled early
and-join sends the all-zero packet of the settling one's length and cancels the other input; steer sends its data on the port
that the control chooses; lcmerge takes its entry value; where the data of these two has an odd length of a 64-bit format, a
length-skew goes out instead. -/
def Obligations.ComputeElementsFire : Prop :=
  (∀ (s : State) (p n : Nat) (c : Cfg) (ks : List Pkt), MayStep s p n c → ceWise (ceOp c.elem) = true →
    let t := s.site p
    t.eosView n (readPorts c) = none → t.room (drivenPorts c.elem) = true → t.earlyReady n = false →
    c.plain (drivenPorts c.elem) = true → t.ceOperands n [] = some ks → (∀ k ∈ ks, k.kind < 6) →
    let r := ceResult p c.elem (c.kAt (ceSub c.elem % 8)).toNat (ceFixed c.elem []) ks (ceLast c.elem [] ks)
    let o := r.1
    let fl := r.2
    ∃ u, exec (.ceFire p) s = .next (s.setSite p u) ∧ Consumed t u n (readPorts c) ∧
      o.kind < 6 ∧ o.kind ≠ 1 ∧ Sends t u n (drivenPorts c.elem) o ∧ (u.slot n).flags = c.flags ||| fl ∧
      (∀ e, ceOp c.elem ≠ 0x13 → firstErr (ceCounted c.elem ks) = some e → o = errOut e.aux (e.elems.getD 0 0) ∧ fl = 0) ∧
      (∀ x y, ceOp c.elem = 0x01 → ceSfx c.elem = 9 → ks = [x, y] → x.kind = 0 → y.kind = 0 → x.elems.length = y.elems.length →
        1 ≤ x.elems.length → x.elems.length ≤ 8 → o.kind = 0 ∧ fl = 0 ∧ o.elems = List.zipWith (· + ·) x.elems y.elems)) ∧
  (∀ (s : State) (p i : Nat) (r : Result), let t := s.site p
    t.phase ≠ .fault → t.nextResult = some i → t.pipe[i]? = some r →
    let o := (t.slot r.pkt.slot).outPort r.port
    (t.slot r.pkt.slot).killing = false →
    (o.pend.contains r.ord = false → o.held.contains r.ord = false →
      ∃ u, exec (.firingResult p) s = .next (s.setSite p u) ∧ u.pipe = t.pipe.eraseIdx i ∧
        Table.get [] u.outb r.port = Table.get [] t.outb r.port ++ [r.pkt]) ∧
    (o.pend.contains r.ord = true → r.pkt.kind = 0 →
      ∃ u, exec (.firingResult p) s = .next (s.setSite p u) ∧ u.pipe = t.pipe.eraseIdx i ∧ u.outb = t.outb ∧
        ((u.slot r.pkt.slot).outPort r.port).pend.contains r.ord = false)) ∧
  (∀ (s : State) (p n l : Nat) (c : Cfg) (ended : List Nat), MayStep s p n c → ceWise (ceOp c.elem) = true →
    let t := s.site p
    let js := drivenPorts c.elem
    t.eosView n (readPorts c) = some { level := l, ended, surplus := [], missing := false } → t.room js = true →
    t.earlyReady n = false → t.skipHere n js = none →
    ∃ u, exec (.eosForward p) s = .next (s.setSite p u) ∧ Consumed t u n (readPorts c) ∧
      u.pipe = t.pipe ++ js.map fun j =>
        { port := j, ord := ((t.slot n).outPort j).ord,
          pkt := { kind := 1, elems := [BitVec.ofNat 32 (((t.slot n).outPort j).eosCount (l % 256))], last := false,
                   aux := BitVec.ofNat 8 l, ord := ((t.slot n).outPort j).ord, slot := n } }) ∧
  (∀ (s : State) (p n : Nat) (c : Cfg) (k : Pkt), MayStep s p n c → ceOp c.elem = 0x0C → ceJoin c.elem = true →
    let t := s.site p
    let x := ceA c.elem
    let y := ceB c.elem
    x < 4 → y < 4 → x ≠ y → t.inData n x = some k → earlySettles c.elem k = true → t.inHead n y = none →
    (c.inPort y).marks = [] → c.plain (drivenPorts c.elem) = true → t.room (drivenPorts c.elem) = true →
    ∃ u, exec (.earlyJoinFire p) s = .next (s.setSite p u) ∧ Consumed t u n [x] ∧
      Sends t u n (drivenPorts c.elem) { elems := List.replicate k.elems.length 0, last := k.last } ∧
      u.revAt (16 + y) = t.revAt (16 + y) ++ [{ ord := (c.inPort y).exp.truncate 16, slot := n }]) ∧
  (∀ (s : State) (p n : Nat) (c : Cfg) (ctl k : Pkt) (v : BitVec 32), MayStep s p n c → ceOp c.elem = 0x1B → c.skew = false →
    let t := s.site p
    let x := ceA c.elem
    let y := ceC c.elem
    let out := if v = 0 then 0 else 1
    x < 4 → y < 4 → x ≠ y → t.inData n y = some ctl → ctl.kind = 0 → ctl.elems = [v] → t.inData n x = some k → k.kind = 0 →
    t.room [out] = true → c.cancelledNext [out] = false →
    ∃ u, exec (.steerFire p) s = .next (s.setSite p u) ∧ Consumed t u n [x, y] ∧
      Sends t u n [out] (if k.odd (ceSfx c.elem) then ownErr clsLengthSkew p
        else { elems := k.elems, last := k.last, aux := k.aux, tag := k.tag })) ∧
  (∀ (s : State) (p n : Nat) (c : Cfg) (k : Pkt), MayStep s p n c → ceOp c.elem = 0x1D → c.qAt 0 = 0 →
    let t := s.site p
    ceA c.elem < 4 → t.inData n (ceA c.elem) = some k → k.kind = 0 → t.room (drivenPorts c.elem) = true →
    c.cancelledNext (drivenPorts c.elem) = false →
    ∃ u, exec (.lcmergeStep p) s = .next (s.setSite p u) ∧ Consumed t u n [ceA c.elem] ∧
      Sends t u n (drivenPorts c.elem) (if k.odd (ceSfx c.elem) then ownErr clsLengthSkew p
        else { elems := k.elems, last := k.last, aux := k.aux, tag := k.tag }) ∧
      (u.slot n).qAt 0 = 1 ∧ (u.slot n).qAt 1 = 0)

namespace Sys2Proof

/-- A state of rng's generator, s0 to s3, and the word that R152 draws from it with the state after. -/
abbrev RngState := BitVec 32 × BitVec 32 × BitVec 32 × BitVec 32

def rngWord : RngState → BitVec 32
  | (_, s1, _, _) => (s1 * 5).rotateLeft 7 * 9

def rngAfter : RngState → RngState
  | (s0, s1, s2, s3) => (s0 ^^^ (s3 ^^^ s1), s1 ^^^ (s2 ^^^ s0), s2 ^^^ s0 ^^^ s1 <<< 9, (s3 ^^^ s1).rotateLeft 11)

/-- The generator's state after `m` words. -/
def rngState (q : RngState) : Nat → RngState
  | 0 => q
  | m + 1 => rngAfter (rngState q m)

/-- What bcvt sends for one block of values (R153): its codes on out0, eight to a packet, then its scale on out1; with the
flags that the conversion raises. -/
def blockOuts (f : BitVec 256) (src dst : Fmt) (vs : List (BitVec 32)) : List (Nat × Out) × Flags :=
  let b := blockConvert dst (.of (ceRm f)) (ceFf f) (vs.map fun v => FVal.decode src (v.toNat % 2 ^ sfxBits (ceSfx f)))
  (((List.range ((b.2.1.length + 7) / 8)).map fun i =>
      (0, { elems := ((b.2.1.drop (8 * i)).take 8).map (BitVec.ofNat 32), last := decide (b.2.1.length ≤ 8 * (i + 1)) })) ++
    [(1, { elems := [BitVec.ofNat 32 b.1], last := true })], b.2.2)

end Sys2Proof

/-- R136, R152 to R154, R176: the sources and the operations that run over packets. cnt sends the next indices of its innermost
level, last at its end; rng the next words of its generator; bcvt gathers values into blocks of 256, which a packet with last
= 1 ends early, and sends every block's codes and scale, as many at once as its ports have room for and the others later; red
sends the sum of a run that one packet with last = 1 holds; lut sends its table's value of every element. -/
def Obligations.SourcesAndRunsEmit : Prop :=
  (∀ (s : State) (p n : Nat) (c : Cfg), MayStep s p n c → ceOp c.elem = 0x1F → c.inj = none → c.gate = false →
    c.cntDone = false → c.todo = [] → (s.site p).room [0] = true →
    let inner := c.cntLevels - 1
    let i := (c.qAt inner).toNat
    let len := min (fld (c.kAt 0) 6 4 + 1) (c.cntCount inner - i)
    ∃ u, exec (.cntEmit p) s = .next (s.setSite p u) ∧
      Sends (s.site p) u n [0]
        { kind := 4, elems := (List.range len).map fun d => c.kAt 5 + c.kAt 6 * BitVec.ofNat 32 (i + d),
          last := decide (c.cntCount inner ≤ i + len) }) ∧
  (∀ (s : State) (p n : Nat) (c : Cfg), MayStep s p n c → ceOp c.elem = 0x22 → c.inj = none → c.rngDone = false → c.todo = [] →
    (s.site p).room (drivenPorts c.elem) = true →
    let len := (c.kAt 0).toNat % 8 + 1
    let q := rngState (c.qAt 0, c.qAt 1, c.qAt 2, c.qAt 3)
    ∃ u, exec (.rngEmit p) s = .next (s.setSite p u) ∧
      Sends (s.site p) u n (drivenPorts c.elem) { elems := (List.range len).map fun i => rngWord (q i) } ∧
      ((u.slot n).qAt 0, (u.slot n).qAt 1, (u.slot n).qAt 2, (u.slot n).qAt 3) = q len) ∧
  (∀ (s : State) (p n : Nat) (c : Cfg) (k : Pkt), MayStep s p n c → ceOp c.elem = 0x16 → ceA c.elem < 4 →
    let t := s.site p
    t.room [0, 1] = true → t.inData n (ceA c.elem) = some k → k.kind = 0 → c.carry.length < 256 → k.elems.length ≤ 8 →
    ∀ src dst, fmtOf (ceSfx c.elem) = some src → fmtOf (ceSub c.elem % 16) = some dst →
    let vs := c.carry ++ k.elems
    let rest := if 256 ≤ vs.length then vs.drop 256 else vs
    let full := if 256 ≤ vs.length then blockOuts c.elem src dst (vs.take 256) else ([], 0)
    let short := if k.last = true ∧ rest ≠ [] then blockOuts c.elem src dst rest else ([], 0)
    let os := full.1 ++ short.1
    ∃ u m, exec (.bcvtBlock p) s = .next (s.setSite p u) ∧ Consumed t u n [ceA c.elem] ∧
      (u.slot n).carry = (if k.last then [] else rest) ∧ (u.slot n).flags = c.flags ||| (full.2 ||| short.2) ∧
      m ≤ os.length ∧ (os ≠ [] → 1 ≤ m) ∧ (u.slot n).due = (os.drop m).map (fun x => ([x.1], x.2)) ∧
      u.pipe = t.pipe ++ (List.range m).map fun i =>
        let x := os.getD i (0, {})
        let o := (c.outPort x.1).ord + BitVec.ofNat 48 ((os.take i).countP fun y => y.1 = x.1)
        { port := x.1, ord := o, pkt := { kind := 0, elems := x.2.elems, last := x.2.last, aux := 0, ord := o, slot := n } }) ∧
  (∀ (s : State) (p n : Nat) (c : Cfg) (k : Pkt) (e : BitVec 32) (es : List (BitVec 32)), MayStep s p n c →
    ceOp c.elem = 0x17 → ceSfx c.elem = 9 → ceSub c.elem = 0 → ceA c.elem < 4 → c.run = false → c.runErr = none →
    c.cancelledNext (drivenPorts c.elem) = false →
    let t := s.site p
    t.inData n (ceA c.elem) = some k → k.kind = 0 → k.last = true → k.elems = e :: es →
    t.room (drivenPorts c.elem) = true →
    ∃ u, exec (.redResult p) s = .next (s.setSite p u) ∧ Consumed t u n [ceA c.elem] ∧
      Sends t u n (drivenPorts c.elem) { elems := [es.foldl (· + ·) e], last := true } ∧ (u.slot n).run = false ∧
      (u.slot n).flags = c.flags) ∧
  (∀ (s : State) (p n : Nat) (c : Cfg) (k : Pkt), MayStep s p n c → ceOp c.elem = 0x21 → ceA c.elem < 4 →
    let t := s.site p
    t.inData n (ceA c.elem) = some k → k.kind = 0 → t.room (drivenPorts c.elem) = true →
    c.plain (drivenPorts c.elem) = true →
    let r := k.elems.map fun x => lutValue c (.of (ceRm c.elem)) (ceApprox c.elem) ((c.kAt 0).toNat % 4) x.toNat
    ∃ u, exec (.lutFire p) s = .next (s.setSite p u) ∧ Consumed t u n [ceA c.elem] ∧
      Sends t u n (drivenPorts c.elem) { elems := r.map fun v => BitVec.ofNat 32 v.1, last := k.last } ∧
      (u.slot n).flags = c.flags ||| r.foldl (fun a v => a ||| v.2) 0)

/-- R127, R142, R144, R174, R440, R441: markers and cuts. A DORMOUSE or OWL at the head of a read input holds the element, and
a KILL discards what stands ahead of it, and at a STOPPED element of a cut's region sets CUT.kill; once a marker stands on
every read input and nothing of the slot is inside, an element in HOLD goes to SAVED, STOPPED or, cleared, IDLE. A cut started
on a die sends OWL into the slot that is current in its region, completes when every element of that slot stands, and is
released to WAIT. -/
def Obligations.MarkersAndCuts : Prop :=
  (∀ (s : State) (p j n : Nat), s.curSlot p = some n →
    let t := s.site p
    let c := t.slot n
    isLcmerge c.elem = false → markPorts c ≠ [] →
    (t.phase = .wait → t.atMarker n j = true → (Table.get [] t.inb j).any (fun k => k.slot == n && k.kind == mkKill) = false →
      ∃ u, exec (.markerArrive p j) s = .next u ∧ OnlySite s u p ∧ (u.site p).phase = .hold) ∧
    (c.killing = false → t.phase ≠ .loading → (Table.get [] t.inb j).any (fun k => k.slot == n && k.kind == mkKill) = true →
      ∃ u, exec (.markerArrive p j) s = .next u ∧ ((u.site p).slot n).killing = true ∧ (u.site p).phase = .hold ∧
        (t.phase = .stopped → ∀ d g, d < 4 → s.regionOf p = some g → (s.die d).cutRegion = some g → fld (u.reg (cutPa d)) 62 62 = 1) ∧
        (∀ i pre q post, i < 4 → Table.get [] t.inb i = pre ++ q :: post → q.slot = n → q.kind = mkKill →
          (∀ x ∈ pre, ¬ (x.slot = n ∧ x.kind = mkKill)) →
          Table.get [] (u.site p).inb i = pre.filter (fun x => x.slot ≠ n) ++ q :: post) ∧
        (∀ r ∈ (u.site p).pipe, r.pkt.slot = n → r.pkt.marker = true) ∧ (∀ a, u.mem.read a = s.mem.read a))) ∧
  (∀ (s : State) (p g n : Nat) (k : Pkt) (js : List Nat), s.regionOf p = some g → (s.region g).cur = some n →
    let t := s.site p
    t.marker? n = some (k, js) → k.marker = true → t.phase = .hold → (k.kind ≠ mkKill → t.quietInside n = true) →
    (t.slot n).killing = (k.kind == mkKill) →
    ∃ u, exec (.markerComplete p) s = .next u ∧ (u.site p).phase =
        (if k.kind = mkDormouse then .saved else if k.kind = mkOwl then .stopped else .idle) ∧
      (k.kind = mkKill → ((u.site p).slot n).q = (t.slot n).q0 ∧ ((u.site p).slot n).discard = 0 ∧
        ((u.site p).slot n).killing = false ∧ (u.site p).matq.all (fun e => e.slot != n) = true) ∧
      (isLcmerge (t.slot n).elem = false → ∀ i ∈ drivenPorts (t.slot n).elem,
        ∃ r ∈ (u.site p).pipe, r.port = i ∧ r.pkt.kind = k.kind ∧ r.pkt.elems = k.elems)) ∧
  (∀ (s : State) (who : Agent) (d g n : Nat), d < 4 → s.mayWrite who (cutstPa d) = true →
    (s.cutSt d = 0 → s.regionAt (fld (s.reg (cutPa d)) 12 0) = some g → (s.region g).cur = some n →
      ∃ t, exec (.cutStart who d) s = .next t ∧ t.cutSt d = 1 ∧ (t.die d).cutRegion = some g ∧ (t.die d).cutSlot = n ∧
        ∀ p ∈ s.workers (s.region g) n, markPorts ((s.site p).slot n) = [] → ((s.site p).slot n).inj = none →
          ∃ k, ((t.site p).slot n).inj = some k ∧ k.kind = mkOwl) ∧
    (s.cutSt d = 2 → (s.die d).cutRegion = some g →
      ∃ t, exec (.cutRelease who d) s = .next t ∧ t.cutSt d = 0 ∧ (t.die d).cutRegion = none ∧
        ∀ p ∈ (s.region g).sites, (s.site p).phase = .stopped → (t.site p).phase = .wait) ∧
    (s.cutSt d ≠ 2 → ∃ t, exec (.cutRelease who d) s = .next t ∧ fld (t.reg (cutPa d)) 63 63 = 1 ∧ t.sites = s.sites)) ∧
  (∀ (s : State) (d g : Nat), d < 4 → (s.die d).cutRegion = some g → s.cutSt d = 1 →
    (s.workers (s.region g) (s.die d).cutSlot).all
      (fun p => (s.site p).phase == .stopped || (s.site p).phase == .idle) = true →
    s.noAnti g (s.die d).cutSlot = true →
    ∃ t, exec (.cutComplete d) s = .next t ∧ t.cutSt d = 2 ∧ (∀ a, t.mem.read a = s.mem.read a))

/-! ## The matrix node -/

namespace Sys2Proof

/-- The head entry of the matrix queue of site `p` is `e`, and it may execute: the site holds no fault and R168 does not stop
it. -/
def HeadEntry (s : State) (p : Nat) (e : MatEntry) (q : List MatEntry) : Prop :=
  (s.site p).matq = e :: q ∧ (s.site p).live = true ∧ (s.site p).binStops e = false

/-- The word that an mma entry over the blocks `a` and `b` leaves in output `o` of its tile, which held `acc` (R166). -/
def mmaWord (s : State) (e : MatEntry) (a b : Desc) (o : Nat) (acc : BitVec 32) : BitVec 32 :=
  let act := ceSfx e.frame
  BitVec.ofNat 32 (if act = 6 then (mmaInt acc.toNat ((s.blockInts a (o / 32)).zip (s.blockInts b (o % 32)))).1
    else (mmaFloat acc.toNat ((s.blockRow a act 64 (o / 32) (ceFf e.frame)).zip
      (s.blockRow b (matW e.frame) 32 (o % 32) (ceFf e.frame)))).1)

end Sys2Proof

/-- R157 to R159, R162, R166 to R172, R225: the matrix node. A firing of mma takes its two TILEs and places one entry, and
with kend = 1 takes one unit of a limited tile counter. An mma entry opens its tile, adds its k-group to every output or
records its error, and with kend = 1 closes the tile and sends its done token; one that would break an open bin run faults.
EOS closes the context's open tiles and is sent on; acc.rd and acc.wb send the tile's words, as many packets at a time as the
port has room for, and stay at the head of the queue until the last has gone; acc.clr zeroes and closes the tile;
cbk.ld writes the sixteen codebook entries. -/
def Obligations.MatrixOperationsExecute : Prop :=
  (∀ (s : State) (p n : Nat) (c : Cfg) (a b : Pkt), MayStep s p n c → ceOp c.elem = 0x30 →
    let t := s.site p
    t.matq.length < 4 → t.eosView n (readPorts c) = none → t.inData n (ceA c.elem) = some a → t.inData n (ceB c.elem) = some b →
    a.kind = 5 → b.kind = 5 → (a.desc.kend = true → s.tcWaits p n = false ∧ t.matRoom (drivenPorts c.elem) = true) →
    ∃ u, exec (.matrixEntryPlace p) s = .next u ∧ Consumed t (u.site p) n (readPorts c) ∧
      (u.site p).matq = t.matq ++ [{ slot := n, frame := c.elem, k0 := c.kAt 0, a := some a, b := some b,
                                     err := mmaErr p c.elem a b, eos := none }] ∧
      (∀ g, s.regionOf p = some g → ((s.region g).slot n).limited = true →
        ((u.region g).slot n).tc = ((s.region g).slot n).tc - (if a.desc.kend then 1 else 0)) ∧ u.accWords = s.accWords) ∧
  (∀ (s : State) (p : Nat) (e : MatEntry) (q : List MatEntry), HeadEntry s p e q → ceOp e.frame = 0x30 → e.eos = none →
    s.matPoison p e = false → (s.site p).bin = none →
    let k := matTile e.frame
    let old := (s.site p).accTile k
    ∃ t, exec (.mmaExecute p) s = .next t ∧ (t.site p).matq = q ∧ ((t.site p).accTile k).owner = e.slot ∧
      (e.kend = true → ((t.site p).accTile k).opened = false ∧
        Sends (s.site p) (t.site p) e.slot (drivenPorts e.frame) (doneToken k ((t.site p).accTile k))) ∧
      (e.kend = false → ((t.site p).accTile k).opened = true ∧ (t.site p).pipe = (s.site p).pipe) ∧
      (∀ r, e.err = some r → ((t.site p).accTile k).err = (if old.opened && old.err.isSome then old.err else some r) ∧
        (old.opened = true → t.accWords = s.accWords)) ∧
      (∀ a b o, e.err = none → e.a = some a → e.b = some b → matW e.frame ≠ 5 → o < 2048 →
        t.accWord p k o = mmaWord s e a.desc b.desc o (if old.opened then s.accWord p k o else 0)) ∧
      (∀ x, t.mem.read x = s.mem.read x)) ∧
  (∀ (s : State) (p : Nat) (e : MatEntry) (q : List MatEntry), (s.site p).matq = e :: q → (s.site p).live = true →
    (s.site p).binStops e = true → ceOp e.frame = 0x30 → e.eos = none → s.matPoison p e = false →
    ∃ t, exec (.mmaExecute p) s = .next t ∧ (t.site p).phase = .fault ∧ (t.site p).matq = e :: q ∧ t.accWords = s.accWords) ∧
  (∀ (s : State) (p l : Nat) (e : MatEntry) (q : List MatEntry), HeadEntry s p e q → e.eos = some l →
    ∃ t u, exec (.matrixEosExecute p) s = .next t ∧ (t = u ∨ ceOp e.frame = 0x31 ∧ ∃ g, t = u.killPoint g) ∧
      (u.site p).matq = q ∧ (∀ k, k < 8 → ((u.site p).accTile k).opened =
        (((s.site p).accTile k).opened && !(ceOp e.frame == 0x30 && ((s.site p).accTile k).owner == e.slot))) ∧
      ∀ j ∈ drivenPorts e.frame, ∃ r ∈ (u.site p).pipe, r.port = j ∧ r.pkt.kind = 1 ∧ r.pkt.aux = BitVec.ofNat 8 l ∧
        r.pkt.ord = (((s.site p).slot e.slot).outPort j).ord) ∧
  (∀ (s : State) (p j : Nat) (e : MatEntry) (q : List MatEntry), HeadEntry s p e q → e.eos = none → ceOp e.frame = 0x31 →
    e.a = none → e.left = none → drivenPorts e.frame = [j] → ((s.site p).accTile (matTile e.frame)).err = none →
    (s.site p).room [j] = true → s.accPoison p (matTile e.frame) (s.accRows p e) = false →
    ∃ t m, exec (.accReadExecute p) s = .next t ∧ t.accWords = s.accWords ∧ 1 ≤ m ∧ m ≤ 4 ∧ (t.site p).room [j] = false ∧
      (t.site p).matq = { e with left := some (((s.rdPackets p (matTile e.frame)).drop m).map fun o => ([j], o)) } :: q ∧
      (t.site p).pipe = (s.site p).pipe ++ (List.range m).map fun i =>
        let o := (((s.site p).slot e.slot).outPort j).ord + BitVec.ofNat 48 i
        { port := j, ord := o,
          pkt := { kind := 0, elems := (List.range 8).map fun w => s.accWord p (matTile e.frame) (8 * i + w),
                   last := i % 4 == 3, aux := 0, ord := o, slot := e.slot } }) ∧
  (∀ (s : State) (p j : Nat) (e : MatEntry) (q : List MatEntry), HeadEntry s p e q → e.eos = none → ceOp e.frame = 0x31 →
    e.left = some [([j], { kind := 1 })] → (s.site p).room [j] = true →
    ∃ t u r, exec (.accReadExecute p) s = .next t ∧ (t = u ∨ ∃ g, t = u.killPoint g) ∧ (u.site p).matq = q ∧
      (u.site p).pipe = (s.site p).pipe ++ [r] ∧ r.port = j ∧ r.pkt.kind = 1 ∧ r.pkt.aux = 0) ∧
  (∀ (s : State) (p : Nat) (e : MatEntry) (a : Pkt) (rows : List Nat) (q : List MatEntry), HeadEntry s p e q → e.eos = none →
    ceOp e.frame = 0x33 → e.a = some a → a.kind ≠ 2 → e.left = none → ((s.site p).accTile (matTile e.frame)).err = none →
    liveRows e.frame a = some rows → drivenPorts e.frame = [0] → s.accPoison p (matTile e.frame) rows = false →
    let os : List Out := rows.flatMap fun x => (List.range 4).map fun m =>
      { elems := (List.range 8).map fun i => (wbWord e.frame (s.accWord p (matTile e.frame) (32 * x + 8 * m + i))).1, last := m == 3 }
    ∃ t m, exec (.accReadExecute p) s = .next t ∧ t.accWords = s.accWords ∧
      (m = os.length ∧ (t.site p).matq = q ∨ m < os.length ∧ (t.site p).room [0] = false ∧
        (t.site p).matq = { e with left := some ((os.drop m).map fun o => ([0], o)) } :: q) ∧
      (t.site p).pipe = (s.site p).pipe ++ ((os.take m).zipIdx.map fun x =>
        let o := (((s.site p).slot e.slot).outPort 0).ord + BitVec.ofNat 48 x.2
        { port := 0, ord := o,
          pkt := { kind := 0, elems := x.1.elems, last := x.1.last, aux := 0, ord := o, slot := e.slot } })) ∧
  (∀ (s : State) (p : Nat) (e : MatEntry) (q : List MatEntry), HeadEntry s p e q → e.eos = none → ceOp e.frame = 0x32 →
    ∃ t, exec (.accClrExecute p) s = .next t ∧ (t.site p).matq = q ∧
      (t.site p).accTile (matTile e.frame) = { opened := false, owner := e.slot, err := none } ∧
      ∀ o, o < 2048 → t.accWord p (matTile e.frame) o = 0) ∧
  (∀ (s : State) (p : Nat) (e : MatEntry) (a : Pkt) (q : List MatEntry), HeadEntry s p e q → e.eos = none →
    ceOp e.frame = 0x34 → e.a = some a →
    ∃ t, exec (.cbkLdExecute p) s = .next t ∧ (t.site p).matq = q ∧ ∀ i, i < 16 →
      Table.get 0 ((t.site p).slot (fld e.k0 1 0)).cbk i = BitVec.ofNat 16 ((a.elems.getD (i / 2) 0).toNat / 2 ^ (16 * (i % 2))))

/-! ## Memory tiles -/

namespace Sys2Proof

/-- The element of memory tile `p`, configured as `c` in the current slot `n`, may place an entry: its queue has room, no EOS,
marker injection or cancellation is in its way, and its ports have room (R122, R181); qpush pushes an EOS too (R191). -/
def MayPlace (s : State) (p n : Nat) (c : Cfg) (op : Nat) : Prop :=
  s.active p = some (n, c) ∧ frKind c.elem = 2 ∧ mtOp c.elem = op ∧ (s.site p).mayFire = true ∧ c.killing = false ∧
    (s.site p).mtq.length < 64 ∧ (op ≠ 8 → (s.site p).noEos n (readPorts c) = true) ∧ c.inj = none ∧
    c.plain (cancelPorts c.elem) = true ∧ (s.site p).room (drivenPorts c.elem) = true

/-- One entry over the words `ws`, with the data `d` and the compared values `x`, entered the queue of a tile, and its packets'
ordinals are reserved on the ports `outs` and, where the pattern asks for one, on the DONE port (R181, R186). -/
def Placed (t u : Site) (n : Nat) (ws : List Nat) (d x : List (BitVec 32)) (outs : List Nat) : Prop :=
  let c := t.slot n
  ∃ e, u.mtq = t.mtq ++ [e] ∧ e.id = t.nextEntry ∧ u.nextEntry = t.nextEntry + 1 ∧ e.slot = n ∧ e.frame = c.elem ∧
    e.words = ws ∧ e.data = d ∧ e.cmp = x ∧ e.aside = false ∧ e.outs = outs.map (fun j => (j, (c.outPort j).ord)) ∧
    e.done = if mtDe c.elem then some (mtDport c.elem, (c.outPort (mtDport c.elem)).ord) else none

/-- The entry `e` left the queue, its data packet `k` and its DONE going out with the ordinals that it reserved (R182, R194). -/
def Retired (t u : Site) (e : MtEntry) (es : List (BitVec 32)) : Prop :=
  u.mtq = t.mtq.filter (fun x => x.id ≠ e.id) ∧
    (∀ o ∈ e.outs, ∃ r ∈ u.pipe, r.port = o.1 ∧ r.ord = o.2 ∧ r.pkt.elems = es ∧ r.pkt.last = e.last ∧ r.pkt.kind = 0) ∧
    ∀ o, e.done = some o → ∃ r ∈ u.pipe, r.port = o.1 ∧ r.ord = o.2 ∧ r.pkt.kind = 3 ∧
      r.pkt.elems = [BitVec.ofNat 32 (mtScope e.frame)]

/-- Entry `e`, with `older` before it, may take effect now, and no poisoned word is in its way (R183, R419). -/
def MayRetire (s : State) (p : Nat) (older : List MtEntry) (e : MtEntry) : Prop :=
  splitEntries e.id (s.site p).mtq = some (older, e) ∧ (s.site p).live = true ∧ s.entryReady p older e = true ∧
    s.readsPoison p e = false

end Sys2Proof

/-- R181 to R183, R187 to R191, R194, R199: a memory tile's requests. A firing of ld, st, ld.fe, st.fe, gath or scat places
one entry over the words that its indices name, or, where one is out of range, ends in ERR; amo, qpush and qpop place theirs.
An entry takes effect and retires in one step: a load sends its words, a store leaves its data (st.fe with the words full), an
amo leaves the new value and sends the old, qpush leaves its record full and moves the tail, qpop empties its record, sends
its packet, an EOS with the count of the port it leaves by, and moves the head; an ld.fe that finds a word empty stands aside
until every word is full. -/
def Obligations.TileRequestsTakeEffect : Prop :=
  (∀ (s : State) (p n op : Nat) (c : Cfg) (a b : Pkt), MayPlace s p n c op → 1 ≤ op → op ≤ 6 → tileMode c.elem = false →
    let t := s.site p
    t.mtIndex n (mtA c.elem) = some a → a.kind ≠ 2 →
    ((mtSelectors c.elem).contains (mtB c.elem) = true → t.mtOperand n (mtB c.elem) = some b ∧ b.kind ≠ 2) →
    (∀ ws d, mtPlan c a b = some (ws, d) →
      ∃ u, exec (.mtRequest p) s = .next (s.setSite p u) ∧ Consumed t u n (readPorts c) ∧
        Placed t u n ws d [] (if op = 2 ∨ op = 4 ∨ op = 6 then [] else mtDataPorts c.elem)) ∧
    (mtPlan c a b = none →
      ∃ u, exec (.mtRequest p) s = .next (s.setSite p u) ∧ u.mtq = t.mtq ∧ ∀ j ∈ mtDataPorts c.elem,
        ∃ r ∈ u.pipe, r.port = j ∧ r.pkt.kind = 2 ∧ r.pkt.aux = 2 ∧ r.pkt.elems = [BitVec.ofNat 32 p])) ∧
  (∀ (s : State) (p n : Nat) (c : Cfg) (a b : Pkt) (ws : List Nat) (d : List (BitVec 32)), MayPlace s p n c 7 →
    let t := s.site p
    t.mtIndex n (mtA c.elem) = some a → a.kind ≠ 2 → t.mtOperand n (mtB c.elem) = some b → b.kind ≠ 2 →
    mtAmo c.elem ≠ 9 → a.elems.length * mtW c.elem ≤ 8 → mtData c b a.elems.length = some d →
    mtWords c.elem (a.elems.map (·.toNat)) = some ws →
    ∃ u, exec (.amoFire p) s = .next (s.setSite p u) ∧ Consumed t u n (readPorts c) ∧
      Placed t u n ws d [] (mtDataPorts c.elem)) ∧
  (∀ (s : State) (p n : Nat) (c : Cfg) (b : Pkt), MayPlace s p n c 8 → (s.site p).mtOperand n (mtB c.elem) = some b →
    ∃ u, exec (.qpush p) s = .next (s.setSite p u) ∧ Consumed (s.site p) u n (readPorts c) ∧
      Placed (s.site p) u n [] [] [] []) ∧
  (∀ (s : State) (p n : Nat) (c : Cfg), MayPlace s p n c 9 →
    ∃ u, exec (.qpop p) s = .next (s.setSite p u) ∧ Placed (s.site p) u n [] [] [] (mtDataPorts c.elem)) ∧
  (∀ (s : State) (p : Nat) (e : MtEntry) (older : List MtEntry), MayRetire s p older e →
    let full := e.words.all fun w => s.isFull (wordAddr p w)
    (mtOp e.frame = 1 ∨ mtOp e.frame = 5 ∨ mtOp e.frame = 3 ∧ e.aside = false ∧ full = true →
      ∃ t, exec (.mtEntryRetire p e.id) s = .next t ∧ OnlySite s t p ∧
        Retired (s.site p) (t.site p) e (e.words.map fun w => s.word (wordAddr p w))) ∧
    (mtOp e.frame = 3 → e.aside = false → full = false →
      ∃ t, exec (.mtEntryRetire p e.id) s = .next t ∧ OnlySite s t p ∧ (t.site p).pipe = (s.site p).pipe ∧
        (t.site p).mtq = (s.site p).mtq.map fun x => if x.id = e.id then { x with aside := true } else x) ∧
    (mtOp e.frame = 3 → e.aside = true →
      ∃ t, exec (.ldfeWake p e.id) s = .next t ∧ OnlySite s t p ∧ full = true ∧
        Retired (s.site p) (t.site p) e (e.words.map fun w => s.word (wordAddr p w))) ∧
    (mtOp e.frame = 2 ∨ mtOp e.frame = 4 ∨ mtOp e.frame = 6 →
      let ps := e.words.zip e.data
      ∃ t, exec (.mtEntryRetire p e.id) s = .next t ∧ (t.site p).mtq = (s.site p).mtq.filter (fun x => x.id ≠ e.id) ∧
        (∀ (i w : Nat) (v : BitVec 32), ps[i]? = some (w, v) → (∀ j v', i < j → ps[j]? ≠ some (w, v')) → t.word (wordAddr p w) = v) ∧
        (∀ a, (∀ x ∈ ps, ¬ (wordAddr p x.1 ≤ a ∧ a < wordAddr p x.1 + 4)) → t.mem.read a = s.mem.read a) ∧
        ∀ w, t.isFull (wordAddr p w) = (s.isFull (wordAddr p w) || mtOp e.frame == 4 && (ps.map (·.1)).contains w)) ∧
    (∀ w v, mtOp e.frame = 7 → mtW e.frame = 1 → e.words = [w] → e.data = [v] →
      ∃ t, exec (.mtEntryRetire p e.id) s = .next t ∧
        t.word (wordAddr p w) = amoNew 32 (mtAmo e.frame) (s.word (wordAddr p w)) v (e.cmp.getD 0 0) ∧
        Retired (s.site p) (t.site p) e [s.word (wordAddr p w)] ∧
        ∀ a, ¬ (wordAddr p w ≤ a ∧ a < wordAddr p w + 4) → t.mem.read a = s.mem.read a) ∧
    (mtOp e.frame = 8 → let ws := s.ringWords p e
      ∃ t, exec (.mtEntryRetire p e.id) s = .next t ∧ (t.site p).mtq = (s.site p).mtq.filter (fun x => x.id ≠ e.id) ∧
        (∀ w ∈ ws, t.isFull (wordAddr p w) = true) ∧
        t.word (wordAddr p (mtBase e.frame + 1)) = BitVec.ofNat 32 ((s.ringOff p e true + ws.length) % max 1 e.ringCap)) ∧
    (mtOp e.frame = 9 → let ws := s.ringWords p e
      ∃ t, exec (.mtEntryRetire p e.id) s = .next t ∧ (t.site p).mtq = (s.site p).mtq.filter (fun x => x.id ≠ e.id) ∧
        (∀ w ∈ ws, t.isFull (wordAddr p w) = false) ∧
        t.word (wordAddr p (mtBase e.frame)) = BitVec.ofNat 32 ((s.ringOff p e false + ws.length) % max 1 e.ringCap) ∧
        let h := s.word (wordAddr p (ws.getD 0 0))
        ws ≠ [] → (e.outs.map (·.1)).Nodup → ∀ o ∈ e.outs, ∃ r ∈ (t.site p).pipe, r.port = o.1 ∧ r.ord = o.2 ∧ r.pkt.kind = fld h 31 28 ∧
          r.pkt.elems = if fld h 31 28 = 1
            then [BitVec.ofNat 32 ({ ((s.site p).slot e.slot).outPort o.1 with ord := o.2 }.eosCount (fld h 23 16))]
            else (ws.drop 1).map fun w => s.word (wordAddr p w)))

/-- R191, R193, R195, R196, R318, R353, R357: DONE joins, live blocks, barrier arrivals and waits on an empty queue. done
consumes a DONE on each of its inputs and sends one on dport, which is 0 with de = 0 (log 75); a tile-mode ld sends its TILE
and makes its block live; a release counts the block's uses down and frees it at the last; bar.arr places an arrival over the
barrier's words; a barrier step is the step of R353; a qpop that has waited on an empty head posts one message to its group's
channel. -/
def Obligations.TileBlocksAndBarriers : Prop :=
  (∀ (s : State) (p n : Nat) (c : Cfg) (ks : List Pkt), MayPlace s p n c 0x0B →
    let t := s.site p
    ((readPorts c).filterMap (t.inData n)) = ks → ks.length = (readPorts c).length → (∀ k ∈ ks, k.kind = 3) →
    ∃ u, exec (.doneFire p) s = .next (s.setSite p u) ∧ Consumed t u n (readPorts c) ∧
      Sends t u n (doneOut c.elem) { kind := 3, elems := [BitVec.ofNat 32 (mtScope c.elem)] }) ∧
  (∀ (s : State) (p n : Nat) (c : Cfg) (a : Pkt) (es : List (BitVec 32)) (first size : Nat), MayPlace s p n c 1 →
    tileMode c.elem = true →
    let t := s.site p
    t.mtIndex n (mtA c.elem) = some a → a.kind ≠ 2 → t.blocks.length < 16 →
    t.mtq.any (fun q => s.blockedBy p q [mtBase c.elem + (a.elems.getD 1 0).toNat]) = false →
    s.tilePlan p c a = some (es, first, size) → s.poison.contains (wordAddr p (mtBase c.elem + (a.elems.getD 1 0).toNat)) = false →
    ∃ u, exec (.tileLd p) s = .next (s.setSite p u) ∧ Consumed t u n (readPorts c) ∧
      u.blocks = t.blocks ++ [{ id := t.nextEntry, slot := n, first, size, left := fld (c.kAt 1) 5 0 }] ∧
      ∀ j ∈ mtDataPorts c.elem, ∃ r ∈ u.pipe, r.port = j ∧ r.pkt.kind = 5 ∧ r.pkt.elems = es ∧ r.pkt.last = a.last ∧
        r.pkt.tag = t.nextEntry) ∧
  (∀ (s : State) (p k q id : Nat) (b : Block) (pre post : List Block), (s.site p).freed[k]? = some (q, id) →
    (s.site q).blocks = pre ++ b :: post → (∀ x ∈ pre, x.id ≠ id) → b.id = id →
    ∃ t, exec (.blockRelease p k) s = .next t ∧ (t.site p).freed = (s.site p).freed.eraseIdx k ∧
      (t.site q).blocks = pre ++ (if b.left ≤ 1 then post else { b with left := b.left - 1 } :: post)) ∧
  (∀ (s : State) (p n : Nat) (c : Cfg) (a : Pkt), MayPlace s p n c 0x0A →
    let t := s.site p
    let e0 := a.elems.getD 0 0
    t.mtIndex n (mtA c.elem) = some a → a.kind ≠ 2 →
    (a.kind = 3 ∨ (a.elems.length = 1 ∨ a.elems.length = 2) ∧ fld e0 31 16 = 0) →
    ∃ u, exec (.barArrFire p) s = .next (s.setSite p u) ∧ Consumed t u n (readPorts c) ∧
      Placed t u n ((List.range 4).map (mtBase c.elem + ·)) (if a.kind = 3 then [1, 0] else [e0, a.elems.getD 1 0]) [] []) ∧
  (∀ (s : State) (pa p x n : Nat) (e y : BitVec 32), tileOf pa = some (p, x) → pa % 16 = 0 →
    s.tileFree p ((List.range 4).map (x + ·)) true = true → n ≤ (s.barRem pa).toNat →
    ∃ t, exec (.barrierStep pa e y n) s = .next t ∧ s.barStep pa e y n = some t) ∧
  (∀ (s : State) (p g n : Nat) (h : Nat × Nat) (i : Nat) (t : Task), s.regionOf p = some g →
    (List.range 4).find? (fun m => s.popWaits p m && !Table.has (s.site p).dry m) = some n → s.groupOf g = some (h, i, t) →
    bit (t.bytes.getD 29 0) 2 = false → ((s.core (s.region g).lead).channel t.gch).takes = true →
    ∃ u, exec (.queueDry p) s = .next u ∧ Table.has (u.site p).dry n = true ∧ u.cmds = s.cmds ∧
      ((u.core (s.region g).lead).channel t.gch).queue = ((s.core (s.region g).lead).channel t.gch).queue ++
        [{ group := (s.region g).group
           words := [BitVec.ofNat 64 (5 * 2 ^ 56), BitVec.ofNat 64 ((s.region g).relSite p), BitVec.ofNat 64 n, 0xFF] }])

/-! ## Streams -/

namespace Sys2Proof

/-- The address generator at `p`, configured as `c` in the current slot `n`, may take a step of operation `op` (R203, R212). -/
def MayStream (s : State) (p n : Nat) (c : Cfg) (op : Nat) : Prop :=
  s.active p = some (n, c) ∧ frKind c.elem = 4 ∧ agOp c.elem = op ∧ (s.site p).mayFire = true ∧ c.killing = false ∧
    c.stopAt = none ∧ c.inj = none

end Sys2Proof

/-- R47, R204, R205, R207 to R212, R280, R282: streams and their windows. A window writes the bytes that it coalesces back to
memory, else fills the 128-byte segment that its oldest request's next element lies in, else prefetches its next segment; a
direct read stream issues the requests of its walk in order, stops at a page that is not present, and turns a refused access
into an ERR; its oldest request's packet goes out once its bytes are filled, or an ERR where the window now ends before it; a
write stream puts its packet's bytes at the walk's next addresses; feedback emits its next index within its depth; xlt sends
the translations of its addresses; own performs the window's bytes and hands it over. The order of write-back, missing bytes
and prefetch, and that the oldest request's segment goes first, are DEDUCED (logs 16, 34). -/
def Obligations.StreamsRun : Prop :=
  (∀ (s : State) (c w va : Nat) (ps : List Nat), (s.win c w).bound = true → (s.win c w).cbuf = [] →
    ((∃ vas, s.missingElem c w = some vas ∧ wideKey vas = none ∧ vas.headD 0 = va) ∨
      s.missingElem c w = none ∧ (s.win c w).write = false ∧ (s.win c w).head = va ∧ va < (s.win c w).stop ∧
      va - (s.win c w).tail < (s.win c w).cap) →
    s.range c (s.win c w).ctx .load (va / 128 * 128) 128 = some ps →
    ∃ t, exec (.streamFill c w) s = .next t ∧ (∀ i q, ps[i]? = some q →
        Table.get 0 (t.win c w).fill (va / 128 * 128 + i) = s.streamByte q) ∧
      (t.win c w).head = max (s.win c w).head (va / 128 * 128 + 128) ∧
      ∀ a, t.mem.read a = s.mem.read a) ∧
  (∀ (s : State) (c w : Nat), (s.win c w).bound = true → (s.win c w).cbuf ≠ [] →
    let b := (s.win c w).cbuf
    b.all (fun e => s.accessFree e.1 (unitAt e.1) true) = true →
    ∃ t, exec (.streamFill c w) s = .next t ∧ (t.win c w).cbuf = [] ∧
      (∀ e ∈ b, unitAt e.1 = 1 → (∀ e' ∈ b, e'.1 = e.1 → e' = e) → t.mem.read e.1 = e.2) ∧
      ∀ a, (∀ e ∈ b, e.1 ≠ a) → t.mem.read a = s.mem.read a) ∧
  (∀ (s : State) (p n : Nat) (c : Cfg), MayStream s p n c 1 → agDir c.elem = false → c.readDone = false → c.gateShut = false →
    let k := siteCluster p
    let u := s.win k (agWin c.elem)
    let r := agRequest c.elem c.pos
    c.reqs.length < min 256 u.ahead →
    ∃ t, exec (.streamRequest p) s = .next t ∧ (∀ a, t.mem.read a = s.mem.read a) ∧
      (∀ ps, s.agAccess k u c.elem r.2.addrs false = .ok ps → ((t.site p).slot n).reqs = c.reqs ++ [r.2] ∧
        ((t.site p).slot n).pos = if agTotal c.elem ≤ c.pos + 1 then 0 else c.pos + 1) ∧
      (∀ va, s.agAccess k u c.elem r.2.addrs false = .absent va → ((t.site p).slot n).stopAt = some r.1 ∧
        ((t.site p).slot n).reqs = c.reqs) ∧
      (∀ cls, s.agAccess k u c.elem r.2.addrs false = .err cls → ((t.site p).slot n).reqs =
        c.reqs ++ [{ r.2 with addrs := [], err := some (BitVec.ofNat 8 cls, BitVec.ofNat 32 p) }])) ∧
  (∀ (s : State) (p n op : Nat) (c : Cfg) (r : AgReq) (rs : List AgReq), MayStream s p n c op → op = 1 ∨ op = 2 →
    agDir c.elem = false →
    let u := s.win (siteCluster p) (agWin c.elem)
    (s.site p).room [0] = true → c.reqs = r :: rs → r.skip = false → r.err = none → r.addrs ≠ [] →
    let inside := (r.addrs.flatMap (elemBytes c.elem)).all fun a => decide (a < u.stop)
    (inside = true → r.addrs.all (fun a => u.has (elemBytes c.elem a)) = true) →
    ∃ t, exec (.streamResponse p) s = .next t ∧
      Sends (s.site p) (t.site p) n [0] (if inside then { elems := r.addrs.flatMap (u.value c.elem), last := r.last }
        else ownErr clsIndexRange p) ∧
      ((t.site p).slot n).reqs = if r.eos = [] then rs else { eos := r.eos } :: rs) ∧
  (∀ (s : State) (p n : Nat) (c : Cfg) (k : Pkt), MayStream s p n c 1 → agDir c.elem = true → (s.site p).roomOut 2 0 = true →
    c.gateShut = false → (s.site p).inData n 0 = some k →
    let w := agWin c.elem
    let u := s.win (siteCluster p) w
    let vs := writeVals c.elem k
    let m := min vs.length (agElems c.elem - c.pos)
    (∀ ps : List Nat, k.kind = 0 → 8 ≤ sfxBits (agSfx c.elem) →
      s.agAccess (siteCluster p) u c.elem ((List.range m).map fun i => agAddr c.elem (c.pos + i)) true = .ok ps → ps.Nodup →
      ∃ t, exec (.streamWrite p) s = .next t ∧ Consumed (s.site p) (t.site p) n [0] ∧ ((t.site p).slot n).pos = c.pos + m ∧
        (t.site p).pipe = (s.site p).pipe ∧ ∀ (i q : Nat) (b : Byte), ps[i]? = some q →
          ((vs.take m).flatMap fun v => bytesLE (sfxBits (agSfx c.elem) / 8) v)[i]? = some b →
          Table.get 0 (t.win (siteCluster p) w).cbuf q = b) ∧
    (k.kind = 1 → k.aux = 0 → c.pos = agElems c.elem → c.skew = false →
      ∃ t r, exec (.streamWrite p) s = .next t ∧ Consumed (s.site p) (t.site p) n [0] ∧ ((t.site p).slot n).pos = 0 ∧
        (t.site p).pipe = (s.site p).pipe ++ [r] ∧ r.port = 0 ∧ r.pkt.kind = 1 ∧ r.pkt.aux = 0)) ∧
  (∀ (s : State) (p n : Nat) (c : Cfg), MayStream s p n c 5 → (s.site p).inData n 0 = none → (s.site p).room [0] = true →
    c.todo = [] → c.stopped = false → c.gate = false → c.emitted < c.decided + agCount c.elem 0 →
    ∃ t, exec (.feedbackEmit p) s = .next t ∧ OnlySite s t p ∧ ((t.site p).slot n).emitted = c.emitted + 1 ∧
      Sends (s.site p) (t.site p) n [0] { kind := 4, elems := [BitVec.ofNat 32 c.emitted] }) ∧
  (∀ (s : State) (p n : Nat) (c : Cfg) (k : Pkt) (vas : List Nat), MayStream s p n c 3 → (s.site p).inData n 0 = some k →
    k.kind ≠ 1 → k.kind ≠ 2 → (s.site p).room [0] = true → c.plain [0] = true → pairUp k.elems = some vas →
    (∀ a ∈ vas, ∃ pa, s.translate (siteCluster p) (s.siteCtx p) a .load = .ok pa) →
    ∃ t es, exec (.xltFire p) s = .next t ∧ Consumed (s.site p) (t.site p) n [0] ∧
      Sends (s.site p) (t.site p) n [0] { elems := es, last := k.last } ∧
      ∀ i a pa, vas[i]? = some a → s.translate (siteCluster p) (s.siteCtx p) a .load = .ok pa →
        es[2 * i]? = some (BitVec.ofNat 32 pa) ∧ es[2 * i + 1]? = some (BitVec.ofNat 32 (pa / 2 ^ 32))) ∧
  (∀ (s u : State) (p n : Nat) (c : Cfg) (k : Pkt), MayStream s p n c 4 → (s.site p).inData n 0 = some k →
    (s.site p).room [0] = true → s.writeBack (siteCluster p) (agWin c.elem) = some u →
    ∃ t, exec (.ownHandover p) s = .next t ∧ t.mem = u.mem ∧ (t.win (siteCluster p) (agWin c.elem)).owner = none ∧
      (t.win (siteCluster p) (agWin c.elem)).cbuf = [] ∧ Consumed (s.site p) (t.site p) n [0] ∧
      Sends (s.site p) (t.site p) n [0] { elems := [BitVec.ofNat 32 (agWin c.elem)] })

/-! ## Completions -/

namespace Sys2Proof

/-- Command `k`, whose record is `m` and which a core issued, completed with a cause: it is gone, its class counter fell, and
its token holds its result word with one count less (R219, R243, R244, R273). -/
def Finished (s t : State) (k : Nat) (m : Cmd) (cause : Nat) : Prop :=
  t.cmd? k = none ∧ (t.core m.core).out m.cls = (s.core m.core).out m.cls - 1 ∧
    (m.tok ≠ 0 → (t.core m.core).rd m.tok = m.result cause ∧ (t.core m.core).count m.tok = (s.core m.core).count m.tok - 1)

/-- The `n` bytes from `va` on that command `m` reads or writes lie in plain memory at the addresses `f`, in no protected
window; the cluster's caches hold their pages, or the bytes are one 64-byte unit at most. -/
def InMemory (s : State) (m : Cmd) (need : Need) (va n : Nat) (f : Nat → Nat) : Prop :=
  (∀ i, i < n → s.translate m.core m.ctx (va + i) need = .ok (f i) ∧ placeOf (f i) = .ram ∧ s.protectedBy (f i) = none ∧
    (need.r = true → s.poisoned (f i) 1 = false)) ∧ ((∀ i, i < n → (s.cached m.core m.ctx (va + i)).isSome) ∨ n ≤ 64 - m.a.toNat % 64)

/-- Command `k` is `m`, a fresh command of a core with operation `op`: nothing of it has moved, no fault holds it. -/
def Fresh (s : State) (k op : Nat) (m : Cmd) : Prop :=
  s.cmd? k = some m ∧ m.op = op ∧ m.stage = 0 ∧ m.held = none ∧ m.task = none ∧ m.prog = 0

end Sys2Proof

/-- R201, R202, R219, R273 to R275, R279 to R282, R370 to R374: commands complete. fill and copy leave their bytes at the
destination, nothing elsewhere, and write their result; one whose first destination page is not present is held by a
T_PAGE_FAULT with nothing written; a gather in a tile moves one word at a time; sspec binds its window, or fails where a
pattern names it or the slice has no room; sbar writes back and discards; scond moves the extent; xhint.pref completes with
memory unchanged; xhint.mig moves a page and its leaf; xinv leaves no cached translation that overlaps its range. That scond of
a window that is not bound ends with T_STREAM_BOUNDS, and what xinv and xhint.mig wait for, are DEDUCED (log 24). -/
def Obligations.CommandsComplete : Prop :=
  (∀ (s : State) (k : Nat) (m : Cmd) (f : Nat → Nat), Fresh s k 3 m → m.bar = none → m.fe = false →
    let n := m.c.toNat
    InMemory s m .store m.a.toNat n f → (∀ i j, i < n → j < n → f i = f j → i = j) →
    ∃ t, exec (.engineComplete k) s = .next t ∧ Finished s t k m 0 ∧
      (∀ i, i < n → t.mem.read (f i) = BitVec.ofNat 8 (m.b.toNat / 2 ^ (8 * (i % 8)))) ∧
      ∀ x, (∀ i, i < n → f i ≠ x) → t.mem.read x = s.mem.read x) ∧
  (∀ (s : State) (k : Nat) (m : Cmd) (f g : Nat → Nat), Fresh s k 0 m → m.bar = none → m.fe = false →
    let n := m.c.toNat
    InMemory s m .store m.a.toNat n f → InMemory s m .load m.b.toNat n g → (∀ i j, i < n → j < n → f i = f j → i = j) →
    (∀ i j, i < n → j < n → f i ≠ g j) →
    ∃ t, exec (.engineComplete k) s = .next t ∧ Finished s t k m 0 ∧ (∀ i, i < n → t.mem.read (f i) = s.mem.read (g i)) ∧
      ∀ x, (∀ i, i < n → f i ≠ x) → t.mem.read x = s.mem.read x) ∧
  (∀ (s : State) (k : Nat) (m : Cmd), Fresh s k 3 m → m.c ≠ 0 → s.translate m.core m.ctx m.a.toNat .store = .fault 0 →
    ∃ t m' n, exec (.enginePageFault k) s = .next t ∧ t.cmd? k = some m' ∧ m'.held = some n ∧ t.mem = s.mem ∧
      ((s.cluster m.core).queue.length < 16 → (s.cluster m.core).owed = [] →
        (t.cluster m.core).queue = (s.cluster m.core).queue ++
          [{ words := ({ src := 2, cause := tPageFault, ctx := m.ctx, ord := 0, loc := m.tok, val := m.a } : FaultMsg).words true
              ((s.cluster m.core).serial + 1).toNat }])) ∧
  (∀ (s : State) (k n x p : Nat) (m : Cmd) (ps qs : List Nat), s.cmd? k = some m → m.op = 1 → m.stage = 0 → m.held = none →
    m.fe = false → s.inTile m = some p → s.listCount m = (n, none) → m.prog < n →
    s.readNum m (m.c.toNat + 4 + 4 * m.prog) 4 = (x, none) → s.reach m false (span (m.b.toNat + 4 * x) 4) = (ps, none) →
    s.reach m true (span (m.a.toNat + 4 * m.prog) 4) = (qs, none) → (∀ q ∈ qs ++ ps, (placeOf q).grain = 1) →
    qs.Nodup → s.cacheSpan m .load (m.c.toNat + 4 + 4 * m.prog) 4 = s →
    ∃ t m', exec (.tileGatherElement k) s = .next t ∧ t.cmd? k = some m' ∧
      m' = { m with prog := m.prog + 1, bytes := m.bytes + 4, into := m'.into } ∧
      ∀ (i q a : Nat), qs[i]? = some q → ps[i]? = some a → t.mem.read q = s.byteAt a) ∧
  (∀ (s : State) (k : Nat) (m : Cmd), s.cmd? k = some m → m.op = 0x20 → m.task = none →
    let w := fld m.c 4 0
    let units := fld m.c 14 8 + 1
    (s.windowNamed m.core w = true → ∃ t, exec (.streamCmdComplete k) s = .next t ∧ Finished s t k m tCfgState ∧
      t.clusters = s.clusters) ∧
    (s.windowNamed m.core w = false → 128 < s.sliceUnits m.core (fld m.c 7 5) w + units →
      ∃ t, exec (.streamCmdComplete k) s = .next t ∧ Finished s t k m tStreamBounds ∧ t.clusters = s.clusters) ∧
    (s.windowNamed m.core w = false → s.sliceUnits m.core (fld m.c 7 5) w + units ≤ 128 →
      ((s.win m.core w).write = true → (s.win m.core w).cbuf.all (fun e => s.accessFree e.1 (unitAt e.1) true) = true) →
      ∃ t, exec (.streamCmdComplete k) s = .next t ∧ Finished s t k m 0 ∧ t.win m.core w =
        { bound := true, base := m.a.toNat, stop := m.a.toNat + m.b.toNat, head := m.a.toNat, tail := m.a.toNat,
          slice := fld m.c 7 5, cap := units * 4096, write := bit m.c 15, ahead := m.ahead.getD 256, ctx := m.ctx })) ∧
  (∀ (s : State) (k : Nat) (m : Cmd), s.cmd? k = some m → m.op = 0x21 → m.task = none →
    let a := s.win m.core (m.a.toNat % 32)
    let b := s.win m.core (m.b.toNat % 32)
    a.bound = true → a.write = true → b.bound = true → b.write = false →
    a.cbuf.all (fun e => s.accessFree e.1 (unitAt e.1) true) = true →
    ∃ t, exec (.streamCmdComplete k) s = .next t ∧ Finished s t k m 0 ∧ (t.win m.core (m.a.toNat % 32)).cbuf = [] ∧
      (t.win m.core (m.b.toNat % 32)) = { b with fill := [], side := [], wide := [], head := b.tail }) ∧
  (∀ (s : State) (k : Nat) (m : Cmd), s.cmd? k = some m → m.op = 0x22 → m.task = none →
    let w := m.a.toNat % 32
    let u := s.win m.core w
    (u.bound = true → u.tail ≤ u.base + m.b.toNat → ∃ t, exec (.streamCmdComplete k) s = .next t ∧ Finished s t k m 0 ∧
      t.win m.core w = { u with stop := u.base + m.b.toNat, ahead := m.ahead.getD u.ahead }) ∧
    (u.bound = false ∨ u.base + m.b.toNat < u.tail → ∃ t, exec (.streamCmdComplete k) s = .next t ∧
      Finished s t k m tStreamBounds ∧ t.clusters = s.clusters)) ∧
  (∀ (s : State) (k : Nat) (m : Cmd), s.cmd? k = some m → m.op = 0x32 → m.held = none → m.task = none →
    ∃ t, exec (.xlateCmdComplete k) s = .next t ∧ Finished s t k m 0 ∧ t.mem = s.mem) ∧
  (∀ (s : State) (k : Nat) (m : Cmd), s.cmd? k = some m → m.op = 0x33 → m.held = none → m.task = none →
    s.oldAccess (if bit m.c 6 then none else some (fld m.c 5 0)) m.a.toNat m.b.toNat = false →
    ∃ t, exec (.xlateCmdComplete k) s = .next t ∧ Finished s t k m 0 ∧ t.mem = s.mem ∧
      ∀ pl, ∀ e ∈ Table.get [] t.tlbs pl, (bit m.c 6 = false → e.ctx = fld m.c 5 0) →
        m.b ≠ 0 ∧ (m.a.toNat + m.b.toNat ≤ e.vbase ∨ e.vbase + 2 ^ e.lg ≤ m.a.toNat)) ∧
  (∀ (s : State) (k dst pte : Nat) (m : Cmd) (e : TlbEnt) (ps : List Nat), Fresh s k 0x31 m → m.b = 0x10000 →
    s.vaddrs m.core m.ctx .atomic m.c.toNat 8 = (ps, none) → ps.all (fun p => (placeOf p).plain) = true →
    natLE (ps.map s.byteAt) = dst → dst % 0x10000 = 0 → isRam dst = true → s.walk m.ctx m.a.toNat = .leaf e →
    s.entryAt m.ctx m.a.toNat = some pte → e.lg = 16 → bit e.leaf 5 = false → e.pbase ≠ dst →
    (placeOf e.pbase).plain = true → (placeOf (e.pbase + 0xFFFF)).plain = true →
    s.shut m.ctx .load [e.pbase] = false → s.shut m.ctx .store [dst] = false → s.shut m.ctx .atomic ps = false →
    s.oldAccess (some m.ctx) m.a.toNat 0x10000 = false → ps.Nodup → (∀ p ∈ ps, p < pte ∨ pte + 8 ≤ p) →
    s.liveAt ps = false →
    ∃ t, exec (.xlateCmdComplete k) s = .next t ∧ Finished s t k m 0 ∧ natLE (ps.map t.mem.read) = e.pbase ∧
      readEntry t.mem pte = setFld e.leaf 51 8 (dst / 256) ∧
      ∀ i, i < 0x10000 → (dst + i < pte ∨ pte + 8 ≤ dst + i) → dst + i ∉ ps → t.mem.read (dst + i) = s.mem.read (e.pbase + i))

/-! ## Slots -/

namespace Sys2Proof

/-- Command `k` is `m`, a CFG command of a core with operation `op`, and it is its turn (R221). -/
def CfgTurn (s : State) (k op : Nat) (m : Cmd) : Prop :=
  s.cmd? k = some m ∧ m.op = op ∧ m.stage ≠ 2 ∧ m.task = none ∧ m.cls ≠ 9 ∧ s.cfgTurn k m = true

end Sys2Proof

/-- R217, R219, R221, R222, R224, R225, R227, R228, R230, R232, R234, R339: the life of a slot. cfg.load commits an image to a
region that its descriptor names from then on, or changes nothing and completes with its cause; cfg.arm arms a loaded slot
with its tile count, every element at its start; cfg.swap waits, and at the quiescent point makes its slot ACTIVE and current,
an ACTIVE one before it SUSPENDED, and completes; a drained slot is DRAINED and ends cfg.drain; cfg.save of a drained slot
leaves it LOADED with no current slot; cfg.rest leaves its slot SUSPENDED; no swap and no save starts while a cut runs through
the region (R441, log 87); each time that a tile counter reached 0 one message is posted to the region's channel. -/
def Obligations.SlotsLoadArmSwapDrain : Prop :=
  (∀ (s : State) (k : Nat) (m : Cmd), CfgTurn s k 0x40 m →
    let v := s.imageSeen (loaderDie m.b) m.ctx m.a.toNat
    let r := v.loadSlot m.ctx m.b (fld m.c 1 0) m.a (v.quadMine m.ctx m.bound)
    (∀ c, r = .error c → ∃ t, exec (.cfgComplete k) s = .next t ∧ Finished s t k m c ∧ t.regions = s.regions ∧ t.sites = s.sites) ∧
    (∀ u, r = .ok u → ∃ t g, exec (.cfgComplete k) s = .next t ∧ Finished s t k m 0 ∧ (t.region g).desc = m.b ∧
      ((t.region g).slot (fld m.c 1 0)).phase = .loaded ∧ ((t.region g).slot (fld m.c 1 0)).container = m.a)) ∧
  (∀ (s : State) (k g : Nat) (m : Cmd), CfgTurn s k 0x41 m → s.regionNamed m.b = some g →
    let n := fld m.c 1 0
    ((s.region g).slot n).phase = .loaded ∨ ((s.region g).slot n).phase = .armed → fld m.a 63 32 = 0 →
    (s.region g).sites.any (fun p => s.streamOut p n) = false →
    ∃ t, exec (.cfgComplete k) s = .next t ∧ Finished s t k m 0 ∧ ((t.region g).slot n).phase = .armed ∧
      ((t.region g).slot n).tc = BitVec.ofNat 32 (fld m.a 31 0) ∧ ((t.region g).slot n).limited = (fld m.a 31 0 != 0) ∧
      ∀ p ∈ (s.region g).sites, (t.site p).slot n = ((s.site p).slot n).armed) ∧
  (∀ (s : State) (k g : Nat) (m : Cmd), CfgTurn s k 0x42 m → s.regionNamed m.b = some g → m.stage = 0 →
    ((s.region g).swappable (fld m.c 1 0) = true → ∃ t, exec (.cfgComplete k) s = .next t ∧ (t.region g).swap = some k ∧
      t.cmd? k = some { m with stage := 1 } ∧ (t.region g).cur = (s.region g).cur) ∧
    ((s.region g).swappable (fld m.c 1 0) = false → ∃ t, exec (.cfgComplete k) s = .next t ∧ Finished s t k m tCfgState ∧
      t.regions = s.regions)) ∧
  (∀ (s : State) (k g : Nat) (m : Cmd), (s.region g).swap = some k → s.cmd? k = some m →
    let n := fld m.c 1 0
    (s.region g).swappable n = true → s.cutting g = false → (∀ c, (s.region g).cur = some c → s.quiescent g c = true) →
    ∃ t, exec (.swapTakesEffect g) s = .next t ∧ (t.region g).cur = some n ∧ ((t.region g).slot n).phase = .active ∧
      (t.region g).swap = none ∧ t.cmd? k = some { m with stage := 2, cause := 0 } ∧
      (∀ c, (s.region g).cur = some c → ((s.region g).slot c).phase = .active → ((t.region g).slot c).phase = .suspended) ∧
      ∀ a, t.mem.read a = s.mem.read a) ∧
  (∀ (s : State) (k : Nat) (m : Cmd), s.cmd? k = some m → 0x40 ≤ m.op → m.stage = 2 → m.task = none → m.cls ≠ 9 →
    ∃ t, exec (.cfgComplete k) s = .next t ∧ Finished s t k m m.cause) ∧
  (∀ (s : State) (g n : Nat), (s.region g).cur = some n → ((s.region g).slot n).phase = .active → s.drained g n = true →
    ∃ t, exec (.slotDrained g) s = .next t ∧ ((t.region g).slot n).phase = .drained ∧ t.sites = s.sites ∧ t.mem = s.mem) ∧
  (∀ (s : State) (k g : Nat) (m : Cmd), CfgTurn s k 0x43 m → s.regionNamed m.b = some g → fld m.c 3 2 ≤ 1 →
    (s.region g).cur = some (fld m.c 1 0) → ((s.region g).slot (fld m.c 1 0)).phase = .drained → m.stage ≠ 1 →
    ∃ t, exec (.cfgComplete k) s = .next t ∧ Finished s t k m 0 ∧ t.regions = s.regions) ∧
  (∀ (s u : State) (k g : Nat) (m : Cmd), CfgTurn s k 0x44 m → s.regionNamed m.b = some g → m.a.toNat % 256 = 0 →
    (s.region g).cur = some (fld m.c 1 0) → ((s.region g).slot (fld m.c 1 0)).phase = .drained → m.stage ≠ 1 → s.cutting g = false →
    s.saveSlot m.ctx g (fld m.c 1 0) m.a.toNat = some u → s.harms u = false →
    ∃ t, exec (.cfgComplete k) s = .next t ∧ Finished s t k m 0 ∧ (t.region g).cur = none ∧
      ((t.region g).slot (fld m.c 1 0)).phase = .loaded ∧ t.mem = u.mem) ∧
  (∀ (s u : State) (k g : Nat) (m : Cmd), CfgTurn s k 0x45 m → s.regionNamed m.b = some g →
    (s.areaSeen m.ctx g m.a.toNat).restSlot m.ctx g (fld m.c 1 0) m.a.toNat = .ok u →
    ∃ t, exec (.cfgComplete k) s = .next t ∧ Finished s t k m 0 ∧ ((t.region g).slot (fld m.c 1 0)).phase = .suspended ∧
      t.mem = s.mem) ∧
  (∀ (s : State) (g n i : Nat) (h : Nat × Nat) (k : Task), n < 4 → 0 < ((s.region g).slot n).crossed →
    s.groupOf g = some (h, i, k) → ((s.core (s.region g).lead).channel k.gch).takes = true →
    ∃ t, exec (.tileCountReached g n) s = .next t ∧ ((t.region g).slot n).crossed = ((s.region g).slot n).crossed - 1 ∧
      { group := (s.region g).group, words := [BitVec.ofNat 64 (4 * 2 ^ 56), (s.region g).desc, BitVec.ofNat 64 n] } ∈
        ((t.core (s.region g).lead).channel k.gch).queue)

/-! ## Jobs and tasks -/

/-- R289, R290, R292 to R297, R299, R300, R327, R450: the sequencer. A host write into a queue's window waits behind its
master's earlier ones, else stores its bytes and fills the slots whose last byte it covers, but is dropped and sets ovf where
a slot is full; QCTL enables an empty queue; an intake takes the head of the chosen source under the next job number; a ready
task, in its turn, enters the pool under the next id; the task with the smallest key is dispatched to the least-loaded core
with its message; a released task's successors are told; a job whose tasks have completed writes its completion word, where a
tile's queue lets it through, fills it and interrupts as it asks, and is gone. The model's readings (DEDUCED): fe = 1 fills
both words of the completion word and the interrupt goes to link d div 2 (log 43); what counts as the pool's use, and that the
dispatches of a grid with cores = 1 follow one another before any other (log 67); a step that would write into a live block
stands aside (log 33). -/
def Obligations.SequencerRunsJobs : Prop :=
  (∀ (s : State) (m x d j o : Nat) (bytes : List Byte) (ps : List Nat), m < 2 → x < 64 → d < 4 → j < 64 →
    let n := bytes.length
    o + n ≤ 2 ^ 20 → 0 < n →
    (s.waiting m ≠ [] → ∃ t, exec (.hostSlotWrite m x d j o bytes) s = .next t ∧ t.dies = s.dies ∧ t.mem = s.mem ∧
      t.waiting m = s.waiting m ++ [{ ctx := x, va := o, bytes, port := .slots d j }]) ∧
    (s.waiting m = [] → 2 ≤ s.acct m x → s.qEn d j = true → s.qCtx d j = x →
    (∀ i, i < n → (o + i) / 256 < 2 ^ s.qLg d j) →
    ((∀ i, i < n → s.slotFull d j ((o + i) / 256) = false) → s.range (seqPlace d) x .store (s.qBase d j + o) n = some ps →
      (∀ p ∈ ps, isRam p = true ∧ ∀ y, s.protectedBy p = some y → y = x) →
      ∃ t, exec (.hostSlotWrite m x d j o bytes) s = .next t ∧
        (ps.Nodup → ∀ (i q : Nat) (b : Byte), ps[i]? = some q → bytes[i]? = some b → t.mem.read q = b) ∧
        ∀ i, o ≤ 256 * i + 255 → 256 * i + 255 < o + n → t.slotFull d j i = true) ∧
    ((∃ i, i < n ∧ s.slotFull d j ((o + i) / 256) = true) →
      ∃ t, exec (.hostSlotWrite m x d j o bytes) s = .next t ∧ bit (t.reg (queuePa d j + 16)) 33 = true ∧ t.mem = s.mem))) ∧
  (∀ (s : State) (who : Agent) (d j : Nat) (v : Word), d < 4 → j < 64 → s.mayWrite who (queuePa d j + 8) = true →
    s.qEn d j = false → bit v 63 = true → 4 ≤ fld v 39 36 → fld v 39 36 ≤ 12 →
    ∃ t, exec (.qctlWrite who d j v) s = .next t ∧ t.qEn d j = true ∧
      fld (t.reg (queuePa d j + 8)) 47 36 = fld v 47 36 ∧ t.qHead d j = 0 ∧ ∀ i, i < 4096 → t.slotFull d j i = false) ∧
  (∀ (s : State) (d src prio : Nat), d < 4 → (s.die d).jobs.find? (fun e => !e.2.taken && e.2.held.isNone && !e.2.broken) = none →
    (s.die d).jobs.length < 256 → pickSource (s.die d).rr (s.jobSources d) = some (src, prio) → s.harms (s.takeSource d src) = false →
    let n := (s.die d).jobCtr + 1
    (src < 64 → ∃ t, exec (.jobIntake d) s = .next t ∧ (t.die d).jobCtr = n ∧ t.slotFull d src (s.qHead d src) = false ∧
      t.qHead d src = (s.qHead d src + 1) % 2 ^ s.qLg d src % 4096 ∧
      ∀ bs, s.seqGet d (s.qCtx d src) (s.qBase d src + 256 * s.qHead d src) 256 = .ok bs → (t.job? d n.toNat).isSome) ∧
    (∀ a x rest, 64 ≤ src → (s.die d).launches = (a, x) :: rest → ∃ t, exec (.jobIntake d) s = .next t ∧
      (t.die d).jobCtr = n ∧ (t.die d).launches = rest ∧
      ∀ bs, s.seqGet d x a.toNat 256 = .ok bs → (t.job? d n.toNat).isSome)) ∧
  (∀ (s : State) (d i : Nat) (k : Task) (j : Job), s.task? (d, i) = some k → s.job? d k.job = some j → j.held = none →
    k.phase = .ready → k.spawned = false → s.poolUse d < 4096 → s.readyBefore d k.job k.idx = false →
    ∃ t k', exec (.taskReady d i) s = .next t ∧ t.task? (d, i) = some k' ∧ k'.phase = .pooled ∧
      k'.id = ((s.die d).idCtr + 1).toNat ∧ k'.age = (s.die d).clock) ∧
  (∀ (s : State) (d i c : Nat) (k : Task),
    leastTask (((s.die d).dispatches + 1) % 64 == 0) ((s.die d).tasks.filter fun e => (s.dispatch (d, e.1) e.2).isSome) = some (i, k) →
    s.gridNow d = none → s.killable d k = false → k.kind = 3 ∨ k.kind = 4 → k.bad = false →
    s.leastLoaded (k.fieldAt 11 1) (s.freeCores d (k.fieldAt 11 1) k.ctx) = some c →
    let n := (s.die d).serial + 1
    ∃ t k', exec (.taskDispatch d) s = .next t ∧ t.task? (d, i) = some k' ∧ k'.phase = .running ∧ k'.core = some c ∧
      k'.serial = n.toNat ∧ (t.die d).dispatches = (s.die d).dispatches + 1 ∧
      ((t.core c).channel (k.fieldAt 11 1)).queue = ((s.core c).channel (k.fieldAt 11 1)).queue ++
        [{ words := [BitVec.ofNat 64 (6 * 2 ^ 56 + k.kind * 2 ^ 53), handleWord d n.toNat, k.recAddr, s.argOf d k,
                     BitVec.ofNat 64 (k.fieldAt 0 8)] }]) ∧
  (∀ (s : State) (d i : Nat) (k : Task) (j : Job), s.task? (d, i) = some k → k.released = true → k.walked = false →
    s.job? d k.job = some j → j.held = none →
    (k.spawned = true → ∃ t, exec (.taskRelease d i) s = .next t ∧ t.task? (d, i) = some { k with walked := true }) ∧
    (k.spawned = false → j.taken = true → s.walkWaits d k.job = false →
      let s1 := s.seqSeen d k.ctx (k.fieldAt 16 8) (2 * k.nout)
      (∀ us u w, s.successors d k = .ok us → s1.walkSucc d k.job j (us.drop k.walk) k.walk = (u, w, none) → s.harms u = false →
        ∃ t k', exec (.taskRelease d i) s = .next t ∧ t.mem = u.mem ∧ (u.task? (d, i) ≠ none → t.task? (d, i) = some k' ∧
          k'.walk = w ∧ k'.walked = decide (us.length ≤ w))) ∧
      (∀ v bs u, s.successors d k = .ok [v] → k.walk = 0 → v < j.count → s1.seqGet d j.ctx (j.work + 2 * v) 2 = .ok bs →
        0 < slice bs 0 2 → s1.seqPut d j.ctx (j.work + 2 * v) (bytesLE 2 (slice bs 0 2 - 1)) = .ok u → s.harms u = false →
        ∃ t, exec (.taskRelease d i) s = .next t ∧ t.mem = u.mem ∧
          ∀ e e', s.graphTask d k.job v = some (e, e') → e ≠ i → slice bs 0 2 = 1 → e'.phase = .waiting →
            s.task? (d, e) = some e' → t.task? (d, e) = some { e' with phase := .ready }))) ∧
  (∀ (s : State) (d n pa : Nat) (j : Job), s.job? d n = some j → j.taken = true → j.held = none → j.left = 0 →
    ((s.die d).tasks.filter fun e => e.2.job == n).any (fun e => !e.2.isOver j.broken) = false → s.jobWritten d n j.ctx = true →
    j.cpl % 8 = 0 → s.translate (seqPlace d) j.ctx j.cpl .store = .ok pa → (placeOf pa).plain = true →
    s.shut j.ctx .store [pa] = false → s.accessFree pa 8 true = true →
    ∃ t, exec (.jobComplete d n) s = .next t ∧ t.memNum pa 8 = j.word.toNat ∧ t.job? d n = none ∧
      (j.fe = true → t.isFull pa = true ∧ t.isFull (pa + 4) = true) ∧
      t.interrupts = s.interrupts ++ (if j.irq then [(d / 2, slice j.desc 36 2)] else []) ∧
      ∀ a, (a < pa ∨ pa + 8 ≤ a) → t.mem.read a = s.mem.read a)

/-! ## Groups -/

namespace Sys2Proof

/-- Group `g` of task `h`. -/
def groupAt (s : State) (h : Nat × Nat) (g : Nat) : Option Group := (s.task? h).map fun t => t.group g

end Sys2Proof

/-- R310, R313 to R315, R317, R320 to R324: the groups of kernel tasks. A write of GPREQ fails with its cause, or moves the
groups that it names to PREEMPTING under the next request number, and one while a request is pending does nothing. A placed
group loads and arms its images and is ready, or fails its task and exits; a ready group RUNS with its slot 0 current and its
dispatch message sent; a pre-emption that fits its area begins, sends DORMOUSE or asks the quiet counters to hold, takes each
slot's state once it rests, and writes its area: the group is PREEMPTED with its region gone; one that does not fit runs on
and GPSTAT says so; a passed deadline falls back; a restored group is ready; an EXITING group into whose tiles no command
issued before its exit writes any more, and which a kill of its task has sent its KILL, is FREE: its channels are no longer
bound to it and hold no message for it. The model's choices: the marker's payload is a free value (log 7, DESIGN CHOICE), and
a step's deadline may pass at any step (log 5, DESIGN CHOICE); its readings (DEDUCED): slots are taken one by one and the area
is written at the end, and a freed group's queued messages are discarded (log 45); which commands hold an EXITING group (log
72); a group shares its channels with groups of the same clusters (log 88); nothing new is begun while a cut runs through the
region (log 87). -/
def Obligations.GroupsRunAndArePreempted : Prop :=
  (∀ (s : State) (who : Agent) (d : Nat) (v : Word), d < 4 → s.mayWrite who (dieBase d + 0x1008) = true →
    let i : Instr := .registerWrite who (dieBase d + 0x1008) v
    let mode := fld v 19 18
    let fails (cause : Nat) : Prop := ∃ t, exec i s = .next t ∧ t.dies = s.dies ∧ fld (t.reg (gpstat d)) 31 30 = 3 ∧
      fld (t.reg (gpstat d)) 22 16 = cause
    let asked := (s.die d).tasks.find? fun e =>
      e.2.serial == fld (s.reg (dieBase d + 0x1000)) 47 0 && e.2.kind == 0 && e.2.phase == .running
    (fld (s.reg (gpstat d)) 31 30 = 1 ∨ mode = 0 → exec i s = .next s) ∧
    (fld (s.reg (gpstat d)) 31 30 ≠ 1 → mode ≠ 0 →
      (mode = 3 → fails tUndefOp) ∧ (mode ≠ 3 → asked = none → fails tTaskState) ∧
      (∀ n k, mode ≠ 3 → asked = some (n, k) →
        let named (g : Nat) : Prop := (k.group g).phase = .running ∧ (if bit v 17 then g < k.ngrp else g = fld v 15 0)
        ((∀ g, ¬ named g) → fails tTaskState) ∧
        ((∃ g, named g) → k.fieldAt 40 8 = 0 → fails tSaveSpace) ∧
        ((∃ g, named g) → k.fieldAt 40 8 ≠ 0 → mode = 2 → bit (k.bytes.getD 29 0) 1 = false → fails tCfgState) ∧
        ((∃ g, named g) → k.fieldAt 40 8 ≠ 0 → (mode = 2 → bit (k.bytes.getD 29 0) 1 = true) →
          ∃ t k', exec i s = .next t ∧ fld (t.reg (gpstat d)) 31 30 = 1 ∧ t.task? (d, n) = some k' ∧
            (∀ g, named g → k'.group g = { k.group g with phase := .preempting, mode, req := (s.die d).requests + 1 }) ∧
            ∀ g, ¬ named g → k'.group g = k.group g)))) ∧
  (∀ (s : State) (d i g r : Nat) (k : Task) (v : Group) (sh : Shape), s.groupIn (d, i) g .loading = some (k, v, r, sh) →
    v.ready = false →
    let u := (s.bindChans (s.region r) k.gch (some (d, i, g))).prepare (s.region r) k.ctx
    let l := u.loadImages k.ctx r (some (k.armTc (if k.fieldAt 48 8 = 0 then none else some v.rows))) sh.images
    (∀ w, l = .ok w → ∃ t, exec (.groupDispatch d i g) s = .next t ∧ groupAt t (d, i) g = some { v with ready := true } ∧
      t.regions = w.regions ∧ t.sites = w.sites ∧
      ∀ c ∈ (s.region r).clusters, ((t.core c).channel k.gch).group = some (d, i, g)) ∧
    (∀ c, l = .error c → ∃ t k', exec (.groupDispatch d i g) s = .next t ∧ t.task? (d, i) = some k' ∧
      (k'.group g).phase = .exiting ∧ (k'.group g).trig = true ∧ k'.failed = true ∧ (k.failed = false → k'.cause = c))) ∧
  (∀ (s : State) (d i g r : Nat) (k : Task) (v : Group) (sh : Shape) (j : Job),
    s.groupIn (d, i) g .loading = some (k, v, r, sh) → s.job? d k.job = some j → v.ready = true → k.kind = 0 →
    (s.region r).group = some (d, i, g) →
    ((s.core (s.region r).lead).channel k.gch).takes = true → (s.region r).swappable 0 = true →
    ∃ t, exec (.groupRunning d i g) s = .next t ∧ (t.region r).cur = some 0 ∧ ((t.region r).slot 0).phase = .active ∧
      ((t.core (s.region r).lead).channel k.gch).queue = ((s.core (s.region r).lead).channel k.gch).queue ++
        [{ group := some (d, i, g)
           words := [BitVec.ofNat 64 (6 * 2 ^ 56), handleWord d k.serial, k.recAddr, j.arg, BitVec.ofNat 64 (k.fieldAt 0 8),
                     v.desc, BitVec.ofNat 64 (v.rows * 2 ^ 32 + g % 2 ^ 16), BitVec.ofNat 64 (k.saveAt g)] }] ∧
      (k.bound = 0 → (groupAt t (d, i) g).map (·.phase) = some .running)) ∧
  (∀ (s : State) (d i g r : Nat) (k : Task) (v : Group) (sh : Shape), s.groupIn (d, i) g .preempting = some (k, v, r, sh) →
    let reg := s.region r
    let fits := areaSize sh reg reg.savable.length ≤ k.sstride
    let begun : Group := { v with started := true, marked := false, savedCur := reg.cur.getD 0, areas := [] }
    (v.mode = 1 → v.started = false → s.cutting r = false → fits →
      ∃ t, exec (.gpreqMarker d i g) s = .next t ∧ groupAt t (d, i) g = some begun ∧ t.sites = s.sites) ∧
    (v.mode = 1 → v.started = false → s.cutting r = false → ¬ fits → v.areas = [] →
      ∃ t, exec (.gpreqMarker d i g) s = .next t ∧ (groupAt t (d, i) g).map (·.phase) = some .running ∧ t.mem = s.mem ∧
        (s.gpPending d v.req = true → fld (t.reg (gpstat d)) 31 30 = 3 ∧ fld (t.reg (gpstat d)) 22 16 = tSaveSpace)) ∧
    (∀ n, v.mode = 1 → v.started = true → reg.cur = some n → (reg.slot n).phase = .active → v.marked = false →
      s.cutting r = false →
      ∃ t, exec (.gpreqMarker d i g) s = .next t ∧ groupAt t (d, i) g = some { v with marked := true } ∧
        ∀ p ∈ s.workers reg n, markPorts ((s.site p).slot n) = [] → ((s.site p).slot n).inj = none →
          ∃ q, ((t.site p).slot n).inj = some q ∧ q.kind = mkDormouse ∧
            q.elems = [BitVec.ofNat 32 (Config.requestNumber v.req).toNat]) ∧
    (∀ n, v.mode = 1 → v.started = true → reg.cur = some n → v.marked = true → s.allSaved r n = true →
      ∃ t v', exec (.gpreqMarker d i g) s = .next t ∧ groupAt t (d, i) g = some v' ∧ Table.has v'.areas n = true ∧
        (t.region r).cur = none ∧ ((t.region r).slot n).phase = .loaded ∧ t.mem = s.mem) ∧
    (∀ n, v.mode = 2 → v.started = false → s.cutting r = false → fits → reg.cur = some n →
      let ps := s.quietSites reg sh n
      (ps = [] ∨ s.gpdl d = 0 → ∃ t, exec (.gpreqStep d i g) s = .next t ∧
        groupAt t (d, i) g = some { begun with mode := 1, fell := true } ∧
        (s.gpPending d v.req = true → bit (t.reg (gpstat d)) 0 = true)) ∧
      (ps ≠ [] → s.gpdl d ≠ 0 → ∃ t, exec (.gpreqStep d i g) s = .next t ∧ groupAt t (d, i) g = some begun ∧
        ∀ p ∈ ps, ((t.site p).slot n).hold = true)) ∧
    (∀ n, v.mode = 2 → v.started = true → reg.cur = some n → n = v.savedCur → Table.has v.areas n = false → s.cutting r = false →
      s.quietPoint r n (s.quietSites reg sh n) = true →
      ∃ t v', exec (.quietPoint d i g) s = .next t ∧ groupAt t (d, i) g = some v' ∧ Table.has v'.areas n = true ∧
        (t.region r).cur = none ∧ ((t.region r).slot n).phase = .loaded) ∧
    (v.mode = 2 → v.started = true → Table.has v.areas v.savedCur = false →
      ∃ t, exec (.stepDeadline d i g) s = .next t ∧ groupAt t (d, i) g = some { v with mode := 1, fell := true } ∧
        (s.gpPending d v.req = true → bit (t.reg (gpstat d)) 0 = true)) ∧
    (∀ u, v.started = true → reg.cur = none → reg.savable.any (fun n => !Table.has v.areas n) = false →
      (v.mode = 2 → Table.has v.areas v.savedCur = true) →
      s.seqPut (loaderDie reg.desc) k.ctx (k.saveAt g) (s.groupArea reg sh g v) = .ok u → s.harms u = false →
      ∃ t v', exec (.preemptSaved d i g) s = .next t ∧ groupAt t (d, i) g = some v' ∧ v'.phase = .preempted ∧
        v'.region = none ∧ Table.has t.regions r = false ∧ t.mem = u.mem ∧
        (s.gpPending d v.req = true → (∀ e ∈ k.groups, e.1 = g ∨ e.2.phase ≠ .preempting ∨ e.2.req ≠ v.req) →
          fld (t.reg (gpstat d)) 31 30 = 2))) ∧
  (∀ (s w : State) (d i g r : Nat) (k : Task) (v : Group) (sh : Shape), s.groupIn (d, i) g .restoring = some (k, v, r, sh) →
    v.ready = false →
    ((s.bindChans (s.region r) k.gch (some (d, i, g))).prepare (s.region r) k.ctx).restoreGroup k g v r sh = .ok w →
    ∃ t, exec (.groupRestore d i g) s = .next t ∧ groupAt t (d, i) g = some { v with ready := true } ∧ t.mem = w.mem ∧
      t.sites = w.sites) ∧
  (∀ (s : State) (d i g r : Nat) (k : Task), s.task? (d, i) = some k → (k.group g).phase = .exiting → (k.group g).region = some r →
    (k.killed = true → (k.group g).killSent = true) →
    s.cmds.any (fun e => decide (e.2.no < (k.group g).mark) && s.writesInto (s.region r) k.ctx e.2) = false →
    ∃ t v', exec (.groupFree d i g) s = .next t ∧ groupAt t (d, i) g = some v' ∧ v'.phase = .free ∧ v'.exited = true ∧
      Table.has t.regions r = false ∧ (∀ c ∈ (s.region r).clusters,
        let ch := (t.core c).channel k.gch
        ch.group ≠ some (d, i, g) ∧ (d, i, g) ∉ ch.also ∧ ∀ m ∈ ch.queue, m.group ≠ some (d, i, g)))

/-! ## Speculation and incumbents -/

/-- R327, R330, R331, R333 to R338, R341, R342, R345, R348: speculative commit and incumbents. A DONE task that is unordered
or oldest performs its buffered bytes, where the queues of their tiles let them through, hands its children to the pool, sends
its offer and completes; one that found no free entry performs its lines and goes on irrevocably; the oldest offer on its way
to a slot is accepted if its key is strictly better, and the home then updates the four copies; a copy takes its next update
and asks for a sweep, or is withdrawn; a sweep kills every pooled task bound to an updated slot that it finds killable; a
killed kernel task's KILL enters at its ingress ports. The model's readings (DEDUCED): an offer to a slot that is invalid or
of another context is answered with d = the slot's key and not accepted (log 46); when a buffer overflows, how a task turns
irrevocable, and what waits for whom (log 42). -/
def Obligations.SpeculationAndIncumbents : Prop :=
  (∀ (s : State) (d i : Nat) (k : Task), s.task? (d, i) = some k → k.spec = true → k.phase = .done →
    (k.ordered = true → s.oldest (d, i) k = true) → s.writing (d, i) k = false → s.bufferFree k = true →
    (∀ e ∈ k.wbuf, (placeOf e.1).plain = true) → (k.wbuf.map (·.1)).Nodup →
    ∃ t k', exec (.specCommit d i) s = .next t ∧ t.task? (d, i) = some k' ∧ k'.phase = .finished ∧ k'.wbuf = [] ∧
      (∀ e ∈ k.wbuf, t.mem.read e.1 = e.2) ∧ (∀ a, (∀ e ∈ k.wbuf, e.1 ≠ a) → t.mem.read a = s.mem.read a) ∧
      (t.die d).nextTask = (s.die d).nextTask + k.kids.length ∧
      (k.offer = none → t.offers = s.offers) ∧ ∀ n key pay, k.offer = some (n, key, pay) → t.offers = s.offers ++
        [{ slot := n, key, payload := pay, ctx := k.ctx, die := d, cluster := k.core.getD (32 * d), reply := false }]) ∧
  (∀ (s : State) (d i c : Nat) (k : Task), s.task? (d, i) = some k → k.spec = true → k.phase = .running → k.irrev = false →
    k.core = some c → (s.core c).running = true → (s.core c).stall = some (.commit (d, i)) →
    (k.ordered = true → s.oldest (d, i) k = true) → s.bufferFree k = true → (∀ e ∈ k.wbuf, (placeOf e.1).plain = true) →
    (k.wbuf.map (·.1)).Nodup →
    ∃ t k', exec (.specIrrevocable d i) s = .next t ∧ t.task? (d, i) = some k' ∧ k'.irrev = true ∧ k'.wbuf = [] ∧
      k'.phase = .running ∧ (t.core c).stall = none ∧ (∀ e ∈ k.wbuf, t.mem.read e.1 = e.2)) ∧
  (∀ (s : State) (n : Nat) (o : Offer) (pre post : List Offer), Table.has s.inits n = false → s.offers = pre ++ o :: post →
    o.slot = n → (∀ x ∈ pre, x.slot ≠ n) →
    let u := s.homeInc n
    let ok := u.valid && u.owner == o.ctx && better u.dir o.key u.key
    ∃ t, exec (.offerArrive n) s = .next t ∧ t.offers = pre ++ post ∧
      (ok = true → t.homeInc n = { u with key := o.key, payload := o.payload, count := u.count + 1 } ∧
        t.updates = s.updates ++ (List.range 4).map fun d => (n, d, t.homeInc n, false)) ∧
      (ok = false → t.incs = s.incs ∧ t.updates = s.updates) ∧
      (o.reply = true → (s.core o.cluster).req = some .offer → (t.core o.cluster).req =
        some (.answered (BitVec.ofNat 64 ((if ok then 2 ^ 63 else 0) + (t.homeInc n).key.toNat))))) ∧
  (∀ (s : State) (n d : Nat) (u : Inc) (b : Bool) (pre post : List (Nat × Nat × Inc × Bool)),
    s.updates = pre ++ (n, d, u, b) :: post → (∀ e ∈ pre, ¬ (e.1 = n ∧ e.2.1 = d)) →
    ∃ t, exec (.incUpdateCopy n d) s = .next t ∧ t.updates = pre ++ post ∧ t.incCopy d n = { inc := u, withdrawn := false } ∧
      (t.die d).sweeps.contains n = true ∧ bit (t.reg (sweepPa d)) 32 = true ∧ t.incs = s.incs) ∧
  (∀ (s : State) (n d : Nat) (i : IncInit), s.inits.find? (fun e => e.1 = n) = some (n, i) → d < 4 → d ∉ i.acks →
    (∀ e ∈ s.updates, ¬ (e.1 = n ∧ e.2.1 = d)) →
    ∃ t, exec (.incWithdrawCopy n d) s = .next t ∧ (t.incCopy d n).withdrawn = true ∧
      (i.acks.length < 3 → t.incs = s.incs ∧ t.updates = s.updates) ∧
      (3 ≤ i.acks.length → t.homeInc n = i.next ∧
        t.updates = s.updates ++ (List.range 4).map fun d => (n, d, i.next, true))) ∧
  (∀ (s : State) (d : Nat), (s.die d).sweeps ≠ [] →
    ∃ t, exec (.lynxSweep d) s = .next t ∧ (t.die d).sweeps = [] ∧
      fld (t.reg (sweepPa d)) 31 0 = (fld (s.reg (sweepPa d)) 31 0 + 1) % 2 ^ 32 ∧ bit (t.reg (sweepPa d)) 32 = false ∧
      (∀ i k, s.task? (d, i) = some k → k.phase = .pooled → k.killed = false → k.kind ≠ 0 → bBounded k.bound = true →
        bSlot k.bound ∈ (s.die d).sweeps → s.killable d k = true → (t.task? (d, i)).map (·.phase) = some .finished) ∧
      ∀ a, t.mem.read a = s.mem.read a) ∧
  (∀ (s : State) (d i g r n : Nat) (k : Task) (v : Group), s.task? (d, i) = some k → k.killed = true → k.kind = 0 →
    (g, v) ∈ k.groups → v.phase = .exiting → v.killSent = false → v.region = some r → (s.region r).cur = some n →
    ∃ t k', exec (.kernelKill d i) s = .next t ∧ t.task? (d, i) = some k' ∧ (k'.group g).killSent = true ∧
      ∀ p ∈ s.workers (s.region r) n, markPorts ((s.site p).slot n) = [] →
        ∃ q, ((t.site p).slot n).inj = some q ∧ q.kind = mkKill ∧ q.elems = [BitVec.ofNat 32 k.id])

/-! ## Zones -/

namespace Sys2Proof

/-- Zone `c` went from one state to another, its interval count starting at zero (R396). -/
def ZoneGoes (t : State) (c st : Nat) : Prop := t.zState c = st ∧ (t.zoneOf c).time = 0

end Sys2Proof

/-- R393, R396, R397, R400, R402 to R404: the Beaver. An interval leaves what it sampled in the zones' sensor registers; a zone
that does not prime in 250 ms goes DRY with one more attempt, at the third LOCKED; 20 ms in ALLOCATED give ALARM; 50 good ms
in ALARM give FLOWING, or WET-IDLE with min 0, and 500 ms LOCKED; a dry detector starts an evacuation, whose steps follow one
another and whose failed attempts repeat or lock; a pressure excursion is raised once and holds the valves; ZCMD's commands
act where the state admits them and set cerr elsewhere; ZBUDGET takes a value that the sums admit and sets berr otherwise. -/
def Obligations.ZonesFollowTheStateTable : Prop :=
  (∀ (s : State) (d press : Nat) (sens : List Word), d < 4 →
    ∃ t, exec (.beaverInterval d sens press) s = .next t ∧ fld (t.reg (dieBase d + 0x20230)) 9 0 = press % 1024 ∧
      (t.die d).stepDue = true ∧
      (∀ z, z < 32 → fld (t.zsens (32 * d + z)) 63 44 = fld (sens.getD z 0) 63 44) ∧ ∀ a, t.mem.read a = s.mem.read a) ∧
  (∀ (s : State) (d z : Nat), d < 4 → z < 32 → let c := 32 * d + z
    (s.zState c = zPriming → 25000 ≤ (s.zoneOf c).time →
      ∃ t, exec (.primeTimeout d z) s = .next t ∧ t.zAttempts c = (s.zAttempts c + 1) % 4 ∧
        ZoneGoes t c (if t.zAttempts c = 3 then zLocked else zDry) ∧ ((s.die d).pressHeld = false → t.zValve c = 0)) ∧
    (s.zState c = zAllocated → 2000 ≤ (s.zoneOf c).time →
      ∃ t, exec (.allocTimeout d z) s = .next t ∧ ZoneGoes t c zAlarm ∧ bit (t.zsens c) 42 = true ∧
        ((s.die d).pressHeld = false → t.zValve c = 15)) ∧
    (s.zState c = zAlarm → 5000 ≤ (s.zoneOf c).good →
      ∃ t, exec (.alarmRecover d z) s = .next t ∧ ZoneGoes t c (if s.zMin c = 0 then zWetIdle else zFlowing)) ∧
    (s.zState c = zAlarm → 50000 ≤ (s.zoneOf c).time →
      ∃ t, exec (.alarmLockTimeout d z) s = .next t ∧ ZoneGoes t c zLocked ∧ ((s.die d).pressHeld = false → t.zValve c = 0)) ∧
    (zWet (s.zState c) = true → s.zDryBit c = true →
      ∃ t, exec (.dryDetect d z) s = .next t ∧ ZoneGoes t c zEvac ∧ (t.zoneOf c).step = 1 ∧ bit (t.zsens c) 43 = true ∧
        t.zAttempts c = (s.zAttempts c + 1) % 4 ∧ ((s.die d).pressHeld = false → t.zValve c = 0)) ∧
    (s.zState c = zEvac →
      let y := s.zoneOf c
      ((y.step = 1 ∧ 1 ≤ y.time ∨ y.step = 2 ∧ 2000 ≤ y.time ∨ y.step = 3 ∧ 3000 ≤ y.time ∨ y.step = 4 ∧ s.zDryBit c = false) →
        ∃ t, exec (.evacStepEnd d z) s = .next t ∧ t.zState c = zEvac ∧ (t.zoneOf c).step = y.step + 1 ∧
          (t.zoneOf c).time = 0 ∧ (t.zoneOf c).purge = (y.step == 1)) ∧
      ((y.step = 4 ∧ s.zDryBit c = true ∧ 20000 ≤ y.time ∨ y.step = 5 ∧ s.evacGood c = false) →
        ∃ t, exec (.evacStepEnd d z) s = .next t ∧
          (s.zAttempts c < 3 → t.zState c = zEvac ∧ (t.zoneOf c).step = 2 ∧ t.zAttempts c = s.zAttempts c + 1) ∧
          (s.zAttempts c = 3 → ZoneGoes t c zLocked)) ∧
      (y.step = 5 → s.evacGood c = true → 5000 ≤ y.time →
        ∃ t, exec (.evacStepEnd d z) s = .next t ∧ t.zAttempts c = 0 ∧
          ZoneGoes t c (if s.zMin c = 0 then zWetIdle else zFlowing)))) ∧
  (∀ (s : State) (d : Nat), d < 4 → s.pressOut d = true → bit (s.reg (dieBase d + 0x20230)) 10 = false →
    ∃ t, exec (.pressureExcursion d) s = .next t ∧ bit (t.reg (dieBase d + 0x20230)) 10 = true ∧ (t.die d).pressHeld = true ∧
      ∀ c, t.zalloc c = s.zalloc c) ∧
  (∀ (s : State) (who : Agent) (d z : Nat), d < 4 → z < 32 → s.mayWrite who (zcmdPa d) = true →
    let c := 32 * d + z
    let st := s.zState c
    let free := (s.die d).pressHeld = false
    ∃ tp te tl tu, exec (.zcmdPrime who d z) s = .next tp ∧ exec (.zcmdEvacuate who d z) s = .next te ∧
      exec (.zcmdLock who d z) s = .next tl ∧ exec (.zcmdUnlock who d z) s = .next tu ∧
      (st = zDry → ZoneGoes tp c zPriming ∧ (free → tp.zValve c = 8)) ∧
      (zWet st = true → ZoneGoes te c zEvac ∧ (te.zoneOf c).step = 1 ∧ (free → te.zValve c = 0)) ∧
      (st ≠ zLocked → ZoneGoes tl c zLocked ∧ (free → tl.zValve c = 0)) ∧
      (st = zLocked → ZoneGoes tu c zDry ∧ tu.zAttempts c = 0) ∧
      ∀ t, (st ≠ zDry ∧ t = tp ∨ zWet st = false ∧ t = te ∨ st = zLocked ∧ t = tl ∨ st ≠ zLocked ∧ t = tu) →
        bit (t.reg (dieBase d + 0x20230)) 12 = true ∧ t.zalloc c = s.zalloc c) ∧
  (∀ (s : State) (who : Agent) (d : Nat) (v : Word), d < 4 → s.mayWrite who (zbudgetPa d) = true →
    let others := ((List.range 4).filter (· ≠ d)).foldl (fun a e => a + s.zbudget e) 0
    ∃ t, exec (.zbudgetWrite who d v) s = .next t ∧
      (fld v 13 0 + others ≤ 16000 → s.sumMins d ≤ fld v 13 0 → t.zbudget d = fld v 13 0) ∧
      (16000 < fld v 13 0 + others ∨ fld v 13 0 < s.sumMins d → t.zbudget d = s.zbudget d ∧
        bit (t.reg (dieBase d + 0x20230)) 11 = true))

/-! ## Power -/

/-- R407, R410 to R412, R442: the power controller. A step raises the current ceiling by 16 unless a window came too near to
ILIM, sets every cluster's applied meter to the lowest of its ceilings and its request, rising by at most 32, and every
spine's frequency within its request and its slew; a window whose estimate exceeds ILIM halves the current ceiling at once; a
new meter window of a spine starts the counts of its AGs' edge ports at zero; PCAP holds what is written and acts as the
largest value that the package's sum admits; a PROF write stays pending until its messages are queued. A die's step comes once
after each Beaver interval. The model's readings (DEDUCED): PCAP reads as written, after R8 (log 48); the estimates are inputs
of the schedule, and a cluster whose cause's ceiling is the value applied has its reason bit (log 49). -/
def Obligations.PowerFollowsItsCeilings : Prop :=
  (∀ (s : State) (d watts supply : Nat) (temps : List Nat), d < 4 → (s.die d).stepDue = true → (s.die d).prof = none →
    let cur := if (s.die d).overWin then (s.die d).curCeil else min 256 ((s.die d).curCeil + 16)
    ∃ t, exec (.powerStep d watts supply temps) s = .next t ∧ (t.die d).curCeil = cur ∧ (t.die d).overWin = false ∧ (t.die d).stepDue = false ∧
      fld (t.reg (pestPa d)) 31 0 = watts % 2 ^ 32 ∧
      (∀ z, z < 32 → let c := 32 * d + z
        let thm := if zCeiling (s.zState c) then 0
          else if fld (s.reg (dieBase d + 0x30050)) 9 0 < temps.getD z 0 then s.applied c / 2 else 256
        t.applied c = min (min (min cur thm) (s.nreq c)) (s.applied c + 32)) ∧
      (∀ i, i < 8 → t.spCur d i ≤ min (s.spReq d i) (s.spCur d i + 100) ∧ t.spCur d i ≤ relCeil supply) ∧
      ∀ a, t.mem.read a = s.mem.read a) ∧
  (∀ (s : State) (d watts supply : Nat) (temps : List Nat), (s.die d).stepDue = false →
    exec (.powerStep d watts supply temps) s = .next s) ∧
  (∀ (s : State) (d amps : Nat), d < 4 →
    ∃ t, exec (.currentWindow d amps) s = .next t ∧ fld (t.reg (pestPa d)) 63 32 = amps % 2 ^ 32 ∧
      ((s.die d).ilim < amps → (t.die d).curCeil = (s.die d).curCeil / 2 ∧
        ∀ z, z < 32 → t.applied (32 * d + z) = min (s.applied (32 * d + z)) ((s.die d).curCeil / 2)) ∧
      (amps ≤ (s.die d).ilim → (t.die d).curCeil = (s.die d).curCeil) ∧
      (7 * (s.die d).ilim ≤ 8 * amps → (t.die d).overWin = true)) ∧
  (∀ (s : State) (d sp : Nat), sp < 8 → ∃ t, exec (.meterWindow (8 * d + sp)) s = .next t ∧ t = { s with sites := t.sites } ∧
    ∀ p, t.site p = if siteKind p = .ag ∧ siteDie p = d ∧ s.spineOf p = sp then { s.site p with admitted := 0 } else s.site p) ∧
  (∀ (s : State) (who : Agent) (d : Nat) (v : Word), d < 4 → s.mayWrite who (pcapPa d) = true →
    let others := ((List.range 4).filter (· ≠ d)).foldl (fun a e => a + (s.die e).cap) 0
    ∃ t, exec (.pcapWrite who d v) s = .next t ∧ fld (t.reg (pcapPa d)) 15 0 = fld v 15 0 ∧
      (t.die d).cap = min (fld v 15 0) (7200 - others)) ∧
  (∀ (s : State) (who : Agent) (d : Nat) (v : Word), d < 4 → s.mayWrite who (profPa d) = true →
    ∃ t w, exec (.profWrite who d v) s = .next t ∧ (t.die d).prof = some (w, s.agentCtx who) ∧ fld w 63 62 = fld v 63 62 ∧
      fld w 47 32 = fld v 47 32 ∧ fld w 5 0 = s.agentCtx who % 64 ∧ t.reg (profPa d) = s.reg (profPa d))

/-! ## Faults, gating, page requests -/

/-- R416, R417, R419, R421 to R423: faults on their way, gating, page requests and links. The oldest entry of a fault queue
passes to an enabled ch0 with room; %fltres resumes a site, or ends a command with its fault's cause, and an act that the
fault does not admit sets err; scrubbing counts what it finds and poisons an uncorrected word of memory, a tile or an
accumulator; a cluster that holds nothing is gated, drains, turns off with its tiles empty, and powers on with its registers
and tiles zero; a page-request response drops or performs the waiting host write, else the waiting host read, which returns
the bytes as they are then, or ones; a kin link goes down. The model's choices and readings: a gate's deadline may pass at any
step (log 5, DESIGN CHOICE); a gate request is admitted only with an empty fault queue, and what counts as admitted before it
(log 50, DEDUCED); an uncorrected error that scrubbing finds counts at cluster index 0 too (log 52, DEDUCED; R419 says so of a
corrected one); what waits behind what at a page request (log 55, DEDUCED). -/
def Obligations.FaultsGatesAndPageRequests : Prop :=
  (∀ (s : State) (c : Nat) (m : Msg) (q : List Msg), (s.cluster c).queue = m :: q → ((s.core c).channel 0).actEn = true →
    ((s.core c).channel 0).room = true →
    ∃ t, exec (.faultPost c) s = .next t ∧ ((t.core c).channel 0).queue = ((s.core c).channel 0).queue ++ [m] ∧
      ((s.cluster c).owed = [] → (t.cluster c).queue = q)) ∧
  (∀ (s : State) (c n : Nat), n < 2 ^ 48 → (s.core c).running = true → (s.core c).priv = true →
    (∀ h p l, s.heldAt c n = some h → h.holder = .site p l → h.cause ≠ tStrayToken →
      ∃ t, exec (.fltresResume c n) s = .next t ∧ t.heldAt c n = none ∧
        (t.site p).faults = (s.site p).faults.filter (· ≠ n) ∧
        ((s.site p).phase = .fault → (s.site p).owed = 0 → (t.site p).faults = [] → (t.site p).phase = (s.site p).before)) ∧
    (∀ h k m, s.heldAt c n = some h → h.holder = .cmd k → s.cmd? k = some m → m.task = none →
      ∃ t, exec (.fltresEnd c n) s = .next t ∧ t.heldAt c n = none ∧ Finished s t k m h.cause) ∧
    (∀ h, s.heldAt c n = some h → h.admitsEnd = false →
      ∃ t, exec (.fltresEnd c n) s = .next t ∧ (t.core c).fltErr = true ∧ t.clusters = s.clusters) ∧
    (s.heldAt c n = none → ∃ t, exec (.fltresResume c n) s = .next t ∧ (t.core c).fltErr = true ∧ t.clusters = s.clusters)) ∧
  (∀ (s : State) (d pa : Nat), d < 4 →
    (∃ t, exec (.eccScrubError d true pa) s = .next t ∧ (poisonable (pa / 4 * 4) = true → t.poison.contains (pa / 4 * 4) = true) ∧ t.mem = s.mem ∧
      (t.core (32 * d)).eccUnc.toNat = min (2 ^ 16 - 1) ((s.core (32 * d)).eccUnc.toNat + 1)) ∧
    (∃ t, exec (.eccScrubError d false pa) s = .next t ∧ t.poison = s.poison ∧ t.mem = s.mem ∧
      (t.core (32 * d)).eccCorr.toNat = min (2 ^ 32 - 1) ((s.core (32 * d)).eccCorr.toNat + 1))) ∧
  (∀ (s : State) (who : Agent) (c : Nat), c < 128 → s.mayWrite who (pgatePa c) = true →
    ((s.cluster c).gate = .on → s.mayGate c = true →
      ∃ t, exec (.pgateGate who c) s = .next t ∧ (t.cluster c).gate = .pending ∧ t.dregs = s.dregs) ∧
    ((s.cluster c).gate ≠ .on ∨ s.mayGate c = false →
      ∃ t, exec (.pgateGate who c) s = .next t ∧ t.clusters = s.clusters ∧ bit (t.reg (pgatePa c)) 2 = true) ∧
    ((s.cluster c).gate = .off →
      ∃ t, exec (.pgateUngate who c) s = .next t ∧ (t.cluster c).gate = .on ∧ (∀ r, (t.core c).rd r = 0 ∧ (t.core c).rdF r = 0) ∧
        ∀ a, clusterBase c ≤ a → a < clusterBase c + 0xC00000 → t.mem.read a = 0 ∧ t.isFull a = false) ∧
    ((s.cluster c).gate ≠ .off →
      ∃ t, exec (.pgateUngate who c) s = .next t ∧ t.clusters = s.clusters ∧ bit (t.reg (pgatePa c)) 2 = true)) ∧
  (∀ (s : State) (c : Nat),
    ((s.cluster c).gate = .pending → (∀ p ∈ clusterTiles c, (s.site p).mtq = []) → s.engineInto c = false →
      s.admittedInto c = false →
      ∃ t, exec (.gateDraining c) s = .next t ∧ (t.cluster c).gate = .draining ∧ (t.cluster c).trace = []) ∧
    ((s.cluster c).gate = .draining → (s.cluster c).trace = [] →
      ∃ t, exec (.gateOff c) s = .next t ∧ (t.cluster c).gate = .off ∧ ∀ a, clusterBase c ≤ a → a < clusterBase c + 0xC00000 →
        t.mem.read a = 0 ∧ t.isFull a = false) ∧
    ((s.cluster c).gate = .draining → (s.cluster c).trace ≠ [] → c < 128 →
      ∃ t, exec (.gateTimeout c) s = .next t ∧ (t.cluster c).gate = .off ∧ (c % 32 ≠ 0 → (t.cluster c).trace = []) ∧
        fld (t.reg (pgatePa c)) 63 32 = min (fld (s.dreg (pgatePa c)) 63 32 + (s.cluster c).trace.length) (2 ^ 32 - 1))) ∧
  (∀ (s : State) (m : Nat) (w : HostWait) (ws : List HostWait), m < 2 → s.waiting m = w :: ws →
    (ws = [] → ∃ t, exec (.pageRequestResponse m false) s = .next t ∧ t.waiting m = [] ∧ t.mem = s.mem) ∧
    (∀ u, ws = [] → w.port = .aperture → (s.setWaiting m []).hostPerform m w.ctx w.va w.bytes = some u →
      ∃ t, exec (.pageRequestResponse m true) s = .next t ∧ t.waiting m = [] ∧ t.mem = u.mem) ∧
    (w.port = .aperture → (s.setWaiting m []).hostPerform m w.ctx w.va w.bytes = none →
      ∃ t, exec (.pageRequestResponse m true) s = .next t ∧ t.waiting m = w :: ws ∧ t.mem = s.mem)) ∧
  (∀ (s : State) (m x va n : Nat), m < 2 → x < 64 → 0 < n → va + n ≤ 2 ^ 34 → s.waiting m = [] → Table.get [] s.hostReads m = [.aperture x va n] →
    (∃ t, exec (.pageRequestResponse m false) s = .next t ∧ Table.get [] t.hostReads m = [] ∧
      t.hostAns = s.hostAns ++ [(m, List.replicate n (BitVec.allOnes 8))]) ∧
    (∀ ps, 1 ≤ s.acct m x → s.vaddrs (hostPlace m) x .load va n = (ps, none) → (∀ p ∈ ps, placeOf p = .ram ∧ s.protectedBy p = none) →
      ∃ t, exec (.pageRequestResponse m true) s = .next t ∧ Table.get [] t.hostReads m = [] ∧ t.mem = s.mem ∧
        t.hostAns = s.hostAns ++ [(m, ps.map s.mem.read)]) ∧
    (∀ ps va', 1 ≤ s.acct m x → s.vaddrs (hostPlace m) x .load va n = (ps, some (va', 0)) →
      ∃ t, exec (.pageRequestResponse m true) s = .next t ∧ Table.get [] t.hostReads m = [.aperture x va n] ∧ t.hostAns = s.hostAns)) ∧
  (∀ (s : State) (l : Nat), ∃ t, exec (.kinLinkDown l) s = .next t ∧ Table.get true t.kinUp l = false ∧
    ∀ i, i ≠ l → Table.get true t.kinUp i = Table.get true s.kinUp i)

/-! ## The owner's registers, the host, trace -/

namespace Sys2Proof

/-- An event of the words `w0`, `w2`, `w4` for the owner, about cluster `c` and master `m`: it takes the next entry of the
queue, or with 256 waiting it is counted as dropped (R424, R427). -/
structure OwnerHears (s t : State) (w0 w2 w4 : Word) (c m : Nat) : Prop where
  room : fld (s.dreg (iodN + 0x20020)) 31 0 - fld (s.dreg (iodN + 0x20018)) 31 0 < 256 →
    fld (s.dreg (iodN + 0x20018)) 31 0 ≤ fld (s.dreg (iodN + 0x20020)) 31 0 →
    let e := iodN + 0x22000 + 0x20 * (fld (s.dreg (iodN + 0x20020)) 31 0 % 256)
    t.dreg e = w0 ∧ t.dreg (e + 8) = w2 ∧ t.dreg (e + 16) = w4 ∧ t.dreg (e + 24) = BitVec.ofNat 64 (c % 128 + m % 4 * 256) ∧
      fld (t.dreg (iodN + 0x20020)) 31 0 = (fld (s.dreg (iodN + 0x20020)) 31 0 + 1) % 2 ^ 32
  full : (fld (s.dreg (iodN + 0x20020)) 31 0 + 2 ^ 32 - fld (s.dreg (iodN + 0x20018)) 31 0) % 2 ^ 32 = 256 →
    t.dregs = s.dregs ∧ (t.core 0).fltDrop.toNat = min (2 ^ 32 - 1) ((s.core 0).fltDrop.toNat + 1)
  mem : t.mem = s.mem

/-- A device register that a write changes as R8 gives and with no more effect. -/
def Machine.State.isPlain (s : State) (pa : Nat) : Bool :=
  match placeOf pa with
  | .debug _ o => o != 0x4100
  | .die d o =>
    if d < 4 then
      !(decide (o < 0x1000) && (o % 0x40 == 8 || (o % 0x40 == 0 && s.qEn d (o / 0x40)))) && o != 0x1008
        && !(decide (0x10000 ≤ o) && decide (o < 0x10200)) && o != 0x20200 && o != 0x20238 && o != 0x30040
        && !(decide (0x30200 ≤ o) && decide (o < 0x30300)) && decide (o < 0x40000)
    else d == 4 && decide (0x20010 ≤ o) && decide (o < 0x30000) && o != 0x20018 && !(decide (0x20C00 ≤ o) && decide (o < 0x21020))
  | _ => false

/-- A handler's write that arms a breakpoint names a site that a group of its context holds (R437). -/
def BreakGranted (s : State) (who : Agent) (pa : Nat) (v : Word) : Prop :=
  ∀ k c o, who = .core k → placeOf pa = .debug c o → o < 0x4040 → pa % 16 = 0 → bit v 63 = true →
    s.holdsSite (s.core k).ctx (fld v 12 0) = true

/-- The registers whose write is an operation of its own, with that operation: queue `n` of compute die `d`, its format-range
entries, zones and power, and a cluster's trace (R8). -/
def OpWrite (who : Agent) (v : Word) (d n pa : Nat) (i : Instr) : Prop :=
  let fr := dieBase d + 0x10000 + 0x20 * (n % 16)
  let c := 32 * d + n % 32
  let z := fld v 4 0
  (pa = queuePa d n + 8 ∧ i = .qctlWrite who d n v) ∨ (pa = fr ∧ i = .frbaseWrite who fr v) ∨
  (pa = zbudgetPa d ∧ i = .zbudgetWrite who d v) ∨ (pa = pcapPa d ∧ i = .pcapWrite who d v) ∨
  (pa = profPa d ∧ i = .profWrite who d v) ∨ (pa = trctlPa c ∧ i = .trctlWrite who c v) ∨
  (pa = zcmdPa d ∧ (fld v 7 5 = 1 ∧ i = .zcmdPrime who d z ∨ fld v 7 5 = 2 ∧ i = .zcmdEvacuate who d z ∨
    fld v 7 5 = 3 ∧ i = .zcmdLock who d z ∨ fld v 7 5 = 4 ∧ i = .zcmdUnlock who d z)) ∨
  (pa = cutstPa d ∧ (fld v 1 0 = 1 ∧ i = .cutStart who d ∨ fld v 1 0 = 2 ∧ i = .cutRelease who d))

/-- The same of the registers that the owner master alone writes: protected window `n` of I/O die `d`, the queue of events, a
core's halt, and attestation (R424, R427, R429, R432). -/
def OwnerWrite (m : Nat) (v : Word) (d n pa : Nat) (i : Instr) : Prop :=
  (pa = pwPa (4 + d) n ∧ i = .pwbaseWrite (.master m) d n v) ∨ (pa = iodN + 0x20018 ∧ i = .evqheadWrite m v) ∨
  (pa = iodN + 0x21018 ∧ i = .attestStart m v) ∨ (pa = iodN + 0x20C00 + 8 * n ∧ v = 1 ∧ i = .runResume m n)

end Sys2Proof

/-- R8, R44, R383, R424 to R428, R443, R444: reset, boot, ownership and the device's registers. RESET leaves every register at
its after-reset value, contexts free, tiles zero, near and far memory as they were; BOOT of good firmware extends the
measurements and primes the DRY zones, and of firmware whose key or signature fails halts the boot with its cause; a host
write of an admitted context stores its bytes; a claim of the unowned device, or of the master that the offer names, succeeds,
and any other changes nothing; a lost link passes the device to master 2; RUN clears a halt; EVQHEAD moves up to the tail; a
refused access is heard by the owner; a register write takes the writable bits, or is the operation that the register stands
for, or waits behind the master's own writes that wait; the owner writes system registers, at the addresses of log 69; a
format entry is enabled only if valid, and an invalid one stores its base, which is the model's choice of log 68; the trace
drains to its ring, and TRCTL restarts it. That RESET keeps near and far memory, and the form of BOOT, are the model's
readings (log 53, DEDUCED), as is what waits behind a master's writes (log 55, DEDUCED). -/
def Obligations.ResetBootOwnershipAndRegisters : Prop :=
  (∀ s : State, ∃ t, exec .reset s = .next t ∧ (∀ pa, t.reg pa = State.reset.reg pa) ∧ (∀ c, t.core c = CoreSt.reset) ∧
    (∀ x, t.ctx x = {}) ∧ t.regions = [] ∧ t.sites = [] ∧ t.accWords = [] ∧ t.fullBits = [] ∧
    (∀ a, isRam a = true → t.mem.read a = s.mem.read a) ∧ ∀ a, isRam a = false → t.mem.read a = 0) ∧
  (∀ (s : State) (d : List Byte) (ds : List (List Byte)), s.bootCause = none → s.regBytes (mrPa 0) 8 = List.replicate 64 0 →
    let key := takeFn 64 (Config.shake256 Config.firmwareKey) = Config.fusedKeyDigest
    let signed := Config.mldsaVerify Config.firmwareKey d (Config.firmwareSig d) = true
    (key → signed → ∃ t, exec (.boot (d :: ds)) s = .next t ∧
      t.regBytes (mrPa 0) 8 = takeFn 64 (Config.shake256 (List.replicate 64 0 ++ d)) ∧
      ∀ c, c < 128 → s.zState c = zDry → t.zState c = zPriming) ∧
    (¬ key → exec (.boot (d :: ds)) s = .next { s with bootCause := some 1 }) ∧
    (key → ¬ signed → exec (.boot (d :: ds)) s = .next { s with bootCause := some 2 })) ∧
  (∀ (s : State) (ds : List (List Byte)), s.bootCause ≠ none → exec (.boot ds) s = .next s) ∧
  (∀ (s : State) (m x va : Nat) (bytes : List Byte) (ps : List Nat), m < 2 → x < 64 → bytes ≠ [] → va + bytes.length ≤ 2 ^ 34 →
    (2 ≤ s.acct m x → s.waiting m = [] → s.vaddrs (hostPlace m) x .store va bytes.length = (ps, none) →
      (∀ p ∈ ps, placeOf p = .ram ∧ ∀ y, s.protectedBy p = some y → y = x) → ps.Nodup →
      ∃ t, exec (.hostWrite m x va bytes) s = .next t ∧
        (∀ (i p : Nat) (b : Byte), ps[i]? = some p → bytes[i]? = some b → t.mem.read p = b) ∧
        ∀ a, a ∉ ps → t.mem.read a = s.mem.read a) ∧
    (2 ≤ s.acct m x → s.waiting m ≠ [] → ∃ t, exec (.hostWrite m x va bytes) s = .next t ∧ t.mem = s.mem ∧
      t.waiting m = s.waiting m ++ [{ ctx := x, va, bytes }]) ∧
    (s.acct m x < 2 → ∃ t, exec (.hostWrite m x va bytes) s = .next t ∧
      OwnerHears s t (faultWord0 3 false tAccess x 0 0) (BitVec.ofNat 64 va) 0 0 m)) ∧
  (∀ (s : State) (m : Nat), m < 3 → s.waiting m = [] →
    (s.owner = 3 ∨ s.offer = m → ∃ t, exec (.ownClaim m) s = .next t ∧ t.owner = m ∧ t.offer = 3) ∧
    (s.owner ≠ 3 → s.offer ≠ m → exec (.ownClaim m) s = .next s) ∧
    (s.owner = m → m < 2 → ∃ t, exec (.hostLinkDown m) s = .next t ∧ t.owner = 2 ∧ bit (t.reg ownPa) 3 = true) ∧
    (s.owner ≠ m → exec (.hostLinkDown m) s = .next s) ∧
    (∀ o, s.owner = m → o < 4 → ∃ t, exec (.ownOffer m o) s = .next t ∧ t.offer = o ∧ t.owner = m) ∧
    (∀ c, s.owner = m → c < 128 → ∃ t, exec (.runResume m c) s = .next t ∧ (t.core c).halted = false) ∧
    (∀ v, s.owner = m → let head := fld (s.reg (iodN + 0x20018)) 31 0
      let tail := fld (s.reg (iodN + 0x20020)) 31 0
      (head ≤ fld v 31 0 → fld v 31 0 ≤ tail →
        ∃ t, exec (.evqheadWrite m v) s = .next t ∧ fld (t.reg (iodN + 0x20018)) 31 0 = fld v 31 0) ∧
      (head ≤ tail → tail < fld v 31 0 → exec (.evqheadWrite m v) s = .next s)) ∧
    (∀ x o wr, s.acct m x < (if wr then 2 else 1) → ∃ t, exec (.accessRefused m x o wr) s = .next t ∧
      OwnerHears s t (faultWord0 3 false tAccess x 0 0) (BitVec.ofNat 64 o) 0 0 m)) ∧
  (∀ (s : State) (who : Agent) (pa : Nat) (v : Word), s.mayWrite who pa = true → pa % 8 = 0 →
    (∀ r, regInfo pa = some r → s.isPlain pa = true → BreakGranted s who pa v →
      ∃ t, exec (.registerWrite who pa v) s = .next t ∧ t.reg pa = r.write (s.reg pa) v ∧ ∀ q, q ≠ pa → t.reg q = s.reg q) ∧
    (∀ d n i, d < 4 → n < 64 → OpWrite who v d n pa i → exec (.registerWrite who pa v) s = exec i s) ∧
    (∀ m d n i, who = .master m → d < 2 → n < 8 → OwnerWrite m v d n pa i → exec (.registerWrite who pa v) s = exec i s) ∧
    (∀ c, c < 128 → pa = pgatePa c → fld v 1 0 = 1 → (s.cluster c).gate = .on → s.mayGate c = true →
      ∃ t, exec (.registerWrite who pa v) s = .next t ∧ (t.cluster c).gate = .pending ∧
        fld (t.reg pa) 63 32 = fld v 63 32)) ∧
  (∀ (s : State) (m pa : Nat) (v : Word), m < 3 →
    (s.waiting m ≠ [] → ∃ t, exec (.registerWrite (.master m) pa v) s = .next t ∧ t.mem = s.mem ∧ t.dregs = s.dregs ∧
      t.waiting m = s.waiting m ++ [{ ctx := 0, va := pa, bytes := bytesLE 8 v.toNat, port := .register }]) ∧
    (∀ c n, s.waiting m = [] → s.owner = m → c < 128 → ownerSys n = true → pa = sysPa c n →
      exec (.registerWrite (.master m) pa v) s = .next (s.sysStore c n v))) ∧
  (∀ (s : State) (who : Agent) (d n : Nat) (v : Word), d < 6 → n < 16 → let pa := dieBase d + 0x10000 + 0x20 * n
    s.mayWrite who pa = true →
    let valid := fld v 51 16 ≤ fld (s.reg (pa + 8)) 51 16 ∧ fld (s.reg (pa + 16)) 63 52 ≠ 0 ∧
      1 ≤ fld (s.reg (pa + 24)) 3 0 ∧ fld (s.reg (pa + 24)) 3 0 ≤ 4
    (bit (s.reg pa) 0 = false → ∃ t, exec (.frbaseWrite who pa v) s = .next t ∧ fld (t.reg pa) 51 16 = fld v 51 16 ∧
      (valid → bit (t.reg pa) 0 = bit v 0) ∧ (¬ valid → bit (t.reg pa) 0 = false)) ∧
    (bit (s.reg pa) 0 = true → fld v 51 16 ≠ fld (s.reg pa) 51 16 → exec (.frbaseWrite who pa v) s = .next s)) ∧
  (∀ (s : State) (c : Nat), c < 128 → 128 ≤ (s.cluster c).trace.length → (s.cluster c).trace.length ≤ 4096 →
    let ring := fld (s.reg (trctlPa c)) 39 16 * 0x10000
    let next := fld (s.reg (trptrPa c)) 11 0
    ring < 0x4000000000 →
    ∃ t, exec (.traceDrain c) s = .next t ∧ (t.cluster c).trace = [] ∧
      fld (t.reg (trptrPa c)) 11 0 = (next + (s.cluster c).trace.length) % 4096 ∧
      (bit (t.reg (trptrPa c)) 63 = true ↔ bit (s.reg (trptrPa c)) 63 = true ∨ 4096 ≤ next + (s.cluster c).trace.length) ∧
      (∀ (i j : Nat) (r : TraceRec) (b : Byte), (s.cluster c).trace[i]? = some r → r.bytes[j]? = some b →
        t.mem.read (ring + 16 * ((next + i) % 4096) + j) = b) ∧
      ∀ a, (a < ring ∨ ring + 0x10000 ≤ a) → t.mem.read a = s.mem.read a) ∧
  (∀ (s : State) (who : Agent) (c : Nat) (v : Word), c < 128 → s.mayWrite who (trctlPa c) = true →
    ∃ t, exec (.trctlWrite who c v) s = .next t ∧ fld (t.reg (trctlPa c)) 63 57 = fld v 63 57 ∧
      fld (t.reg (trctlPa c)) 39 0 = fld v 39 0 ∧ t.reg (trptrPa c) = 0)

/-! ## Security -/

/-- R428, R429, R431 to R435: attestation, protected windows, marked readout. The owner's last nonce write starts a report
that stands in its registers when it is done, over the state as it then is; the owner sets a window that is valid, and a
core's write is refused and heard; an admitted readout is taken under the next frame number, another is refused; a readout
whose 256 mark offsets the output stream has given is finished and adds its digest, else the stream is read on; MANR signs the
pending digests; a write at its offset of BAR4 is each of these. The numbers from 2^52 on that name BAR4's registers are the
model's choice (log 69, DESIGN CHOICE), and the moments at which nonce, report and frame are taken its readings (log 54,
DEDUCED). -/
def Obligations.AttestationWindowsAndReadout : Prop :=
  (∀ (s : State) (m : Nat) (v : Word), m < 3 → s.owner = m → s.waiting m = [] →
    (s.attest = none → ∃ t, exec (.attestStart m v) s = .next t ∧ t.reg attsPa = 2 ∧
      t.attest = some (s.regBytes (iodN + 0x21000) 3 ++ bytesLE 8 v.toNat)) ∧
    (s.attest ≠ none → exec (.attestStart m v) s = .next s)) ∧
  (∀ (s : State) (nonce : List Byte), s.attest = some nonce → nonce.length = 32 →
    ∃ t, exec .attestDone s = .next t ∧ t.reg attsPa = 1 ∧ t.attest = none ∧
      t.regBytes (iodN + 0x26000) 94 = s.attestBody nonce ∧
      t.regBytes (iodN + 0x26000 + 752) 8 = takeFn 64 (Config.shake256 (s.attestBody nonce))) ∧
  (∀ (s : State) (i n : Nat) (v : Word), i < 2 → n < 8 →
    (∀ m, m < 3 → s.owner = m → s.waiting m = [] → ∃ t, exec (.pwbaseWrite (.master m) i n v) s = .next t ∧
      (bit (s.reg (pwPa (4 + i) n)) 0 = false → t.pwBase (4 + i) n = fld v 51 16 ∧
        bit (t.reg (pwPa (4 + i) n)) 0 = (bit v 0 && s.pwGood (4 + i) n (fld v 51 16))) ∧
      (bit (s.reg (pwPa (4 + i) n)) 0 = true → t.pwBase (4 + i) n = s.pwBase (4 + i) n ∧
        bit (t.reg (pwPa (4 + i) n)) 0 = bit v 0)) ∧
    (∀ c, ∃ t, exec (.pwbaseWrite (.core c) i n v) s = .next t ∧
      OwnerHears s t (faultWord0 3 false tAccess (fld (s.reg (pwPa (4 + i) n + 16)) 5 0) 0 0)
        (BitVec.ofNat 64 (s.accessOff (pwPa (4 + i) n))) 0 c 3)) ∧
  (∀ (s : State) (m x : Nat) (v : Word), m < 2 → x < 64 → s.waiting m = [] → let bar := 2 ^ 52 + 2 ^ 36 * m + 2 ^ 29 * x
    (2 ≤ s.acct m x → ∃ t u, exec (.registerWrite (.master m) bar v) s = .next t ∧
      exec (.registerWrite (.master m) (bar + 8) v) s = .next u ∧ fld (t.mark m x).off 50 0 = fld v 50 0 ∧
      fld (u.mark m x).luma 31 0 = fld v 31 0) ∧
    exec (.registerWrite (.master m) (bar + 0x10) v) s = exec (.readoutRequest m x (fld v 31 0)) s ∧
    exec (.registerWrite (.master m) (bar + 0x1000) v) s = exec (.manifestSign m x v) s) ∧
  (∀ (s : State) (m x len : Nat), m < 2 → x < 64 → s.waiting m = [] → 2 ≤ s.acct m x →
    (s.readoutBad m x len = false → ∃ t, exec (.readoutRequest m x len) s = .next t ∧ (t.mark m x).busy = true ∧
      (t.mark m x).refused = false ∧ (t.mark m x).cur = (s.mark m x).count ∧ (t.mark m x).count = (s.mark m x).count + 1 ∧
      (t.mark m x).len = len ∧ (t.mark m x).start =
        s.pwBase (4 + m) (fld (s.mark m x).off 50 48) * 0x10000 + fld (s.mark m x).off 47 0) ∧
    (s.readoutBad m x len = true → ∃ t, exec (.readoutRequest m x len) s = .next t ∧
      t.mark m x = { s.mark m x with refused := true })) ∧
  (∀ (s : State) (l x : Nat), x < 64 → (s.mark l x).busy = true → let u := s.mark l x
    let out := Config.shake256 (s.markKey l ++ bytesLE 8 u.cur.toNat)
    let os := markOffsets out u.y 0x10000 u.word u.offs
    (256 ≤ os.length → u.pending.length < 63 →
      ∃ t, exec (.readoutDone (64 * l + x)) s = .next t ∧ (t.mark l x).busy = false ∧
        (t.mark l x).frame = markFrame os (markBits x u.cur) (s.mem.readBytes u.start u.len) ∧
        (t.mark l x).pending = u.pending ++ [takeFn 64 (Config.shake256 (t.mark l x).frame)] ∧ t.mem = s.mem) ∧
    (os.length < 256 → ∃ t, exec (.readoutDone (64 * l + x)) s = .next t ∧ (t.mark l x).busy = true ∧
      (t.mark l x).word = u.word + 0x10000 ∧ (t.mark l x).pending = u.pending ∧ t.mem = s.mem)) ∧
  (∀ (s : State) (m x : Nat), m < 2 → x < 64 → s.waiting m = [] → 2 ≤ s.acct m x → (s.mark m x).pending ≠ [] →
    ∃ t, exec (.manifestSign m x 1) s = .next t ∧ (t.mark m x).pending = [] ∧
      (t.mark m x).digests = (s.mark m x).pending.length ∧
      let head := [BitVec.ofNat 8 x, BitVec.ofNat 8 (s.mark m x).pending.length] ++ bytesLE 6 (s.mark m x).first.toNat ++
        bytesLE 8 Config.deviceSerial.toNat ++ (s.mark m x).pending.flatten
      ∃ sig, (t.mark m x).manifest = head ++ takeFn 64 (Config.shake256 head) ++ sig ∧ sig.length = 3309)
end

