-- ==== Sys2Proof/Laws/Encoding.lean ====
section
/-! SUPPORT. The fields of encoded words (R53), and what the decoder makes of one encoded word or two. -/

namespace Sys2Proof

theorem append_toNat {m n : Nat} (x : BitVec m) (y : BitVec n) : (x ++ y).toNat = x.toNat * 2 ^ n + y.toNat := by
  rw [BitVec.toNat_append, ← Nat.shiftLeft_add_eq_or_of_lt y.isLt, Nat.shiftLeft_eq]

theorem encRR_toNat (maj : BitVec 6) (d a b c : BitVec 5) (mn : BitVec 6) : (encRR maj d a b c mn).toNat =
    maj.toNat * 2 ^ 26 + d.toNat * 2 ^ 21 + a.toNat * 2 ^ 16 + b.toNat * 2 ^ 11 + c.toNat * 2 ^ 6 + mn.toNat := by
  refine Eq.trans (append_toNat (maj ++ d ++ a ++ b ++ c) mn) ?_
  simp only [append_toNat]
  omega

theorem encRI_toNat (maj : BitVec 6) (d a : BitVec 5) (imm : BitVec 16) : (encRI maj d a imm).toNat =
    maj.toNat * 2 ^ 26 + d.toNat * 2 ^ 21 + a.toNat * 2 ^ 16 + imm.toNat := by
  refine Eq.trans (append_toNat (maj ++ d ++ a) imm) ?_
  simp only [append_toNat]
  omega

theorem encSys_toNat (d a : BitVec 5) (n : BitVec 10) (mn : BitVec 6) : (encSys d a n mn).toNat =
    0x30 * 2 ^ 26 + d.toNat * 2 ^ 21 + a.toNat * 2 ^ 16 + n.toNat * 2 ^ 6 + mn.toNat := by
  refine Eq.trans (append_toNat ((0x30 : BitVec 6) ++ d ++ a ++ n) mn) ?_
  simp only [append_toNat]
  have : (0x30 : BitVec 6).toNat = 0x30 := rfl
  omega

theorem encJ_toNat (maj : BitVec 6) (off : BitVec 26) : (maj ++ off : BitVec 32).toNat = maj.toNat * 2 ^ 26 + off.toNat :=
  append_toNat maj off

/-- An EX word is a register word whose minor is x and the operation. -/
theorem encEX_eq (maj : BitVec 6) (x : Bool) (d a b c op : BitVec 5) :
    encEX maj x d a b c op = encRR maj d a b c (BitVec.ofBool x ++ op) := by
  apply BitVec.eq_of_toNat_eq
  rw [encRR_toNat]
  refine Eq.trans (append_toNat (maj ++ d ++ a ++ b ++ c ++ BitVec.ofBool x) op) ?_
  simp only [append_toNat]
  omega

/-! Each field of a word read back. -/

@[simp] theorem wMaj_encRR (maj : BitVec 6) (d a b c : BitVec 5) (mn : BitVec 6) : wMaj (encRR maj d a b c mn) = maj := by
  apply BitVec.eq_of_toNat_eq
  simp only [wMaj, BitVec.extractLsb'_toNat, encRR_toNat, Nat.shiftRight_eq_div_pow]
  omega

@[simp] theorem wD_encRR (maj : BitVec 6) (d a b c : BitVec 5) (mn : BitVec 6) : wD (encRR maj d a b c mn) = d := by
  apply BitVec.eq_of_toNat_eq
  simp only [wD, BitVec.extractLsb'_toNat, encRR_toNat, Nat.shiftRight_eq_div_pow]
  omega

@[simp] theorem wA_encRR (maj : BitVec 6) (d a b c : BitVec 5) (mn : BitVec 6) : wA (encRR maj d a b c mn) = a := by
  apply BitVec.eq_of_toNat_eq
  simp only [wA, BitVec.extractLsb'_toNat, encRR_toNat, Nat.shiftRight_eq_div_pow]
  omega

@[simp] theorem wB_encRR (maj : BitVec 6) (d a b c : BitVec 5) (mn : BitVec 6) : wB (encRR maj d a b c mn) = b := by
  apply BitVec.eq_of_toNat_eq
  simp only [wB, BitVec.extractLsb'_toNat, encRR_toNat, Nat.shiftRight_eq_div_pow]
  omega

@[simp] theorem wC_encRR (maj : BitVec 6) (d a b c : BitVec 5) (mn : BitVec 6) : wC (encRR maj d a b c mn) = c := by
  apply BitVec.eq_of_toNat_eq
  simp only [wC, BitVec.extractLsb'_toNat, encRR_toNat, Nat.shiftRight_eq_div_pow]
  omega

@[simp] theorem wMin_encRR (maj : BitVec 6) (d a b c : BitVec 5) (mn : BitVec 6) : wMin (encRR maj d a b c mn) = mn := by
  apply BitVec.eq_of_toNat_eq
  simp only [wMin, BitVec.extractLsb'_toNat, encRR_toNat, Nat.shiftRight_eq_div_pow]
  omega

@[simp] theorem wMaj_encRI (maj : BitVec 6) (d a : BitVec 5) (imm : BitVec 16) : wMaj (encRI maj d a imm) = maj := by
  apply BitVec.eq_of_toNat_eq
  simp only [wMaj, BitVec.extractLsb'_toNat, encRI_toNat, Nat.shiftRight_eq_div_pow]
  omega

@[simp] theorem wD_encRI (maj : BitVec 6) (d a : BitVec 5) (imm : BitVec 16) : wD (encRI maj d a imm) = d := by
  apply BitVec.eq_of_toNat_eq
  simp only [wD, BitVec.extractLsb'_toNat, encRI_toNat, Nat.shiftRight_eq_div_pow]
  omega

@[simp] theorem wA_encRI (maj : BitVec 6) (d a : BitVec 5) (imm : BitVec 16) : wA (encRI maj d a imm) = a := by
  apply BitVec.eq_of_toNat_eq
  simp only [wA, BitVec.extractLsb'_toNat, encRI_toNat, Nat.shiftRight_eq_div_pow]
  omega

@[simp] theorem wImm_encRI (maj : BitVec 6) (d a : BitVec 5) (imm : BitVec 16) : wImm (encRI maj d a imm) = imm := by
  apply BitVec.eq_of_toNat_eq
  simp only [wImm, BitVec.extractLsb'_toNat, encRI_toNat, Nat.shiftRight_eq_div_pow]
  omega

@[simp] theorem wD_encSys (d a : BitVec 5) (n : BitVec 10) (mn : BitVec 6) : wD (encSys d a n mn) = d := by
  apply BitVec.eq_of_toNat_eq
  simp only [wD, BitVec.extractLsb'_toNat, encSys_toNat, Nat.shiftRight_eq_div_pow]
  omega

@[simp] theorem wA_encSys (d a : BitVec 5) (n : BitVec 10) (mn : BitVec 6) : wA (encSys d a n mn) = a := by
  apply BitVec.eq_of_toNat_eq
  simp only [wA, BitVec.extractLsb'_toNat, encSys_toNat, Nat.shiftRight_eq_div_pow]
  omega

@[simp] theorem wMin_encSys (d a : BitVec 5) (n : BitVec 10) (mn : BitVec 6) : wMin (encSys d a n mn) = mn := by
  apply BitVec.eq_of_toNat_eq
  simp only [wMin, BitVec.extractLsb'_toNat, encSys_toNat, Nat.shiftRight_eq_div_pow]
  omega

@[simp] theorem wMaj_encSys (d a : BitVec 5) (n : BitVec 10) (mn : BitVec 6) : wMaj (encSys d a n mn) = 0x30 := by
  apply BitVec.eq_of_toNat_eq
  simp only [wMaj, BitVec.extractLsb'_toNat, encSys_toNat, Nat.shiftRight_eq_div_pow]
  have : (0x30 : BitVec 6).toNat = 0x30 := rfl
  omega

@[simp] theorem code_encSys (d a : BitVec 5) (n : BitVec 10) (mn : BitVec 6) : (encSys d a n mn).extractLsb' 6 10 = n := by
  apply BitVec.eq_of_toNat_eq
  simp only [BitVec.extractLsb'_toNat, encSys_toNat, Nat.shiftRight_eq_div_pow]
  omega

@[simp] theorem wMaj_encJ (maj : BitVec 6) (off : BitVec 26) : wMaj (maj ++ off : BitVec 32) = maj := by
  apply BitVec.eq_of_toNat_eq
  simp only [wMaj, BitVec.extractLsb'_toNat, encJ_toNat, Nat.shiftRight_eq_div_pow]
  omega

@[simp] theorem off_encJ (maj : BitVec 6) (off : BitVec 26) : (maj ++ off : BitVec 32).extractLsb' 0 26 = off := by
  apply BitVec.eq_of_toNat_eq
  simp only [BitVec.extractLsb'_toNat, encJ_toNat, Nat.shiftRight_eq_div_pow]
  omega

/-- The fields inside a register word's minor and immediate. -/
theorem minField_encRR (maj : BitVec 6) (d a b c : BitVec 5) (mn : BitVec 6) (lo k : Nat) (h : lo + k ≤ 6) :
    (encRR maj d a b c mn).extractLsb' lo k = mn.extractLsb' lo k := by
  have e := wMin_encRR maj d a b c mn
  conv => rhs; rw [← e]
  ext i hi
  simp only [wMin, BitVec.getElem_extractLsb', BitVec.getLsbD_extractLsb']
  have : lo + i < 6 := by omega
  simp [this]

theorem cField_encRR (maj : BitVec 6) (d a b c : BitVec 5) (mn : BitVec 6) (lo k : Nat) (h : lo + k ≤ 5) :
    (encRR maj d a b c mn).extractLsb' (6 + lo) k = c.extractLsb' lo k := by
  have e := wC_encRR maj d a b c mn
  conv => rhs; rw [← e]
  ext i hi
  simp only [wC, BitVec.getElem_extractLsb', BitVec.getLsbD_extractLsb']
  have : lo + i < 5 := by omega
  simp [this, Nat.add_assoc]

theorem immField_encRI (maj : BitVec 6) (d a : BitVec 5) (imm : BitVec 16) (lo k : Nat) (h : lo + k ≤ 16) :
    (encRI maj d a imm).extractLsb' lo k = imm.extractLsb' lo k := by
  have e := wImm_encRI maj d a imm
  conv => rhs; rw [← e]
  ext i hi
  simp only [wImm, BitVec.getElem_extractLsb', BitVec.getLsbD_extractLsb']
  have : lo + i < 16 := by omega
  simp [this]

theorem aField_encRI (maj : BitVec 6) (d a : BitVec 5) (imm : BitVec 16) (lo k : Nat) (h : lo + k ≤ 5) :
    (encRI maj d a imm).extractLsb' (16 + lo) k = a.extractLsb' lo k := by
  have e := wA_encRI maj d a imm
  conv => rhs; rw [← e]
  ext i hi
  simp only [wA, BitVec.getElem_extractLsb', BitVec.getLsbD_extractLsb']
  have : lo + i < 5 := by omega
  simp [this, Nat.add_assoc]

/-! The parts of a minor or an immediate that is put together of two fields or more. -/

@[simp] theorem ex_op (x : BitVec 1) (op : BitVec 5) : ((x ++ op : BitVec 6)).extractLsb' 0 5 = op := by
  apply BitVec.eq_of_toNat_eq
  rw [BitVec.extractLsb'_toNat, Nat.shiftRight_eq_div_pow]
  refine Eq.trans (congrArg (fun z => z / 2 ^ 0 % 2 ^ 5) (append_toNat x op)) ?_
  omega

@[simp] theorem ex_x (x : BitVec 1) (op : BitVec 5) : ((x ++ op : BitVec 6)).extractLsb' 5 1 = x := by
  apply BitVec.eq_of_toNat_eq
  rw [BitVec.extractLsb'_toNat, Nat.shiftRight_eq_div_pow]
  refine Eq.trans (congrArg (fun z => z / 2 ^ 5 % 2 ^ 1) (append_toNat x op)) ?_
  omega

@[simp] theorem fma_op (rm op : BitVec 3) : ((rm ++ op : BitVec 6)).extractLsb' 0 3 = op := by
  apply BitVec.eq_of_toNat_eq
  rw [BitVec.extractLsb'_toNat, Nat.shiftRight_eq_div_pow]
  refine Eq.trans (congrArg (fun z => z / 2 ^ 0 % 2 ^ 3) (append_toNat rm op)) ?_
  omega

@[simp] theorem fma_rm (rm op : BitVec 3) : ((rm ++ op : BitVec 6)).extractLsb' 3 3 = rm := by
  apply BitVec.eq_of_toNat_eq
  rw [BitVec.extractLsb'_toNat, Nat.shiftRight_eq_div_pow]
  refine Eq.trans (congrArg (fun z => z / 2 ^ 3 % 2 ^ 3) (append_toNat rm op)) ?_
  omega

@[simp] theorem amo_op (o : BitVec 2) (op : BitVec 4) : ((o ++ op : BitVec 6)).extractLsb' 0 4 = op := by
  apply BitVec.eq_of_toNat_eq
  rw [BitVec.extractLsb'_toNat, Nat.shiftRight_eq_div_pow]
  refine Eq.trans (congrArg (fun z => z / 2 ^ 0 % 2 ^ 4) (append_toNat o op)) ?_
  omega

@[simp] theorem amo_ord (o : BitVec 2) (op : BitVec 4) : ((o ++ op : BitVec 6)).extractLsb' 4 2 = o := by
  apply BitVec.eq_of_toNat_eq
  rw [BitVec.extractLsb'_toNat, Nat.shiftRight_eq_div_pow]
  refine Eq.trans (congrArg (fun z => z / 2 ^ 4 % 2 ^ 2) (append_toNat o op)) ?_
  omega

@[simp] theorem shift_sh (z : BitVec 8) (k : BitVec 2) (sh : BitVec 6) : ((z ++ k ++ sh : BitVec 16)).extractLsb' 0 6 = sh := by
  apply BitVec.eq_of_toNat_eq
  rw [BitVec.extractLsb'_toNat, Nat.shiftRight_eq_div_pow]
  refine Eq.trans (congrArg (fun z => z / 2 ^ 0 % 2 ^ 6) (append_toNat (z ++ k) sh)) ?_
  simp only [append_toNat]
  omega

@[simp] theorem shift_kind (z : BitVec 8) (k : BitVec 2) (sh : BitVec 6) : ((z ++ k ++ sh : BitVec 16)).extractLsb' 6 2 = k := by
  apply BitVec.eq_of_toNat_eq
  rw [BitVec.extractLsb'_toNat, Nat.shiftRight_eq_div_pow]
  refine Eq.trans (congrArg (fun z => z / 2 ^ 6 % 2 ^ 2) (append_toNat (z ++ k) sh)) ?_
  simp only [append_toNat]
  omega

@[simp] theorem shift_zero (z : BitVec 8) (k : BitVec 2) (sh : BitVec 6) : ((z ++ k ++ sh : BitVec 16)).extractLsb' 8 8 = z := by
  apply BitVec.eq_of_toNat_eq
  rw [BitVec.extractLsb'_toNat, Nat.shiftRight_eq_div_pow]
  refine Eq.trans (congrArg (fun z => z / 2 ^ 8 % 2 ^ 8) (append_toNat (z ++ k) sh)) ?_
  simp only [append_toNat]
  omega

@[simp] theorem br_off (k : BitVec 3) (off : BitVec 13) : ((k ++ off : BitVec 16)).extractLsb' 0 13 = off := by
  apply BitVec.eq_of_toNat_eq
  rw [BitVec.extractLsb'_toNat, Nat.shiftRight_eq_div_pow]
  refine Eq.trans (congrArg (fun z => z / 2 ^ 0 % 2 ^ 13) (append_toNat k off)) ?_
  omega

@[simp] theorem br_cond (k : BitVec 3) (off : BitVec 13) : ((k ++ off : BitVec 16)).extractLsb' 13 3 = k := by
  apply BitVec.eq_of_toNat_eq
  rw [BitVec.extractLsb'_toNat, Nat.shiftRight_eq_div_pow]
  refine Eq.trans (congrArg (fun z => z / 2 ^ 13 % 2 ^ 3) (append_toNat k off)) ?_
  omega

@[simp] theorem ins_h (z : BitVec 3) (h : BitVec 2) : ((z ++ h : BitVec 5)).extractLsb' 0 2 = h := by
  apply BitVec.eq_of_toNat_eq
  rw [BitVec.extractLsb'_toNat, Nat.shiftRight_eq_div_pow]
  refine Eq.trans (congrArg (fun z => z / 2 ^ 0 % 2 ^ 2) (append_toNat z h)) ?_
  omega

@[simp] theorem ins_zero (z : BitVec 3) (h : BitVec 2) : ((z ++ h : BitVec 5)).extractLsb' 2 3 = z := by
  apply BitVec.eq_of_toNat_eq
  rw [BitVec.extractLsb'_toNat, Nat.shiftRight_eq_div_pow]
  refine Eq.trans (congrArg (fun z => z / 2 ^ 2 % 2 ^ 3) (append_toNat z h)) ?_
  omega

@[simp] theorem zreq_cls (k : BitVec 2) (m : BitVec 10) (cls : BitVec 4) : ((k ++ m ++ cls : BitVec 16)).extractLsb' 0 4 = cls := by
  apply BitVec.eq_of_toNat_eq
  rw [BitVec.extractLsb'_toNat, Nat.shiftRight_eq_div_pow]
  refine Eq.trans (congrArg (fun z => z / 2 ^ 0 % 2 ^ 4) (append_toNat (k ++ m) cls)) ?_
  simp only [append_toNat]
  omega

@[simp] theorem zreq_mid (k : BitVec 2) (m : BitVec 10) (cls : BitVec 4) : ((k ++ m ++ cls : BitVec 16)).extractLsb' 4 10 = m := by
  apply BitVec.eq_of_toNat_eq
  rw [BitVec.extractLsb'_toNat, Nat.shiftRight_eq_div_pow]
  refine Eq.trans (congrArg (fun z => z / 2 ^ 4 % 2 ^ 10) (append_toNat (k ++ m) cls)) ?_
  simp only [append_toNat]
  omega

@[simp] theorem zreq_kind (k : BitVec 2) (m : BitVec 10) (cls : BitVec 4) : ((k ++ m ++ cls : BitVec 16)).extractLsb' 14 2 = k := by
  apply BitVec.eq_of_toNat_eq
  rw [BitVec.extractLsb'_toNat, Nat.shiftRight_eq_div_pow]
  refine Eq.trans (congrArg (fun z => z / 2 ^ 14 % 2 ^ 2) (append_toNat (k ++ m) cls)) ?_
  simp only [append_toNat]
  omega

@[simp] theorem rm_low (rm : BitVec 3) : (encRm rm).extractLsb' 0 3 = rm := by
  apply BitVec.eq_of_toNat_eq
  rw [BitVec.extractLsb'_toNat, Nat.shiftRight_eq_div_pow]
  refine Eq.trans (congrArg (fun z => z / 2 ^ 0 % 2 ^ 3) (append_toNat (0 : BitVec 2) rm)) ?_
  omega

@[simp] theorem rm_high (rm : BitVec 3) : (encRm rm).extractLsb' 3 2 = 0 := by
  apply BitVec.eq_of_toNat_eq
  rw [BitVec.extractLsb'_toNat, Nat.shiftRight_eq_div_pow]
  refine Eq.trans (congrArg (fun z => z / 2 ^ 3 % 2 ^ 2) (append_toNat (0 : BitVec 2) rm)) ?_
  have : (0 : BitVec 2).toNat = 0 := rfl
  omega

/-- Bit 5 of an EX word is x (R55). -/
@[simp] theorem xBit_encEX (maj : BitVec 6) (x : Bool) (d a b c op : BitVec 5) : (encEX maj x d a b c op)[5] = x := by
  have h : (encEX maj x d a b c op).extractLsb' 5 1 = BitVec.ofBool x := by
    rw [encEX_eq, minField_encRR _ _ _ _ _ _ 5 1 (by omega), ex_x]
  have g := congrArg (fun v : BitVec 1 => v.getLsbD 0) h
  simpa using g

/-- The operation of an EX word (R58). -/
@[simp] theorem op_encEX (maj : BitVec 6) (x : Bool) (d a b c op : BitVec 5) :
    (encEX maj x d a b c op).extractLsb' 0 5 = op := by
  rw [encEX_eq, minField_encRR _ _ _ _ _ _ 0 5 (by omega), ex_op]

@[simp] theorem wMaj_encEX (maj : BitVec 6) (x : Bool) (d a b c op : BitVec 5) : wMaj (encEX maj x d a b c op) = maj := by
  rw [encEX_eq, wMaj_encRR]
@[simp] theorem wD_encEX (maj : BitVec 6) (x : Bool) (d a b c op : BitVec 5) : wD (encEX maj x d a b c op) = d := by
  rw [encEX_eq, wD_encRR]
@[simp] theorem wA_encEX (maj : BitVec 6) (x : Bool) (d a b c op : BitVec 5) : wA (encEX maj x d a b c op) = a := by
  rw [encEX_eq, wA_encRR]
@[simp] theorem wB_encEX (maj : BitVec 6) (x : Bool) (d a b c op : BitVec 5) : wB (encEX maj x d a b c op) = b := by
  rw [encEX_eq, wB_encRR]
@[simp] theorem wC_encEX (maj : BitVec 6) (x : Bool) (d a b c op : BitVec 5) : wC (encEX maj x d a b c op) = c := by
  rw [encEX_eq, wC_encRR]

theorem encExt_toNat (e : EngExt) : (encExt e).toNat = e.bar.toNat * 2 ^ 27 + (BitVec.ofBool e.fe).toNat * 2 ^ 26 +
    e.scope.toNat * 2 ^ 23 + e.red.toNat * 2 ^ 19 + e.sfx.toNat * 2 ^ 15 := by
  refine Eq.trans (append_toNat (e.bar ++ BitVec.ofBool e.fe ++ e.scope ++ e.red ++ e.sfx) (0 : BitVec 15)) ?_
  simp only [append_toNat]
  have : (0 : BitVec 15).toNat = 0 := rfl
  omega

/-- The extension word of an engine command, read back (R59). -/
@[simp] theorem engExt_encExt (e : EngExt) : engExt (encExt e) = some e := by
  have hz : (encExt e).extractLsb' 0 15 = 0 := by
    apply BitVec.eq_of_toNat_eq
    simp only [BitVec.extractLsb'_toNat, encExt_toNat, Nat.shiftRight_eq_div_pow]
    have : (0 : BitVec 15).toNat = 0 := rfl
    omega
  have hb : (encExt e).extractLsb' 27 5 = e.bar := by
    apply BitVec.eq_of_toNat_eq
    simp only [BitVec.extractLsb'_toNat, encExt_toNat, Nat.shiftRight_eq_div_pow]
    omega
  have hf : (encExt e).getLsbD 26 = e.fe := by
    have h : (encExt e).extractLsb' 26 1 = BitVec.ofBool e.fe := by
      apply BitVec.eq_of_toNat_eq
      simp only [BitVec.extractLsb'_toNat, encExt_toNat, Nat.shiftRight_eq_div_pow]
      omega
    have g := congrArg (fun v : BitVec 1 => v.getLsbD 0) h
    simpa using g
  have hs : (encExt e).extractLsb' 23 3 = e.scope := by
    apply BitVec.eq_of_toNat_eq
    simp only [BitVec.extractLsb'_toNat, encExt_toNat, Nat.shiftRight_eq_div_pow]
    omega
  have hr : (encExt e).extractLsb' 19 4 = e.red := by
    apply BitVec.eq_of_toNat_eq
    simp only [BitVec.extractLsb'_toNat, encExt_toNat, Nat.shiftRight_eq_div_pow]
    omega
  have hx : (encExt e).extractLsb' 15 4 = e.sfx := by
    apply BitVec.eq_of_toNat_eq
    simp only [BitVec.extractLsb'_toNat, encExt_toNat, Nat.shiftRight_eq_div_pow]
    omega
  simp only [engExt, hz, hb, hf, hs, hr, hx, if_true]

/-- The run-ahead limit in a stream command's extension word, whose low half is zero. -/
@[simp] theorem ahead_ext (n : BitVec 16) : (n ++ (0 : BitVec 16) : BitVec 32).extractLsb' 16 16 = n := by
  apply BitVec.eq_of_toNat_eq
  rw [BitVec.extractLsb'_toNat, Nat.shiftRight_eq_div_pow]
  refine Eq.trans (congrArg (fun z => z / 2 ^ 16 % 2 ^ 16) (append_toNat n (0 : BitVec 16))) ?_
  have : (0 : BitVec 16).toNat = 0 := rfl
  omega

@[simp] theorem zero_ext (n : BitVec 16) : (n ++ (0 : BitVec 16) : BitVec 32).extractLsb' 0 16 = 0 := by
  apply BitVec.eq_of_toNat_eq
  rw [BitVec.extractLsb'_toNat, Nat.shiftRight_eq_div_pow]
  refine Eq.trans (congrArg (fun z => z / 2 ^ 0 % 2 ^ 16) (append_toNat n (0 : BitVec 16))) ?_
  have : (0 : BitVec 16).toNat = 0 := rfl
  omega

/-- The rounding mode of an FP word (R58). -/
@[simp] theorem rm_encRR (maj : BitVec 6) (d a b : BitVec 5) (rm : BitVec 3) (mn : BitVec 6) :
    (encRR maj d a b (encRm rm) mn).extractLsb' 6 3 = rm := by
  rw [cField_encRR _ _ _ _ _ _ 0 3 (by omega), rm_low]

@[simp] theorem rmPad_encRR (maj : BitVec 6) (d a b : BitVec 5) (rm : BitVec 3) (mn : BitVec 6) :
    (encRR maj d a b (encRm rm) mn).extractLsb' 9 2 = 0 := by
  rw [cField_encRR _ _ _ _ _ _ 3 2 (by omega), rm_high]

/-! The minors of FMA and AMO words (R58). -/

@[simp] theorem fmaOp_encRR (maj : BitVec 6) (d a b c : BitVec 5) (rm op : BitVec 3) :
    (encRR maj d a b c (rm ++ op)).extractLsb' 0 3 = op := by
  rw [minField_encRR _ _ _ _ _ _ 0 3 (by omega), fma_op]

@[simp] theorem fmaRm_encRR (maj : BitVec 6) (d a b c : BitVec 5) (rm op : BitVec 3) :
    (encRR maj d a b c (rm ++ op)).extractLsb' 3 3 = rm := by
  rw [minField_encRR _ _ _ _ _ _ 3 3 (by omega), fma_rm]

@[simp] theorem amoOp_encRR (maj : BitVec 6) (d a b c : BitVec 5) (o : BitVec 2) (op : BitVec 4) :
    (encRR maj d a b c (o ++ op)).extractLsb' 0 4 = op := by
  rw [minField_encRR _ _ _ _ _ _ 0 4 (by omega), amo_op]

@[simp] theorem amoOrd_encRR (maj : BitVec 6) (d a b c : BitVec 5) (o : BitVec 2) (op : BitVec 4) :
    (encRR maj d a b c (o ++ op)).extractLsb' 4 2 = o := by
  rw [minField_encRR _ _ _ _ _ _ 4 2 (by omega), amo_ord]

/-! Shifts by an immediate, ins16 and br (R58, R254, R256): the words by the parts of their immediates. -/

theorem decode_shift {w : BitVec 32} (hm : wMaj w = 6) (hz : w.extractLsb' 8 8 = 0) : decodeFirst w =
    match (w.extractLsb' 6 2).toNat with
    | 0 => checked (.slli (wD w) (wA w) (w.extractLsb' 0 6))
    | 1 => checked (.srli (wD w) (wA w) (w.extractLsb' 0 6))
    | 2 => checked (.srai (wD w) (wA w) (w.extractLsb' 0 6))
    | _ => checked (.rori (wD w) (wA w) (w.extractLsb' 0 6)) := by
  unfold decodeFirst
  rw [hm]
  exact if_pos hz

theorem shiftZ_encRI (d a : BitVec 5) (k : BitVec 2) (sh : BitVec 6) :
    (encRI 0x06 d a ((0 : BitVec 8) ++ k ++ sh)).extractLsb' 8 8 = 0 :=
  (immField_encRI _ _ _ _ 8 8 (by omega)).trans (shift_zero _ _ _)

theorem shiftK_encRI (d a : BitVec 5) (k : BitVec 2) (sh : BitVec 6) :
    (encRI 0x06 d a ((0 : BitVec 8) ++ k ++ sh)).extractLsb' 6 2 = k :=
  (immField_encRI _ _ _ _ 6 2 (by omega)).trans (shift_kind _ _ _)

theorem shiftS_encRI (d a : BitVec 5) (k : BitVec 2) (sh : BitVec 6) :
    (encRI 0x06 d a ((0 : BitVec 8) ++ k ++ sh)).extractLsb' 0 6 = sh :=
  (immField_encRI _ _ _ _ 0 6 (by omega)).trans (shift_sh _ _ _)

theorem decode_ins16 {w : BitVec 32} (hm : wMaj w = 7) (hz : w.extractLsb' 18 3 = 0) :
    decodeFirst w = checked (.ins16 (wD w) (w.extractLsb' 16 2) (wImm w)) := by
  simp [decodeFirst, hm, hz]

theorem insZ_encRI (d : BitVec 5) (h : BitVec 2) (imm : BitVec 16) :
    (encRI 0x07 d ((0 : BitVec 3) ++ h) imm).extractLsb' 18 3 = 0 :=
  (aField_encRI _ _ _ _ 2 3 (by omega)).trans (ins_zero _ _)

theorem insH_encRI (d : BitVec 5) (h : BitVec 2) (imm : BitVec 16) :
    (encRI 0x07 d ((0 : BitVec 3) ++ h) imm).extractLsb' 16 2 = h :=
  (aField_encRI _ _ _ _ 0 2 (by omega)).trans (ins_h _ _)

@[simp] theorem brCond_encRI (maj : BitVec 6) (a b : BitVec 5) (k : BitVec 3) (off : BitVec 13) :
    (encRI maj a b (k ++ off)).extractLsb' 13 3 = k :=
  (immField_encRI _ _ _ _ 13 3 (by omega)).trans (br_cond _ _)

@[simp] theorem brOff_encRI (maj : BitVec 6) (a b : BitVec 5) (k : BitVec 3) (off : BitVec 13) :
    (encRI maj a b (k ++ off)).extractLsb' 0 13 = off :=
  (immField_encRI _ _ _ _ 0 13 (by omega)).trans (br_off _ _)

/-- A stream command whose extension word is the run-ahead limit over a zero half (R59). -/
theorem decodeTwo_stream {w : BitVec 32} {n : BitVec 16} {i : Instr} (hm : wMaj w = 0x2A)
    (hs : streamOf w true n = some i) (hw : i.wf = true) : decodeTwo w (n ++ (0 : BitVec 16) : BitVec 32) = some i := by
  have hd : decodeTwo w (n ++ (0 : BitVec 16) : BitVec 32) = (match (streamOf w true n) with
      | some i => if i.wf then some i else none
      | none => none) := by
    unfold decodeTwo
    rw [hm]
    simp only [zero_ext, ahead_ext, if_true]
    rfl
  rw [hd, hs]
  exact if_pos hw

/-! ticket and zreq words (R58, R404). -/

theorem decode_ticket {w : BitVec 32} (hm : wMaj w = 0x26) (hop : w.extractLsb' 0 4 = 0xA) (ho : w.extractLsb' 4 2 = 0) :
    decodeFirst w = ifC0 w (.ticket (wD w) (wA w) (wB w)) := by
  unfold decodeFirst
  rw [hm]
  change decodeAmoB64 w = _
  unfold decodeAmoB64
  rw [hop]
  exact if_pos ho

theorem zreqZ_encRI (d a : BitVec 5) (k : BitVec 2) (cls : BitVec 4) :
    (encRI 0x31 d a (k ++ (0 : BitVec 10) ++ cls)).extractLsb' 4 10 = 0 :=
  (immField_encRI _ _ _ _ 4 10 (by omega)).trans (zreq_mid _ _ _)

theorem zreqK_encRI (d a : BitVec 5) (k : BitVec 2) (cls : BitVec 4) :
    (encRI 0x31 d a (k ++ (0 : BitVec 10) ++ cls)).extractLsb' 14 2 = k :=
  (immField_encRI _ _ _ _ 14 2 (by omega)).trans (zreq_kind _ _ _)

theorem zreqC_encRI (d a : BitVec 5) (k : BitVec 2) (cls : BitVec 4) :
    (encRI 0x31 d a (k ++ (0 : BitVec 10) ++ cls)).extractLsb' 0 4 = cls :=
  (immField_encRI _ _ _ _ 0 4 (by omega)).trans (zreq_cls _ _ _)


theorem decode_zreq {w : BitVec 32} (hm : wMaj w = 0x31) (hz : w.extractLsb' 4 10 = 0) : decodeFirst w =
    match (w.extractLsb' 14 2).toNat with
    | 0 => if w.extractLsb' 0 4 = 0 then checked (.zreqQuery (wD w) (wA w)) else .undef
    | 1 => checked (.zreqRaise (wD w) (wA w) (w.extractLsb' 0 4))
    | 2 => if w.extractLsb' 0 4 = 0 then checked (.zreqDrop (wD w) (wA w)) else .undef
    | _ => .undef := by
  unfold decodeFirst
  rw [hm]
  exact if_pos hz

/-- The four bytes of a word, read back (R52). -/
theorem wordAt_bytesLE (w : BitVec 32) (r : List Byte) : wordAt (bytesLE 4 w.toNat ++ r) = some w := by
  simp only [bytesLE, List.range, List.range.loop, wordAt, List.map, List.cons_append]
  congr 1
  apply BitVec.eq_of_toNat_eq
  refine Eq.trans (append_toNat (BitVec.ofNat 8 (w.toNat / 2 ^ (8 * 3)) ++ BitVec.ofNat 8 (w.toNat / 2 ^ (8 * 2)) ++
    BitVec.ofNat 8 (w.toNat / 2 ^ (8 * 1))) (BitVec.ofNat 8 (w.toNat / 2 ^ (8 * 0)))) ?_
  simp only [append_toNat, BitVec.toNat_ofNat]
  omega

theorem drop_bytesLE (n : Nat) (r : List Byte) : (bytesLE 4 n ++ r).drop 4 = r := by
  simp [bytesLE, List.range, List.range.loop]

/-- A first word that is a whole instruction. -/
theorem decode_one {w : BitVec 32} {i : Instr} (r : List Byte) (h : decodeFirst w = .one i) :
    decode (bytesLE 4 w.toNat ++ r) = .ok i 1 := by
  simp only [decode, wordAt_bytesLE, h]

/-- A first word and its extension word (R55). -/
theorem decode_two {w e : BitVec 32} {i : Instr} (r : List Byte) (h : decodeFirst w = .two) (h2 : decodeTwo w e = some i) :
    decode (bytesLE 4 w.toNat ++ (bytesLE 4 e.toNat ++ r)) = .ok i 2 := by
  simp only [decode, wordAt_bytesLE, drop_bytesLE, h, h2]

/-- An instruction of one word decodes from its own bytes. -/
theorem recode_one {i : Instr} {w : BitVec 32} (he : encode i = [w]) (h : decodeFirst w = .one i) (r : List Byte) :
    decode (encodeBytes i ++ r) = .ok i (encode i).length := by
  rw [encodeBytes, he, List.flatMap_cons, List.flatMap_nil, List.append_nil]
  exact decode_one r h

/-- An instruction of two words decodes from its own bytes. -/
theorem recode_two {i : Instr} {w e : BitVec 32} (he : encode i = [w, e]) (h : decodeFirst w = .two)
    (h2 : decodeTwo w e = some i) (r : List Byte) : decode (encodeBytes i ++ r) = .ok i (encode i).length := by
  rw [encodeBytes, he, List.flatMap_cons, List.flatMap_cons, List.flatMap_nil, List.append_nil, List.append_assoc]
  exact decode_two r h h2

end Sys2Proof
end

