-- ==== Sys2Proof/Laws/Table.lean ====
section
/-! SUPPORT. Laws of sparse tables and of byte memory: reading after writing, what a write leaves alone, and that every
memory operation keeps the canonical form. -/

namespace Sys2Proof.Machine

variable {α : Type}

/-! ## Tables -/

theorem Table.get_filter (dflt : α) (p : Nat → Bool) (t : Table α) (j : Nat) :
    Table.get dflt (t.filter fun e => p e.1) j = if p j then Table.get dflt t j else dflt := by
  induction t with
  | nil => simp [Table.get]
  | cons e t ih =>
    obtain ⟨k, v⟩ := e
    by_cases hk : p k <;> by_cases hj : k = j
    · subst hj; simp [hk, Table.get]
    · simp [hk, hj, Table.get, ih]
    · subst hj; simp [hk, ih]
    · simp [hk, hj, Table.get, ih]

theorem Table.get_append (dflt : α) (t u : Table α) (j : Nat) :
    Table.get dflt (t ++ u) j = if Table.has t j then Table.get dflt t j else Table.get dflt u j := by
  induction t with
  | nil => simp [Table.has]
  | cons e t ih =>
    obtain ⟨k, v⟩ := e
    by_cases h : k = j <;> simp [Table.get, Table.has, h, ih]

theorem Table.has_filter (p : Nat → Bool) (t : Table α) (j : Nat) :
    Table.has (t.filter fun e => p e.1) j = (p j && Table.has t j) := by
  induction t with
  | nil => simp [Table.has]
  | cons e t ih =>
    obtain ⟨k, v⟩ := e
    have hkj : (k == j) = decide (k = j) := by by_cases h : k = j <;> simp [h]
    by_cases hk : p k <;> by_cases hj : k = j
    · subst hj; simp [hk, Table.has]
    · simp [hk, hkj, hj, Table.has, ih]
    · subst hj; simp [hk, ih]
    · simp [hk, hkj, hj, Table.has, ih]

theorem Table.get_of_not_has (dflt : α) (t : Table α) (j : Nat) (h : Table.has t j = false) : Table.get dflt t j = dflt := by
  induction t with
  | nil => rfl
  | cons e t ih =>
    obtain ⟨k, v⟩ := e
    by_cases hk : k = j
    · simp [Table.has, hk] at h
    · simp only [Table.get, hk, if_false]; exact ih (by simpa [Table.has, hk] using h)

/-- An entry reads back as it was put. -/
@[simp] theorem Table.get_put_same (dflt : α) (t : Table α) (k : Nat) (v : α) : Table.get dflt (Table.put t k v) k = v := by
  simp [Table.put, Table.get_append, Table.has_filter (fun i => decide (i < k)), Table.get]

/-- Putting an entry leaves every other entry as it was. -/
theorem Table.get_put_other (dflt : α) (t : Table α) {k j : Nat} (v : α) (h : j ≠ k) :
    Table.get dflt (Table.put t k v) j = Table.get dflt t j := by
  simp only [Table.put, Table.get_append, Table.has_filter (fun i => decide (i < k)), Table.get_filter dflt (fun i => decide (i < k)),
    Table.get, Table.get_filter dflt (fun i => decide (k < i))]
  by_cases hh : Table.has t j = true
  · by_cases h1 : j < k
    · simp [hh, h1]
    · have : k < j := by omega
      simp [h1, this, Ne.symm h]
  · have e := Table.get_of_not_has dflt t j (by simpa using hh)
    simp [hh, Ne.symm h, e]

/-- A deleted entry reads as the default. -/
@[simp] theorem Table.get_del_same (dflt : α) (t : Table α) (k : Nat) : Table.get dflt (Table.del t k) k = dflt :=
  (Table.get_filter dflt (fun i => decide (i ≠ k)) t k).trans (by simp)

theorem Table.get_del_other (dflt : α) (t : Table α) {k j : Nat} (h : j ≠ k) :
    Table.get dflt (Table.del t k) j = Table.get dflt t j :=
  (Table.get_filter dflt (fun i => decide (i ≠ k)) t j).trans (by simp [h])

/-! ## Reading and writing memory -/

/-- A byte reads back as it was written. -/
@[simp] theorem Memory.read_write_same (m : Memory) (a : Nat) (v : Byte) : (m.write a v).read a = v := by
  unfold Memory.read Memory.write
  split
  · next h => rw [Table.get_del_same, h]
  · rw [Table.get_put_same]

/-- A write leaves every other address alone. -/
theorem Memory.read_write_other (m : Memory) {a b : Nat} (v : Byte) (h : b ≠ a) : (m.write a v).read b = m.read b := by
  unfold Memory.read Memory.write
  split
  · rw [Table.get_del_other _ _ h]
  · rw [Table.get_put_other _ _ _ h]

/-- Writing a run of bytes leaves every address outside the run alone. -/
theorem Memory.read_writeBytes_other (m : Memory) (bs : List Byte) {a b : Nat} (h : b < a ∨ a + bs.length ≤ b) :
    (m.writeBytes a bs).read b = m.read b := by
  induction bs generalizing m a with
  | nil => rfl
  | cons x bs ih =>
    simp only [List.length_cons] at h
    rw [Memory.writeBytes, ih _ (by omega), Memory.read_write_other _ _ (by omega)]

/-- A run of bytes reads back as it was written. -/
theorem Memory.readBytes_writeBytes (m : Memory) (bs : List Byte) (a : Nat) : (m.writeBytes a bs).readBytes a bs.length = bs := by
  induction bs generalizing m a with
  | nil => rfl
  | cons x bs ih =>
    simp only [List.length_cons, Memory.readBytes, Memory.writeBytes, ih]
    rw [Memory.read_writeBytes_other _ _ (by omega), Memory.read_write_same]

/-! ## The canonical form -/

/-- The canonical form, as a statement about all entries. -/
theorem Memory.wf_iff (m : Memory) :
    m.wf = true ↔ m.Pairwise (fun e f => e.1 < f.1) ∧ ∀ e ∈ m, e.2 ≠ Memory.unlisted e.1 := by
  induction m with
  | nil => simp [Memory.wf]
  | cons e m ih =>
    obtain ⟨a, v⟩ := e
    cases m with
    | nil => simp [Memory.wf]
    | cons f m =>
      obtain ⟨b, w⟩ := f
      rw [Memory.wf, Bool.and_eq_true, Bool.and_eq_true, ih]
      constructor
      · rintro ⟨⟨h1, h2⟩, h3, h4⟩
        have hab : a < b := by simpa using h2
        refine ⟨List.pairwise_cons.2 ⟨?_, h3⟩, ?_⟩
        · intro e he
          rcases List.mem_cons.1 he with rfl | he
          · exact hab
          · exact Nat.lt_trans hab ((List.pairwise_cons.1 h3).1 e he)
        · intro e he
          rcases List.mem_cons.1 he with rfl | he
          · simpa using h1
          · exact h4 e he
      · rintro ⟨h1, h3⟩
        rw [List.pairwise_cons] at h1
        refine ⟨⟨?_, ?_⟩, h1.2, fun e he => h3 e (List.mem_cons_of_mem _ he)⟩
        · simpa using h3 (a, v) (by simp)
        · simpa using h1.1 (b, w) (by simp)

/-- Dropping entries keeps the canonical form. -/
theorem Memory.wf_filter {m : Memory} (h : m.wf = true) (p : Host.Cell → Bool) : Memory.wf (m.filter p) = true := by
  rw [Memory.wf_iff] at *
  exact ⟨h.1.filter _, fun e he => h.2 e (List.mem_filter.1 he).1⟩

/-- Every write keeps the canonical form. -/
theorem Memory.wf_write {m : Memory} (h : m.wf = true) (a : Nat) (v : Byte) : (m.write a v).wf = true := by
  unfold Memory.write
  split
  · exact Memory.wf_filter h _
  · next hv =>
    rw [Memory.wf_iff] at *
    obtain ⟨hp, hn⟩ := h
    constructor
    · refine List.pairwise_append.2 ⟨hp.filter _, List.pairwise_cons.2 ⟨?_, hp.filter _⟩, ?_⟩
      · intro e he; simpa using (List.mem_filter.1 he).2
      · intro e he f hf
        have h1 : e.1 < a := by simpa using (List.mem_filter.1 he).2
        rcases List.mem_cons.1 hf with rfl | hf
        · exact h1
        · have h2 : a < f.1 := by simpa using (List.mem_filter.1 hf).2
          exact Nat.lt_trans h1 h2
    · intro e he
      rcases List.mem_append.1 he with he | he
      · exact hn e (List.mem_filter.1 he).1
      · rcases List.mem_cons.1 he with rfl | he
        · exact hv
        · exact hn e (List.mem_filter.1 he).1

theorem Memory.wf_writeBytes {m : Memory} (h : m.wf = true) (a : Nat) (bs : List Byte) : (m.writeBytes a bs).wf = true := by
  induction bs generalizing m a with
  | nil => exact h
  | cons b bs ih => exact ih (Memory.wf_write h a b) (a + 1)

end Sys2Proof.Machine
end

