-- ==== Sys2Proof/Laws/State.lean ====
section
/-! SUPPORT. One lemma per field per update of the state and of a core's state, each true by unfolding once, and what each
part reads as after a part is set. -/

namespace Sys2Proof.Machine

/-! ## setCore -/

@[simp] theorem State.setCore_agenda (s : State) (c : Nat) (k : CoreSt) : (s.setCore c k).agenda = s.agenda := rfl
@[simp] theorem State.setCore_cur (s : State) (c : Nat) (k : CoreSt) : (s.setCore c k).cur = s.cur := rfl
@[simp] theorem State.setCore_fresh (s : State) (c : Nat) (k : CoreSt) : (s.setCore c k).fresh = s.fresh := rfl
@[simp] theorem State.setCore_mem (s : State) (c : Nat) (k : CoreSt) : (s.setCore c k).mem = s.mem := rfl
@[simp] theorem State.setCore_fullBits (s : State) (c : Nat) (k : CoreSt) : (s.setCore c k).fullBits = s.fullBits := rfl
@[simp] theorem State.setCore_accWords (s : State) (c : Nat) (k : CoreSt) : (s.setCore c k).accWords = s.accWords := rfl
@[simp] theorem State.setCore_ctxs (s : State) (c : Nat) (k : CoreSt) : (s.setCore c k).ctxs = s.ctxs := rfl
@[simp] theorem State.setCore_clusters (s : State) (c : Nat) (k : CoreSt) : (s.setCore c k).clusters = s.clusters := rfl
@[simp] theorem State.setCore_sites (s : State) (c : Nat) (k : CoreSt) : (s.setCore c k).sites = s.sites := rfl
@[simp] theorem State.setCore_regions (s : State) (c : Nat) (k : CoreSt) : (s.setCore c k).regions = s.regions := rfl
@[simp] theorem State.setCore_nextRegion (s : State) (c : Nat) (k : CoreSt) : (s.setCore c k).nextRegion = s.nextRegion := rfl
@[simp] theorem State.setCore_cmds (s : State) (c : Nat) (k : CoreSt) : (s.setCore c k).cmds = s.cmds := rfl
@[simp] theorem State.setCore_nextCmd (s : State) (c : Nat) (k : CoreSt) : (s.setCore c k).nextCmd = s.nextCmd := rfl
@[simp] theorem State.setCore_collBad (s : State) (c : Nat) (k : CoreSt) : (s.setCore c k).collBad = s.collBad := rfl
@[simp] theorem State.setCore_dies (s : State) (c : Nat) (k : CoreSt) : (s.setCore c k).dies = s.dies := rfl
@[simp] theorem State.setCore_groupCtr (s : State) (c : Nat) (k : CoreSt) : (s.setCore c k).groupCtr = s.groupCtr := rfl
@[simp] theorem State.setCore_dregs (s : State) (c : Nat) (k : CoreSt) : (s.setCore c k).dregs = s.dregs := rfl
@[simp] theorem State.setCore_incs (s : State) (c : Nat) (k : CoreSt) : (s.setCore c k).incs = s.incs := rfl
@[simp] theorem State.setCore_inits (s : State) (c : Nat) (k : CoreSt) : (s.setCore c k).inits = s.inits := rfl
@[simp] theorem State.setCore_offers (s : State) (c : Nat) (k : CoreSt) : (s.setCore c k).offers = s.offers := rfl
@[simp] theorem State.setCore_updates (s : State) (c : Nat) (k : CoreSt) : (s.setCore c k).updates = s.updates := rfl
@[simp] theorem State.setCore_tlbs (s : State) (c : Nat) (k : CoreSt) : (s.setCore c k).tlbs = s.tlbs := rfl
@[simp] theorem State.setCore_saved (s : State) (c : Nat) (k : CoreSt) : (s.setCore c k).saved = s.saved := rfl
@[simp] theorem State.setCore_quadCtx (s : State) (c : Nat) (k : CoreSt) : (s.setCore c k).quadCtx = s.quadCtx := rfl
@[simp] theorem State.setCore_marks (s : State) (c : Nat) (k : CoreSt) : (s.setCore c k).marks = s.marks := rfl
@[simp] theorem State.setCore_attest (s : State) (c : Nat) (k : CoreSt) : (s.setCore c k).attest = s.attest := rfl
@[simp] theorem State.setCore_hostWait (s : State) (c : Nat) (k : CoreSt) : (s.setCore c k).hostWait = s.hostWait := rfl
@[simp] theorem State.setCore_hostReads (s : State) (c : Nat) (k : CoreSt) : (s.setCore c k).hostReads = s.hostReads := rfl
@[simp] theorem State.setCore_hostAns (s : State) (c : Nat) (k : CoreSt) : (s.setCore c k).hostAns = s.hostAns := rfl
@[simp] theorem State.setCore_bootCause (s : State) (c : Nat) (k : CoreSt) : (s.setCore c k).bootCause = s.bootCause := rfl
@[simp] theorem State.setCore_kinUp (s : State) (c : Nat) (k : CoreSt) : (s.setCore c k).kinUp = s.kinUp := rfl
@[simp] theorem State.setCore_poison (s : State) (c : Nat) (k : CoreSt) : (s.setCore c k).poison = s.poison := rfl
@[simp] theorem State.setCore_interrupts (s : State) (c : Nat) (k : CoreSt) : (s.setCore c k).interrupts = s.interrupts := rfl

@[simp] theorem State.core_setCore_same (s : State) (c : Nat) (k : CoreSt) : (s.setCore c k).core c = k :=
  Table.get_put_same _ _ _ _

theorem State.core_setCore_other (s : State) (c j : Nat) (k : CoreSt) (h : j ≠ c) : (s.setCore c k).core j = s.core j :=
  Table.get_put_other _ _ _ h

@[simp] theorem State.ctx_setCore (s : State) (i j : Nat) (k : CoreSt) : (s.setCore i k).ctx j = s.ctx j := rfl
@[simp] theorem State.cluster_setCore (s : State) (i j : Nat) (k : CoreSt) : (s.setCore i k).cluster j = s.cluster j := rfl
@[simp] theorem State.site_setCore (s : State) (i j : Nat) (k : CoreSt) : (s.setCore i k).site j = s.site j := rfl
@[simp] theorem State.region_setCore (s : State) (i j : Nat) (k : CoreSt) : (s.setCore i k).region j = s.region j := rfl
@[simp] theorem State.die_setCore (s : State) (i j : Nat) (k : CoreSt) : (s.setCore i k).die j = s.die j := rfl
@[simp] theorem State.modCore_eq (s : State) (i : Nat) (f : CoreSt → CoreSt) : s.modCore i f = s.setCore i (f (s.core i)) := rfl

/-! ## setCtx -/

@[simp] theorem State.setCtx_agenda (s : State) (x : Nat) (k : CtxSt) : (s.setCtx x k).agenda = s.agenda := rfl
@[simp] theorem State.setCtx_cur (s : State) (x : Nat) (k : CtxSt) : (s.setCtx x k).cur = s.cur := rfl
@[simp] theorem State.setCtx_fresh (s : State) (x : Nat) (k : CtxSt) : (s.setCtx x k).fresh = s.fresh := rfl
@[simp] theorem State.setCtx_mem (s : State) (x : Nat) (k : CtxSt) : (s.setCtx x k).mem = s.mem := rfl
@[simp] theorem State.setCtx_fullBits (s : State) (x : Nat) (k : CtxSt) : (s.setCtx x k).fullBits = s.fullBits := rfl
@[simp] theorem State.setCtx_accWords (s : State) (x : Nat) (k : CtxSt) : (s.setCtx x k).accWords = s.accWords := rfl
@[simp] theorem State.setCtx_cores (s : State) (x : Nat) (k : CtxSt) : (s.setCtx x k).cores = s.cores := rfl
@[simp] theorem State.setCtx_clusters (s : State) (x : Nat) (k : CtxSt) : (s.setCtx x k).clusters = s.clusters := rfl
@[simp] theorem State.setCtx_sites (s : State) (x : Nat) (k : CtxSt) : (s.setCtx x k).sites = s.sites := rfl
@[simp] theorem State.setCtx_regions (s : State) (x : Nat) (k : CtxSt) : (s.setCtx x k).regions = s.regions := rfl
@[simp] theorem State.setCtx_nextRegion (s : State) (x : Nat) (k : CtxSt) : (s.setCtx x k).nextRegion = s.nextRegion := rfl
@[simp] theorem State.setCtx_cmds (s : State) (x : Nat) (k : CtxSt) : (s.setCtx x k).cmds = s.cmds := rfl
@[simp] theorem State.setCtx_nextCmd (s : State) (x : Nat) (k : CtxSt) : (s.setCtx x k).nextCmd = s.nextCmd := rfl
@[simp] theorem State.setCtx_collBad (s : State) (x : Nat) (k : CtxSt) : (s.setCtx x k).collBad = s.collBad := rfl
@[simp] theorem State.setCtx_dies (s : State) (x : Nat) (k : CtxSt) : (s.setCtx x k).dies = s.dies := rfl
@[simp] theorem State.setCtx_groupCtr (s : State) (x : Nat) (k : CtxSt) : (s.setCtx x k).groupCtr = s.groupCtr := rfl
@[simp] theorem State.setCtx_dregs (s : State) (x : Nat) (k : CtxSt) : (s.setCtx x k).dregs = s.dregs := rfl
@[simp] theorem State.setCtx_incs (s : State) (x : Nat) (k : CtxSt) : (s.setCtx x k).incs = s.incs := rfl
@[simp] theorem State.setCtx_inits (s : State) (x : Nat) (k : CtxSt) : (s.setCtx x k).inits = s.inits := rfl
@[simp] theorem State.setCtx_offers (s : State) (x : Nat) (k : CtxSt) : (s.setCtx x k).offers = s.offers := rfl
@[simp] theorem State.setCtx_updates (s : State) (x : Nat) (k : CtxSt) : (s.setCtx x k).updates = s.updates := rfl
@[simp] theorem State.setCtx_tlbs (s : State) (x : Nat) (k : CtxSt) : (s.setCtx x k).tlbs = s.tlbs := rfl
@[simp] theorem State.setCtx_saved (s : State) (x : Nat) (k : CtxSt) : (s.setCtx x k).saved = s.saved := rfl
@[simp] theorem State.setCtx_quadCtx (s : State) (x : Nat) (k : CtxSt) : (s.setCtx x k).quadCtx = s.quadCtx := rfl
@[simp] theorem State.setCtx_marks (s : State) (x : Nat) (k : CtxSt) : (s.setCtx x k).marks = s.marks := rfl
@[simp] theorem State.setCtx_attest (s : State) (x : Nat) (k : CtxSt) : (s.setCtx x k).attest = s.attest := rfl
@[simp] theorem State.setCtx_hostWait (s : State) (x : Nat) (k : CtxSt) : (s.setCtx x k).hostWait = s.hostWait := rfl
@[simp] theorem State.setCtx_hostReads (s : State) (x : Nat) (k : CtxSt) : (s.setCtx x k).hostReads = s.hostReads := rfl
@[simp] theorem State.setCtx_hostAns (s : State) (x : Nat) (k : CtxSt) : (s.setCtx x k).hostAns = s.hostAns := rfl
@[simp] theorem State.setCtx_bootCause (s : State) (x : Nat) (k : CtxSt) : (s.setCtx x k).bootCause = s.bootCause := rfl
@[simp] theorem State.setCtx_kinUp (s : State) (x : Nat) (k : CtxSt) : (s.setCtx x k).kinUp = s.kinUp := rfl
@[simp] theorem State.setCtx_poison (s : State) (x : Nat) (k : CtxSt) : (s.setCtx x k).poison = s.poison := rfl
@[simp] theorem State.setCtx_interrupts (s : State) (x : Nat) (k : CtxSt) : (s.setCtx x k).interrupts = s.interrupts := rfl

@[simp] theorem State.ctx_setCtx_same (s : State) (x : Nat) (k : CtxSt) : (s.setCtx x k).ctx x = k :=
  Table.get_put_same _ _ _ _

theorem State.ctx_setCtx_other (s : State) (x j : Nat) (k : CtxSt) (h : j ≠ x) : (s.setCtx x k).ctx j = s.ctx j :=
  Table.get_put_other _ _ _ h

@[simp] theorem State.core_setCtx (s : State) (i j : Nat) (k : CtxSt) : (s.setCtx i k).core j = s.core j := rfl
@[simp] theorem State.cluster_setCtx (s : State) (i j : Nat) (k : CtxSt) : (s.setCtx i k).cluster j = s.cluster j := rfl
@[simp] theorem State.site_setCtx (s : State) (i j : Nat) (k : CtxSt) : (s.setCtx i k).site j = s.site j := rfl
@[simp] theorem State.region_setCtx (s : State) (i j : Nat) (k : CtxSt) : (s.setCtx i k).region j = s.region j := rfl
@[simp] theorem State.die_setCtx (s : State) (i j : Nat) (k : CtxSt) : (s.setCtx i k).die j = s.die j := rfl
@[simp] theorem State.modCtx_eq (s : State) (i : Nat) (f : CtxSt → CtxSt) : s.modCtx i f = s.setCtx i (f (s.ctx i)) := rfl

/-! ## setCluster -/

@[simp] theorem State.setCluster_agenda (s : State) (c : Nat) (k : Cluster) : (s.setCluster c k).agenda = s.agenda := rfl
@[simp] theorem State.setCluster_cur (s : State) (c : Nat) (k : Cluster) : (s.setCluster c k).cur = s.cur := rfl
@[simp] theorem State.setCluster_fresh (s : State) (c : Nat) (k : Cluster) : (s.setCluster c k).fresh = s.fresh := rfl
@[simp] theorem State.setCluster_mem (s : State) (c : Nat) (k : Cluster) : (s.setCluster c k).mem = s.mem := rfl
@[simp] theorem State.setCluster_fullBits (s : State) (c : Nat) (k : Cluster) : (s.setCluster c k).fullBits = s.fullBits := rfl
@[simp] theorem State.setCluster_accWords (s : State) (c : Nat) (k : Cluster) : (s.setCluster c k).accWords = s.accWords := rfl
@[simp] theorem State.setCluster_cores (s : State) (c : Nat) (k : Cluster) : (s.setCluster c k).cores = s.cores := rfl
@[simp] theorem State.setCluster_ctxs (s : State) (c : Nat) (k : Cluster) : (s.setCluster c k).ctxs = s.ctxs := rfl
@[simp] theorem State.setCluster_sites (s : State) (c : Nat) (k : Cluster) : (s.setCluster c k).sites = s.sites := rfl
@[simp] theorem State.setCluster_regions (s : State) (c : Nat) (k : Cluster) : (s.setCluster c k).regions = s.regions := rfl
@[simp] theorem State.setCluster_nextRegion (s : State) (c : Nat) (k : Cluster) : (s.setCluster c k).nextRegion = s.nextRegion := rfl
@[simp] theorem State.setCluster_cmds (s : State) (c : Nat) (k : Cluster) : (s.setCluster c k).cmds = s.cmds := rfl
@[simp] theorem State.setCluster_nextCmd (s : State) (c : Nat) (k : Cluster) : (s.setCluster c k).nextCmd = s.nextCmd := rfl
@[simp] theorem State.setCluster_collBad (s : State) (c : Nat) (k : Cluster) : (s.setCluster c k).collBad = s.collBad := rfl
@[simp] theorem State.setCluster_dies (s : State) (c : Nat) (k : Cluster) : (s.setCluster c k).dies = s.dies := rfl
@[simp] theorem State.setCluster_groupCtr (s : State) (c : Nat) (k : Cluster) : (s.setCluster c k).groupCtr = s.groupCtr := rfl
@[simp] theorem State.setCluster_dregs (s : State) (c : Nat) (k : Cluster) : (s.setCluster c k).dregs = s.dregs := rfl
@[simp] theorem State.setCluster_incs (s : State) (c : Nat) (k : Cluster) : (s.setCluster c k).incs = s.incs := rfl
@[simp] theorem State.setCluster_inits (s : State) (c : Nat) (k : Cluster) : (s.setCluster c k).inits = s.inits := rfl
@[simp] theorem State.setCluster_offers (s : State) (c : Nat) (k : Cluster) : (s.setCluster c k).offers = s.offers := rfl
@[simp] theorem State.setCluster_updates (s : State) (c : Nat) (k : Cluster) : (s.setCluster c k).updates = s.updates := rfl
@[simp] theorem State.setCluster_tlbs (s : State) (c : Nat) (k : Cluster) : (s.setCluster c k).tlbs = s.tlbs := rfl
@[simp] theorem State.setCluster_saved (s : State) (c : Nat) (k : Cluster) : (s.setCluster c k).saved = s.saved := rfl
@[simp] theorem State.setCluster_quadCtx (s : State) (c : Nat) (k : Cluster) : (s.setCluster c k).quadCtx = s.quadCtx := rfl
@[simp] theorem State.setCluster_marks (s : State) (c : Nat) (k : Cluster) : (s.setCluster c k).marks = s.marks := rfl
@[simp] theorem State.setCluster_attest (s : State) (c : Nat) (k : Cluster) : (s.setCluster c k).attest = s.attest := rfl
@[simp] theorem State.setCluster_hostWait (s : State) (c : Nat) (k : Cluster) : (s.setCluster c k).hostWait = s.hostWait := rfl
@[simp] theorem State.setCluster_hostReads (s : State) (c : Nat) (k : Cluster) : (s.setCluster c k).hostReads = s.hostReads := rfl
@[simp] theorem State.setCluster_hostAns (s : State) (c : Nat) (k : Cluster) : (s.setCluster c k).hostAns = s.hostAns := rfl
@[simp] theorem State.setCluster_bootCause (s : State) (c : Nat) (k : Cluster) : (s.setCluster c k).bootCause = s.bootCause := rfl
@[simp] theorem State.setCluster_kinUp (s : State) (c : Nat) (k : Cluster) : (s.setCluster c k).kinUp = s.kinUp := rfl
@[simp] theorem State.setCluster_poison (s : State) (c : Nat) (k : Cluster) : (s.setCluster c k).poison = s.poison := rfl
@[simp] theorem State.setCluster_interrupts (s : State) (c : Nat) (k : Cluster) : (s.setCluster c k).interrupts = s.interrupts := rfl

@[simp] theorem State.cluster_setCluster_same (s : State) (c : Nat) (k : Cluster) : (s.setCluster c k).cluster c = k :=
  Table.get_put_same _ _ _ _

theorem State.cluster_setCluster_other (s : State) (c j : Nat) (k : Cluster) (h : j ≠ c) : (s.setCluster c k).cluster j = s.cluster j :=
  Table.get_put_other _ _ _ h

@[simp] theorem State.core_setCluster (s : State) (i j : Nat) (k : Cluster) : (s.setCluster i k).core j = s.core j := rfl
@[simp] theorem State.ctx_setCluster (s : State) (i j : Nat) (k : Cluster) : (s.setCluster i k).ctx j = s.ctx j := rfl
@[simp] theorem State.site_setCluster (s : State) (i j : Nat) (k : Cluster) : (s.setCluster i k).site j = s.site j := rfl
@[simp] theorem State.region_setCluster (s : State) (i j : Nat) (k : Cluster) : (s.setCluster i k).region j = s.region j := rfl
@[simp] theorem State.die_setCluster (s : State) (i j : Nat) (k : Cluster) : (s.setCluster i k).die j = s.die j := rfl
@[simp] theorem State.modCluster_eq (s : State) (i : Nat) (f : Cluster → Cluster) : s.modCluster i f = s.setCluster i (f (s.cluster i)) := rfl

/-! ## setSite -/

@[simp] theorem State.setSite_agenda (s : State) (p : Nat) (k : Site) : (s.setSite p k).agenda = s.agenda := rfl
@[simp] theorem State.setSite_cur (s : State) (p : Nat) (k : Site) : (s.setSite p k).cur = s.cur := rfl
@[simp] theorem State.setSite_fresh (s : State) (p : Nat) (k : Site) : (s.setSite p k).fresh = s.fresh := rfl
@[simp] theorem State.setSite_mem (s : State) (p : Nat) (k : Site) : (s.setSite p k).mem = s.mem := rfl
@[simp] theorem State.setSite_fullBits (s : State) (p : Nat) (k : Site) : (s.setSite p k).fullBits = s.fullBits := rfl
@[simp] theorem State.setSite_accWords (s : State) (p : Nat) (k : Site) : (s.setSite p k).accWords = s.accWords := rfl
@[simp] theorem State.setSite_cores (s : State) (p : Nat) (k : Site) : (s.setSite p k).cores = s.cores := rfl
@[simp] theorem State.setSite_ctxs (s : State) (p : Nat) (k : Site) : (s.setSite p k).ctxs = s.ctxs := rfl
@[simp] theorem State.setSite_clusters (s : State) (p : Nat) (k : Site) : (s.setSite p k).clusters = s.clusters := rfl
@[simp] theorem State.setSite_regions (s : State) (p : Nat) (k : Site) : (s.setSite p k).regions = s.regions := rfl
@[simp] theorem State.setSite_nextRegion (s : State) (p : Nat) (k : Site) : (s.setSite p k).nextRegion = s.nextRegion := rfl
@[simp] theorem State.setSite_cmds (s : State) (p : Nat) (k : Site) : (s.setSite p k).cmds = s.cmds := rfl
@[simp] theorem State.setSite_nextCmd (s : State) (p : Nat) (k : Site) : (s.setSite p k).nextCmd = s.nextCmd := rfl
@[simp] theorem State.setSite_collBad (s : State) (p : Nat) (k : Site) : (s.setSite p k).collBad = s.collBad := rfl
@[simp] theorem State.setSite_dies (s : State) (p : Nat) (k : Site) : (s.setSite p k).dies = s.dies := rfl
@[simp] theorem State.setSite_groupCtr (s : State) (p : Nat) (k : Site) : (s.setSite p k).groupCtr = s.groupCtr := rfl
@[simp] theorem State.setSite_dregs (s : State) (p : Nat) (k : Site) : (s.setSite p k).dregs = s.dregs := rfl
@[simp] theorem State.setSite_incs (s : State) (p : Nat) (k : Site) : (s.setSite p k).incs = s.incs := rfl
@[simp] theorem State.setSite_inits (s : State) (p : Nat) (k : Site) : (s.setSite p k).inits = s.inits := rfl
@[simp] theorem State.setSite_offers (s : State) (p : Nat) (k : Site) : (s.setSite p k).offers = s.offers := rfl
@[simp] theorem State.setSite_updates (s : State) (p : Nat) (k : Site) : (s.setSite p k).updates = s.updates := rfl
@[simp] theorem State.setSite_tlbs (s : State) (p : Nat) (k : Site) : (s.setSite p k).tlbs = s.tlbs := rfl
@[simp] theorem State.setSite_saved (s : State) (p : Nat) (k : Site) : (s.setSite p k).saved = s.saved := rfl
@[simp] theorem State.setSite_quadCtx (s : State) (p : Nat) (k : Site) : (s.setSite p k).quadCtx = s.quadCtx := rfl
@[simp] theorem State.setSite_marks (s : State) (p : Nat) (k : Site) : (s.setSite p k).marks = s.marks := rfl
@[simp] theorem State.setSite_attest (s : State) (p : Nat) (k : Site) : (s.setSite p k).attest = s.attest := rfl
@[simp] theorem State.setSite_hostWait (s : State) (p : Nat) (k : Site) : (s.setSite p k).hostWait = s.hostWait := rfl
@[simp] theorem State.setSite_hostReads (s : State) (p : Nat) (k : Site) : (s.setSite p k).hostReads = s.hostReads := rfl
@[simp] theorem State.setSite_hostAns (s : State) (p : Nat) (k : Site) : (s.setSite p k).hostAns = s.hostAns := rfl
@[simp] theorem State.setSite_bootCause (s : State) (p : Nat) (k : Site) : (s.setSite p k).bootCause = s.bootCause := rfl
@[simp] theorem State.setSite_kinUp (s : State) (p : Nat) (k : Site) : (s.setSite p k).kinUp = s.kinUp := rfl
@[simp] theorem State.setSite_poison (s : State) (p : Nat) (k : Site) : (s.setSite p k).poison = s.poison := rfl
@[simp] theorem State.setSite_interrupts (s : State) (p : Nat) (k : Site) : (s.setSite p k).interrupts = s.interrupts := rfl

@[simp] theorem State.site_setSite_same (s : State) (p : Nat) (k : Site) : (s.setSite p k).site p = k :=
  Table.get_put_same _ _ _ _

theorem State.site_setSite_other (s : State) (p j : Nat) (k : Site) (h : j ≠ p) : (s.setSite p k).site j = s.site j :=
  Table.get_put_other _ _ _ h

@[simp] theorem State.core_setSite (s : State) (i j : Nat) (k : Site) : (s.setSite i k).core j = s.core j := rfl
@[simp] theorem State.ctx_setSite (s : State) (i j : Nat) (k : Site) : (s.setSite i k).ctx j = s.ctx j := rfl
@[simp] theorem State.cluster_setSite (s : State) (i j : Nat) (k : Site) : (s.setSite i k).cluster j = s.cluster j := rfl
@[simp] theorem State.region_setSite (s : State) (i j : Nat) (k : Site) : (s.setSite i k).region j = s.region j := rfl
@[simp] theorem State.die_setSite (s : State) (i j : Nat) (k : Site) : (s.setSite i k).die j = s.die j := rfl
@[simp] theorem State.modSite_eq (s : State) (i : Nat) (f : Site → Site) : s.modSite i f = s.setSite i (f (s.site i)) := rfl

/-! ## setRegion -/

@[simp] theorem State.setRegion_agenda (s : State) (g : Nat) (k : Region) : (s.setRegion g k).agenda = s.agenda := rfl
@[simp] theorem State.setRegion_cur (s : State) (g : Nat) (k : Region) : (s.setRegion g k).cur = s.cur := rfl
@[simp] theorem State.setRegion_fresh (s : State) (g : Nat) (k : Region) : (s.setRegion g k).fresh = s.fresh := rfl
@[simp] theorem State.setRegion_mem (s : State) (g : Nat) (k : Region) : (s.setRegion g k).mem = s.mem := rfl
@[simp] theorem State.setRegion_fullBits (s : State) (g : Nat) (k : Region) : (s.setRegion g k).fullBits = s.fullBits := rfl
@[simp] theorem State.setRegion_accWords (s : State) (g : Nat) (k : Region) : (s.setRegion g k).accWords = s.accWords := rfl
@[simp] theorem State.setRegion_cores (s : State) (g : Nat) (k : Region) : (s.setRegion g k).cores = s.cores := rfl
@[simp] theorem State.setRegion_ctxs (s : State) (g : Nat) (k : Region) : (s.setRegion g k).ctxs = s.ctxs := rfl
@[simp] theorem State.setRegion_clusters (s : State) (g : Nat) (k : Region) : (s.setRegion g k).clusters = s.clusters := rfl
@[simp] theorem State.setRegion_sites (s : State) (g : Nat) (k : Region) : (s.setRegion g k).sites = s.sites := rfl
@[simp] theorem State.setRegion_nextRegion (s : State) (g : Nat) (k : Region) : (s.setRegion g k).nextRegion = s.nextRegion := rfl
@[simp] theorem State.setRegion_cmds (s : State) (g : Nat) (k : Region) : (s.setRegion g k).cmds = s.cmds := rfl
@[simp] theorem State.setRegion_nextCmd (s : State) (g : Nat) (k : Region) : (s.setRegion g k).nextCmd = s.nextCmd := rfl
@[simp] theorem State.setRegion_collBad (s : State) (g : Nat) (k : Region) : (s.setRegion g k).collBad = s.collBad := rfl
@[simp] theorem State.setRegion_dies (s : State) (g : Nat) (k : Region) : (s.setRegion g k).dies = s.dies := rfl
@[simp] theorem State.setRegion_groupCtr (s : State) (g : Nat) (k : Region) : (s.setRegion g k).groupCtr = s.groupCtr := rfl
@[simp] theorem State.setRegion_dregs (s : State) (g : Nat) (k : Region) : (s.setRegion g k).dregs = s.dregs := rfl
@[simp] theorem State.setRegion_incs (s : State) (g : Nat) (k : Region) : (s.setRegion g k).incs = s.incs := rfl
@[simp] theorem State.setRegion_inits (s : State) (g : Nat) (k : Region) : (s.setRegion g k).inits = s.inits := rfl
@[simp] theorem State.setRegion_offers (s : State) (g : Nat) (k : Region) : (s.setRegion g k).offers = s.offers := rfl
@[simp] theorem State.setRegion_updates (s : State) (g : Nat) (k : Region) : (s.setRegion g k).updates = s.updates := rfl
@[simp] theorem State.setRegion_tlbs (s : State) (g : Nat) (k : Region) : (s.setRegion g k).tlbs = s.tlbs := rfl
@[simp] theorem State.setRegion_saved (s : State) (g : Nat) (k : Region) : (s.setRegion g k).saved = s.saved := rfl
@[simp] theorem State.setRegion_quadCtx (s : State) (g : Nat) (k : Region) : (s.setRegion g k).quadCtx = s.quadCtx := rfl
@[simp] theorem State.setRegion_marks (s : State) (g : Nat) (k : Region) : (s.setRegion g k).marks = s.marks := rfl
@[simp] theorem State.setRegion_attest (s : State) (g : Nat) (k : Region) : (s.setRegion g k).attest = s.attest := rfl
@[simp] theorem State.setRegion_hostWait (s : State) (g : Nat) (k : Region) : (s.setRegion g k).hostWait = s.hostWait := rfl
@[simp] theorem State.setRegion_hostReads (s : State) (g : Nat) (k : Region) : (s.setRegion g k).hostReads = s.hostReads := rfl
@[simp] theorem State.setRegion_hostAns (s : State) (g : Nat) (k : Region) : (s.setRegion g k).hostAns = s.hostAns := rfl
@[simp] theorem State.setRegion_bootCause (s : State) (g : Nat) (k : Region) : (s.setRegion g k).bootCause = s.bootCause := rfl
@[simp] theorem State.setRegion_kinUp (s : State) (g : Nat) (k : Region) : (s.setRegion g k).kinUp = s.kinUp := rfl
@[simp] theorem State.setRegion_poison (s : State) (g : Nat) (k : Region) : (s.setRegion g k).poison = s.poison := rfl
@[simp] theorem State.setRegion_interrupts (s : State) (g : Nat) (k : Region) : (s.setRegion g k).interrupts = s.interrupts := rfl

@[simp] theorem State.region_setRegion_same (s : State) (g : Nat) (k : Region) : (s.setRegion g k).region g = k :=
  Table.get_put_same _ _ _ _

theorem State.region_setRegion_other (s : State) (g j : Nat) (k : Region) (h : j ≠ g) : (s.setRegion g k).region j = s.region j :=
  Table.get_put_other _ _ _ h

@[simp] theorem State.core_setRegion (s : State) (i j : Nat) (k : Region) : (s.setRegion i k).core j = s.core j := rfl
@[simp] theorem State.ctx_setRegion (s : State) (i j : Nat) (k : Region) : (s.setRegion i k).ctx j = s.ctx j := rfl
@[simp] theorem State.cluster_setRegion (s : State) (i j : Nat) (k : Region) : (s.setRegion i k).cluster j = s.cluster j := rfl
@[simp] theorem State.site_setRegion (s : State) (i j : Nat) (k : Region) : (s.setRegion i k).site j = s.site j := rfl
@[simp] theorem State.die_setRegion (s : State) (i j : Nat) (k : Region) : (s.setRegion i k).die j = s.die j := rfl
@[simp] theorem State.modRegion_eq (s : State) (i : Nat) (f : Region → Region) : s.modRegion i f = s.setRegion i (f (s.region i)) := rfl

/-! ## setDie -/

@[simp] theorem State.setDie_agenda (s : State) (d : Nat) (k : Die) : (s.setDie d k).agenda = s.agenda := rfl
@[simp] theorem State.setDie_cur (s : State) (d : Nat) (k : Die) : (s.setDie d k).cur = s.cur := rfl
@[simp] theorem State.setDie_fresh (s : State) (d : Nat) (k : Die) : (s.setDie d k).fresh = s.fresh := rfl
@[simp] theorem State.setDie_mem (s : State) (d : Nat) (k : Die) : (s.setDie d k).mem = s.mem := rfl
@[simp] theorem State.setDie_fullBits (s : State) (d : Nat) (k : Die) : (s.setDie d k).fullBits = s.fullBits := rfl
@[simp] theorem State.setDie_accWords (s : State) (d : Nat) (k : Die) : (s.setDie d k).accWords = s.accWords := rfl
@[simp] theorem State.setDie_cores (s : State) (d : Nat) (k : Die) : (s.setDie d k).cores = s.cores := rfl
@[simp] theorem State.setDie_ctxs (s : State) (d : Nat) (k : Die) : (s.setDie d k).ctxs = s.ctxs := rfl
@[simp] theorem State.setDie_clusters (s : State) (d : Nat) (k : Die) : (s.setDie d k).clusters = s.clusters := rfl
@[simp] theorem State.setDie_sites (s : State) (d : Nat) (k : Die) : (s.setDie d k).sites = s.sites := rfl
@[simp] theorem State.setDie_regions (s : State) (d : Nat) (k : Die) : (s.setDie d k).regions = s.regions := rfl
@[simp] theorem State.setDie_nextRegion (s : State) (d : Nat) (k : Die) : (s.setDie d k).nextRegion = s.nextRegion := rfl
@[simp] theorem State.setDie_cmds (s : State) (d : Nat) (k : Die) : (s.setDie d k).cmds = s.cmds := rfl
@[simp] theorem State.setDie_nextCmd (s : State) (d : Nat) (k : Die) : (s.setDie d k).nextCmd = s.nextCmd := rfl
@[simp] theorem State.setDie_collBad (s : State) (d : Nat) (k : Die) : (s.setDie d k).collBad = s.collBad := rfl
@[simp] theorem State.setDie_groupCtr (s : State) (d : Nat) (k : Die) : (s.setDie d k).groupCtr = s.groupCtr := rfl
@[simp] theorem State.setDie_dregs (s : State) (d : Nat) (k : Die) : (s.setDie d k).dregs = s.dregs := rfl
@[simp] theorem State.setDie_incs (s : State) (d : Nat) (k : Die) : (s.setDie d k).incs = s.incs := rfl
@[simp] theorem State.setDie_inits (s : State) (d : Nat) (k : Die) : (s.setDie d k).inits = s.inits := rfl
@[simp] theorem State.setDie_offers (s : State) (d : Nat) (k : Die) : (s.setDie d k).offers = s.offers := rfl
@[simp] theorem State.setDie_updates (s : State) (d : Nat) (k : Die) : (s.setDie d k).updates = s.updates := rfl
@[simp] theorem State.setDie_tlbs (s : State) (d : Nat) (k : Die) : (s.setDie d k).tlbs = s.tlbs := rfl
@[simp] theorem State.setDie_saved (s : State) (d : Nat) (k : Die) : (s.setDie d k).saved = s.saved := rfl
@[simp] theorem State.setDie_quadCtx (s : State) (d : Nat) (k : Die) : (s.setDie d k).quadCtx = s.quadCtx := rfl
@[simp] theorem State.setDie_marks (s : State) (d : Nat) (k : Die) : (s.setDie d k).marks = s.marks := rfl
@[simp] theorem State.setDie_attest (s : State) (d : Nat) (k : Die) : (s.setDie d k).attest = s.attest := rfl
@[simp] theorem State.setDie_hostWait (s : State) (d : Nat) (k : Die) : (s.setDie d k).hostWait = s.hostWait := rfl
@[simp] theorem State.setDie_hostReads (s : State) (d : Nat) (k : Die) : (s.setDie d k).hostReads = s.hostReads := rfl
@[simp] theorem State.setDie_hostAns (s : State) (d : Nat) (k : Die) : (s.setDie d k).hostAns = s.hostAns := rfl
@[simp] theorem State.setDie_bootCause (s : State) (d : Nat) (k : Die) : (s.setDie d k).bootCause = s.bootCause := rfl
@[simp] theorem State.setDie_kinUp (s : State) (d : Nat) (k : Die) : (s.setDie d k).kinUp = s.kinUp := rfl
@[simp] theorem State.setDie_poison (s : State) (d : Nat) (k : Die) : (s.setDie d k).poison = s.poison := rfl
@[simp] theorem State.setDie_interrupts (s : State) (d : Nat) (k : Die) : (s.setDie d k).interrupts = s.interrupts := rfl

@[simp] theorem State.die_setDie_same (s : State) (d : Nat) (k : Die) : (s.setDie d k).die d = k :=
  Table.get_put_same _ _ _ _

theorem State.die_setDie_other (s : State) (d j : Nat) (k : Die) (h : j ≠ d) : (s.setDie d k).die j = s.die j :=
  Table.get_put_other _ _ _ h

@[simp] theorem State.core_setDie (s : State) (i j : Nat) (k : Die) : (s.setDie i k).core j = s.core j := rfl
@[simp] theorem State.ctx_setDie (s : State) (i j : Nat) (k : Die) : (s.setDie i k).ctx j = s.ctx j := rfl
@[simp] theorem State.cluster_setDie (s : State) (i j : Nat) (k : Die) : (s.setDie i k).cluster j = s.cluster j := rfl
@[simp] theorem State.site_setDie (s : State) (i j : Nat) (k : Die) : (s.setDie i k).site j = s.site j := rfl
@[simp] theorem State.region_setDie (s : State) (i j : Nat) (k : Die) : (s.setDie i k).region j = s.region j := rfl
@[simp] theorem State.modDie_eq (s : State) (i : Nat) (f : Die → Die) : s.modDie i f = s.setDie i (f (s.die i)) := rfl

/-! ## setDreg -/

@[simp] theorem State.setDreg_agenda (s : State) (a : Nat) (v : Word) : (s.setDreg a v).agenda = s.agenda := rfl
@[simp] theorem State.setDreg_cur (s : State) (a : Nat) (v : Word) : (s.setDreg a v).cur = s.cur := rfl
@[simp] theorem State.setDreg_fresh (s : State) (a : Nat) (v : Word) : (s.setDreg a v).fresh = s.fresh := rfl
@[simp] theorem State.setDreg_mem (s : State) (a : Nat) (v : Word) : (s.setDreg a v).mem = s.mem := rfl
@[simp] theorem State.setDreg_fullBits (s : State) (a : Nat) (v : Word) : (s.setDreg a v).fullBits = s.fullBits := rfl
@[simp] theorem State.setDreg_accWords (s : State) (a : Nat) (v : Word) : (s.setDreg a v).accWords = s.accWords := rfl
@[simp] theorem State.setDreg_cores (s : State) (a : Nat) (v : Word) : (s.setDreg a v).cores = s.cores := rfl
@[simp] theorem State.setDreg_ctxs (s : State) (a : Nat) (v : Word) : (s.setDreg a v).ctxs = s.ctxs := rfl
@[simp] theorem State.setDreg_clusters (s : State) (a : Nat) (v : Word) : (s.setDreg a v).clusters = s.clusters := rfl
@[simp] theorem State.setDreg_sites (s : State) (a : Nat) (v : Word) : (s.setDreg a v).sites = s.sites := rfl
@[simp] theorem State.setDreg_regions (s : State) (a : Nat) (v : Word) : (s.setDreg a v).regions = s.regions := rfl
@[simp] theorem State.setDreg_nextRegion (s : State) (a : Nat) (v : Word) : (s.setDreg a v).nextRegion = s.nextRegion := rfl
@[simp] theorem State.setDreg_cmds (s : State) (a : Nat) (v : Word) : (s.setDreg a v).cmds = s.cmds := rfl
@[simp] theorem State.setDreg_nextCmd (s : State) (a : Nat) (v : Word) : (s.setDreg a v).nextCmd = s.nextCmd := rfl
@[simp] theorem State.setDreg_collBad (s : State) (a : Nat) (v : Word) : (s.setDreg a v).collBad = s.collBad := rfl
@[simp] theorem State.setDreg_dies (s : State) (a : Nat) (v : Word) : (s.setDreg a v).dies = s.dies := rfl
@[simp] theorem State.setDreg_groupCtr (s : State) (a : Nat) (v : Word) : (s.setDreg a v).groupCtr = s.groupCtr := rfl
@[simp] theorem State.setDreg_incs (s : State) (a : Nat) (v : Word) : (s.setDreg a v).incs = s.incs := rfl
@[simp] theorem State.setDreg_inits (s : State) (a : Nat) (v : Word) : (s.setDreg a v).inits = s.inits := rfl
@[simp] theorem State.setDreg_offers (s : State) (a : Nat) (v : Word) : (s.setDreg a v).offers = s.offers := rfl
@[simp] theorem State.setDreg_updates (s : State) (a : Nat) (v : Word) : (s.setDreg a v).updates = s.updates := rfl
@[simp] theorem State.setDreg_tlbs (s : State) (a : Nat) (v : Word) : (s.setDreg a v).tlbs = s.tlbs := rfl
@[simp] theorem State.setDreg_saved (s : State) (a : Nat) (v : Word) : (s.setDreg a v).saved = s.saved := rfl
@[simp] theorem State.setDreg_quadCtx (s : State) (a : Nat) (v : Word) : (s.setDreg a v).quadCtx = s.quadCtx := rfl
@[simp] theorem State.setDreg_marks (s : State) (a : Nat) (v : Word) : (s.setDreg a v).marks = s.marks := rfl
@[simp] theorem State.setDreg_attest (s : State) (a : Nat) (v : Word) : (s.setDreg a v).attest = s.attest := rfl
@[simp] theorem State.setDreg_hostWait (s : State) (a : Nat) (v : Word) : (s.setDreg a v).hostWait = s.hostWait := rfl
@[simp] theorem State.setDreg_hostReads (s : State) (a : Nat) (v : Word) : (s.setDreg a v).hostReads = s.hostReads := rfl
@[simp] theorem State.setDreg_hostAns (s : State) (a : Nat) (v : Word) : (s.setDreg a v).hostAns = s.hostAns := rfl
@[simp] theorem State.setDreg_bootCause (s : State) (a : Nat) (v : Word) : (s.setDreg a v).bootCause = s.bootCause := rfl
@[simp] theorem State.setDreg_kinUp (s : State) (a : Nat) (v : Word) : (s.setDreg a v).kinUp = s.kinUp := rfl
@[simp] theorem State.setDreg_poison (s : State) (a : Nat) (v : Word) : (s.setDreg a v).poison = s.poison := rfl
@[simp] theorem State.setDreg_interrupts (s : State) (a : Nat) (v : Word) : (s.setDreg a v).interrupts = s.interrupts := rfl

@[simp] theorem State.dreg_setDreg_same (s : State) (a : Nat) (v w : Word) : (s.setDreg a v).dreg a w = v :=
  Table.get_put_same _ _ _ _

theorem State.dreg_setDreg_other (s : State) (a b : Nat) (v w : Word) (h : b ≠ a) : (s.setDreg a v).dreg b w = s.dreg b w :=
  Table.get_put_other _ _ _ h

/-! ## CoreSt.wr -/

@[simp] theorem CoreSt.wr_f (k : CoreSt) (r : Nat) (v : Word) : (k.wr r v).f = k.f := by unfold CoreSt.wr; split <;> rfl
@[simp] theorem CoreSt.wr_m (k : CoreSt) (r : Nat) (v : Word) : (k.wr r v).m = k.m := by unfold CoreSt.wr; split <;> rfl
@[simp] theorem CoreSt.wr_pc (k : CoreSt) (r : Nat) (v : Word) : (k.wr r v).pc = k.pc := by unfold CoreSt.wr; split <;> rfl
@[simp] theorem CoreSt.wr_fflags (k : CoreSt) (r : Nat) (v : Word) : (k.wr r v).fflags = k.fflags := by unfold CoreSt.wr; split <;> rfl
@[simp] theorem CoreSt.wr_cseq (k : CoreSt) (r : Nat) (v : Word) : (k.wr r v).cseq = k.cseq := by unfold CoreSt.wr; split <;> rfl
@[simp] theorem CoreSt.wr_eseq (k : CoreSt) (r : Nat) (v : Word) : (k.wr r v).eseq = k.eseq := by unfold CoreSt.wr; split <;> rfl
@[simp] theorem CoreSt.wr_ocnt (k : CoreSt) (r : Nat) (v : Word) : (k.wr r v).ocnt = k.ocnt := by unfold CoreSt.wr; split <;> rfl
@[simp] theorem CoreSt.wr_board (k : CoreSt) (r : Nat) (v : Word) : (k.wr r v).board = k.board := by unfold CoreSt.wr; split <;> rfl
@[simp] theorem CoreSt.wr_pendS (k : CoreSt) (r : Nat) (v : Word) : (k.wr r v).pendS = k.pendS := by unfold CoreSt.wr; split <;> rfl
@[simp] theorem CoreSt.wr_pendF (k : CoreSt) (r : Nat) (v : Word) : (k.wr r v).pendF = k.pendF := by unfold CoreSt.wr; split <;> rfl
@[simp] theorem CoreSt.wr_ctx (k : CoreSt) (r : Nat) (v : Word) : (k.wr r v).ctx = k.ctx := by unfold CoreSt.wr; split <;> rfl
@[simp] theorem CoreSt.wr_priv (k : CoreSt) (r : Nat) (v : Word) : (k.wr r v).priv = k.priv := by unfold CoreSt.wr; split <;> rfl
@[simp] theorem CoreSt.wr_running (k : CoreSt) (r : Nat) (v : Word) : (k.wr r v).running = k.running := by unfold CoreSt.wr; split <;> rfl
@[simp] theorem CoreSt.wr_halted (k : CoreSt) (r : Nat) (v : Word) : (k.wr r v).halted = k.halted := by unfold CoreSt.wr; split <;> rfl
@[simp] theorem CoreSt.wr_dead (k : CoreSt) (r : Nat) (v : Word) : (k.wr r v).dead = k.dead := by unfold CoreSt.wr; split <;> rfl
@[simp] theorem CoreSt.wr_chan (k : CoreSt) (r : Nat) (v : Word) : (k.wr r v).chan = k.chan := by unfold CoreSt.wr; split <;> rfl
@[simp] theorem CoreSt.wr_issued (k : CoreSt) (r : Nat) (v : Word) : (k.wr r v).issued = k.issued := by unfold CoreSt.wr; split <;> rfl
@[simp] theorem CoreSt.wr_budget (k : CoreSt) (r : Nat) (v : Word) : (k.wr r v).budget = k.budget := by unfold CoreSt.wr; split <;> rfl
@[simp] theorem CoreSt.wr_stall (k : CoreSt) (r : Nat) (v : Word) : (k.wr r v).stall = k.stall := by unfold CoreSt.wr; split <;> rfl
@[simp] theorem CoreSt.wr_req (k : CoreSt) (r : Nat) (v : Word) : (k.wr r v).req = k.req := by unfold CoreSt.wr; split <;> rfl
@[simp] theorem CoreSt.wr_chans (k : CoreSt) (r : Nat) (v : Word) : (k.wr r v).chans = k.chans := by unfold CoreSt.wr; split <;> rfl
@[simp] theorem CoreSt.wr_tpc (k : CoreSt) (r : Nat) (v : Word) : (k.wr r v).tpc = k.tpc := by unfold CoreSt.wr; split <;> rfl
@[simp] theorem CoreSt.wr_tcause (k : CoreSt) (r : Nat) (v : Word) : (k.wr r v).tcause = k.tcause := by unfold CoreSt.wr; split <;> rfl
@[simp] theorem CoreSt.wr_tval (k : CoreSt) (r : Nat) (v : Word) : (k.wr r v).tval = k.tval := by unfold CoreSt.wr; split <;> rfl
@[simp] theorem CoreSt.wr_tvalid (k : CoreSt) (r : Nat) (v : Word) : (k.wr r v).tvalid = k.tvalid := by unfold CoreSt.wr; split <;> rfl
@[simp] theorem CoreSt.wr_tchan (k : CoreSt) (r : Nat) (v : Word) : (k.wr r v).tchan = k.tchan := by unfold CoreSt.wr; split <;> rfl
@[simp] theorem CoreSt.wr_tctx (k : CoreSt) (r : Nat) (v : Word) : (k.wr r v).tctx = k.tctx := by unfold CoreSt.wr; split <;> rfl
@[simp] theorem CoreSt.wr_tm (k : CoreSt) (r : Nat) (v : Word) : (k.wr r v).tm = k.tm := by unfold CoreSt.wr; split <;> rfl
@[simp] theorem CoreSt.wr_tissued (k : CoreSt) (r : Nat) (v : Word) : (k.wr r v).tissued = k.tissued := by unfold CoreSt.wr; split <;> rfl
@[simp] theorem CoreSt.wr_ttask (k : CoreSt) (r : Nat) (v : Word) : (k.wr r v).ttask = k.ttask := by unfold CoreSt.wr; split <;> rfl
@[simp] theorem CoreSt.wr_tgroup (k : CoreSt) (r : Nat) (v : Word) : (k.wr r v).tgroup = k.tgroup := by unfold CoreSt.wr; split <;> rfl
@[simp] theorem CoreSt.wr_stallmax (k : CoreSt) (r : Nat) (v : Word) : (k.wr r v).stallmax = k.stallmax := by unfold CoreSt.wr; split <;> rfl
@[simp] theorem CoreSt.wr_parks (k : CoreSt) (r : Nat) (v : Word) : (k.wr r v).parks = k.parks := by unfold CoreSt.wr; split <;> rfl
@[simp] theorem CoreSt.wr_ops (k : CoreSt) (r : Nat) (v : Word) : (k.wr r v).ops = k.ops := by unfold CoreSt.wr; split <;> rfl
@[simp] theorem CoreSt.wr_nextOp (k : CoreSt) (r : Nat) (v : Word) : (k.wr r v).nextOp = k.nextOp := by unfold CoreSt.wr; split <;> rfl
@[simp] theorem CoreSt.wr_arrival (k : CoreSt) (r : Nat) (v : Word) : (k.wr r v).arrival = k.arrival := by unfold CoreSt.wr; split <;> rfl
@[simp] theorem CoreSt.wr_task (k : CoreSt) (r : Nat) (v : Word) : (k.wr r v).task = k.task := by unfold CoreSt.wr; split <;> rfl
@[simp] theorem CoreSt.wr_group (k : CoreSt) (r : Nat) (v : Word) : (k.wr r v).group = k.group := by unfold CoreSt.wr; split <;> rfl
@[simp] theorem CoreSt.wr_fltErr (k : CoreSt) (r : Nat) (v : Word) : (k.wr r v).fltErr = k.fltErr := by unfold CoreSt.wr; split <;> rfl
@[simp] theorem CoreSt.wr_fltDrop (k : CoreSt) (r : Nat) (v : Word) : (k.wr r v).fltDrop = k.fltDrop := by unfold CoreSt.wr; split <;> rfl
@[simp] theorem CoreSt.wr_eccThr (k : CoreSt) (r : Nat) (v : Word) : (k.wr r v).eccThr = k.eccThr := by unfold CoreSt.wr; split <;> rfl
@[simp] theorem CoreSt.wr_eccUnc (k : CoreSt) (r : Nat) (v : Word) : (k.wr r v).eccUnc = k.eccUnc := by unfold CoreSt.wr; split <;> rfl
@[simp] theorem CoreSt.wr_eccCorr (k : CoreSt) (r : Nat) (v : Word) : (k.wr r v).eccCorr = k.eccCorr := by unfold CoreSt.wr; split <;> rfl
@[simp] theorem CoreSt.wr_next (k : CoreSt) (r : Nat) (v : Word) : (k.wr r v).next = k.next := by unfold CoreSt.wr; split <;> rfl
@[simp] theorem CoreSt.wr_nextHeld (k : CoreSt) (r : Nat) (v : Word) : (k.wr r v).nextHeld = k.nextHeld := by unfold CoreSt.wr; split <;> rfl
@[simp] theorem CoreSt.wr_later (k : CoreSt) (r : Nat) (v : Word) : (k.wr r v).later = k.later := by unfold CoreSt.wr; split <;> rfl

/-! ## CoreSt.wrF -/

@[simp] theorem CoreSt.wrF_s (k : CoreSt) (r : Nat) (v : Word) : (k.wrF r v).s = k.s := rfl
@[simp] theorem CoreSt.wrF_m (k : CoreSt) (r : Nat) (v : Word) : (k.wrF r v).m = k.m := rfl
@[simp] theorem CoreSt.wrF_pc (k : CoreSt) (r : Nat) (v : Word) : (k.wrF r v).pc = k.pc := rfl
@[simp] theorem CoreSt.wrF_fflags (k : CoreSt) (r : Nat) (v : Word) : (k.wrF r v).fflags = k.fflags := rfl
@[simp] theorem CoreSt.wrF_cseq (k : CoreSt) (r : Nat) (v : Word) : (k.wrF r v).cseq = k.cseq := rfl
@[simp] theorem CoreSt.wrF_eseq (k : CoreSt) (r : Nat) (v : Word) : (k.wrF r v).eseq = k.eseq := rfl
@[simp] theorem CoreSt.wrF_ocnt (k : CoreSt) (r : Nat) (v : Word) : (k.wrF r v).ocnt = k.ocnt := rfl
@[simp] theorem CoreSt.wrF_board (k : CoreSt) (r : Nat) (v : Word) : (k.wrF r v).board = k.board := rfl
@[simp] theorem CoreSt.wrF_pendS (k : CoreSt) (r : Nat) (v : Word) : (k.wrF r v).pendS = k.pendS := rfl
@[simp] theorem CoreSt.wrF_pendF (k : CoreSt) (r : Nat) (v : Word) : (k.wrF r v).pendF = k.pendF := rfl
@[simp] theorem CoreSt.wrF_ctx (k : CoreSt) (r : Nat) (v : Word) : (k.wrF r v).ctx = k.ctx := rfl
@[simp] theorem CoreSt.wrF_priv (k : CoreSt) (r : Nat) (v : Word) : (k.wrF r v).priv = k.priv := rfl
@[simp] theorem CoreSt.wrF_running (k : CoreSt) (r : Nat) (v : Word) : (k.wrF r v).running = k.running := rfl
@[simp] theorem CoreSt.wrF_halted (k : CoreSt) (r : Nat) (v : Word) : (k.wrF r v).halted = k.halted := rfl
@[simp] theorem CoreSt.wrF_dead (k : CoreSt) (r : Nat) (v : Word) : (k.wrF r v).dead = k.dead := rfl
@[simp] theorem CoreSt.wrF_chan (k : CoreSt) (r : Nat) (v : Word) : (k.wrF r v).chan = k.chan := rfl
@[simp] theorem CoreSt.wrF_issued (k : CoreSt) (r : Nat) (v : Word) : (k.wrF r v).issued = k.issued := rfl
@[simp] theorem CoreSt.wrF_budget (k : CoreSt) (r : Nat) (v : Word) : (k.wrF r v).budget = k.budget := rfl
@[simp] theorem CoreSt.wrF_stall (k : CoreSt) (r : Nat) (v : Word) : (k.wrF r v).stall = k.stall := rfl
@[simp] theorem CoreSt.wrF_req (k : CoreSt) (r : Nat) (v : Word) : (k.wrF r v).req = k.req := rfl
@[simp] theorem CoreSt.wrF_chans (k : CoreSt) (r : Nat) (v : Word) : (k.wrF r v).chans = k.chans := rfl
@[simp] theorem CoreSt.wrF_tpc (k : CoreSt) (r : Nat) (v : Word) : (k.wrF r v).tpc = k.tpc := rfl
@[simp] theorem CoreSt.wrF_tcause (k : CoreSt) (r : Nat) (v : Word) : (k.wrF r v).tcause = k.tcause := rfl
@[simp] theorem CoreSt.wrF_tval (k : CoreSt) (r : Nat) (v : Word) : (k.wrF r v).tval = k.tval := rfl
@[simp] theorem CoreSt.wrF_tvalid (k : CoreSt) (r : Nat) (v : Word) : (k.wrF r v).tvalid = k.tvalid := rfl
@[simp] theorem CoreSt.wrF_tchan (k : CoreSt) (r : Nat) (v : Word) : (k.wrF r v).tchan = k.tchan := rfl
@[simp] theorem CoreSt.wrF_tctx (k : CoreSt) (r : Nat) (v : Word) : (k.wrF r v).tctx = k.tctx := rfl
@[simp] theorem CoreSt.wrF_tm (k : CoreSt) (r : Nat) (v : Word) : (k.wrF r v).tm = k.tm := rfl
@[simp] theorem CoreSt.wrF_tissued (k : CoreSt) (r : Nat) (v : Word) : (k.wrF r v).tissued = k.tissued := rfl
@[simp] theorem CoreSt.wrF_ttask (k : CoreSt) (r : Nat) (v : Word) : (k.wrF r v).ttask = k.ttask := rfl
@[simp] theorem CoreSt.wrF_tgroup (k : CoreSt) (r : Nat) (v : Word) : (k.wrF r v).tgroup = k.tgroup := rfl
@[simp] theorem CoreSt.wrF_stallmax (k : CoreSt) (r : Nat) (v : Word) : (k.wrF r v).stallmax = k.stallmax := rfl
@[simp] theorem CoreSt.wrF_parks (k : CoreSt) (r : Nat) (v : Word) : (k.wrF r v).parks = k.parks := rfl
@[simp] theorem CoreSt.wrF_ops (k : CoreSt) (r : Nat) (v : Word) : (k.wrF r v).ops = k.ops := rfl
@[simp] theorem CoreSt.wrF_nextOp (k : CoreSt) (r : Nat) (v : Word) : (k.wrF r v).nextOp = k.nextOp := rfl
@[simp] theorem CoreSt.wrF_arrival (k : CoreSt) (r : Nat) (v : Word) : (k.wrF r v).arrival = k.arrival := rfl
@[simp] theorem CoreSt.wrF_task (k : CoreSt) (r : Nat) (v : Word) : (k.wrF r v).task = k.task := rfl
@[simp] theorem CoreSt.wrF_group (k : CoreSt) (r : Nat) (v : Word) : (k.wrF r v).group = k.group := rfl
@[simp] theorem CoreSt.wrF_fltErr (k : CoreSt) (r : Nat) (v : Word) : (k.wrF r v).fltErr = k.fltErr := rfl
@[simp] theorem CoreSt.wrF_fltDrop (k : CoreSt) (r : Nat) (v : Word) : (k.wrF r v).fltDrop = k.fltDrop := rfl
@[simp] theorem CoreSt.wrF_eccThr (k : CoreSt) (r : Nat) (v : Word) : (k.wrF r v).eccThr = k.eccThr := rfl
@[simp] theorem CoreSt.wrF_eccUnc (k : CoreSt) (r : Nat) (v : Word) : (k.wrF r v).eccUnc = k.eccUnc := rfl
@[simp] theorem CoreSt.wrF_eccCorr (k : CoreSt) (r : Nat) (v : Word) : (k.wrF r v).eccCorr = k.eccCorr := rfl
@[simp] theorem CoreSt.wrF_next (k : CoreSt) (r : Nat) (v : Word) : (k.wrF r v).next = k.next := rfl
@[simp] theorem CoreSt.wrF_nextHeld (k : CoreSt) (r : Nat) (v : Word) : (k.wrF r v).nextHeld = k.nextHeld := rfl
@[simp] theorem CoreSt.wrF_later (k : CoreSt) (r : Nat) (v : Word) : (k.wrF r v).later = k.later := rfl

/-! ## CoreSt.issue -/

@[simp] theorem CoreSt.issue_s (k : CoreSt) (n : Nat) : (k.issue n).s = k.s := rfl
@[simp] theorem CoreSt.issue_f (k : CoreSt) (n : Nat) : (k.issue n).f = k.f := rfl
@[simp] theorem CoreSt.issue_m (k : CoreSt) (n : Nat) : (k.issue n).m = k.m := rfl
@[simp] theorem CoreSt.issue_fflags (k : CoreSt) (n : Nat) : (k.issue n).fflags = k.fflags := rfl
@[simp] theorem CoreSt.issue_cseq (k : CoreSt) (n : Nat) : (k.issue n).cseq = k.cseq := rfl
@[simp] theorem CoreSt.issue_eseq (k : CoreSt) (n : Nat) : (k.issue n).eseq = k.eseq := rfl
@[simp] theorem CoreSt.issue_ocnt (k : CoreSt) (n : Nat) : (k.issue n).ocnt = k.ocnt := rfl
@[simp] theorem CoreSt.issue_board (k : CoreSt) (n : Nat) : (k.issue n).board = k.board := rfl
@[simp] theorem CoreSt.issue_pendS (k : CoreSt) (n : Nat) : (k.issue n).pendS = k.pendS := rfl
@[simp] theorem CoreSt.issue_pendF (k : CoreSt) (n : Nat) : (k.issue n).pendF = k.pendF := rfl
@[simp] theorem CoreSt.issue_ctx (k : CoreSt) (n : Nat) : (k.issue n).ctx = k.ctx := rfl
@[simp] theorem CoreSt.issue_priv (k : CoreSt) (n : Nat) : (k.issue n).priv = k.priv := rfl
@[simp] theorem CoreSt.issue_running (k : CoreSt) (n : Nat) : (k.issue n).running = k.running := rfl
@[simp] theorem CoreSt.issue_halted (k : CoreSt) (n : Nat) : (k.issue n).halted = k.halted := rfl
@[simp] theorem CoreSt.issue_dead (k : CoreSt) (n : Nat) : (k.issue n).dead = k.dead := rfl
@[simp] theorem CoreSt.issue_chan (k : CoreSt) (n : Nat) : (k.issue n).chan = k.chan := rfl
@[simp] theorem CoreSt.issue_budget (k : CoreSt) (n : Nat) : (k.issue n).budget = k.budget := rfl
@[simp] theorem CoreSt.issue_chans (k : CoreSt) (n : Nat) : (k.issue n).chans = k.chans := rfl
@[simp] theorem CoreSt.issue_tpc (k : CoreSt) (n : Nat) : (k.issue n).tpc = k.tpc := rfl
@[simp] theorem CoreSt.issue_tcause (k : CoreSt) (n : Nat) : (k.issue n).tcause = k.tcause := rfl
@[simp] theorem CoreSt.issue_tval (k : CoreSt) (n : Nat) : (k.issue n).tval = k.tval := rfl
@[simp] theorem CoreSt.issue_tvalid (k : CoreSt) (n : Nat) : (k.issue n).tvalid = k.tvalid := rfl
@[simp] theorem CoreSt.issue_tchan (k : CoreSt) (n : Nat) : (k.issue n).tchan = k.tchan := rfl
@[simp] theorem CoreSt.issue_tctx (k : CoreSt) (n : Nat) : (k.issue n).tctx = k.tctx := rfl
@[simp] theorem CoreSt.issue_tm (k : CoreSt) (n : Nat) : (k.issue n).tm = k.tm := rfl
@[simp] theorem CoreSt.issue_tissued (k : CoreSt) (n : Nat) : (k.issue n).tissued = k.tissued := rfl
@[simp] theorem CoreSt.issue_ttask (k : CoreSt) (n : Nat) : (k.issue n).ttask = k.ttask := rfl
@[simp] theorem CoreSt.issue_tgroup (k : CoreSt) (n : Nat) : (k.issue n).tgroup = k.tgroup := rfl
@[simp] theorem CoreSt.issue_stallmax (k : CoreSt) (n : Nat) : (k.issue n).stallmax = k.stallmax := rfl
@[simp] theorem CoreSt.issue_parks (k : CoreSt) (n : Nat) : (k.issue n).parks = k.parks := rfl
@[simp] theorem CoreSt.issue_ops (k : CoreSt) (n : Nat) : (k.issue n).ops = k.ops := rfl
@[simp] theorem CoreSt.issue_nextOp (k : CoreSt) (n : Nat) : (k.issue n).nextOp = k.nextOp := rfl
@[simp] theorem CoreSt.issue_arrival (k : CoreSt) (n : Nat) : (k.issue n).arrival = k.arrival := rfl
@[simp] theorem CoreSt.issue_task (k : CoreSt) (n : Nat) : (k.issue n).task = k.task := rfl
@[simp] theorem CoreSt.issue_group (k : CoreSt) (n : Nat) : (k.issue n).group = k.group := rfl
@[simp] theorem CoreSt.issue_fltErr (k : CoreSt) (n : Nat) : (k.issue n).fltErr = k.fltErr := rfl
@[simp] theorem CoreSt.issue_fltDrop (k : CoreSt) (n : Nat) : (k.issue n).fltDrop = k.fltDrop := rfl
@[simp] theorem CoreSt.issue_eccThr (k : CoreSt) (n : Nat) : (k.issue n).eccThr = k.eccThr := rfl
@[simp] theorem CoreSt.issue_eccUnc (k : CoreSt) (n : Nat) : (k.issue n).eccUnc = k.eccUnc := rfl
@[simp] theorem CoreSt.issue_eccCorr (k : CoreSt) (n : Nat) : (k.issue n).eccCorr = k.eccCorr := rfl
@[simp] theorem CoreSt.issue_next (k : CoreSt) (n : Nat) : (k.issue n).next = k.next := rfl
@[simp] theorem CoreSt.issue_nextHeld (k : CoreSt) (n : Nat) : (k.issue n).nextHeld = k.nextHeld := rfl
@[simp] theorem CoreSt.issue_later (k : CoreSt) (n : Nat) : (k.issue n).later = k.later := rfl

/-! ## CoreSt.issueTo -/

@[simp] theorem CoreSt.issueTo_s (k : CoreSt) (t : Word) : (k.issueTo t).s = k.s := rfl
@[simp] theorem CoreSt.issueTo_f (k : CoreSt) (t : Word) : (k.issueTo t).f = k.f := rfl
@[simp] theorem CoreSt.issueTo_m (k : CoreSt) (t : Word) : (k.issueTo t).m = k.m := rfl
@[simp] theorem CoreSt.issueTo_fflags (k : CoreSt) (t : Word) : (k.issueTo t).fflags = k.fflags := rfl
@[simp] theorem CoreSt.issueTo_cseq (k : CoreSt) (t : Word) : (k.issueTo t).cseq = k.cseq := rfl
@[simp] theorem CoreSt.issueTo_eseq (k : CoreSt) (t : Word) : (k.issueTo t).eseq = k.eseq := rfl
@[simp] theorem CoreSt.issueTo_ocnt (k : CoreSt) (t : Word) : (k.issueTo t).ocnt = k.ocnt := rfl
@[simp] theorem CoreSt.issueTo_board (k : CoreSt) (t : Word) : (k.issueTo t).board = k.board := rfl
@[simp] theorem CoreSt.issueTo_pendS (k : CoreSt) (t : Word) : (k.issueTo t).pendS = k.pendS := rfl
@[simp] theorem CoreSt.issueTo_pendF (k : CoreSt) (t : Word) : (k.issueTo t).pendF = k.pendF := rfl
@[simp] theorem CoreSt.issueTo_ctx (k : CoreSt) (t : Word) : (k.issueTo t).ctx = k.ctx := rfl
@[simp] theorem CoreSt.issueTo_priv (k : CoreSt) (t : Word) : (k.issueTo t).priv = k.priv := rfl
@[simp] theorem CoreSt.issueTo_running (k : CoreSt) (t : Word) : (k.issueTo t).running = k.running := rfl
@[simp] theorem CoreSt.issueTo_halted (k : CoreSt) (t : Word) : (k.issueTo t).halted = k.halted := rfl
@[simp] theorem CoreSt.issueTo_dead (k : CoreSt) (t : Word) : (k.issueTo t).dead = k.dead := rfl
@[simp] theorem CoreSt.issueTo_chan (k : CoreSt) (t : Word) : (k.issueTo t).chan = k.chan := rfl
@[simp] theorem CoreSt.issueTo_budget (k : CoreSt) (t : Word) : (k.issueTo t).budget = k.budget := rfl
@[simp] theorem CoreSt.issueTo_chans (k : CoreSt) (t : Word) : (k.issueTo t).chans = k.chans := rfl
@[simp] theorem CoreSt.issueTo_tpc (k : CoreSt) (t : Word) : (k.issueTo t).tpc = k.tpc := rfl
@[simp] theorem CoreSt.issueTo_tcause (k : CoreSt) (t : Word) : (k.issueTo t).tcause = k.tcause := rfl
@[simp] theorem CoreSt.issueTo_tval (k : CoreSt) (t : Word) : (k.issueTo t).tval = k.tval := rfl
@[simp] theorem CoreSt.issueTo_tvalid (k : CoreSt) (t : Word) : (k.issueTo t).tvalid = k.tvalid := rfl
@[simp] theorem CoreSt.issueTo_tchan (k : CoreSt) (t : Word) : (k.issueTo t).tchan = k.tchan := rfl
@[simp] theorem CoreSt.issueTo_tctx (k : CoreSt) (t : Word) : (k.issueTo t).tctx = k.tctx := rfl
@[simp] theorem CoreSt.issueTo_tm (k : CoreSt) (t : Word) : (k.issueTo t).tm = k.tm := rfl
@[simp] theorem CoreSt.issueTo_tissued (k : CoreSt) (t : Word) : (k.issueTo t).tissued = k.tissued := rfl
@[simp] theorem CoreSt.issueTo_ttask (k : CoreSt) (t : Word) : (k.issueTo t).ttask = k.ttask := rfl
@[simp] theorem CoreSt.issueTo_tgroup (k : CoreSt) (t : Word) : (k.issueTo t).tgroup = k.tgroup := rfl
@[simp] theorem CoreSt.issueTo_stallmax (k : CoreSt) (t : Word) : (k.issueTo t).stallmax = k.stallmax := rfl
@[simp] theorem CoreSt.issueTo_parks (k : CoreSt) (t : Word) : (k.issueTo t).parks = k.parks := rfl
@[simp] theorem CoreSt.issueTo_ops (k : CoreSt) (t : Word) : (k.issueTo t).ops = k.ops := rfl
@[simp] theorem CoreSt.issueTo_nextOp (k : CoreSt) (t : Word) : (k.issueTo t).nextOp = k.nextOp := rfl
@[simp] theorem CoreSt.issueTo_arrival (k : CoreSt) (t : Word) : (k.issueTo t).arrival = k.arrival := rfl
@[simp] theorem CoreSt.issueTo_task (k : CoreSt) (t : Word) : (k.issueTo t).task = k.task := rfl
@[simp] theorem CoreSt.issueTo_group (k : CoreSt) (t : Word) : (k.issueTo t).group = k.group := rfl
@[simp] theorem CoreSt.issueTo_fltErr (k : CoreSt) (t : Word) : (k.issueTo t).fltErr = k.fltErr := rfl
@[simp] theorem CoreSt.issueTo_fltDrop (k : CoreSt) (t : Word) : (k.issueTo t).fltDrop = k.fltDrop := rfl
@[simp] theorem CoreSt.issueTo_eccThr (k : CoreSt) (t : Word) : (k.issueTo t).eccThr = k.eccThr := rfl
@[simp] theorem CoreSt.issueTo_eccUnc (k : CoreSt) (t : Word) : (k.issueTo t).eccUnc = k.eccUnc := rfl
@[simp] theorem CoreSt.issueTo_eccCorr (k : CoreSt) (t : Word) : (k.issueTo t).eccCorr = k.eccCorr := rfl
@[simp] theorem CoreSt.issueTo_next (k : CoreSt) (t : Word) : (k.issueTo t).next = k.next := rfl
@[simp] theorem CoreSt.issueTo_nextHeld (k : CoreSt) (t : Word) : (k.issueTo t).nextHeld = k.nextHeld := rfl
@[simp] theorem CoreSt.issueTo_later (k : CoreSt) (t : Word) : (k.issueTo t).later = k.later := rfl

/-! ## CoreSt.endHandler -/

@[simp] theorem CoreSt.endHandler_s (k : CoreSt) : (k.endHandler).s = k.s := rfl
@[simp] theorem CoreSt.endHandler_f (k : CoreSt) : (k.endHandler).f = k.f := rfl
@[simp] theorem CoreSt.endHandler_m (k : CoreSt) : (k.endHandler).m = k.m := rfl
@[simp] theorem CoreSt.endHandler_pc (k : CoreSt) : (k.endHandler).pc = k.pc := rfl
@[simp] theorem CoreSt.endHandler_fflags (k : CoreSt) : (k.endHandler).fflags = k.fflags := rfl
@[simp] theorem CoreSt.endHandler_cseq (k : CoreSt) : (k.endHandler).cseq = k.cseq := rfl
@[simp] theorem CoreSt.endHandler_eseq (k : CoreSt) : (k.endHandler).eseq = k.eseq := rfl
@[simp] theorem CoreSt.endHandler_ocnt (k : CoreSt) : (k.endHandler).ocnt = k.ocnt := rfl
@[simp] theorem CoreSt.endHandler_board (k : CoreSt) : (k.endHandler).board = k.board := rfl
@[simp] theorem CoreSt.endHandler_pendS (k : CoreSt) : (k.endHandler).pendS = k.pendS := rfl
@[simp] theorem CoreSt.endHandler_pendF (k : CoreSt) : (k.endHandler).pendF = k.pendF := rfl
@[simp] theorem CoreSt.endHandler_ctx (k : CoreSt) : (k.endHandler).ctx = k.ctx := rfl
@[simp] theorem CoreSt.endHandler_priv (k : CoreSt) : (k.endHandler).priv = k.priv := rfl
@[simp] theorem CoreSt.endHandler_halted (k : CoreSt) : (k.endHandler).halted = k.halted := rfl
@[simp] theorem CoreSt.endHandler_dead (k : CoreSt) : (k.endHandler).dead = k.dead := rfl
@[simp] theorem CoreSt.endHandler_chan (k : CoreSt) : (k.endHandler).chan = k.chan := rfl
@[simp] theorem CoreSt.endHandler_issued (k : CoreSt) : (k.endHandler).issued = k.issued := rfl
@[simp] theorem CoreSt.endHandler_budget (k : CoreSt) : (k.endHandler).budget = k.budget := rfl
@[simp] theorem CoreSt.endHandler_chans (k : CoreSt) : (k.endHandler).chans = k.chans := rfl
@[simp] theorem CoreSt.endHandler_tpc (k : CoreSt) : (k.endHandler).tpc = k.tpc := rfl
@[simp] theorem CoreSt.endHandler_tcause (k : CoreSt) : (k.endHandler).tcause = k.tcause := rfl
@[simp] theorem CoreSt.endHandler_tval (k : CoreSt) : (k.endHandler).tval = k.tval := rfl
@[simp] theorem CoreSt.endHandler_tvalid (k : CoreSt) : (k.endHandler).tvalid = k.tvalid := rfl
@[simp] theorem CoreSt.endHandler_tchan (k : CoreSt) : (k.endHandler).tchan = k.tchan := rfl
@[simp] theorem CoreSt.endHandler_tctx (k : CoreSt) : (k.endHandler).tctx = k.tctx := rfl
@[simp] theorem CoreSt.endHandler_tm (k : CoreSt) : (k.endHandler).tm = k.tm := rfl
@[simp] theorem CoreSt.endHandler_tissued (k : CoreSt) : (k.endHandler).tissued = k.tissued := rfl
@[simp] theorem CoreSt.endHandler_ttask (k : CoreSt) : (k.endHandler).ttask = k.ttask := rfl
@[simp] theorem CoreSt.endHandler_tgroup (k : CoreSt) : (k.endHandler).tgroup = k.tgroup := rfl
@[simp] theorem CoreSt.endHandler_stallmax (k : CoreSt) : (k.endHandler).stallmax = k.stallmax := rfl
@[simp] theorem CoreSt.endHandler_parks (k : CoreSt) : (k.endHandler).parks = k.parks := rfl
@[simp] theorem CoreSt.endHandler_ops (k : CoreSt) : (k.endHandler).ops = k.ops := rfl
@[simp] theorem CoreSt.endHandler_nextOp (k : CoreSt) : (k.endHandler).nextOp = k.nextOp := rfl
@[simp] theorem CoreSt.endHandler_arrival (k : CoreSt) : (k.endHandler).arrival = k.arrival := rfl
@[simp] theorem CoreSt.endHandler_fltErr (k : CoreSt) : (k.endHandler).fltErr = k.fltErr := rfl
@[simp] theorem CoreSt.endHandler_fltDrop (k : CoreSt) : (k.endHandler).fltDrop = k.fltDrop := rfl
@[simp] theorem CoreSt.endHandler_eccThr (k : CoreSt) : (k.endHandler).eccThr = k.eccThr := rfl
@[simp] theorem CoreSt.endHandler_eccUnc (k : CoreSt) : (k.endHandler).eccUnc = k.eccUnc := rfl
@[simp] theorem CoreSt.endHandler_eccCorr (k : CoreSt) : (k.endHandler).eccCorr = k.eccCorr := rfl
@[simp] theorem CoreSt.endHandler_next (k : CoreSt) : (k.endHandler).next = k.next := rfl
@[simp] theorem CoreSt.endHandler_nextHeld (k : CoreSt) : (k.endHandler).nextHeld = k.nextHeld := rfl
@[simp] theorem CoreSt.endHandler_later (k : CoreSt) : (k.endHandler).later = k.later := rfl

/-! ## CoreSt.outUp -/

@[simp] theorem CoreSt.outUp_s (k : CoreSt) (c : Nat) : (k.outUp c).s = k.s := rfl
@[simp] theorem CoreSt.outUp_f (k : CoreSt) (c : Nat) : (k.outUp c).f = k.f := rfl
@[simp] theorem CoreSt.outUp_m (k : CoreSt) (c : Nat) : (k.outUp c).m = k.m := rfl
@[simp] theorem CoreSt.outUp_pc (k : CoreSt) (c : Nat) : (k.outUp c).pc = k.pc := rfl
@[simp] theorem CoreSt.outUp_fflags (k : CoreSt) (c : Nat) : (k.outUp c).fflags = k.fflags := rfl
@[simp] theorem CoreSt.outUp_cseq (k : CoreSt) (c : Nat) : (k.outUp c).cseq = k.cseq := rfl
@[simp] theorem CoreSt.outUp_eseq (k : CoreSt) (c : Nat) : (k.outUp c).eseq = k.eseq := rfl
@[simp] theorem CoreSt.outUp_board (k : CoreSt) (c : Nat) : (k.outUp c).board = k.board := rfl
@[simp] theorem CoreSt.outUp_pendS (k : CoreSt) (c : Nat) : (k.outUp c).pendS = k.pendS := rfl
@[simp] theorem CoreSt.outUp_pendF (k : CoreSt) (c : Nat) : (k.outUp c).pendF = k.pendF := rfl
@[simp] theorem CoreSt.outUp_ctx (k : CoreSt) (c : Nat) : (k.outUp c).ctx = k.ctx := rfl
@[simp] theorem CoreSt.outUp_priv (k : CoreSt) (c : Nat) : (k.outUp c).priv = k.priv := rfl
@[simp] theorem CoreSt.outUp_running (k : CoreSt) (c : Nat) : (k.outUp c).running = k.running := rfl
@[simp] theorem CoreSt.outUp_halted (k : CoreSt) (c : Nat) : (k.outUp c).halted = k.halted := rfl
@[simp] theorem CoreSt.outUp_dead (k : CoreSt) (c : Nat) : (k.outUp c).dead = k.dead := rfl
@[simp] theorem CoreSt.outUp_chan (k : CoreSt) (c : Nat) : (k.outUp c).chan = k.chan := rfl
@[simp] theorem CoreSt.outUp_issued (k : CoreSt) (c : Nat) : (k.outUp c).issued = k.issued := rfl
@[simp] theorem CoreSt.outUp_budget (k : CoreSt) (c : Nat) : (k.outUp c).budget = k.budget := rfl
@[simp] theorem CoreSt.outUp_stall (k : CoreSt) (c : Nat) : (k.outUp c).stall = k.stall := rfl
@[simp] theorem CoreSt.outUp_req (k : CoreSt) (c : Nat) : (k.outUp c).req = k.req := rfl
@[simp] theorem CoreSt.outUp_chans (k : CoreSt) (c : Nat) : (k.outUp c).chans = k.chans := rfl
@[simp] theorem CoreSt.outUp_tpc (k : CoreSt) (c : Nat) : (k.outUp c).tpc = k.tpc := rfl
@[simp] theorem CoreSt.outUp_tcause (k : CoreSt) (c : Nat) : (k.outUp c).tcause = k.tcause := rfl
@[simp] theorem CoreSt.outUp_tval (k : CoreSt) (c : Nat) : (k.outUp c).tval = k.tval := rfl
@[simp] theorem CoreSt.outUp_tvalid (k : CoreSt) (c : Nat) : (k.outUp c).tvalid = k.tvalid := rfl
@[simp] theorem CoreSt.outUp_tchan (k : CoreSt) (c : Nat) : (k.outUp c).tchan = k.tchan := rfl
@[simp] theorem CoreSt.outUp_tctx (k : CoreSt) (c : Nat) : (k.outUp c).tctx = k.tctx := rfl
@[simp] theorem CoreSt.outUp_tm (k : CoreSt) (c : Nat) : (k.outUp c).tm = k.tm := rfl
@[simp] theorem CoreSt.outUp_tissued (k : CoreSt) (c : Nat) : (k.outUp c).tissued = k.tissued := rfl
@[simp] theorem CoreSt.outUp_ttask (k : CoreSt) (c : Nat) : (k.outUp c).ttask = k.ttask := rfl
@[simp] theorem CoreSt.outUp_tgroup (k : CoreSt) (c : Nat) : (k.outUp c).tgroup = k.tgroup := rfl
@[simp] theorem CoreSt.outUp_stallmax (k : CoreSt) (c : Nat) : (k.outUp c).stallmax = k.stallmax := rfl
@[simp] theorem CoreSt.outUp_parks (k : CoreSt) (c : Nat) : (k.outUp c).parks = k.parks := rfl
@[simp] theorem CoreSt.outUp_ops (k : CoreSt) (c : Nat) : (k.outUp c).ops = k.ops := rfl
@[simp] theorem CoreSt.outUp_nextOp (k : CoreSt) (c : Nat) : (k.outUp c).nextOp = k.nextOp := rfl
@[simp] theorem CoreSt.outUp_arrival (k : CoreSt) (c : Nat) : (k.outUp c).arrival = k.arrival := rfl
@[simp] theorem CoreSt.outUp_task (k : CoreSt) (c : Nat) : (k.outUp c).task = k.task := rfl
@[simp] theorem CoreSt.outUp_group (k : CoreSt) (c : Nat) : (k.outUp c).group = k.group := rfl
@[simp] theorem CoreSt.outUp_fltErr (k : CoreSt) (c : Nat) : (k.outUp c).fltErr = k.fltErr := rfl
@[simp] theorem CoreSt.outUp_fltDrop (k : CoreSt) (c : Nat) : (k.outUp c).fltDrop = k.fltDrop := rfl
@[simp] theorem CoreSt.outUp_eccThr (k : CoreSt) (c : Nat) : (k.outUp c).eccThr = k.eccThr := rfl
@[simp] theorem CoreSt.outUp_eccUnc (k : CoreSt) (c : Nat) : (k.outUp c).eccUnc = k.eccUnc := rfl
@[simp] theorem CoreSt.outUp_eccCorr (k : CoreSt) (c : Nat) : (k.outUp c).eccCorr = k.eccCorr := rfl
@[simp] theorem CoreSt.outUp_next (k : CoreSt) (c : Nat) : (k.outUp c).next = k.next := rfl
@[simp] theorem CoreSt.outUp_nextHeld (k : CoreSt) (c : Nat) : (k.outUp c).nextHeld = k.nextHeld := rfl
@[simp] theorem CoreSt.outUp_later (k : CoreSt) (c : Nat) : (k.outUp c).later = k.later := rfl

/-! ## CoreSt.outDown -/

@[simp] theorem CoreSt.outDown_s (k : CoreSt) (c : Nat) : (k.outDown c).s = k.s := rfl
@[simp] theorem CoreSt.outDown_f (k : CoreSt) (c : Nat) : (k.outDown c).f = k.f := rfl
@[simp] theorem CoreSt.outDown_m (k : CoreSt) (c : Nat) : (k.outDown c).m = k.m := rfl
@[simp] theorem CoreSt.outDown_pc (k : CoreSt) (c : Nat) : (k.outDown c).pc = k.pc := rfl
@[simp] theorem CoreSt.outDown_fflags (k : CoreSt) (c : Nat) : (k.outDown c).fflags = k.fflags := rfl
@[simp] theorem CoreSt.outDown_cseq (k : CoreSt) (c : Nat) : (k.outDown c).cseq = k.cseq := rfl
@[simp] theorem CoreSt.outDown_eseq (k : CoreSt) (c : Nat) : (k.outDown c).eseq = k.eseq := rfl
@[simp] theorem CoreSt.outDown_board (k : CoreSt) (c : Nat) : (k.outDown c).board = k.board := rfl
@[simp] theorem CoreSt.outDown_pendS (k : CoreSt) (c : Nat) : (k.outDown c).pendS = k.pendS := rfl
@[simp] theorem CoreSt.outDown_pendF (k : CoreSt) (c : Nat) : (k.outDown c).pendF = k.pendF := rfl
@[simp] theorem CoreSt.outDown_ctx (k : CoreSt) (c : Nat) : (k.outDown c).ctx = k.ctx := rfl
@[simp] theorem CoreSt.outDown_priv (k : CoreSt) (c : Nat) : (k.outDown c).priv = k.priv := rfl
@[simp] theorem CoreSt.outDown_running (k : CoreSt) (c : Nat) : (k.outDown c).running = k.running := rfl
@[simp] theorem CoreSt.outDown_halted (k : CoreSt) (c : Nat) : (k.outDown c).halted = k.halted := rfl
@[simp] theorem CoreSt.outDown_dead (k : CoreSt) (c : Nat) : (k.outDown c).dead = k.dead := rfl
@[simp] theorem CoreSt.outDown_chan (k : CoreSt) (c : Nat) : (k.outDown c).chan = k.chan := rfl
@[simp] theorem CoreSt.outDown_issued (k : CoreSt) (c : Nat) : (k.outDown c).issued = k.issued := rfl
@[simp] theorem CoreSt.outDown_budget (k : CoreSt) (c : Nat) : (k.outDown c).budget = k.budget := rfl
@[simp] theorem CoreSt.outDown_stall (k : CoreSt) (c : Nat) : (k.outDown c).stall = k.stall := rfl
@[simp] theorem CoreSt.outDown_req (k : CoreSt) (c : Nat) : (k.outDown c).req = k.req := rfl
@[simp] theorem CoreSt.outDown_chans (k : CoreSt) (c : Nat) : (k.outDown c).chans = k.chans := rfl
@[simp] theorem CoreSt.outDown_tpc (k : CoreSt) (c : Nat) : (k.outDown c).tpc = k.tpc := rfl
@[simp] theorem CoreSt.outDown_tcause (k : CoreSt) (c : Nat) : (k.outDown c).tcause = k.tcause := rfl
@[simp] theorem CoreSt.outDown_tval (k : CoreSt) (c : Nat) : (k.outDown c).tval = k.tval := rfl
@[simp] theorem CoreSt.outDown_tvalid (k : CoreSt) (c : Nat) : (k.outDown c).tvalid = k.tvalid := rfl
@[simp] theorem CoreSt.outDown_tchan (k : CoreSt) (c : Nat) : (k.outDown c).tchan = k.tchan := rfl
@[simp] theorem CoreSt.outDown_tctx (k : CoreSt) (c : Nat) : (k.outDown c).tctx = k.tctx := rfl
@[simp] theorem CoreSt.outDown_tm (k : CoreSt) (c : Nat) : (k.outDown c).tm = k.tm := rfl
@[simp] theorem CoreSt.outDown_tissued (k : CoreSt) (c : Nat) : (k.outDown c).tissued = k.tissued := rfl
@[simp] theorem CoreSt.outDown_ttask (k : CoreSt) (c : Nat) : (k.outDown c).ttask = k.ttask := rfl
@[simp] theorem CoreSt.outDown_tgroup (k : CoreSt) (c : Nat) : (k.outDown c).tgroup = k.tgroup := rfl
@[simp] theorem CoreSt.outDown_stallmax (k : CoreSt) (c : Nat) : (k.outDown c).stallmax = k.stallmax := rfl
@[simp] theorem CoreSt.outDown_parks (k : CoreSt) (c : Nat) : (k.outDown c).parks = k.parks := rfl
@[simp] theorem CoreSt.outDown_ops (k : CoreSt) (c : Nat) : (k.outDown c).ops = k.ops := rfl
@[simp] theorem CoreSt.outDown_nextOp (k : CoreSt) (c : Nat) : (k.outDown c).nextOp = k.nextOp := rfl
@[simp] theorem CoreSt.outDown_arrival (k : CoreSt) (c : Nat) : (k.outDown c).arrival = k.arrival := rfl
@[simp] theorem CoreSt.outDown_task (k : CoreSt) (c : Nat) : (k.outDown c).task = k.task := rfl
@[simp] theorem CoreSt.outDown_group (k : CoreSt) (c : Nat) : (k.outDown c).group = k.group := rfl
@[simp] theorem CoreSt.outDown_fltErr (k : CoreSt) (c : Nat) : (k.outDown c).fltErr = k.fltErr := rfl
@[simp] theorem CoreSt.outDown_fltDrop (k : CoreSt) (c : Nat) : (k.outDown c).fltDrop = k.fltDrop := rfl
@[simp] theorem CoreSt.outDown_eccThr (k : CoreSt) (c : Nat) : (k.outDown c).eccThr = k.eccThr := rfl
@[simp] theorem CoreSt.outDown_eccUnc (k : CoreSt) (c : Nat) : (k.outDown c).eccUnc = k.eccUnc := rfl
@[simp] theorem CoreSt.outDown_eccCorr (k : CoreSt) (c : Nat) : (k.outDown c).eccCorr = k.eccCorr := rfl
@[simp] theorem CoreSt.outDown_next (k : CoreSt) (c : Nat) : (k.outDown c).next = k.next := rfl
@[simp] theorem CoreSt.outDown_nextHeld (k : CoreSt) (c : Nat) : (k.outDown c).nextHeld = k.nextHeld := rfl
@[simp] theorem CoreSt.outDown_later (k : CoreSt) (c : Nat) : (k.outDown c).later = k.later := rfl

/-! ## CoreSt.setChannel -/

@[simp] theorem CoreSt.setChannel_s (k : CoreSt) (n : Nat) (h : Chan) : (k.setChannel n h).s = k.s := rfl
@[simp] theorem CoreSt.setChannel_f (k : CoreSt) (n : Nat) (h : Chan) : (k.setChannel n h).f = k.f := rfl
@[simp] theorem CoreSt.setChannel_m (k : CoreSt) (n : Nat) (h : Chan) : (k.setChannel n h).m = k.m := rfl
@[simp] theorem CoreSt.setChannel_pc (k : CoreSt) (n : Nat) (h : Chan) : (k.setChannel n h).pc = k.pc := rfl
@[simp] theorem CoreSt.setChannel_fflags (k : CoreSt) (n : Nat) (h : Chan) : (k.setChannel n h).fflags = k.fflags := rfl
@[simp] theorem CoreSt.setChannel_cseq (k : CoreSt) (n : Nat) (h : Chan) : (k.setChannel n h).cseq = k.cseq := rfl
@[simp] theorem CoreSt.setChannel_eseq (k : CoreSt) (n : Nat) (h : Chan) : (k.setChannel n h).eseq = k.eseq := rfl
@[simp] theorem CoreSt.setChannel_ocnt (k : CoreSt) (n : Nat) (h : Chan) : (k.setChannel n h).ocnt = k.ocnt := rfl
@[simp] theorem CoreSt.setChannel_board (k : CoreSt) (n : Nat) (h : Chan) : (k.setChannel n h).board = k.board := rfl
@[simp] theorem CoreSt.setChannel_pendS (k : CoreSt) (n : Nat) (h : Chan) : (k.setChannel n h).pendS = k.pendS := rfl
@[simp] theorem CoreSt.setChannel_pendF (k : CoreSt) (n : Nat) (h : Chan) : (k.setChannel n h).pendF = k.pendF := rfl
@[simp] theorem CoreSt.setChannel_ctx (k : CoreSt) (n : Nat) (h : Chan) : (k.setChannel n h).ctx = k.ctx := rfl
@[simp] theorem CoreSt.setChannel_priv (k : CoreSt) (n : Nat) (h : Chan) : (k.setChannel n h).priv = k.priv := rfl
@[simp] theorem CoreSt.setChannel_running (k : CoreSt) (n : Nat) (h : Chan) : (k.setChannel n h).running = k.running := rfl
@[simp] theorem CoreSt.setChannel_halted (k : CoreSt) (n : Nat) (h : Chan) : (k.setChannel n h).halted = k.halted := rfl
@[simp] theorem CoreSt.setChannel_dead (k : CoreSt) (n : Nat) (h : Chan) : (k.setChannel n h).dead = k.dead := rfl
@[simp] theorem CoreSt.setChannel_chan (k : CoreSt) (n : Nat) (h : Chan) : (k.setChannel n h).chan = k.chan := rfl
@[simp] theorem CoreSt.setChannel_issued (k : CoreSt) (n : Nat) (h : Chan) : (k.setChannel n h).issued = k.issued := rfl
@[simp] theorem CoreSt.setChannel_budget (k : CoreSt) (n : Nat) (h : Chan) : (k.setChannel n h).budget = k.budget := rfl
@[simp] theorem CoreSt.setChannel_stall (k : CoreSt) (n : Nat) (h : Chan) : (k.setChannel n h).stall = k.stall := rfl
@[simp] theorem CoreSt.setChannel_req (k : CoreSt) (n : Nat) (h : Chan) : (k.setChannel n h).req = k.req := rfl
@[simp] theorem CoreSt.setChannel_tpc (k : CoreSt) (n : Nat) (h : Chan) : (k.setChannel n h).tpc = k.tpc := rfl
@[simp] theorem CoreSt.setChannel_tcause (k : CoreSt) (n : Nat) (h : Chan) : (k.setChannel n h).tcause = k.tcause := rfl
@[simp] theorem CoreSt.setChannel_tval (k : CoreSt) (n : Nat) (h : Chan) : (k.setChannel n h).tval = k.tval := rfl
@[simp] theorem CoreSt.setChannel_tvalid (k : CoreSt) (n : Nat) (h : Chan) : (k.setChannel n h).tvalid = k.tvalid := rfl
@[simp] theorem CoreSt.setChannel_tchan (k : CoreSt) (n : Nat) (h : Chan) : (k.setChannel n h).tchan = k.tchan := rfl
@[simp] theorem CoreSt.setChannel_tctx (k : CoreSt) (n : Nat) (h : Chan) : (k.setChannel n h).tctx = k.tctx := rfl
@[simp] theorem CoreSt.setChannel_tm (k : CoreSt) (n : Nat) (h : Chan) : (k.setChannel n h).tm = k.tm := rfl
@[simp] theorem CoreSt.setChannel_tissued (k : CoreSt) (n : Nat) (h : Chan) : (k.setChannel n h).tissued = k.tissued := rfl
@[simp] theorem CoreSt.setChannel_ttask (k : CoreSt) (n : Nat) (h : Chan) : (k.setChannel n h).ttask = k.ttask := rfl
@[simp] theorem CoreSt.setChannel_tgroup (k : CoreSt) (n : Nat) (h : Chan) : (k.setChannel n h).tgroup = k.tgroup := rfl
@[simp] theorem CoreSt.setChannel_stallmax (k : CoreSt) (n : Nat) (h : Chan) : (k.setChannel n h).stallmax = k.stallmax := rfl
@[simp] theorem CoreSt.setChannel_parks (k : CoreSt) (n : Nat) (h : Chan) : (k.setChannel n h).parks = k.parks := rfl
@[simp] theorem CoreSt.setChannel_ops (k : CoreSt) (n : Nat) (h : Chan) : (k.setChannel n h).ops = k.ops := rfl
@[simp] theorem CoreSt.setChannel_nextOp (k : CoreSt) (n : Nat) (h : Chan) : (k.setChannel n h).nextOp = k.nextOp := rfl
@[simp] theorem CoreSt.setChannel_arrival (k : CoreSt) (n : Nat) (h : Chan) : (k.setChannel n h).arrival = k.arrival := rfl
@[simp] theorem CoreSt.setChannel_task (k : CoreSt) (n : Nat) (h : Chan) : (k.setChannel n h).task = k.task := rfl
@[simp] theorem CoreSt.setChannel_group (k : CoreSt) (n : Nat) (h : Chan) : (k.setChannel n h).group = k.group := rfl
@[simp] theorem CoreSt.setChannel_fltErr (k : CoreSt) (n : Nat) (h : Chan) : (k.setChannel n h).fltErr = k.fltErr := rfl
@[simp] theorem CoreSt.setChannel_fltDrop (k : CoreSt) (n : Nat) (h : Chan) : (k.setChannel n h).fltDrop = k.fltDrop := rfl
@[simp] theorem CoreSt.setChannel_eccThr (k : CoreSt) (n : Nat) (h : Chan) : (k.setChannel n h).eccThr = k.eccThr := rfl
@[simp] theorem CoreSt.setChannel_eccUnc (k : CoreSt) (n : Nat) (h : Chan) : (k.setChannel n h).eccUnc = k.eccUnc := rfl
@[simp] theorem CoreSt.setChannel_eccCorr (k : CoreSt) (n : Nat) (h : Chan) : (k.setChannel n h).eccCorr = k.eccCorr := rfl
@[simp] theorem CoreSt.setChannel_next (k : CoreSt) (n : Nat) (h : Chan) : (k.setChannel n h).next = k.next := rfl
@[simp] theorem CoreSt.setChannel_nextHeld (k : CoreSt) (n : Nat) (h : Chan) : (k.setChannel n h).nextHeld = k.nextHeld := rfl
@[simp] theorem CoreSt.setChannel_later (k : CoreSt) (n : Nat) (h : Chan) : (k.setChannel n h).later = k.later := rfl

/-! ## CoreSt.raise -/

@[simp] theorem CoreSt.raise_s (k : CoreSt) (f : Flags) : (k.raise f).s = k.s := rfl
@[simp] theorem CoreSt.raise_f (k : CoreSt) (f : Flags) : (k.raise f).f = k.f := rfl
@[simp] theorem CoreSt.raise_m (k : CoreSt) (f : Flags) : (k.raise f).m = k.m := rfl
@[simp] theorem CoreSt.raise_pc (k : CoreSt) (f : Flags) : (k.raise f).pc = k.pc := rfl
@[simp] theorem CoreSt.raise_cseq (k : CoreSt) (f : Flags) : (k.raise f).cseq = k.cseq := rfl
@[simp] theorem CoreSt.raise_eseq (k : CoreSt) (f : Flags) : (k.raise f).eseq = k.eseq := rfl
@[simp] theorem CoreSt.raise_ocnt (k : CoreSt) (f : Flags) : (k.raise f).ocnt = k.ocnt := rfl
@[simp] theorem CoreSt.raise_board (k : CoreSt) (f : Flags) : (k.raise f).board = k.board := rfl
@[simp] theorem CoreSt.raise_pendS (k : CoreSt) (f : Flags) : (k.raise f).pendS = k.pendS := rfl
@[simp] theorem CoreSt.raise_pendF (k : CoreSt) (f : Flags) : (k.raise f).pendF = k.pendF := rfl
@[simp] theorem CoreSt.raise_ctx (k : CoreSt) (f : Flags) : (k.raise f).ctx = k.ctx := rfl
@[simp] theorem CoreSt.raise_priv (k : CoreSt) (f : Flags) : (k.raise f).priv = k.priv := rfl
@[simp] theorem CoreSt.raise_running (k : CoreSt) (f : Flags) : (k.raise f).running = k.running := rfl
@[simp] theorem CoreSt.raise_halted (k : CoreSt) (f : Flags) : (k.raise f).halted = k.halted := rfl
@[simp] theorem CoreSt.raise_dead (k : CoreSt) (f : Flags) : (k.raise f).dead = k.dead := rfl
@[simp] theorem CoreSt.raise_chan (k : CoreSt) (f : Flags) : (k.raise f).chan = k.chan := rfl
@[simp] theorem CoreSt.raise_issued (k : CoreSt) (f : Flags) : (k.raise f).issued = k.issued := rfl
@[simp] theorem CoreSt.raise_budget (k : CoreSt) (f : Flags) : (k.raise f).budget = k.budget := rfl
@[simp] theorem CoreSt.raise_stall (k : CoreSt) (f : Flags) : (k.raise f).stall = k.stall := rfl
@[simp] theorem CoreSt.raise_req (k : CoreSt) (f : Flags) : (k.raise f).req = k.req := rfl
@[simp] theorem CoreSt.raise_chans (k : CoreSt) (f : Flags) : (k.raise f).chans = k.chans := rfl
@[simp] theorem CoreSt.raise_tpc (k : CoreSt) (f : Flags) : (k.raise f).tpc = k.tpc := rfl
@[simp] theorem CoreSt.raise_tcause (k : CoreSt) (f : Flags) : (k.raise f).tcause = k.tcause := rfl
@[simp] theorem CoreSt.raise_tval (k : CoreSt) (f : Flags) : (k.raise f).tval = k.tval := rfl
@[simp] theorem CoreSt.raise_tvalid (k : CoreSt) (f : Flags) : (k.raise f).tvalid = k.tvalid := rfl
@[simp] theorem CoreSt.raise_tchan (k : CoreSt) (f : Flags) : (k.raise f).tchan = k.tchan := rfl
@[simp] theorem CoreSt.raise_tctx (k : CoreSt) (f : Flags) : (k.raise f).tctx = k.tctx := rfl
@[simp] theorem CoreSt.raise_tm (k : CoreSt) (f : Flags) : (k.raise f).tm = k.tm := rfl
@[simp] theorem CoreSt.raise_tissued (k : CoreSt) (f : Flags) : (k.raise f).tissued = k.tissued := rfl
@[simp] theorem CoreSt.raise_ttask (k : CoreSt) (f : Flags) : (k.raise f).ttask = k.ttask := rfl
@[simp] theorem CoreSt.raise_tgroup (k : CoreSt) (f : Flags) : (k.raise f).tgroup = k.tgroup := rfl
@[simp] theorem CoreSt.raise_stallmax (k : CoreSt) (f : Flags) : (k.raise f).stallmax = k.stallmax := rfl
@[simp] theorem CoreSt.raise_parks (k : CoreSt) (f : Flags) : (k.raise f).parks = k.parks := rfl
@[simp] theorem CoreSt.raise_ops (k : CoreSt) (f : Flags) : (k.raise f).ops = k.ops := rfl
@[simp] theorem CoreSt.raise_nextOp (k : CoreSt) (f : Flags) : (k.raise f).nextOp = k.nextOp := rfl
@[simp] theorem CoreSt.raise_arrival (k : CoreSt) (f : Flags) : (k.raise f).arrival = k.arrival := rfl
@[simp] theorem CoreSt.raise_task (k : CoreSt) (f : Flags) : (k.raise f).task = k.task := rfl
@[simp] theorem CoreSt.raise_group (k : CoreSt) (f : Flags) : (k.raise f).group = k.group := rfl
@[simp] theorem CoreSt.raise_fltErr (k : CoreSt) (f : Flags) : (k.raise f).fltErr = k.fltErr := rfl
@[simp] theorem CoreSt.raise_fltDrop (k : CoreSt) (f : Flags) : (k.raise f).fltDrop = k.fltDrop := rfl
@[simp] theorem CoreSt.raise_eccThr (k : CoreSt) (f : Flags) : (k.raise f).eccThr = k.eccThr := rfl
@[simp] theorem CoreSt.raise_eccUnc (k : CoreSt) (f : Flags) : (k.raise f).eccUnc = k.eccUnc := rfl
@[simp] theorem CoreSt.raise_eccCorr (k : CoreSt) (f : Flags) : (k.raise f).eccCorr = k.eccCorr := rfl
@[simp] theorem CoreSt.raise_next (k : CoreSt) (f : Flags) : (k.raise f).next = k.next := rfl
@[simp] theorem CoreSt.raise_nextHeld (k : CoreSt) (f : Flags) : (k.raise f).nextHeld = k.nextHeld := rfl
@[simp] theorem CoreSt.raise_later (k : CoreSt) (f : Flags) : (k.raise f).later = k.later := rfl

/-! ## CoreSt.wrFp -/

@[simp] theorem CoreSt.wrFp_s (k : CoreSt) (d : BitVec 5) (r : Nat × Flags) : (k.wrFp d r).s = k.s := rfl
@[simp] theorem CoreSt.wrFp_m (k : CoreSt) (d : BitVec 5) (r : Nat × Flags) : (k.wrFp d r).m = k.m := rfl
@[simp] theorem CoreSt.wrFp_pc (k : CoreSt) (d : BitVec 5) (r : Nat × Flags) : (k.wrFp d r).pc = k.pc := rfl
@[simp] theorem CoreSt.wrFp_cseq (k : CoreSt) (d : BitVec 5) (r : Nat × Flags) : (k.wrFp d r).cseq = k.cseq := rfl
@[simp] theorem CoreSt.wrFp_eseq (k : CoreSt) (d : BitVec 5) (r : Nat × Flags) : (k.wrFp d r).eseq = k.eseq := rfl
@[simp] theorem CoreSt.wrFp_ocnt (k : CoreSt) (d : BitVec 5) (r : Nat × Flags) : (k.wrFp d r).ocnt = k.ocnt := rfl
@[simp] theorem CoreSt.wrFp_board (k : CoreSt) (d : BitVec 5) (r : Nat × Flags) : (k.wrFp d r).board = k.board := rfl
@[simp] theorem CoreSt.wrFp_pendS (k : CoreSt) (d : BitVec 5) (r : Nat × Flags) : (k.wrFp d r).pendS = k.pendS := rfl
@[simp] theorem CoreSt.wrFp_pendF (k : CoreSt) (d : BitVec 5) (r : Nat × Flags) : (k.wrFp d r).pendF = k.pendF := rfl
@[simp] theorem CoreSt.wrFp_ctx (k : CoreSt) (d : BitVec 5) (r : Nat × Flags) : (k.wrFp d r).ctx = k.ctx := rfl
@[simp] theorem CoreSt.wrFp_priv (k : CoreSt) (d : BitVec 5) (r : Nat × Flags) : (k.wrFp d r).priv = k.priv := rfl
@[simp] theorem CoreSt.wrFp_running (k : CoreSt) (d : BitVec 5) (r : Nat × Flags) : (k.wrFp d r).running = k.running := rfl
@[simp] theorem CoreSt.wrFp_halted (k : CoreSt) (d : BitVec 5) (r : Nat × Flags) : (k.wrFp d r).halted = k.halted := rfl
@[simp] theorem CoreSt.wrFp_dead (k : CoreSt) (d : BitVec 5) (r : Nat × Flags) : (k.wrFp d r).dead = k.dead := rfl
@[simp] theorem CoreSt.wrFp_chan (k : CoreSt) (d : BitVec 5) (r : Nat × Flags) : (k.wrFp d r).chan = k.chan := rfl
@[simp] theorem CoreSt.wrFp_issued (k : CoreSt) (d : BitVec 5) (r : Nat × Flags) : (k.wrFp d r).issued = k.issued := rfl
@[simp] theorem CoreSt.wrFp_budget (k : CoreSt) (d : BitVec 5) (r : Nat × Flags) : (k.wrFp d r).budget = k.budget := rfl
@[simp] theorem CoreSt.wrFp_stall (k : CoreSt) (d : BitVec 5) (r : Nat × Flags) : (k.wrFp d r).stall = k.stall := rfl
@[simp] theorem CoreSt.wrFp_req (k : CoreSt) (d : BitVec 5) (r : Nat × Flags) : (k.wrFp d r).req = k.req := rfl
@[simp] theorem CoreSt.wrFp_chans (k : CoreSt) (d : BitVec 5) (r : Nat × Flags) : (k.wrFp d r).chans = k.chans := rfl
@[simp] theorem CoreSt.wrFp_tpc (k : CoreSt) (d : BitVec 5) (r : Nat × Flags) : (k.wrFp d r).tpc = k.tpc := rfl
@[simp] theorem CoreSt.wrFp_tcause (k : CoreSt) (d : BitVec 5) (r : Nat × Flags) : (k.wrFp d r).tcause = k.tcause := rfl
@[simp] theorem CoreSt.wrFp_tval (k : CoreSt) (d : BitVec 5) (r : Nat × Flags) : (k.wrFp d r).tval = k.tval := rfl
@[simp] theorem CoreSt.wrFp_tvalid (k : CoreSt) (d : BitVec 5) (r : Nat × Flags) : (k.wrFp d r).tvalid = k.tvalid := rfl
@[simp] theorem CoreSt.wrFp_tchan (k : CoreSt) (d : BitVec 5) (r : Nat × Flags) : (k.wrFp d r).tchan = k.tchan := rfl
@[simp] theorem CoreSt.wrFp_tctx (k : CoreSt) (d : BitVec 5) (r : Nat × Flags) : (k.wrFp d r).tctx = k.tctx := rfl
@[simp] theorem CoreSt.wrFp_tm (k : CoreSt) (d : BitVec 5) (r : Nat × Flags) : (k.wrFp d r).tm = k.tm := rfl
@[simp] theorem CoreSt.wrFp_tissued (k : CoreSt) (d : BitVec 5) (r : Nat × Flags) : (k.wrFp d r).tissued = k.tissued := rfl
@[simp] theorem CoreSt.wrFp_ttask (k : CoreSt) (d : BitVec 5) (r : Nat × Flags) : (k.wrFp d r).ttask = k.ttask := rfl
@[simp] theorem CoreSt.wrFp_tgroup (k : CoreSt) (d : BitVec 5) (r : Nat × Flags) : (k.wrFp d r).tgroup = k.tgroup := rfl
@[simp] theorem CoreSt.wrFp_stallmax (k : CoreSt) (d : BitVec 5) (r : Nat × Flags) : (k.wrFp d r).stallmax = k.stallmax := rfl
@[simp] theorem CoreSt.wrFp_parks (k : CoreSt) (d : BitVec 5) (r : Nat × Flags) : (k.wrFp d r).parks = k.parks := rfl
@[simp] theorem CoreSt.wrFp_ops (k : CoreSt) (d : BitVec 5) (r : Nat × Flags) : (k.wrFp d r).ops = k.ops := rfl
@[simp] theorem CoreSt.wrFp_nextOp (k : CoreSt) (d : BitVec 5) (r : Nat × Flags) : (k.wrFp d r).nextOp = k.nextOp := rfl
@[simp] theorem CoreSt.wrFp_arrival (k : CoreSt) (d : BitVec 5) (r : Nat × Flags) : (k.wrFp d r).arrival = k.arrival := rfl
@[simp] theorem CoreSt.wrFp_task (k : CoreSt) (d : BitVec 5) (r : Nat × Flags) : (k.wrFp d r).task = k.task := rfl
@[simp] theorem CoreSt.wrFp_group (k : CoreSt) (d : BitVec 5) (r : Nat × Flags) : (k.wrFp d r).group = k.group := rfl
@[simp] theorem CoreSt.wrFp_fltErr (k : CoreSt) (d : BitVec 5) (r : Nat × Flags) : (k.wrFp d r).fltErr = k.fltErr := rfl
@[simp] theorem CoreSt.wrFp_fltDrop (k : CoreSt) (d : BitVec 5) (r : Nat × Flags) : (k.wrFp d r).fltDrop = k.fltDrop := rfl
@[simp] theorem CoreSt.wrFp_eccThr (k : CoreSt) (d : BitVec 5) (r : Nat × Flags) : (k.wrFp d r).eccThr = k.eccThr := rfl
@[simp] theorem CoreSt.wrFp_eccUnc (k : CoreSt) (d : BitVec 5) (r : Nat × Flags) : (k.wrFp d r).eccUnc = k.eccUnc := rfl
@[simp] theorem CoreSt.wrFp_eccCorr (k : CoreSt) (d : BitVec 5) (r : Nat × Flags) : (k.wrFp d r).eccCorr = k.eccCorr := rfl
@[simp] theorem CoreSt.wrFp_next (k : CoreSt) (d : BitVec 5) (r : Nat × Flags) : (k.wrFp d r).next = k.next := rfl
@[simp] theorem CoreSt.wrFp_nextHeld (k : CoreSt) (d : BitVec 5) (r : Nat × Flags) : (k.wrFp d r).nextHeld = k.nextHeld := rfl
@[simp] theorem CoreSt.wrFp_later (k : CoreSt) (d : BitVec 5) (r : Nat × Flags) : (k.wrFp d r).later = k.later := rfl

/-! ## What is read after a core's update -/

@[simp] theorem CoreSt.rd_zero (k : CoreSt) : k.rd 0 = 0 := rfl

theorem CoreSt.wr_zero (k : CoreSt) (v : Word) : k.wr 0 v = k := rfl

@[simp] theorem CoreSt.rd_wr_same (k : CoreSt) {r : Nat} (v : Word) (h : r ≠ 0) : (k.wr r v).rd r = v := by
  simp [CoreSt.rd, CoreSt.wr, h]

theorem CoreSt.rd_wr_other (k : CoreSt) {r q : Nat} (v : Word) (h : q ≠ r) : (k.wr r v).rd q = k.rd q := by
  unfold CoreSt.rd CoreSt.wr
  by_cases hr : r = 0
  · simp [hr]
  · simp only [hr, if_false]
    by_cases hq : q = 0
    · simp [hq]
    · simp only [hq, if_false]; exact Table.get_put_other _ _ _ h

@[simp] theorem CoreSt.rdF_wrF_same (k : CoreSt) (r : Nat) (v : Word) : (k.wrF r v).rdF r = v := by
  simp [CoreSt.rdF, CoreSt.wrF]

theorem CoreSt.rdF_wrF_other (k : CoreSt) {r q : Nat} (v : Word) (h : q ≠ r) : (k.wrF r v).rdF q = k.rdF q :=
  Table.get_put_other _ _ _ h

@[simp] theorem CoreSt.rdF_wr (k : CoreSt) (r q : Nat) (v : Word) : (k.wr r v).rdF q = k.rdF q := by
  simp [CoreSt.rdF]
@[simp] theorem CoreSt.rd_wrF (k : CoreSt) (r q : Nat) (v : Word) : (k.wrF r v).rd q = k.rd q := rfl
@[simp] theorem CoreSt.rd_issue (k : CoreSt) (n q : Nat) : (k.issue n).rd q = k.rd q := rfl
@[simp] theorem CoreSt.rdF_issue (k : CoreSt) (n q : Nat) : (k.issue n).rdF q = k.rdF q := rfl
@[simp] theorem CoreSt.rd_issueTo (k : CoreSt) (t : Word) (q : Nat) : (k.issueTo t).rd q = k.rd q := rfl
@[simp] theorem CoreSt.rdF_issueTo (k : CoreSt) (t : Word) (q : Nat) : (k.issueTo t).rdF q = k.rdF q := rfl
@[simp] theorem CoreSt.rd_outUp (k : CoreSt) (c q : Nat) : (k.outUp c).rd q = k.rd q := rfl
@[simp] theorem CoreSt.rd_raise (k : CoreSt) (f : Flags) (q : Nat) : (k.raise f).rd q = k.rd q := rfl
@[simp] theorem CoreSt.rdF_raise (k : CoreSt) (f : Flags) (q : Nat) : (k.raise f).rdF q = k.rdF q := rfl
@[simp] theorem CoreSt.issue_pc (k : CoreSt) (n : Nat) : (k.issue n).pc = k.pc + BitVec.ofNat 64 n := rfl
@[simp] theorem CoreSt.issue_issued (k : CoreSt) (n : Nat) : (k.issue n).issued = k.issued + 1 := rfl
@[simp] theorem CoreSt.issue_stall (k : CoreSt) (n : Nat) : (k.issue n).stall = none := rfl
@[simp] theorem CoreSt.issue_req (k : CoreSt) (n : Nat) : (k.issue n).req = none := rfl
@[simp] theorem CoreSt.issueTo_pc (k : CoreSt) (t : Word) : (k.issueTo t).pc = t := rfl
@[simp] theorem CoreSt.issueTo_issued (k : CoreSt) (t : Word) : (k.issueTo t).issued = k.issued + 1 := rfl
@[simp] theorem CoreSt.issueTo_stall (k : CoreSt) (t : Word) : (k.issueTo t).stall = none := rfl
@[simp] theorem CoreSt.issueTo_req (k : CoreSt) (t : Word) : (k.issueTo t).req = none := rfl
@[simp] theorem CoreSt.endHandler_running (k : CoreSt) : k.endHandler.running = false := rfl
@[simp] theorem CoreSt.raise_fflags (k : CoreSt) (f : Flags) : (k.raise f).fflags = k.fflags ||| f := rfl

@[simp] theorem CoreSt.out_outUp_same (k : CoreSt) (c : Nat) : (k.outUp c).out c = k.out c + 1 := by
  simp [CoreSt.out, CoreSt.outUp]
@[simp] theorem CoreSt.out_outDown_same (k : CoreSt) (c : Nat) : (k.outDown c).out c = k.out c - 1 := by
  simp [CoreSt.out, CoreSt.outDown]
@[simp] theorem CoreSt.channel_setChannel_same (k : CoreSt) (n : Nat) (h : Chan) : (k.setChannel n h).channel n = h := by
  simp [CoreSt.channel, CoreSt.setChannel]
theorem CoreSt.channel_setChannel_other (k : CoreSt) (n j : Nat) (h : Chan) (e : j ≠ n) :
    (k.setChannel n h).channel j = k.channel j := Table.get_put_other _ _ _ e

end Sys2Proof.Machine
end

