-- ==== Sys2Proof/Laws/Ops.lean ====
section
/-! SUPPORT. What each shared operation can do, said once: memory and its full-empty bits, waiting and issue, faults and
traps, asynchronous commands, waiting writes, pool entries. Every operation that writes memory keeps its canonical form. -/

namespace Sys2Proof.Machine

/-! ## Memory (R1, R178) -/

@[simp] theorem State.storeBytes_mem (s : State) (pa : Nat) (bs : List Byte) : (s.storeBytes pa bs).mem = s.mem.writeBytes pa bs := rfl
@[simp] theorem State.storeBytes_fullBits (s : State) (pa : Nat) (bs : List Byte) : (s.storeBytes pa bs).fullBits = s.fullBits := rfl
@[simp] theorem State.storeBytes_cores (s : State) (pa : Nat) (bs : List Byte) : (s.storeBytes pa bs).cores = s.cores := rfl
@[simp] theorem State.storeBytes_dregs (s : State) (pa : Nat) (bs : List Byte) : (s.storeBytes pa bs).dregs = s.dregs := rfl
@[simp] theorem State.storeBytes_sites (s : State) (pa : Nat) (bs : List Byte) : (s.storeBytes pa bs).sites = s.sites := rfl
@[simp] theorem State.storeBytes_clusters (s : State) (pa : Nat) (bs : List Byte) : (s.storeBytes pa bs).clusters = s.clusters := rfl
@[simp] theorem State.storeBytes_cmds (s : State) (pa : Nat) (bs : List Byte) : (s.storeBytes pa bs).cmds = s.cmds := rfl
@[simp] theorem State.storeBytes_tlbs (s : State) (pa : Nat) (bs : List Byte) : (s.storeBytes pa bs).tlbs = s.tlbs := rfl
@[simp] theorem State.storeBytes_ctxs (s : State) (pa : Nat) (bs : List Byte) : (s.storeBytes pa bs).ctxs = s.ctxs := rfl

/-- A store leaves every byte outside it alone. -/
theorem State.read_storeBytes_other (s : State) (bs : List Byte) {pa a : Nat} (h : a < pa ∨ pa + bs.length ≤ a) :
    (s.storeBytes pa bs).mem.read a = s.mem.read a := Memory.read_writeBytes_other _ _ h

/-- The bytes of a store read back. -/
theorem State.readBytes_storeBytes (s : State) (pa : Nat) (bs : List Byte) : (s.storeBytes pa bs).mem.readBytes pa bs.length = bs :=
  Memory.readBytes_writeBytes _ _ _

theorem bytesLE_length (n v : Nat) : (bytesLE n v).length = n := by simp [bytesLE]

theorem natLE_map (k : Nat) (f : Nat → Nat) (v : Nat) (h : ∀ i, f i = v / 2 ^ (8 * i)) :
    natLE ((List.range k).map fun i => BitVec.ofNat 8 (f i)) = v % 2 ^ (8 * k) := by
  induction k generalizing f v with
  | zero => simp [natLE, Nat.mod_one]
  | succ k ih =>
    have e : (List.range (k + 1)).map (fun i => BitVec.ofNat 8 (f i)) =
        BitVec.ofNat 8 (f 0) :: (List.range k).map fun i => BitVec.ofNat 8 (f (i + 1)) := by
      rw [List.range_succ_eq_map, List.map_cons, List.map_map]; rfl
    have hs : ∀ i, f (i + 1) = v / 256 / 2 ^ (8 * i) := by
      intro i
      rw [h (i + 1), Nat.div_div_eq_div_mul, show 8 * (i + 1) = 8 + 8 * i by omega, Nat.pow_add]
    rw [e, natLE, ih (fun i => f (i + 1)) (v / 256) hs, h 0, BitVec.toNat_ofNat, show 8 * (k + 1) = 8 + 8 * k by omega, Nat.pow_add,
      Nat.mod_mul]
    simp

/-- The bytes of a number make it again, as far as they reach. -/
theorem natLE_bytesLE (n v : Nat) : natLE (bytesLE n v) = v % 2 ^ (8 * n) := natLE_map n _ v fun _ => rfl

/-- A number reads back as it was stored. -/
theorem State.memNum_storeNum (s : State) (pa n v : Nat) : (s.storeNum pa n v).memNum pa n = v % 2 ^ (8 * n) := by
  have h := s.readBytes_storeBytes pa (bytesLE n v)
  rw [bytesLE_length] at h
  rw [State.memNum, State.storeNum, h, natLE_bytesLE]

@[simp] theorem State.word_setWord (s : State) (pa : Nat) (v : BitVec 32) : (s.setWord pa v).word pa = v := by
  apply BitVec.eq_of_toNat_eq
  have := v.isLt
  rw [State.word, State.setWord, State.memNum_storeNum, BitVec.toNat_ofNat]
  omega

/-- Storing a word leaves every word outside it alone. -/
theorem State.word_setWord_other (s : State) {pa a : Nat} (v : BitVec 32) (h : a + 4 ≤ pa ∨ pa + 4 ≤ a) :
    (s.setWord pa v).word a = s.word a := by
  have hr : ∀ i, i < 4 → (s.setWord pa v).mem.read (a + i) = s.mem.read (a + i) := fun i hi =>
    s.read_storeBytes_other _ (by rw [bytesLE_length]; omega)
  have h0 := hr 0 (by omega); have h1 := hr 1 (by omega); have h2 := hr 2 (by omega); have h3 := hr 3 (by omega)
  simp only [State.word, State.memNum, Memory.readBytes, Nat.add_assoc, Nat.add_zero] at *
  rw [h0, h1, h2, h3]

@[simp] theorem State.firePark_mem (s : State) (hit : Park → Option Word) : (s.firePark hit).mem = s.mem := rfl
@[simp] theorem State.firePark_fullBits (s : State) (hit : Park → Option Word) : (s.firePark hit).fullBits = s.fullBits := rfl

@[simp] theorem State.setFull_mem (s : State) (pa : Nat) (b : Bool) : (s.setFull pa b).mem = s.mem := by
  unfold State.setFull; split <;> rfl

@[simp] theorem State.isFull_setFull (s : State) (pa : Nat) (b : Bool) : (s.setFull pa b).isFull pa = b := by
  cases b with
  | true => exact Table.get_put_same _ _ _ _
  | false => exact Table.get_del_same _ _ _

theorem State.isFull_setFull_other (s : State) {pa a : Nat} (b : Bool) (h : a ≠ pa) : (s.setFull pa b).isFull a = s.isFull a := by
  cases b with
  | true => exact Table.get_put_other _ _ _ h
  | false => exact Table.get_del_other _ _ h

/-! ## The canonical form of memory -/

theorem State.storeBytes_wf {s : State} (h : s.mem.wf = true) (pa : Nat) (bs : List Byte) : (s.storeBytes pa bs).mem.wf = true :=
  Memory.wf_writeBytes h pa bs

theorem State.storeNum_wf {s : State} (h : s.mem.wf = true) (pa n v : Nat) : (s.storeNum pa n v).mem.wf = true :=
  State.storeBytes_wf h pa _

theorem State.setWord_wf {s : State} (h : s.mem.wf = true) (pa : Nat) (v : BitVec 32) : (s.setWord pa v).mem.wf = true :=
  State.storeNum_wf h pa 4 _

theorem State.writeAt_wf {s : State} (h : s.mem.wf = true) (ps : List Nat) (bs : List Byte) : (s.writeAt ps bs).mem.wf = true := by
  induction ps generalizing s bs with
  | nil => cases bs <;> exact h
  | cons p ps ih =>
    cases bs with
    | nil => exact h
    | cons b bs => exact ih (State.storeBytes_wf h p [b]) bs

theorem State.foldl_setFull_mem (l : List Nat) (a : Nat → Nat) (b : Nat → Bool) (s : State) :
    (l.foldl (fun s i => s.setFull (a i) (b i)) s).mem = s.mem := by
  induction l generalizing s with
  | nil => rfl
  | cons i l ih => rw [List.foldl_cons, ih, State.setFull_mem]

theorem State.writePlace_wf {s : State} (h : s.mem.wf = true) (pa n v : Nat) : (s.writePlace pa n v).mem.wf = true := by
  unfold State.writePlace
  split
  · exact State.storeNum_wf h pa n v
  · exact State.storeNum_wf h pa n v
  · rw [State.foldl_setFull_mem]; exact h
  · exact h
  · exact h

theorem State.zeroTile_wf {s : State} (h : s.mem.wf = true) (p : Nat) : (s.zeroTile p).mem.wf = true := Memory.wf_filter h _

theorem State.barInitStep_wf {s : State} (h : s.mem.wf = true) (pa n : Nat) : (s.barInitStep pa n).mem.wf = true :=
  State.setWord_wf (State.setWord_wf (State.setWord_wf (State.setWord_wf h _ _) _ _) _ _) _ _

/-- Bytes written one by one leave every address that is not written alone. -/
theorem State.read_writeAt_other (s : State) (ps : List Nat) (bs : List Byte) {a : Nat} (h : a ∉ ps) :
    (s.writeAt ps bs).mem.read a = s.mem.read a := by
  induction ps generalizing s bs with
  | nil => cases bs <;> rfl
  | cons p ps ih =>
    cases bs with
    | nil => rfl
    | cons b bs =>
      rw [List.mem_cons, not_or] at h
      rw [State.writeAt, ih _ bs h.2]
      exact s.read_storeBytes_other [b] (by simp only [List.length_singleton]; omega)

/-- Bytes written at different addresses read back. -/
theorem State.read_writeAt (s : State) (ps : List Nat) (bs : List Byte) (hp : ps.Nodup) {i p : Nat} {b : Byte} (h1 : ps[i]? = some p)
    (h2 : bs[i]? = some b) : (s.writeAt ps bs).mem.read p = b := by
  induction ps generalizing s bs i with
  | nil => simp at h1
  | cons q ps ih =>
    cases bs with
    | nil => simp at h2
    | cons c bs =>
      rw [List.nodup_cons] at hp
      cases i with
      | zero =>
        simp only [List.getElem?_cons_zero, Option.some.injEq] at h1 h2
        subst h1 h2
        rw [State.writeAt, State.read_writeAt_other _ _ _ hp.1]
        exact Memory.read_write_same _ _ _
      | succ i =>
        simp only [List.getElem?_cons_succ] at h1 h2
        exact ih _ bs hp.2 h1 h2

/-! ## Waiting for registers (R243, R250, R251) -/

/-- An in-place instruction whose registers are ready acts on its core alone. -/
theorem State.inPlace_ready (s : State) {rs rf ws wf : List Nat} (f : CoreSt → CoreSt)
    (h : (s.core s.cur).waits rs rf ws wf = none) : s.inPlace rs rf ws wf f = s.setCore s.cur (f (s.core s.cur)) := by
  simp only [State.inPlace, h]; rfl

/-- One whose registers are not ready only notes what it waits for. -/
theorem State.inPlace_waits (s : State) {rs rf ws wf : List Nat} {w : Stall} (f : CoreSt → CoreSt)
    (h : (s.core s.cur).waits rs rf ws wf = some w) : s.inPlace rs rf ws wf f = s.stallCore s.cur w := by
  simp only [State.inPlace, h]

theorem State.whenReady_ready (s : State) {rs rf ws wf : List Nat} (f : CoreSt → State)
    (h : (s.core s.cur).waits rs rf ws wf = none) : s.whenReady rs rf ws wf f = f (s.core s.cur) := by
  simp only [State.whenReady, h]

theorem State.whenReady_waits (s : State) {rs rf ws wf : List Nat} {w : Stall} (f : CoreSt → State)
    (h : (s.core s.cur).waits rs rf ws wf = some w) : s.whenReady rs rf ws wf f = s.stallCore s.cur w := by
  simp only [State.whenReady, h]

/-- No operand waits where nothing is pending and no operand has a count. -/
theorem CoreSt.waits_none (k : CoreSt) (rs rf ws wf : List Nat) (hs : k.pendS = []) (hf : k.pendF = []) (hb : k.board = []) :
    k.waits rs rf ws wf = none := by
  simp [CoreSt.waits, CoreSt.count, hs, hf, hb, Table.get]

/-! ## Faults, reports and traps (R284, R415, R416) -/

theorem State.setInterrupts_mem (s : State) (l : List (Nat × Nat)) : ({ s with interrupts := l } : State).mem = s.mem := rfl

@[simp] theorem State.ownerEvent_mem (s : State) (a b d : Word) (c m : Nat) : (s.ownerEvent a b d c m).mem = s.mem := by
  simp only [State.ownerEvent]
  generalize (fld (s.dreg (iodN + 0x20020)) 31 0 + 2 ^ 32 - fld (s.dreg (iodN + 0x20018)) 31 0) % 2 ^ 32 = w
  split
  · rw [State.modCore_eq, State.setCore_mem]
  · split
    · rw [State.setInterrupts_mem]; simp only [State.setDreg_mem]
    · simp only [State.setDreg_mem]

@[simp] theorem State.trace_mem (s : State) (c k x d : Nat) : (s.trace c k x d).mem = s.mem := by
  unfold State.trace
  dsimp only
  split
  · split <;> rfl
  · rfl

@[simp] theorem State.postTo_mem (s : State) (c n : Nat) (m : Msg) : (s.postTo c n m).mem = s.mem := rfl
@[simp] theorem State.complete_mem (s : State) (h : Nat × Nat) (t : Task) : (s.complete h t).mem = s.mem := rfl
@[simp] theorem State.complete_cores (s : State) (h : Nat × Nat) (t : Task) : (s.complete h t).cores = s.cores := rfl

@[simp] theorem State.failSpec_mem (s : State) (c cause : Nat) : (s.failSpec c cause).mem = s.mem := by
  unfold State.failSpec
  split
  · rfl
  · split
    · rfl
    · split <;> rfl

@[simp] theorem State.failSpec_cores (s : State) (c cause : Nat) : (s.failSpec c cause).cores = s.cores := by
  unfold State.failSpec
  split
  · rfl
  · split
    · rfl
    · split <;> rfl

@[simp] theorem State.attach_mem (s : State) (h : Holder) (n : Nat) : (s.attach h n).mem = s.mem := by
  cases h <;> simp only [State.attach] <;> (try split) <;> rfl

@[simp] theorem State.nextSerial_mem (s : State) (c : Nat) : (s.nextSerial c).2.mem = s.mem := by
  simp only [State.nextSerial, State.modCluster_eq, State.setCluster_mem]

theorem State.toldOwner_mem (s : State) (p : Bool) (a b d : Word) (c : Nat) : (if p = true then s.ownerEvent a b d c 0 else s).mem = s.mem := by
  by_cases h : p = true
  · rw [if_pos h, State.ownerEvent_mem]
  · rw [if_neg h]

theorem State.queued_mem (t : State) (c x k : Nat) (m : Msg) (p : Prop) [Decidable p] : (if p then
    (t.modCluster c fun u => { u with queue := u.queue ++ [m] }).trace c 2 x k
    else t.modCore c fun k => { k with fltDrop := incSat k.fltDrop 31 0 1 }).mem = t.mem := by
  split
  · rw [State.trace_mem, State.modCluster_eq, State.setCluster_mem]
  · rw [State.modCore_eq, State.setCore_mem]

@[simp] theorem State.report_mem (s : State) (c : Nat) (f : FaultMsg) : (s.report c f).mem = s.mem := by
  rw [State.report.eq_1]
  exact (State.queued_mem _ _ _ _ _ _).trans ((State.toldOwner_mem _ _ _ _ _ _).trans (State.nextSerial_mem s c))

@[simp] theorem State.enterFault_mem (s : State) (c : Nat) (f : FaultMsg) (h : Holder) : (s.enterFault c f h).mem = s.mem := by
  rw [State.enterFault.eq_1]
  exact (State.trace_mem _ _ _ _ _).trans ((State.attach_mem _ _ _).trans ((State.setCluster_mem _ _ _).trans
    ((State.toldOwner_mem _ _ _ _ _ _).trans (State.nextSerial_mem s c))))

@[simp] theorem State.holdFault_mem (s : State) (c : Nat) (f : FaultMsg) (h : Holder) : (s.holdFault c f h).mem = s.mem := by
  unfold State.holdFault
  split <;> simp

/-- A trap writes no memory. -/
@[simp] theorem State.trap_mem (s : State) (c cause : Nat) (val : Word) : (s.trap c cause val).mem = s.mem := by
  unfold State.trap
  dsimp only [State.nextSerial]
  split
  · simp
  · split <;> simp

/-- A trap whose cause the owner does not hear of, with no frame held: the frame holds what R284 says, the handler has ended,
and ch0 holds the fault message behind what it held. -/
theorem State.trap_core (s : State) (c cause : Nat) (val : Word) (hv : (s.core c).tvalid = false) (ho : toOwner cause = false) :
    let k := s.core c
    let k' := { k.endHandler with
      tpc := k.pc, tcause := BitVec.ofNat 7 cause, tval := val, tvalid := true, tchan := k.chan, tctx := k.ctx,
      tm := k.m, tissued := k.issued, ttask := k.task, tgroup := k.group }
    ∃ n, (s.trap c cause val).core c = k'.setChannel 0 { k'.channel 0 with queue := (k'.channel 0).queue ++
      [{ words := ({ src := 0, cause, ctx := k.ctx, ord := k.pc.toNat, loc := k.chan, val } : FaultMsg).words false n, trap := true }] } := by
  refine ⟨(((s.failSpec c cause).cluster c).serial + 1).toNat, ?_⟩
  simp [State.trap, hv, ho, State.nextSerial, State.postTo, State.enqueue]

/-- A trap touches no other core. -/
theorem State.trap_core_other (s : State) {c j cause : Nat} (val : Word) (hv : (s.core c).tvalid = false) (ho : toOwner cause = false)
    (h : j ≠ c) : (s.trap c cause val).core j = s.core j := by
  have hf : (s.failSpec c cause).core j = s.core j := by simp [State.core]
  simp [State.trap, hv, ho, State.nextSerial, State.postTo, State.enqueue, State.core_setCore_other _ _ _ _ h, hf]

/-! ## Asynchronous commands (R219, R243, R244) -/

/-- A command that finds its counters below their limits and no acquire outstanding is issued: its token's count and its class
counter rise, and it holds the next number of its sequence and of the order of issue. -/
theorem State.issueCmd_issued (s : State) (k : CoreSt) (len : Nat) (cfg : Bool) (m : Cmd) (ha : k.acqWait = false)
    (ht : m.tok = 0 ∨ k.count m.tok < 15) (hc : k.out m.cls < 1023) :
    ∃ (k' : CoreSt) (seq : BitVec 48), s.issueCmd k len cfg m =
      ({ s with cmds := Table.put s.cmds s.nextCmd { m with seq := seq, issuer := k.task, no := s.nextCmd }, nextCmd := s.nextCmd + 1 } : State).setCore
        s.cur (k'.issue len) ∧
      k'.out m.cls = k.out m.cls + 1 ∧ (m.tok ≠ 0 → k'.count m.tok = k.count m.tok + 1) ∧ seq = (if cfg then k.cseq + 1 else k.eseq + 1) ∧
      ∀ r, k'.rd r = k.rd r := by
  have h1 : ¬ (m.tok ≠ 0 ∧ k.count m.tok ≥ 15) := by omega
  have h2 : ¬ k.out m.cls ≥ 1023 := by omega
  unfold State.issueCmd
  simp only [ha, h1, h2, if_false, Bool.false_eq_true]
  cases cfg <;> by_cases h : m.tok = 0 <;> simp only [h, if_true, if_false, Bool.false_eq_true] <;>
    exact ⟨_, _, rfl, CoreSt.out_outUp_same _ _, by simp [CoreSt.count, CoreSt.outUp, h], rfl, fun _ => rfl⟩

/-- A core's command that ends is gone; it writes no memory. -/
theorem State.finishCmd_mem (s : State) (k cause : Nat) : (s.finishCmd k cause).mem = s.mem := by
  unfold State.finishCmd
  split
  · rfl
  · dsimp only
    split
    · split <;> rfl
    · split <;> simp

/-! ## Posted writes that wait (R383) -/

theorem State.waiting_waitLast (s : State) (m : Nat) (w : HostWait) : (s.waitLast m w).waiting m = s.waiting m ++ [w] :=
  Table.get_put_same _ _ _ _

theorem State.waiting_waitLast_other (s : State) {m j : Nat} (w : HostWait) (h : j ≠ m) : (s.waitLast m w).waiting j = s.waiting j :=
  Table.get_put_other _ _ _ h

@[simp] theorem State.waitLast_mem (s : State) (m : Nat) (w : HostWait) : (s.waitLast m w).mem = s.mem := rfl

/-! ## What an element's attempt leaves (R106, R127) -/

@[simp] theorem State.act_wait_mem (s : State) (p n : Nat) : (s.act p n .wait).mem = s.mem := rfl
@[simp] theorem State.act_run_mem (s : State) (p n : Nat) (t : Site) : (s.act p n (.run t)).mem = s.mem := rfl

theorem State.act_run (s : State) (p n : Nat) (t : Site) : (s.act p n (.run t)).site p = t.stepped n := State.site_setSite_same s p _

/-! ## Aborts (R330 to R333) -/

theorem State.endTaskHandler_mem (s : State) (h : Nat × Nat) (t : Task) : (s.endTaskHandler h t).mem = s.mem := by
  unfold State.endTaskHandler
  split
  · rfl
  · dsimp only
    split <;> rfl

/-- An abort writes no memory: what the task had buffered is discarded. -/
theorem State.abort_mem (s : State) (h : Nat × Nat) (u : Task) : (s.abort h u).mem = s.mem :=
  (show (s.abort h u).mem = (s.endTaskHandler h u).mem from rfl).trans (State.endTaskHandler_mem s h u)

theorem State.abortEach_mem (h : Nat × Nat) (p : Nat × Task → Bool) (es : List (Nat × Task)) (s : State) :
    (es.foldl (fun s e => if p e = true then s.abort (h.1, e.1) e.2 else s) s).mem = s.mem := by
  induction es generalizing s with
  | nil => rfl
  | cons e es ih =>
    rw [List.foldl_cons, ih]
    split
    · exact State.abort_mem s _ _
    · rfl

theorem State.abortReaders_mem (s : State) (h : Nat × Nat) (t : Task) (lines : List Nat) : (s.abortReaders h t lines).mem = s.mem := by
  refine Eq.trans (congrArg State.mem ?_) (State.abortEach_mem h (fun e => decide (e.1 ≠ h.2 ∧ e.2.job = t.job ∧ e.2.ordered ∧
    (e.2.phase = TaskPhase.running ∨ e.2.phase = TaskPhase.done) ∧ ¬ e.2.irrev ∧ t.before e.2 ∧ e.2.rlines.any lines.contains))
    (s.die h.1).tasks s)
  simp [State.abortReaders]

/-- Judging a write changes no memory. -/
@[simp] theorem State.judgeBytes_mem (s : State) (h : Option (Nat × Nat)) (pa n : Nat) : (s.judgeBytes h pa n).mem = s.mem := by
  unfold State.judgeBytes
  split
  · split
    · exact State.abortReaders_mem s _ _ _
    · rfl
  · rfl

/-! ## The ready pool (R296, log 67) -/

theorem Task.inPool_pooled {t : Task} (h : t.phase = .pooled) : t.inPool = true := by simp [Task.inPool, h]

/-- A task that is aborted had its entry and keeps it. -/
theorem Task.inPool_aborted (t : Task) : ({ t with phase := .pooled } : Task).inPool = true := Task.inPool_pooled rfl

end Sys2Proof.Machine
end

