-- ==== Sys2Proof/Laws/PerInstr.lean ====
section
/-! SUPPORT. Recoding, per instruction: the bytes of a well-formed control-core instruction decode to it, whatever follows
them (R52 to R60). A device step has no word. -/

namespace Sys2Proof

/-- A well-formed instruction that has a word is what its own bytes decode to. -/
def Laws.Recoding.Statement (i : Instr) : Prop :=
  i.wf = true → i.isEvent = false → ∀ r : List Byte, decode (encodeBytes i ++ r) = .ok i (encode i).length

theorem Laws.Recoding.add (d a b : BitVec 5) : Statement (.add d a b) := fun h _ r =>
  recode_one (w := encRR 0x01 d a b 0 0x00) rfl (by simp [decodeFirst, decodeAlu, ifC0, checked, h]) r

theorem Laws.Recoding.sub (d a b : BitVec 5) : Statement (.sub d a b) := fun h _ r =>
  recode_one (w := encRR 0x01 d a b 0 0x01) rfl (by simp [decodeFirst, decodeAlu, ifC0, checked, h]) r

theorem Laws.Recoding.and (d a b : BitVec 5) : Statement (.and d a b) := fun h _ r =>
  recode_one (w := encRR 0x01 d a b 0 0x02) rfl (by simp [decodeFirst, decodeAlu, ifC0, checked, h]) r

theorem Laws.Recoding.or (d a b : BitVec 5) : Statement (.or d a b) := fun h _ r =>
  recode_one (w := encRR 0x01 d a b 0 0x03) rfl (by simp [decodeFirst, decodeAlu, ifC0, checked, h]) r

theorem Laws.Recoding.xor (d a b : BitVec 5) : Statement (.xor d a b) := fun h _ r =>
  recode_one (w := encRR 0x01 d a b 0 0x04) rfl (by simp [decodeFirst, decodeAlu, ifC0, checked, h]) r

theorem Laws.Recoding.andn (d a b : BitVec 5) : Statement (.andn d a b) := fun h _ r =>
  recode_one (w := encRR 0x01 d a b 0 0x05) rfl (by simp [decodeFirst, decodeAlu, ifC0, checked, h]) r

theorem Laws.Recoding.sll (d a b : BitVec 5) : Statement (.sll d a b) := fun h _ r =>
  recode_one (w := encRR 0x01 d a b 0 0x06) rfl (by simp [decodeFirst, decodeAlu, ifC0, checked, h]) r

theorem Laws.Recoding.srl (d a b : BitVec 5) : Statement (.srl d a b) := fun h _ r =>
  recode_one (w := encRR 0x01 d a b 0 0x07) rfl (by simp [decodeFirst, decodeAlu, ifC0, checked, h]) r

theorem Laws.Recoding.sra (d a b : BitVec 5) : Statement (.sra d a b) := fun h _ r =>
  recode_one (w := encRR 0x01 d a b 0 0x08) rfl (by simp [decodeFirst, decodeAlu, ifC0, checked, h]) r

theorem Laws.Recoding.minS (d a b : BitVec 5) : Statement (.minS d a b) := fun h _ r =>
  recode_one (w := encRR 0x01 d a b 0 0x09) rfl (by simp [decodeFirst, decodeAlu, ifC0, checked, h]) r

theorem Laws.Recoding.minN (d a b : BitVec 5) : Statement (.minN d a b) := fun h _ r =>
  recode_one (w := encRR 0x01 d a b 0 0x0A) rfl (by simp [decodeFirst, decodeAlu, ifC0, checked, h]) r

theorem Laws.Recoding.maxS (d a b : BitVec 5) : Statement (.maxS d a b) := fun h _ r =>
  recode_one (w := encRR 0x01 d a b 0 0x0B) rfl (by simp [decodeFirst, decodeAlu, ifC0, checked, h]) r

theorem Laws.Recoding.maxN (d a b : BitVec 5) : Statement (.maxN d a b) := fun h _ r =>
  recode_one (w := encRR 0x01 d a b 0 0x0C) rfl (by simp [decodeFirst, decodeAlu, ifC0, checked, h]) r

theorem Laws.Recoding.mul (d a b : BitVec 5) : Statement (.mul d a b) := fun h _ r =>
  recode_one (w := encRR 0x01 d a b 0 0x0D) rfl (by simp [decodeFirst, decodeAlu, ifC0, checked, h]) r

theorem Laws.Recoding.mulhS (d a b : BitVec 5) : Statement (.mulhS d a b) := fun h _ r =>
  recode_one (w := encRR 0x01 d a b 0 0x0E) rfl (by simp [decodeFirst, decodeAlu, ifC0, checked, h]) r

theorem Laws.Recoding.mulhN (d a b : BitVec 5) : Statement (.mulhN d a b) := fun h _ r =>
  recode_one (w := encRR 0x01 d a b 0 0x0F) rfl (by simp [decodeFirst, decodeAlu, ifC0, checked, h]) r

theorem Laws.Recoding.divS (d a b : BitVec 5) : Statement (.divS d a b) := fun h _ r =>
  recode_one (w := encRR 0x01 d a b 0 0x10) rfl (by simp [decodeFirst, decodeAlu, ifC0, checked, h]) r

theorem Laws.Recoding.divN (d a b : BitVec 5) : Statement (.divN d a b) := fun h _ r =>
  recode_one (w := encRR 0x01 d a b 0 0x11) rfl (by simp [decodeFirst, decodeAlu, ifC0, checked, h]) r

theorem Laws.Recoding.remS (d a b : BitVec 5) : Statement (.remS d a b) := fun h _ r =>
  recode_one (w := encRR 0x01 d a b 0 0x12) rfl (by simp [decodeFirst, decodeAlu, ifC0, checked, h]) r

theorem Laws.Recoding.remN (d a b : BitVec 5) : Statement (.remN d a b) := fun h _ r =>
  recode_one (w := encRR 0x01 d a b 0 0x13) rfl (by simp [decodeFirst, decodeAlu, ifC0, checked, h]) r

theorem Laws.Recoding.clz (d a : BitVec 5) : Statement (.clz d a) := fun h _ r =>
  recode_one (w := encRR 0x01 d a 0 0 0x14) rfl (by simp [decodeFirst, decodeAlu, ifBC0, checked, h]) r

theorem Laws.Recoding.ctz (d a : BitVec 5) : Statement (.ctz d a) := fun h _ r =>
  recode_one (w := encRR 0x01 d a 0 0 0x15) rfl (by simp [decodeFirst, decodeAlu, ifBC0, checked, h]) r

theorem Laws.Recoding.popc (d a : BitVec 5) : Statement (.popc d a) := fun h _ r =>
  recode_one (w := encRR 0x01 d a 0 0 0x16) rfl (by simp [decodeFirst, decodeAlu, ifBC0, checked, h]) r

theorem Laws.Recoding.sel (d a b c : BitVec 5) : Statement (.sel d a b c) := fun h _ r =>
  recode_one (w := encRR 0x01 d a b c 0x17) rfl (by simp [decodeFirst, decodeAlu, checked, h]) r

theorem Laws.Recoding.msgrd (d a : BitVec 5) : Statement (.msgrd d a) := fun h _ r =>
  recode_one (w := encRR 0x01 d a 0 0 0x18) rfl (by simp [decodeFirst, decodeAlu, ifBC0, checked, h]) r

theorem Laws.Recoding.addi (d a : BitVec 5) (imm : BitVec 16) : Statement (.addi d a imm) := fun h _ r =>
  recode_one (w := encRI 0x02 d a imm) rfl (by simp [decodeFirst, checked, h]) r

theorem Laws.Recoding.andi (d a : BitVec 5) (imm : BitVec 16) : Statement (.andi d a imm) := fun h _ r =>
  recode_one (w := encRI 0x03 d a imm) rfl (by simp [decodeFirst, checked, h]) r

theorem Laws.Recoding.ori (d a : BitVec 5) (imm : BitVec 16) : Statement (.ori d a imm) := fun h _ r =>
  recode_one (w := encRI 0x04 d a imm) rfl (by simp [decodeFirst, checked, h]) r

theorem Laws.Recoding.xori (d a : BitVec 5) (imm : BitVec 16) : Statement (.xori d a imm) := fun h _ r =>
  recode_one (w := encRI 0x05 d a imm) rfl (by simp [decodeFirst, checked, h]) r

theorem Laws.Recoding.slli (d a : BitVec 5) (sh : BitVec 6) : Statement (.slli d a sh) := fun h _ r =>
  recode_one (w := encRI 0x06 d a ((0 : BitVec 8) ++ (0 : BitVec 2) ++ sh)) rfl
    (by rw [decode_shift (wMaj_encRI _ _ _ _) (shiftZ_encRI _ _ _ _), shiftK_encRI, shiftS_encRI]; simp [checked, h]) r

theorem Laws.Recoding.srli (d a : BitVec 5) (sh : BitVec 6) : Statement (.srli d a sh) := fun h _ r =>
  recode_one (w := encRI 0x06 d a ((0 : BitVec 8) ++ (1 : BitVec 2) ++ sh)) rfl
    (by rw [decode_shift (wMaj_encRI _ _ _ _) (shiftZ_encRI _ _ _ _), shiftK_encRI, shiftS_encRI]; simp [checked, h]) r

theorem Laws.Recoding.srai (d a : BitVec 5) (sh : BitVec 6) : Statement (.srai d a sh) := fun h _ r =>
  recode_one (w := encRI 0x06 d a ((0 : BitVec 8) ++ (2 : BitVec 2) ++ sh)) rfl
    (by rw [decode_shift (wMaj_encRI _ _ _ _) (shiftZ_encRI _ _ _ _), shiftK_encRI, shiftS_encRI]; simp [checked, h]) r

theorem Laws.Recoding.rori (d a : BitVec 5) (sh : BitVec 6) : Statement (.rori d a sh) := fun h _ r =>
  recode_one (w := encRI 0x06 d a ((0 : BitVec 8) ++ (3 : BitVec 2) ++ sh)) rfl
    (by rw [decode_shift (wMaj_encRI _ _ _ _) (shiftZ_encRI _ _ _ _), shiftK_encRI, shiftS_encRI]; simp [checked, h]) r

theorem Laws.Recoding.ins16 (d : BitVec 5) (h : BitVec 2) (imm : BitVec 16) : Statement (.ins16 d h imm) := fun hw _ r =>
  recode_one (w := encRI 0x07 d ((0 : BitVec 3) ++ h) imm) rfl
    (by rw [decode_ins16 (wMaj_encRI _ _ _ _) (insZ_encRI _ _ _), insH_encRI]; simp [checked, hw]) r

theorem Laws.Recoding.ltiS (d a : BitVec 5) (imm : BitVec 16) : Statement (.ltiS d a imm) := fun h _ r =>
  recode_one (w := encRI 0x08 d a imm) rfl (by simp [decodeFirst, checked, h]) r

theorem Laws.Recoding.ltiN (d a : BitVec 5) (imm : BitVec 16) : Statement (.ltiN d a imm) := fun h _ r =>
  recode_one (w := encRI 0x09 d a imm) rfl (by simp [decodeFirst, checked, h]) r

theorem Laws.Recoding.cmpEq (d a b : BitVec 5) : Statement (.cmpEq d a b) := fun h _ r =>
  recode_one (w := encRR 0x0A d a b 0 0x00) rfl (by simp [decodeFirst, decodeCmp, ifC0, checked, h]) r

theorem Laws.Recoding.cmpNe (d a b : BitVec 5) : Statement (.cmpNe d a b) := fun h _ r =>
  recode_one (w := encRR 0x0A d a b 0 0x01) rfl (by simp [decodeFirst, decodeCmp, ifC0, checked, h]) r

theorem Laws.Recoding.cmpLtS (d a b : BitVec 5) : Statement (.cmpLtS d a b) := fun h _ r =>
  recode_one (w := encRR 0x0A d a b 0 0x02) rfl (by simp [decodeFirst, decodeCmp, ifC0, checked, h]) r

theorem Laws.Recoding.cmpLtN (d a b : BitVec 5) : Statement (.cmpLtN d a b) := fun h _ r =>
  recode_one (w := encRR 0x0A d a b 0 0x03) rfl (by simp [decodeFirst, decodeCmp, ifC0, checked, h]) r

theorem Laws.Recoding.cmpLeS (d a b : BitVec 5) : Statement (.cmpLeS d a b) := fun h _ r =>
  recode_one (w := encRR 0x0A d a b 0 0x04) rfl (by simp [decodeFirst, decodeCmp, ifC0, checked, h]) r

theorem Laws.Recoding.cmpLeN (d a b : BitVec 5) : Statement (.cmpLeN d a b) := fun h _ r =>
  recode_one (w := encRR 0x0A d a b 0 0x05) rfl (by simp [decodeFirst, decodeCmp, ifC0, checked, h]) r

theorem Laws.Recoding.br (a b : BitVec 5) (cond : BitVec 3) (off : BitVec 13) : Statement (.br a b cond off) := fun h _ r =>
  recode_one (w := encRI 0x10 a b (cond ++ off)) rfl (by simp [decodeFirst, checked, h]) r

theorem Laws.Recoding.jmp (off : BitVec 26) : Statement (.jmp off) := fun h _ r =>
  recode_one (w := (0x11 : BitVec 6) ++ off) rfl (by simp [decodeFirst, checked, h]) r

theorem Laws.Recoding.call (off : BitVec 26) : Statement (.call off) := fun h _ r =>
  recode_one (w := (0x12 : BitVec 6) ++ off) rfl (by simp [decodeFirst, checked, h]) r

theorem Laws.Recoding.jr (d a : BitVec 5) (imm : BitVec 16) : Statement (.jr d a imm) := fun h _ r =>
  recode_one (w := encRI 0x13 d a imm) rfl (by simp [decodeFirst, checked, h]) r

theorem Laws.Recoding.fadd (d a b : BitVec 5) (rm : BitVec 3) : Statement (.fadd d a b rm) := fun h _ r =>
  recode_one (w := encRR 0x14 d a b (encRm rm) 0x00) rfl (by simp [decodeFirst, decodeFp, ifRm, wRm, checked, h]) r

theorem Laws.Recoding.fsub (d a b : BitVec 5) (rm : BitVec 3) : Statement (.fsub d a b rm) := fun h _ r =>
  recode_one (w := encRR 0x14 d a b (encRm rm) 0x01) rfl (by simp [decodeFirst, decodeFp, ifRm, wRm, checked, h]) r

theorem Laws.Recoding.fmul (d a b : BitVec 5) (rm : BitVec 3) : Statement (.fmul d a b rm) := fun h _ r =>
  recode_one (w := encRR 0x14 d a b (encRm rm) 0x02) rfl (by simp [decodeFirst, decodeFp, ifRm, wRm, checked, h]) r

theorem Laws.Recoding.fdiv (d a b : BitVec 5) (rm : BitVec 3) : Statement (.fdiv d a b rm) := fun h _ r =>
  recode_one (w := encRR 0x14 d a b (encRm rm) 0x03) rfl (by simp [decodeFirst, decodeFp, ifRm, wRm, checked, h]) r

theorem Laws.Recoding.fsqrt (d a : BitVec 5) (rm : BitVec 3) : Statement (.fsqrt d a rm) := fun h _ r =>
  recode_one (w := encRR 0x14 d a 0 (encRm rm) 0x04) rfl (by simp [decodeFirst, decodeFp, ifRm, ifRmB0, wRm, checked, h]) r

theorem Laws.Recoding.fmin (d a b : BitVec 5) : Statement (.fmin d a b) := fun h _ r =>
  recode_one (w := encRR 0x14 d a b 0 0x05) rfl (by simp [decodeFirst, decodeFp, ifC0, checked, h]) r

theorem Laws.Recoding.fmax (d a b : BitVec 5) : Statement (.fmax d a b) := fun h _ r =>
  recode_one (w := encRR 0x14 d a b 0 0x06) rfl (by simp [decodeFirst, decodeFp, ifC0, checked, h]) r

theorem Laws.Recoding.fneg (d a : BitVec 5) : Statement (.fneg d a) := fun h _ r =>
  recode_one (w := encRR 0x14 d a 0 0 0x07) rfl (by simp [decodeFirst, decodeFp, ifBC0, checked, h]) r

theorem Laws.Recoding.fabs (d a : BitVec 5) : Statement (.fabs d a) := fun h _ r =>
  recode_one (w := encRR 0x14 d a 0 0 0x08) rfl (by simp [decodeFirst, decodeFp, ifBC0, checked, h]) r

theorem Laws.Recoding.fkey (d a : BitVec 5) : Statement (.fkey d a) := fun h _ r =>
  recode_one (w := encRR 0x14 d a 0 0 0x09) rfl (by simp [decodeFirst, decodeFp, ifBC0, checked, h]) r

theorem Laws.Recoding.fcmpEq (d a b : BitVec 5) : Statement (.fcmpEq d a b) := fun h _ r =>
  recode_one (w := encRR 0x14 d a b 0 0x0A) rfl (by simp [decodeFirst, decodeFp, ifC0, checked, h]) r

theorem Laws.Recoding.fcmpLt (d a b : BitVec 5) : Statement (.fcmpLt d a b) := fun h _ r =>
  recode_one (w := encRR 0x14 d a b 0 0x0B) rfl (by simp [decodeFirst, decodeFp, ifC0, checked, h]) r

theorem Laws.Recoding.fcmpLe (d a b : BitVec 5) : Statement (.fcmpLe d a b) := fun h _ r =>
  recode_one (w := encRR 0x14 d a b 0 0x0C) rfl (by simp [decodeFirst, decodeFp, ifC0, checked, h]) r

theorem Laws.Recoding.fcvtS32F32 (d a : BitVec 5) (rm : BitVec 3) : Statement (.fcvtS32F32 d a rm) := fun h _ r =>
  recode_one (w := encRR 0x14 d a 0 (encRm rm) 0x0D) rfl (by simp [decodeFirst, decodeFp, ifRm, ifRmB0, wRm, checked, h]) r

theorem Laws.Recoding.fcvtN32F32 (d a : BitVec 5) (rm : BitVec 3) : Statement (.fcvtN32F32 d a rm) := fun h _ r =>
  recode_one (w := encRR 0x14 d a 0 (encRm rm) 0x0E) rfl (by simp [decodeFirst, decodeFp, ifRm, ifRmB0, wRm, checked, h]) r

theorem Laws.Recoding.fcvtF32S32 (d a : BitVec 5) (rm : BitVec 3) : Statement (.fcvtF32S32 d a rm) := fun h _ r =>
  recode_one (w := encRR 0x14 d a 0 (encRm rm) 0x0F) rfl (by simp [decodeFirst, decodeFp, ifRm, ifRmB0, wRm, checked, h]) r

theorem Laws.Recoding.fcvtF32N32 (d a : BitVec 5) (rm : BitVec 3) : Statement (.fcvtF32N32 d a rm) := fun h _ r =>
  recode_one (w := encRR 0x14 d a 0 (encRm rm) 0x10) rfl (by simp [decodeFirst, decodeFp, ifRm, ifRmB0, wRm, checked, h]) r

theorem Laws.Recoding.fmvS (d a : BitVec 5) : Statement (.fmvS d a) := fun h _ r =>
  recode_one (w := encRR 0x14 d a 0 0 0x11) rfl (by simp [decodeFirst, decodeFp, ifBC0, checked, h]) r

theorem Laws.Recoding.fmvF (d a : BitVec 5) : Statement (.fmvF d a) := fun h _ r =>
  recode_one (w := encRR 0x14 d a 0 0 0x12) rfl (by simp [decodeFirst, decodeFp, ifBC0, checked, h]) r

theorem Laws.Recoding.fcvtBf16F32 (d a : BitVec 5) (rm : BitVec 3) : Statement (.fcvtBf16F32 d a rm) := fun h _ r =>
  recode_one (w := encRR 0x14 d a 0 (encRm rm) 0x13) rfl (by simp [decodeFirst, decodeFp, ifRm, ifRmB0, wRm, checked, h]) r

theorem Laws.Recoding.fcvtF32Bf16 (d a : BitVec 5) : Statement (.fcvtF32Bf16 d a) := fun h _ r =>
  recode_one (w := encRR 0x14 d a 0 0 0x14) rfl (by simp [decodeFirst, decodeFp, ifBC0, checked, h]) r

theorem Laws.Recoding.fcvtF16F32 (d a : BitVec 5) (rm : BitVec 3) : Statement (.fcvtF16F32 d a rm) := fun h _ r =>
  recode_one (w := encRR 0x14 d a 0 (encRm rm) 0x15) rfl (by simp [decodeFirst, decodeFp, ifRm, ifRmB0, wRm, checked, h]) r

theorem Laws.Recoding.fcvtF32F16 (d a : BitVec 5) : Statement (.fcvtF32F16 d a) := fun h _ r =>
  recode_one (w := encRR 0x14 d a 0 0 0x16) rfl (by simp [decodeFirst, decodeFp, ifBC0, checked, h]) r

theorem Laws.Recoding.fma (d a b c : BitVec 5) (rm : BitVec 3) : Statement (.fma d a b c rm) := fun h _ r =>
  recode_one (w := encRR 0x15 d a b c (rm ++ (0 : BitVec 3))) rfl (by simp [decodeFirst, decodeFma, checked, h]) r

theorem Laws.Recoding.fms (d a b c : BitVec 5) (rm : BitVec 3) : Statement (.fms d a b c rm) := fun h _ r =>
  recode_one (w := encRR 0x15 d a b c (rm ++ (1 : BitVec 3))) rfl (by simp [decodeFirst, decodeFma, checked, h]) r

theorem Laws.Recoding.fnma (d a b c : BitVec 5) (rm : BitVec 3) : Statement (.fnma d a b c rm) := fun h _ r =>
  recode_one (w := encRR 0x15 d a b c (rm ++ (2 : BitVec 3))) rfl (by simp [decodeFirst, decodeFma, checked, h]) r

theorem Laws.Recoding.fnms (d a b c : BitVec 5) (rm : BitVec 3) : Statement (.fnms d a b c rm) := fun h _ r =>
  recode_one (w := encRR 0x15 d a b c (rm ++ (3 : BitVec 3))) rfl (by simp [decodeFirst, decodeFma, checked, h]) r

theorem Laws.Recoding.ldS8 (d a : BitVec 5) (imm : BitVec 16) : Statement (.ldS8 d a imm) := fun h _ r =>
  recode_one (w := encRI 0x18 d a imm) rfl (by simp [decodeFirst, checked, h]) r

theorem Laws.Recoding.ldN8 (d a : BitVec 5) (imm : BitVec 16) : Statement (.ldN8 d a imm) := fun h _ r =>
  recode_one (w := encRI 0x19 d a imm) rfl (by simp [decodeFirst, checked, h]) r

theorem Laws.Recoding.ldS16 (d a : BitVec 5) (imm : BitVec 16) : Statement (.ldS16 d a imm) := fun h _ r =>
  recode_one (w := encRI 0x1A d a imm) rfl (by simp [decodeFirst, checked, h]) r

theorem Laws.Recoding.ldN16 (d a : BitVec 5) (imm : BitVec 16) : Statement (.ldN16 d a imm) := fun h _ r =>
  recode_one (w := encRI 0x1B d a imm) rfl (by simp [decodeFirst, checked, h]) r

theorem Laws.Recoding.ldS32 (d a : BitVec 5) (imm : BitVec 16) : Statement (.ldS32 d a imm) := fun h _ r =>
  recode_one (w := encRI 0x1C d a imm) rfl (by simp [decodeFirst, checked, h]) r

theorem Laws.Recoding.ldN32 (d a : BitVec 5) (imm : BitVec 16) : Statement (.ldN32 d a imm) := fun h _ r =>
  recode_one (w := encRI 0x1D d a imm) rfl (by simp [decodeFirst, checked, h]) r

theorem Laws.Recoding.ldB64 (d a : BitVec 5) (imm : BitVec 16) : Statement (.ldB64 d a imm) := fun h _ r =>
  recode_one (w := encRI 0x1E d a imm) rfl (by simp [decodeFirst, checked, h]) r

theorem Laws.Recoding.fld (d a : BitVec 5) (imm : BitVec 16) : Statement (.fld d a imm) := fun h _ r =>
  recode_one (w := encRI 0x1F d a imm) rfl (by simp [decodeFirst, checked, h]) r

theorem Laws.Recoding.stB8 (d a : BitVec 5) (imm : BitVec 16) : Statement (.stB8 d a imm) := fun h _ r =>
  recode_one (w := encRI 0x20 d a imm) rfl (by simp [decodeFirst, checked, h]) r

theorem Laws.Recoding.stB16 (d a : BitVec 5) (imm : BitVec 16) : Statement (.stB16 d a imm) := fun h _ r =>
  recode_one (w := encRI 0x21 d a imm) rfl (by simp [decodeFirst, checked, h]) r

theorem Laws.Recoding.stB32 (d a : BitVec 5) (imm : BitVec 16) : Statement (.stB32 d a imm) := fun h _ r =>
  recode_one (w := encRI 0x22 d a imm) rfl (by simp [decodeFirst, checked, h]) r

theorem Laws.Recoding.stB64 (d a : BitVec 5) (imm : BitVec 16) : Statement (.stB64 d a imm) := fun h _ r =>
  recode_one (w := encRI 0x23 d a imm) rfl (by simp [decodeFirst, checked, h]) r

theorem Laws.Recoding.fst (d a : BitVec 5) (imm : BitVec 16) : Statement (.fst d a imm) := fun h _ r =>
  recode_one (w := encRI 0x24 d a imm) rfl (by simp [decodeFirst, checked, h]) r

theorem Laws.Recoding.ldAcqB32 (d a b : BitVec 5) : Statement (.ldAcqB32 d a b) := fun h _ r =>
  recode_one (w := encRR 0x25 d a b 0 0x00) rfl (by simp [decodeFirst, decodeMemx, ifC0, checked, h]) r

theorem Laws.Recoding.ldAcqB64 (d a b : BitVec 5) : Statement (.ldAcqB64 d a b) := fun h _ r =>
  recode_one (w := encRR 0x25 d a b 0 0x01) rfl (by simp [decodeFirst, decodeMemx, ifC0, checked, h]) r

theorem Laws.Recoding.stRelB32 (d a b : BitVec 5) : Statement (.stRelB32 d a b) := fun h _ r =>
  recode_one (w := encRR 0x25 d a b 0 0x02) rfl (by simp [decodeFirst, decodeMemx, ifC0, checked, h]) r

theorem Laws.Recoding.stRelB64 (d a b : BitVec 5) : Statement (.stRelB64 d a b) := fun h _ r =>
  recode_one (w := encRR 0x25 d a b 0 0x03) rfl (by simp [decodeFirst, decodeMemx, ifC0, checked, h]) r

theorem Laws.Recoding.fence (sc : BitVec 5) : Statement (.fence sc) := fun h _ r =>
  recode_one (w := encRR 0x25 0 0 0 sc 0x04) rfl (by simp [decodeFirst, decodeMemx, checked, h]) r

theorem Laws.Recoding.amoAddB64 (d a b : BitVec 5) (ord : BitVec 2) : Statement (.amoAddB64 d a b ord) := fun h _ r =>
  recode_one (w := encRR 0x26 d a b 0 (ord ++ (0x0 : BitVec 4))) rfl (by simp [decodeFirst, decodeAmoB64, ifC0, checked, h]) r

theorem Laws.Recoding.amoMinSB64 (d a b : BitVec 5) (ord : BitVec 2) : Statement (.amoMinSB64 d a b ord) := fun h _ r =>
  recode_one (w := encRR 0x26 d a b 0 (ord ++ (0x1 : BitVec 4))) rfl (by simp [decodeFirst, decodeAmoB64, ifC0, checked, h]) r

theorem Laws.Recoding.amoMinNB64 (d a b : BitVec 5) (ord : BitVec 2) : Statement (.amoMinNB64 d a b ord) := fun h _ r =>
  recode_one (w := encRR 0x26 d a b 0 (ord ++ (0x2 : BitVec 4))) rfl (by simp [decodeFirst, decodeAmoB64, ifC0, checked, h]) r

theorem Laws.Recoding.amoMaxSB64 (d a b : BitVec 5) (ord : BitVec 2) : Statement (.amoMaxSB64 d a b ord) := fun h _ r =>
  recode_one (w := encRR 0x26 d a b 0 (ord ++ (0x3 : BitVec 4))) rfl (by simp [decodeFirst, decodeAmoB64, ifC0, checked, h]) r

theorem Laws.Recoding.amoMaxNB64 (d a b : BitVec 5) (ord : BitVec 2) : Statement (.amoMaxNB64 d a b ord) := fun h _ r =>
  recode_one (w := encRR 0x26 d a b 0 (ord ++ (0x4 : BitVec 4))) rfl (by simp [decodeFirst, decodeAmoB64, ifC0, checked, h]) r

theorem Laws.Recoding.amoAndB64 (d a b : BitVec 5) (ord : BitVec 2) : Statement (.amoAndB64 d a b ord) := fun h _ r =>
  recode_one (w := encRR 0x26 d a b 0 (ord ++ (0x5 : BitVec 4))) rfl (by simp [decodeFirst, decodeAmoB64, ifC0, checked, h]) r

theorem Laws.Recoding.amoOrB64 (d a b : BitVec 5) (ord : BitVec 2) : Statement (.amoOrB64 d a b ord) := fun h _ r =>
  recode_one (w := encRR 0x26 d a b 0 (ord ++ (0x6 : BitVec 4))) rfl (by simp [decodeFirst, decodeAmoB64, ifC0, checked, h]) r

theorem Laws.Recoding.amoXorB64 (d a b : BitVec 5) (ord : BitVec 2) : Statement (.amoXorB64 d a b ord) := fun h _ r =>
  recode_one (w := encRR 0x26 d a b 0 (ord ++ (0x7 : BitVec 4))) rfl (by simp [decodeFirst, decodeAmoB64, ifC0, checked, h]) r

theorem Laws.Recoding.amoSwapB64 (d a b : BitVec 5) (ord : BitVec 2) : Statement (.amoSwapB64 d a b ord) := fun h _ r =>
  recode_one (w := encRR 0x26 d a b 0 (ord ++ (0x8 : BitVec 4))) rfl (by simp [decodeFirst, decodeAmoB64, ifC0, checked, h]) r

theorem Laws.Recoding.amoCasB64 (d a b c : BitVec 5) (ord : BitVec 2) : Statement (.amoCasB64 d a b c ord) := fun h _ r =>
  recode_one (w := encRR 0x26 d a b c (ord ++ (0x9 : BitVec 4))) rfl (by simp [decodeFirst, decodeAmoB64, checked, h]) r

theorem Laws.Recoding.amoAddB32 (d a b : BitVec 5) (ord : BitVec 2) : Statement (.amoAddB32 d a b ord) := fun h _ r =>
  recode_one (w := encRR 0x27 d a b 0 (ord ++ (0x0 : BitVec 4))) rfl (by simp [decodeFirst, decodeAmoB32, ifC0, checked, h]) r

theorem Laws.Recoding.amoMinSB32 (d a b : BitVec 5) (ord : BitVec 2) : Statement (.amoMinSB32 d a b ord) := fun h _ r =>
  recode_one (w := encRR 0x27 d a b 0 (ord ++ (0x1 : BitVec 4))) rfl (by simp [decodeFirst, decodeAmoB32, ifC0, checked, h]) r

theorem Laws.Recoding.amoMinNB32 (d a b : BitVec 5) (ord : BitVec 2) : Statement (.amoMinNB32 d a b ord) := fun h _ r =>
  recode_one (w := encRR 0x27 d a b 0 (ord ++ (0x2 : BitVec 4))) rfl (by simp [decodeFirst, decodeAmoB32, ifC0, checked, h]) r

theorem Laws.Recoding.amoMaxSB32 (d a b : BitVec 5) (ord : BitVec 2) : Statement (.amoMaxSB32 d a b ord) := fun h _ r =>
  recode_one (w := encRR 0x27 d a b 0 (ord ++ (0x3 : BitVec 4))) rfl (by simp [decodeFirst, decodeAmoB32, ifC0, checked, h]) r

theorem Laws.Recoding.amoMaxNB32 (d a b : BitVec 5) (ord : BitVec 2) : Statement (.amoMaxNB32 d a b ord) := fun h _ r =>
  recode_one (w := encRR 0x27 d a b 0 (ord ++ (0x4 : BitVec 4))) rfl (by simp [decodeFirst, decodeAmoB32, ifC0, checked, h]) r

theorem Laws.Recoding.amoAndB32 (d a b : BitVec 5) (ord : BitVec 2) : Statement (.amoAndB32 d a b ord) := fun h _ r =>
  recode_one (w := encRR 0x27 d a b 0 (ord ++ (0x5 : BitVec 4))) rfl (by simp [decodeFirst, decodeAmoB32, ifC0, checked, h]) r

theorem Laws.Recoding.amoOrB32 (d a b : BitVec 5) (ord : BitVec 2) : Statement (.amoOrB32 d a b ord) := fun h _ r =>
  recode_one (w := encRR 0x27 d a b 0 (ord ++ (0x6 : BitVec 4))) rfl (by simp [decodeFirst, decodeAmoB32, ifC0, checked, h]) r

theorem Laws.Recoding.amoXorB32 (d a b : BitVec 5) (ord : BitVec 2) : Statement (.amoXorB32 d a b ord) := fun h _ r =>
  recode_one (w := encRR 0x27 d a b 0 (ord ++ (0x7 : BitVec 4))) rfl (by simp [decodeFirst, decodeAmoB32, ifC0, checked, h]) r

theorem Laws.Recoding.amoSwapB32 (d a b : BitVec 5) (ord : BitVec 2) : Statement (.amoSwapB32 d a b ord) := fun h _ r =>
  recode_one (w := encRR 0x27 d a b 0 (ord ++ (0x8 : BitVec 4))) rfl (by simp [decodeFirst, decodeAmoB32, ifC0, checked, h]) r

theorem Laws.Recoding.amoCasB32 (d a b c : BitVec 5) (ord : BitVec 2) : Statement (.amoCasB32 d a b c ord) := fun h _ r =>
  recode_one (w := encRR 0x27 d a b c (ord ++ (0x9 : BitVec 4))) rfl (by simp [decodeFirst, decodeAmoB32, checked, h]) r

theorem Laws.Recoding.ticket (d a b : BitVec 5) : Statement (.ticket d a b) := fun h _ r =>
  recode_one (w := encRR 0x26 d a b 0 ((0 : BitVec 2) ++ (0xA : BitVec 4))) rfl
    (by rw [decode_ticket (wMaj_encRR _ _ _ _ _ _) (amoOp_encRR _ _ _ _ _ _ _) (amoOrd_encRR _ _ _ _ _ _ _)]; simp [ifC0, checked, h]) r

theorem Laws.Recoding.copy (x : Bool) (tok a b c : BitVec 5) (e : EngExt) : Statement (.copy x tok a b c e) := fun h _ r => by
  cases x
  · obtain rfl : e = EngExt.zero := by simpa [Instr.wf, EngExt.wfPlain] using (Bool.and_eq_true_iff.1 h).2
    exact recode_one (w := encEX 0x28 false tok a b c 0x00) rfl (by simp [decodeFirst, decodeEx, engineOf, checked, h]) r
  · exact recode_two (w := encEX 0x28 true tok a b c 0x00) (e := encExt e) rfl (by simp [decodeFirst, decodeEx, engineOf])
      (by simp [decodeTwo, engineOf, h]) r

theorem Laws.Recoding.gather (x : Bool) (tok a b c : BitVec 5) (e : EngExt) : Statement (.gather x tok a b c e) := fun h _ r => by
  cases x
  · obtain rfl : e = EngExt.zero := by simpa [Instr.wf, EngExt.wfPlain] using (Bool.and_eq_true_iff.1 h).2
    exact recode_one (w := encEX 0x28 false tok a b c 0x01) rfl (by simp [decodeFirst, decodeEx, engineOf, checked, h]) r
  · exact recode_two (w := encEX 0x28 true tok a b c 0x01) (e := encExt e) rfl (by simp [decodeFirst, decodeEx, engineOf])
      (by simp [decodeTwo, engineOf, h]) r

theorem Laws.Recoding.scatter (x : Bool) (tok a b c : BitVec 5) (e : EngExt) : Statement (.scatter x tok a b c e) := fun h _ r => by
  cases x
  · obtain rfl : e = EngExt.zero := by simpa [Instr.wf, EngExt.wfPlain] using (Bool.and_eq_true_iff.1 h).2
    exact recode_one (w := encEX 0x28 false tok a b c 0x02) rfl (by simp [decodeFirst, decodeEx, engineOf, checked, h]) r
  · exact recode_two (w := encEX 0x28 true tok a b c 0x02) (e := encExt e) rfl (by simp [decodeFirst, decodeEx, engineOf])
      (by simp [decodeTwo, engineOf, h]) r

theorem Laws.Recoding.fill (x : Bool) (tok a b c : BitVec 5) (e : EngExt) : Statement (.fill x tok a b c e) := fun h _ r => by
  cases x
  · obtain rfl : e = EngExt.zero := by simpa [Instr.wf, EngExt.wfPlain] using (Bool.and_eq_true_iff.1 h).2
    exact recode_one (w := encEX 0x28 false tok a b c 0x03) rfl (by simp [decodeFirst, decodeEx, engineOf, checked, h]) r
  · exact recode_two (w := encEX 0x28 true tok a b c 0x03) (e := encExt e) rfl (by simp [decodeFirst, decodeEx, engineOf])
      (by simp [decodeTwo, engineOf, h]) r

theorem Laws.Recoding.copyChain (x : Bool) (tok a b c : BitVec 5) (e : EngExt) : Statement (.copyChain x tok a b c e) := fun h _ r => by
  cases x
  · obtain rfl : e = EngExt.zero := by simpa [Instr.wf, EngExt.wfPlain] using (Bool.and_eq_true_iff.1 h).2
    exact recode_one (w := encEX 0x28 false tok a b c 0x04) rfl (by simp [decodeFirst, decodeEx, engineOf, checked, h]) r
  · exact recode_two (w := encEX 0x28 true tok a b c 0x04) (e := encExt e) rfl (by simp [decodeFirst, decodeEx, engineOf])
      (by simp [decodeTwo, engineOf, h]) r

theorem Laws.Recoding.collBcast (x : Bool) (tok a b c : BitVec 5) (e : EngExt) : Statement (.collBcast x tok a b c e) := fun h _ r => by
  cases x
  · obtain rfl : e = EngExt.zero := by simpa [Instr.wf, EngExt.wfPlain] using (Bool.and_eq_true_iff.1 h).2
    exact recode_one (w := encEX 0x28 false tok a b c 0x08) rfl (by simp [decodeFirst, decodeEx, engineOf, checked, h]) r
  · exact recode_two (w := encEX 0x28 true tok a b c 0x08) (e := encExt e) rfl (by simp [decodeFirst, decodeEx, engineOf])
      (by simp [decodeTwo, engineOf, h]) r

theorem Laws.Recoding.collReduce (x : Bool) (tok a b c : BitVec 5) (e : EngExt) : Statement (.collReduce x tok a b c e) := fun h _ r => by
  cases x
  · obtain rfl : e = EngExt.zero := by simpa [Instr.wf, EngExt.wfRed] using (Bool.and_eq_true_iff.1 h).2
    exact recode_one (w := encEX 0x28 false tok a b c 0x09) rfl (by simp [decodeFirst, decodeEx, engineOf, checked, h]) r
  · exact recode_two (w := encEX 0x28 true tok a b c 0x09) (e := encExt e) rfl (by simp [decodeFirst, decodeEx, engineOf])
      (by simp [decodeTwo, engineOf, h]) r

theorem Laws.Recoding.collAllreduce (x : Bool) (tok a b c : BitVec 5) (e : EngExt) : Statement (.collAllreduce x tok a b c e) := fun h _ r => by
  cases x
  · obtain rfl : e = EngExt.zero := by simpa [Instr.wf, EngExt.wfRed] using (Bool.and_eq_true_iff.1 h).2
    exact recode_one (w := encEX 0x28 false tok a b c 0x0A) rfl (by simp [decodeFirst, decodeEx, engineOf, checked, h]) r
  · exact recode_two (w := encEX 0x28 true tok a b c 0x0A) (e := encExt e) rfl (by simp [decodeFirst, decodeEx, engineOf])
      (by simp [decodeTwo, engineOf, h]) r

theorem Laws.Recoding.collAllgather (x : Bool) (tok a b c : BitVec 5) (e : EngExt) : Statement (.collAllgather x tok a b c e) := fun h _ r => by
  cases x
  · obtain rfl : e = EngExt.zero := by simpa [Instr.wf, EngExt.wfPlain] using (Bool.and_eq_true_iff.1 h).2
    exact recode_one (w := encEX 0x28 false tok a b c 0x0B) rfl (by simp [decodeFirst, decodeEx, engineOf, checked, h]) r
  · exact recode_two (w := encEX 0x28 true tok a b c 0x0B) (e := encExt e) rfl (by simp [decodeFirst, decodeEx, engineOf])
      (by simp [decodeTwo, engineOf, h]) r

theorem Laws.Recoding.collA2a (x : Bool) (tok a b c : BitVec 5) (e : EngExt) : Statement (.collA2a x tok a b c e) := fun h _ r => by
  cases x
  · obtain rfl : e = EngExt.zero := by simpa [Instr.wf, EngExt.wfPlain] using (Bool.and_eq_true_iff.1 h).2
    exact recode_one (w := encEX 0x28 false tok a b c 0x0C) rfl (by simp [decodeFirst, decodeEx, engineOf, checked, h]) r
  · exact recode_two (w := encEX 0x28 true tok a b c 0x0C) (e := encExt e) rfl (by simp [decodeFirst, decodeEx, engineOf])
      (by simp [decodeTwo, engineOf, h]) r

theorem Laws.Recoding.wait (cls : BitVec 5) (lim : BitVec 16) : Statement (.wait cls lim) := fun h _ r =>
  recode_one (w := encRI 0x29 cls 0 lim) rfl (by simp [decodeFirst, ifA0, checked, h]) r

theorem Laws.Recoding.sspec (x : Bool) (tok a b c : BitVec 5) (ahead : BitVec 16) : Statement (.sspec x tok a b c ahead) := fun h _ r => by
  cases x
  · obtain rfl : ahead = 0 := by simpa [Instr.wf, wfAhead] using (Bool.and_eq_true_iff.1 h).2
    exact recode_one (w := encEX 0x2A false tok a b c 0x00) rfl (by simp [decodeFirst, decodeEx, streamOf, checked]; exact h) r
  · exact recode_two (w := encEX 0x2A true tok a b c 0x00) (e := ahead ++ (0 : BitVec 16)) rfl (by simp [decodeFirst, decodeEx, streamOf])
      (decodeTwo_stream (wMaj_encEX _ _ _ _ _ _ _) (by simp [streamOf]) h) r

theorem Laws.Recoding.sbar (x : Bool) (tok a b c : BitVec 5) : Statement (.sbar x tok a b c) := fun h _ r => by
  cases x
  · exact recode_one (w := encEX 0x2A false tok a b c 0x01) rfl (by simp [decodeFirst, decodeEx, streamOf, checked, h]) r
  · exact recode_two (w := encEX 0x2A true tok a b c 0x01) (e := (0 : BitVec 16) ++ (0 : BitVec 16)) rfl (by simp [decodeFirst, decodeEx, streamOf])
      (decodeTwo_stream (wMaj_encEX _ _ _ _ _ _ _) (by simp [streamOf]) h) r

theorem Laws.Recoding.scond (x : Bool) (tok a b : BitVec 5) (ahead : BitVec 16) : Statement (.scond x tok a b ahead) := fun h _ r => by
  cases x
  · obtain rfl : ahead = 0 := by simpa [Instr.wf, wfAhead] using (Bool.and_eq_true_iff.1 h).2
    exact recode_one (w := encEX 0x2A false tok a b 0 0x02) rfl (by simp [decodeFirst, decodeEx, streamOf, checked]; exact h) r
  · exact recode_two (w := encEX 0x2A true tok a b 0 0x02) (e := ahead ++ (0 : BitVec 16)) rfl (by simp [decodeFirst, decodeEx, streamOf])
      (decodeTwo_stream (wMaj_encEX _ _ _ _ _ _ _) (by simp [streamOf]) h) r

theorem Laws.Recoding.cfgLoad (d a b c : BitVec 5) : Statement (.cfgLoad d a b c) := fun h _ r =>
  recode_one (w := encRR 0x2B d a b c 0x00) rfl (by simp [decodeFirst, decodeCfg, checked, h]) r

theorem Laws.Recoding.cfgArm (d a b c : BitVec 5) : Statement (.cfgArm d a b c) := fun h _ r =>
  recode_one (w := encRR 0x2B d a b c 0x01) rfl (by simp [decodeFirst, decodeCfg, checked, h]) r

theorem Laws.Recoding.cfgSwap (d b c : BitVec 5) : Statement (.cfgSwap d b c) := fun h _ r =>
  recode_one (w := encRR 0x2B d 0 b c 0x02) rfl (by simp [decodeFirst, decodeCfg, ifA0, checked, h]) r

theorem Laws.Recoding.cfgDrain (d b c : BitVec 5) : Statement (.cfgDrain d b c) := fun h _ r =>
  recode_one (w := encRR 0x2B d 0 b c 0x03) rfl (by simp [decodeFirst, decodeCfg, ifA0, checked, h]) r

theorem Laws.Recoding.cfgSave (d a b c : BitVec 5) : Statement (.cfgSave d a b c) := fun h _ r =>
  recode_one (w := encRR 0x2B d a b c 0x04) rfl (by simp [decodeFirst, decodeCfg, checked, h]) r

theorem Laws.Recoding.cfgRest (d a b c : BitVec 5) : Statement (.cfgRest d a b c) := fun h _ r =>
  recode_one (w := encRR 0x2B d a b c 0x05) rfl (by simp [decodeFirst, decodeCfg, checked, h]) r

theorem Laws.Recoding.cfgQuery (d b c : BitVec 5) : Statement (.cfgQuery d b c) := fun h _ r =>
  recode_one (w := encRR 0x2B d 0 b c 0x06) rfl (by simp [decodeFirst, decodeCfg, ifA0, checked, h]) r

theorem Laws.Recoding.launch (d a : BitVec 5) : Statement (.launch d a) := fun h _ r =>
  recode_one (w := encRR 0x2C d a 0 0 0x00) rfl (by simp [decodeFirst, decodeTask, ifBC0, checked, h]) r

theorem Laws.Recoding.tspawn (d a b c : BitVec 5) : Statement (.tspawn d a b c) := fun h _ r =>
  recode_one (w := encRR 0x2C d a b c 0x01) rfl (by simp [decodeFirst, decodeTask, checked, h]) r

theorem Laws.Recoding.trig : Statement (.trig) := fun h _ r =>
  recode_one (w := encRR 0x2C 0 0 0 0 0x02) rfl (by simp [decodeFirst, decodeTask, ifD0, ifA0, ifBC0, checked, h]) r

theorem Laws.Recoding.exit (a b how : BitVec 5) : Statement (.exit a b how) := fun h _ r =>
  recode_one (w := encRR 0x2C 0 a b how 0x03) rfl (by simp [decodeFirst, decodeTask, ifD0, checked, h]) r

theorem Laws.Recoding.parkWord (a b c : BitVec 5) : Statement (.parkWord a b c) := fun h _ r =>
  recode_one (w := encRR 0x2C 0 a b c 0x04) rfl (by simp [decodeFirst, decodeTask, ifD0, checked, h]) r

theorem Laws.Recoding.parkBar (a b c : BitVec 5) : Statement (.parkBar a b c) := fun h _ r =>
  recode_one (w := encRR 0x2C 0 a b c 0x05) rfl (by simp [decodeFirst, decodeTask, ifD0, checked, h]) r

theorem Laws.Recoding.parkChan (a b c : BitVec 5) : Statement (.parkChan a b c) := fun h _ r =>
  recode_one (w := encRR 0x2C 0 a b c 0x06) rfl (by simp [decodeFirst, decodeTask, ifD0, checked, h]) r

theorem Laws.Recoding.msgSend (d a c : BitVec 5) : Statement (.msgSend d a c) := fun h _ r =>
  recode_one (w := encRR 0x2C d a 0 c 0x07) rfl (by simp [decodeFirst, decodeTask, checked, h]) r

theorem Laws.Recoding.incInit (d a b c : BitVec 5) : Statement (.incInit d a b c) := fun h _ r =>
  recode_one (w := encRR 0x2D d a b c 0x00) rfl (by simp [decodeFirst, decodeSearch, checked, h]) r

theorem Laws.Recoding.incRd (d a : BitVec 5) : Statement (.incRd d a) := fun h _ r =>
  recode_one (w := encRR 0x2D d a 0 0 0x01) rfl (by simp [decodeFirst, decodeSearch, ifBC0, checked, h]) r

theorem Laws.Recoding.incOffer (a b c : BitVec 5) : Statement (.incOffer a b c) := fun h _ r =>
  recode_one (w := encRR 0x2D 0 a b c 0x02) rfl (by simp [decodeFirst, decodeSearch, ifD0, checked, h]) r

theorem Laws.Recoding.incOfferI (d a b c : BitVec 5) : Statement (.incOfferI d a b c) := fun h _ r =>
  recode_one (w := encRR 0x2D d a b c 0x03) rfl (by simp [decodeFirst, decodeSearch, checked, h]) r

theorem Laws.Recoding.killpt (a : BitVec 5) : Statement (.killpt a) := fun h _ r =>
  recode_one (w := encRR 0x2D 0 a 0 0 0x04) rfl (by simp [decodeFirst, decodeSearch, ifD0, ifBC0, checked, h]) r

theorem Laws.Recoding.boundSet (a b : BitVec 5) : Statement (.boundSet a b) := fun h _ r =>
  recode_one (w := encRR 0x2D 0 a b 0 0x05) rfl (by simp [decodeFirst, decodeSearch, ifD0, ifC0, checked, h]) r

theorem Laws.Recoding.barInit (a b : BitVec 5) : Statement (.barInit a b) := fun h _ r =>
  recode_one (w := encRR 0x2E 0 a b 0 0x00) rfl (by simp [decodeFirst, decodeBarrier, ifD0, ifC0, checked, h]) r

theorem Laws.Recoding.barExpect (a b : BitVec 5) : Statement (.barExpect a b) := fun h _ r =>
  recode_one (w := encRR 0x2E 0 a b 0 0x01) rfl (by simp [decodeFirst, decodeBarrier, ifD0, ifC0, checked, h]) r

theorem Laws.Recoding.barArrive (d a b : BitVec 5) : Statement (.barArrive d a b) := fun h _ r =>
  recode_one (w := encRR 0x2E d a b 0 0x02) rfl (by simp [decodeFirst, decodeBarrier, ifC0, checked, h]) r

theorem Laws.Recoding.barTest (d a : BitVec 5) : Statement (.barTest d a) := fun h _ r =>
  recode_one (w := encRR 0x2E d a 0 0 0x03) rfl (by simp [decodeFirst, decodeBarrier, ifBC0, checked, h]) r

theorem Laws.Recoding.xprobe (d a : BitVec 5) : Statement (.xprobe d a) := fun h _ r =>
  recode_one (w := encRR 0x2F d a 0 0 0x00) rfl (by simp [decodeFirst, decodeXlate, ifBC0, checked, h]) r

theorem Laws.Recoding.xhintMig (d a b c : BitVec 5) : Statement (.xhintMig d a b c) := fun h _ r =>
  recode_one (w := encRR 0x2F d a b c 0x01) rfl (by simp [decodeFirst, decodeXlate, checked, h]) r

theorem Laws.Recoding.xhintPref (d a b : BitVec 5) : Statement (.xhintPref d a b) := fun h _ r =>
  recode_one (w := encRR 0x2F d a b 0 0x02) rfl (by simp [decodeFirst, decodeXlate, ifC0, checked, h]) r

theorem Laws.Recoding.xinv (d a b c : BitVec 5) : Statement (.xinv d a b c) := fun h _ r =>
  recode_one (w := encRR 0x2F d a b c 0x03) rfl (by simp [decodeFirst, decodeXlate, checked, h]) r

theorem Laws.Recoding.trap (code : BitVec 10) : Statement (.trap code) := fun h _ r =>
  recode_one (w := encSys 0 0 code 0x00) rfl (by simp [decodeFirst, decodeSystem, ifA0, ifD0, checked, h]) r

theorem Laws.Recoding.tret : Statement (.tret) := fun _ _ r => recode_one (w := encSys 0 0 0 0x01) rfl rfl r

theorem Laws.Recoding.sysrd (d : BitVec 5) (reg : BitVec 10) : Statement (.sysrd d reg) := fun h _ r =>
  recode_one (w := encSys d 0 reg 0x02) rfl (by simp [decodeFirst, decodeSystem, ifA0, checked, h]) r

theorem Laws.Recoding.syswr (a : BitVec 5) (reg : BitVec 10) : Statement (.syswr a reg) := fun h _ r =>
  recode_one (w := encSys 0 a reg 0x03) rfl (by simp [decodeFirst, decodeSystem, ifD0, checked, h]) r

theorem Laws.Recoding.halt : Statement (.halt) := fun _ _ r => recode_one (w := encSys 0 0 0 0x04) rfl rfl r

theorem Laws.Recoding.brk : Statement (.brk) := fun _ _ r => recode_one (w := encSys 0 0 0 0x05) rfl rfl r

theorem Laws.Recoding.nop : Statement (.nop) := fun _ _ r => recode_one (w := encSys 0 0 0 0x06) rfl rfl r

theorem Laws.Recoding.zreqQuery (d a : BitVec 5) : Statement (.zreqQuery d a) := fun h _ r =>
  recode_one (w := encRI 0x31 d a ((0 : BitVec 2) ++ (0 : BitVec 10) ++ (0 : BitVec 4))) rfl
    (by rw [decode_zreq (wMaj_encRI _ _ _ _) (zreqZ_encRI _ _ _ _), zreqK_encRI, zreqC_encRI]; simp [checked, h]) r

theorem Laws.Recoding.zreqRaise (d a : BitVec 5) (cls : BitVec 4) : Statement (.zreqRaise d a cls) := fun h _ r =>
  recode_one (w := encRI 0x31 d a ((1 : BitVec 2) ++ (0 : BitVec 10) ++ (cls : BitVec 4))) rfl
    (by rw [decode_zreq (wMaj_encRI _ _ _ _) (zreqZ_encRI _ _ _ _), zreqK_encRI, zreqC_encRI]; simp [checked, h]) r

theorem Laws.Recoding.zreqDrop (d a : BitVec 5) : Statement (.zreqDrop d a) := fun h _ r =>
  recode_one (w := encRI 0x31 d a ((2 : BitVec 2) ++ (0 : BitVec 10) ++ (0 : BitVec 4))) rfl
    (by rw [decode_zreq (wMaj_encRI _ _ _ _) (zreqZ_encRI _ _ _ _), zreqK_encRI, zreqC_encRI]; simp [checked, h]) r

theorem Laws.Recoding.li (d mode : BitVec 5) (ext : BitVec 32) : Statement (.li d mode ext) := fun h _ r =>
  recode_two (w := encRI 0x3E d mode 0) (e := ext) rfl
    (by simp [decodeFirst, show mode.toNat < 3 by simpa [Instr.wf] using h]) (by simp [decodeTwo, h]) r

theorem Laws.Recoding.handlerBudget (c : Nat) : Statement (.handlerBudget c) :=
  fun _ h => Bool.noConfusion (show true = false from h)

theorem Laws.Recoding.stallLimit (c : Nat) : Statement (.stallLimit c) :=
  fun _ h => Bool.noConfusion (show true = false from h)

theorem Laws.Recoding.stallFault (c : Nat) : Statement (.stallFault c) :=
  fun _ h => Bool.noConfusion (show true = false from h)

theorem Laws.Recoding.loadReturn (c k : Nat) : Statement (.loadReturn c k) :=
  fun _ h => Bool.noConfusion (show true = false from h)

theorem Laws.Recoding.storePerformed (c k : Nat) : Statement (.storePerformed c k) :=
  fun _ h => Bool.noConfusion (show true = false from h)

theorem Laws.Recoding.engineComplete (k : Nat) : Statement (.engineComplete k) :=
  fun _ h => Bool.noConfusion (show true = false from h)

theorem Laws.Recoding.streamCmdComplete (k : Nat) : Statement (.streamCmdComplete k) :=
  fun _ h => Bool.noConfusion (show true = false from h)

theorem Laws.Recoding.xlateCmdComplete (k : Nat) : Statement (.xlateCmdComplete k) :=
  fun _ h => Bool.noConfusion (show true = false from h)

theorem Laws.Recoding.cfgComplete (k : Nat) : Statement (.cfgComplete k) :=
  fun _ h => Bool.noConfusion (show true = false from h)

theorem Laws.Recoding.handlerStart (c : Nat) : Statement (.handlerStart c) :=
  fun _ h => Bool.noConfusion (show true = false from h)

theorem Laws.Recoding.coreSwitch (c : Nat) : Statement (.coreSwitch c) :=
  fun _ h => Bool.noConfusion (show true = false from h)

theorem Laws.Recoding.parkPost (c k : Nat) : Statement (.parkPost c k) :=
  fun _ h => Bool.noConfusion (show true = false from h)

theorem Laws.Recoding.ctxOpen (who : Agent) (x : Nat) : Statement (.ctxOpen who x) :=
  fun _ h => Bool.noConfusion (show true = false from h)

theorem Laws.Recoding.ctxQuiesce (who : Agent) (x : Nat) : Statement (.ctxQuiesce who x) :=
  fun _ h => Bool.noConfusion (show true = false from h)

theorem Laws.Recoding.ctxResume (who : Agent) (x : Nat) : Statement (.ctxResume who x) :=
  fun _ h => Bool.noConfusion (show true = false from h)

theorem Laws.Recoding.ctxClose (who : Agent) (x : Nat) : Statement (.ctxClose who x) :=
  fun _ h => Bool.noConfusion (show true = false from h)

theorem Laws.Recoding.ctxQuiesced (x : Nat) : Statement (.ctxQuiesced x) :=
  fun _ h => Bool.noConfusion (show true = false from h)

theorem Laws.Recoding.registerWrite (who : Agent) (pa : Nat) (v : Word) : Statement (.registerWrite who pa v) :=
  fun _ h => Bool.noConfusion (show true = false from h)

theorem Laws.Recoding.frbaseWrite (who : Agent) (pa : Nat) (v : Word) : Statement (.frbaseWrite who pa v) :=
  fun _ h => Bool.noConfusion (show true = false from h)

theorem Laws.Recoding.streamFill (c w : Nat) : Statement (.streamFill c w) :=
  fun _ h => Bool.noConfusion (show true = false from h)

theorem Laws.Recoding.packetHop (p j : Nat) (ok : Bool) : Statement (.packetHop p j ok) :=
  fun _ h => Bool.noConfusion (show true = false from h)

theorem Laws.Recoding.switchForward (p r : Nat) : Statement (.switchForward p r) :=
  fun _ h => Bool.noConfusion (show true = false from h)

theorem Laws.Recoding.packetAccept (p j : Nat) : Statement (.packetAccept p j) :=
  fun _ h => Bool.noConfusion (show true = false from h)

theorem Laws.Recoding.antiTokenHop (p j : Nat) (ok : Bool) : Statement (.antiTokenHop p j ok) :=
  fun _ h => Bool.noConfusion (show true = false from h)

theorem Laws.Recoding.antiTokenProducer (p j : Nat) : Statement (.antiTokenProducer p j) :=
  fun _ h => Bool.noConfusion (show true = false from h)

theorem Laws.Recoding.forkAntiToken (p j : Nat) : Statement (.forkAntiToken p j) :=
  fun _ h => Bool.noConfusion (show true = false from h)

theorem Laws.Recoding.ceFire (p : Nat) : Statement (.ceFire p) :=
  fun _ h => Bool.noConfusion (show true = false from h)

theorem Laws.Recoding.firingResult (p : Nat) : Statement (.firingResult p) :=
  fun _ h => Bool.noConfusion (show true = false from h)

theorem Laws.Recoding.eosForward (p : Nat) : Statement (.eosForward p) :=
  fun _ h => Bool.noConfusion (show true = false from h)

theorem Laws.Recoding.earlyJoinFire (p : Nat) : Statement (.earlyJoinFire p) :=
  fun _ h => Bool.noConfusion (show true = false from h)

theorem Laws.Recoding.steerFire (p : Nat) : Statement (.steerFire p) :=
  fun _ h => Bool.noConfusion (show true = false from h)

theorem Laws.Recoding.lcmergeStep (p : Nat) : Statement (.lcmergeStep p) :=
  fun _ h => Bool.noConfusion (show true = false from h)

theorem Laws.Recoding.cntEmit (p : Nat) : Statement (.cntEmit p) :=
  fun _ h => Bool.noConfusion (show true = false from h)

theorem Laws.Recoding.rngEmit (p : Nat) : Statement (.rngEmit p) :=
  fun _ h => Bool.noConfusion (show true = false from h)

theorem Laws.Recoding.bcvtBlock (p : Nat) : Statement (.bcvtBlock p) :=
  fun _ h => Bool.noConfusion (show true = false from h)

theorem Laws.Recoding.redResult (p : Nat) : Statement (.redResult p) :=
  fun _ h => Bool.noConfusion (show true = false from h)

theorem Laws.Recoding.markerArrive (p j : Nat) : Statement (.markerArrive p j) :=
  fun _ h => Bool.noConfusion (show true = false from h)

theorem Laws.Recoding.markerComplete (p : Nat) : Statement (.markerComplete p) :=
  fun _ h => Bool.noConfusion (show true = false from h)

theorem Laws.Recoding.matrixEntryPlace (p : Nat) : Statement (.matrixEntryPlace p) :=
  fun _ h => Bool.noConfusion (show true = false from h)

theorem Laws.Recoding.mmaExecute (p : Nat) : Statement (.mmaExecute p) :=
  fun _ h => Bool.noConfusion (show true = false from h)

theorem Laws.Recoding.matrixEosExecute (p : Nat) : Statement (.matrixEosExecute p) :=
  fun _ h => Bool.noConfusion (show true = false from h)

theorem Laws.Recoding.accReadExecute (p : Nat) : Statement (.accReadExecute p) :=
  fun _ h => Bool.noConfusion (show true = false from h)

theorem Laws.Recoding.accClrExecute (p : Nat) : Statement (.accClrExecute p) :=
  fun _ h => Bool.noConfusion (show true = false from h)

theorem Laws.Recoding.cbkLdExecute (p : Nat) : Statement (.cbkLdExecute p) :=
  fun _ h => Bool.noConfusion (show true = false from h)

theorem Laws.Recoding.lutFire (p : Nat) : Statement (.lutFire p) :=
  fun _ h => Bool.noConfusion (show true = false from h)

theorem Laws.Recoding.tileCountReached (g s : Nat) : Statement (.tileCountReached g s) :=
  fun _ h => Bool.noConfusion (show true = false from h)

theorem Laws.Recoding.mtRequest (p : Nat) : Statement (.mtRequest p) :=
  fun _ h => Bool.noConfusion (show true = false from h)

theorem Laws.Recoding.mtEntryRetire (p k : Nat) : Statement (.mtEntryRetire p k) :=
  fun _ h => Bool.noConfusion (show true = false from h)

theorem Laws.Recoding.ldfeWake (p k : Nat) : Statement (.ldfeWake p k) :=
  fun _ h => Bool.noConfusion (show true = false from h)

theorem Laws.Recoding.amoFire (p : Nat) : Statement (.amoFire p) :=
  fun _ h => Bool.noConfusion (show true = false from h)

theorem Laws.Recoding.qpush (p : Nat) : Statement (.qpush p) :=
  fun _ h => Bool.noConfusion (show true = false from h)

theorem Laws.Recoding.qpop (p : Nat) : Statement (.qpop p) :=
  fun _ h => Bool.noConfusion (show true = false from h)

theorem Laws.Recoding.queueDry (p : Nat) : Statement (.queueDry p) :=
  fun _ h => Bool.noConfusion (show true = false from h)

theorem Laws.Recoding.doneFire (p : Nat) : Statement (.doneFire p) :=
  fun _ h => Bool.noConfusion (show true = false from h)

theorem Laws.Recoding.tileLd (p : Nat) : Statement (.tileLd p) :=
  fun _ h => Bool.noConfusion (show true = false from h)

theorem Laws.Recoding.blockRelease (p k : Nat) : Statement (.blockRelease p k) :=
  fun _ h => Bool.noConfusion (show true = false from h)

theorem Laws.Recoding.committedStoreAnti (p j : Nat) : Statement (.committedStoreAnti p j) :=
  fun _ h => Bool.noConfusion (show true = false from h)

theorem Laws.Recoding.tileGatherElement (k : Nat) : Statement (.tileGatherElement k) :=
  fun _ h => Bool.noConfusion (show true = false from h)

theorem Laws.Recoding.streamRequest (p : Nat) : Statement (.streamRequest p) :=
  fun _ h => Bool.noConfusion (show true = false from h)

theorem Laws.Recoding.streamResponse (p : Nat) : Statement (.streamResponse p) :=
  fun _ h => Bool.noConfusion (show true = false from h)

theorem Laws.Recoding.streamWrite (p : Nat) : Statement (.streamWrite p) :=
  fun _ h => Bool.noConfusion (show true = false from h)

theorem Laws.Recoding.feedbackEmit (p : Nat) : Statement (.feedbackEmit p) :=
  fun _ h => Bool.noConfusion (show true = false from h)

theorem Laws.Recoding.xltFire (p : Nat) : Statement (.xltFire p) :=
  fun _ h => Bool.noConfusion (show true = false from h)

theorem Laws.Recoding.ownHandover (p : Nat) : Statement (.ownHandover p) :=
  fun _ h => Bool.noConfusion (show true = false from h)

theorem Laws.Recoding.barArrFire (p : Nat) : Statement (.barArrFire p) :=
  fun _ h => Bool.noConfusion (show true = false from h)

theorem Laws.Recoding.barrierStep (pa : Nat) (e y : BitVec 32) (n : Nat) : Statement (.barrierStep pa e y n) :=
  fun _ h => Bool.noConfusion (show true = false from h)

theorem Laws.Recoding.slotDrained (g : Nat) : Statement (.slotDrained g) :=
  fun _ h => Bool.noConfusion (show true = false from h)

theorem Laws.Recoding.swapTakesEffect (g : Nat) : Statement (.swapTakesEffect g) :=
  fun _ h => Bool.noConfusion (show true = false from h)

theorem Laws.Recoding.hostSlotWrite (m x d j o : Nat) (bytes : List Byte) : Statement (.hostSlotWrite m x d j o bytes) :=
  fun _ h => Bool.noConfusion (show true = false from h)

theorem Laws.Recoding.qctlWrite (who : Agent) (d j : Nat) (v : Word) : Statement (.qctlWrite who d j v) :=
  fun _ h => Bool.noConfusion (show true = false from h)

theorem Laws.Recoding.jobIntake (d : Nat) : Statement (.jobIntake d) :=
  fun _ h => Bool.noConfusion (show true = false from h)

theorem Laws.Recoding.taskReady (d t : Nat) : Statement (.taskReady d t) :=
  fun _ h => Bool.noConfusion (show true = false from h)

theorem Laws.Recoding.taskDispatch (d : Nat) : Statement (.taskDispatch d) :=
  fun _ h => Bool.noConfusion (show true = false from h)

theorem Laws.Recoding.taskRelease (d t : Nat) : Statement (.taskRelease d t) :=
  fun _ h => Bool.noConfusion (show true = false from h)

theorem Laws.Recoding.jobComplete (d n : Nat) : Statement (.jobComplete d n) :=
  fun _ h => Bool.noConfusion (show true = false from h)

theorem Laws.Recoding.groupDispatch (d t g : Nat) : Statement (.groupDispatch d t g) :=
  fun _ h => Bool.noConfusion (show true = false from h)

theorem Laws.Recoding.groupRunning (d t g : Nat) : Statement (.groupRunning d t g) :=
  fun _ h => Bool.noConfusion (show true = false from h)

theorem Laws.Recoding.gpreqMarker (d t g : Nat) : Statement (.gpreqMarker d t g) :=
  fun _ h => Bool.noConfusion (show true = false from h)

theorem Laws.Recoding.gpreqStep (d t g : Nat) : Statement (.gpreqStep d t g) :=
  fun _ h => Bool.noConfusion (show true = false from h)

theorem Laws.Recoding.quietPoint (d t g : Nat) : Statement (.quietPoint d t g) :=
  fun _ h => Bool.noConfusion (show true = false from h)

theorem Laws.Recoding.stepDeadline (d t g : Nat) : Statement (.stepDeadline d t g) :=
  fun _ h => Bool.noConfusion (show true = false from h)

theorem Laws.Recoding.preemptSaved (d t g : Nat) : Statement (.preemptSaved d t g) :=
  fun _ h => Bool.noConfusion (show true = false from h)

theorem Laws.Recoding.groupRestore (d t g : Nat) : Statement (.groupRestore d t g) :=
  fun _ h => Bool.noConfusion (show true = false from h)

theorem Laws.Recoding.groupFree (d t g : Nat) : Statement (.groupFree d t g) :=
  fun _ h => Bool.noConfusion (show true = false from h)

theorem Laws.Recoding.specCommit (d t : Nat) : Statement (.specCommit d t) :=
  fun _ h => Bool.noConfusion (show true = false from h)

theorem Laws.Recoding.specIrrevocable (d t : Nat) : Statement (.specIrrevocable d t) :=
  fun _ h => Bool.noConfusion (show true = false from h)

theorem Laws.Recoding.offerArrive (n : Nat) : Statement (.offerArrive n) :=
  fun _ h => Bool.noConfusion (show true = false from h)

theorem Laws.Recoding.incUpdateCopy (n d : Nat) : Statement (.incUpdateCopy n d) :=
  fun _ h => Bool.noConfusion (show true = false from h)

theorem Laws.Recoding.lynxSweep (d : Nat) : Statement (.lynxSweep d) :=
  fun _ h => Bool.noConfusion (show true = false from h)

theorem Laws.Recoding.kernelKill (d t : Nat) : Statement (.kernelKill d t) :=
  fun _ h => Bool.noConfusion (show true = false from h)

theorem Laws.Recoding.beaverInterval (d : Nat) (sens : List Word) (press : Nat) : Statement (.beaverInterval d sens press) :=
  fun _ h => Bool.noConfusion (show true = false from h)

theorem Laws.Recoding.primeTimeout (d z : Nat) : Statement (.primeTimeout d z) :=
  fun _ h => Bool.noConfusion (show true = false from h)

theorem Laws.Recoding.allocTimeout (d z : Nat) : Statement (.allocTimeout d z) :=
  fun _ h => Bool.noConfusion (show true = false from h)

theorem Laws.Recoding.alarmLockTimeout (d z : Nat) : Statement (.alarmLockTimeout d z) :=
  fun _ h => Bool.noConfusion (show true = false from h)

theorem Laws.Recoding.alarmRecover (d z : Nat) : Statement (.alarmRecover d z) :=
  fun _ h => Bool.noConfusion (show true = false from h)

theorem Laws.Recoding.evacStepEnd (d z : Nat) : Statement (.evacStepEnd d z) :=
  fun _ h => Bool.noConfusion (show true = false from h)

theorem Laws.Recoding.dryDetect (d z : Nat) : Statement (.dryDetect d z) :=
  fun _ h => Bool.noConfusion (show true = false from h)

theorem Laws.Recoding.pressureExcursion (d : Nat) : Statement (.pressureExcursion d) :=
  fun _ h => Bool.noConfusion (show true = false from h)

theorem Laws.Recoding.zcmdPrime (who : Agent) (d z : Nat) : Statement (.zcmdPrime who d z) :=
  fun _ h => Bool.noConfusion (show true = false from h)

theorem Laws.Recoding.zcmdEvacuate (who : Agent) (d z : Nat) : Statement (.zcmdEvacuate who d z) :=
  fun _ h => Bool.noConfusion (show true = false from h)

theorem Laws.Recoding.zcmdLock (who : Agent) (d z : Nat) : Statement (.zcmdLock who d z) :=
  fun _ h => Bool.noConfusion (show true = false from h)

theorem Laws.Recoding.zcmdUnlock (who : Agent) (d z : Nat) : Statement (.zcmdUnlock who d z) :=
  fun _ h => Bool.noConfusion (show true = false from h)

theorem Laws.Recoding.zbudgetWrite (who : Agent) (d : Nat) (v : Word) : Statement (.zbudgetWrite who d v) :=
  fun _ h => Bool.noConfusion (show true = false from h)

theorem Laws.Recoding.powerStep (d watts supply : Nat) (temps : List Nat) : Statement (.powerStep d watts supply temps) :=
  fun _ h => Bool.noConfusion (show true = false from h)

theorem Laws.Recoding.currentWindow (d amps : Nat) : Statement (.currentWindow d amps) :=
  fun _ h => Bool.noConfusion (show true = false from h)

theorem Laws.Recoding.meterWindow (n : Nat) : Statement (.meterWindow n) :=
  fun _ h => Bool.noConfusion (show true = false from h)

theorem Laws.Recoding.pcapWrite (who : Agent) (d : Nat) (v : Word) : Statement (.pcapWrite who d v) :=
  fun _ h => Bool.noConfusion (show true = false from h)

theorem Laws.Recoding.faultPost (c : Nat) : Statement (.faultPost c) :=
  fun _ h => Bool.noConfusion (show true = false from h)

theorem Laws.Recoding.fltresResume (c n : Nat) : Statement (.fltresResume c n) :=
  fun _ h => Bool.noConfusion (show true = false from h)

theorem Laws.Recoding.fltresEnd (c n : Nat) : Statement (.fltresEnd c n) :=
  fun _ h => Bool.noConfusion (show true = false from h)

theorem Laws.Recoding.eccScrubError (d : Nat) (bad : Bool) (pa : Nat) : Statement (.eccScrubError d bad pa) :=
  fun _ h => Bool.noConfusion (show true = false from h)

theorem Laws.Recoding.pgateGate (who : Agent) (c : Nat) : Statement (.pgateGate who c) :=
  fun _ h => Bool.noConfusion (show true = false from h)

theorem Laws.Recoding.pgateUngate (who : Agent) (c : Nat) : Statement (.pgateUngate who c) :=
  fun _ h => Bool.noConfusion (show true = false from h)

theorem Laws.Recoding.gateDraining (c : Nat) : Statement (.gateDraining c) :=
  fun _ h => Bool.noConfusion (show true = false from h)

theorem Laws.Recoding.gateOff (c : Nat) : Statement (.gateOff c) :=
  fun _ h => Bool.noConfusion (show true = false from h)

theorem Laws.Recoding.gateTimeout (c : Nat) : Statement (.gateTimeout c) :=
  fun _ h => Bool.noConfusion (show true = false from h)

theorem Laws.Recoding.reset : Statement (.reset) :=
  fun _ h => Bool.noConfusion (show true = false from h)

theorem Laws.Recoding.boot (digests : List (List Byte)) : Statement (.boot digests) :=
  fun _ h => Bool.noConfusion (show true = false from h)

theorem Laws.Recoding.hostWrite (m x va : Nat) (bytes : List Byte) : Statement (.hostWrite m x va bytes) :=
  fun _ h => Bool.noConfusion (show true = false from h)

theorem Laws.Recoding.ownClaim (m : Nat) : Statement (.ownClaim m) :=
  fun _ h => Bool.noConfusion (show true = false from h)

theorem Laws.Recoding.ownOffer (m o : Nat) : Statement (.ownOffer m o) :=
  fun _ h => Bool.noConfusion (show true = false from h)

theorem Laws.Recoding.hostLinkDown (m : Nat) : Statement (.hostLinkDown m) :=
  fun _ h => Bool.noConfusion (show true = false from h)

theorem Laws.Recoding.runResume (m c : Nat) : Statement (.runResume m c) :=
  fun _ h => Bool.noConfusion (show true = false from h)

theorem Laws.Recoding.evqheadWrite (m : Nat) (v : Word) : Statement (.evqheadWrite m v) :=
  fun _ h => Bool.noConfusion (show true = false from h)

theorem Laws.Recoding.accessRefused (m x o : Nat) (wr : Bool) : Statement (.accessRefused m x o wr) :=
  fun _ h => Bool.noConfusion (show true = false from h)

theorem Laws.Recoding.attestStart (m : Nat) (v : Word) : Statement (.attestStart m v) :=
  fun _ h => Bool.noConfusion (show true = false from h)

theorem Laws.Recoding.attestDone : Statement (.attestDone) :=
  fun _ h => Bool.noConfusion (show true = false from h)

theorem Laws.Recoding.pwbaseWrite (who : Agent) (i n : Nat) (v : Word) : Statement (.pwbaseWrite who i n v) :=
  fun _ h => Bool.noConfusion (show true = false from h)

theorem Laws.Recoding.readoutRequest (m x len : Nat) : Statement (.readoutRequest m x len) :=
  fun _ h => Bool.noConfusion (show true = false from h)

theorem Laws.Recoding.readoutDone (i : Nat) : Statement (.readoutDone i) :=
  fun _ h => Bool.noConfusion (show true = false from h)

theorem Laws.Recoding.manifestSign (m x : Nat) (v : Word) : Statement (.manifestSign m x v) :=
  fun _ h => Bool.noConfusion (show true = false from h)

theorem Laws.Recoding.cutStart (who : Agent) (d : Nat) : Statement (.cutStart who d) :=
  fun _ h => Bool.noConfusion (show true = false from h)

theorem Laws.Recoding.cutComplete (d : Nat) : Statement (.cutComplete d) :=
  fun _ h => Bool.noConfusion (show true = false from h)

theorem Laws.Recoding.cutRelease (who : Agent) (d : Nat) : Statement (.cutRelease who d) :=
  fun _ h => Bool.noConfusion (show true = false from h)

theorem Laws.Recoding.profWrite (who : Agent) (d : Nat) (v : Word) : Statement (.profWrite who d v) :=
  fun _ h => Bool.noConfusion (show true = false from h)

theorem Laws.Recoding.traceDrain (c : Nat) : Statement (.traceDrain c) :=
  fun _ h => Bool.noConfusion (show true = false from h)

theorem Laws.Recoding.trctlWrite (who : Agent) (c : Nat) (v : Word) : Statement (.trctlWrite who c v) :=
  fun _ h => Bool.noConfusion (show true = false from h)

theorem Laws.Recoding.enginePageFault (k : Nat) : Statement (.enginePageFault k) :=
  fun _ h => Bool.noConfusion (show true = false from h)

theorem Laws.Recoding.incWithdrawCopy (n d : Nat) : Statement (.incWithdrawCopy n d) :=
  fun _ h => Bool.noConfusion (show true = false from h)

theorem Laws.Recoding.pageRequestResponse (m : Nat) (ok : Bool) : Statement (.pageRequestResponse m ok) :=
  fun _ h => Bool.noConfusion (show true = false from h)

theorem Laws.Recoding.kinLinkDown (l : Nat) : Statement (.kinLinkDown l) :=
  fun _ h => Bool.noConfusion (show true = false from h)

end Sys2Proof
end

