-- ==== Sys2Proof/Tests/Slice0.lean ====
section
/-! SUPPORT. The model's own tests: terms that well-formedness refuses, words that the spec writes out, single steps whose
results are worked out from the spec's tables, and for every statement states and operands that meet its hypotheses. -/

open Sys2Proof Sys2Proof.Machine

namespace Sys2Proof.Tests

set_option Elab.async false

/-! ## Well-formedness: an ill-formed term for each check -/

theorem test_wf_msgrd : (Instr.msgrd 0 8).wf = false := by decide +kernel
theorem test_wf_br : (Instr.br 0 0 6 0).wf = false := by decide +kernel
theorem test_wf_f_register : (Instr.fadd 16 0 0 0).wf = false ∧ (Instr.fsqrt 0 16 0).wf = false ∧ (Instr.fmin 0 0 16).wf = false ∧
    (Instr.fneg 16 0).wf = false ∧ (Instr.fkey 0 16).wf = false ∧ (Instr.fcmpLt 0 0 16).wf = false ∧
    (Instr.fmvF 16 0).wf = false ∧ (Instr.fld 16 0 0).wf = false := by decide +kernel
theorem test_wf_rounding : (Instr.fadd 0 0 0 4).wf = false ∧ (Instr.fsqrt 0 0 5).wf = false ∧ (Instr.fcvtS32F32 0 0 4).wf = false ∧
    (Instr.fcvtF32S32 0 0 7).wf = false ∧ (Instr.fma 0 0 0 0 4).wf = false := by decide +kernel
theorem test_wf_fence : (Instr.fence 5).wf = false := by decide +kernel
theorem test_wf_engine : (Instr.copy false 0 0 0 0 { bar := 1, fe := false, scope := 0, red := 0, sfx := 0 }).wf = false ∧
    (Instr.copy true 0 0 0 0 { bar := 1, fe := false, scope := 5, red := 0, sfx := 0 }).wf = false ∧
    (Instr.copy true 0 0 0 0 { bar := 1, fe := false, scope := 0, red := 1, sfx := 0 }).wf = false ∧
    (Instr.collReduce true 0 0 0 0 { bar := 1, fe := false, scope := 0, red := 3, sfx := 0 }).wf = false ∧
    (Instr.collReduce true 0 0 0 0 { bar := 1, fe := false, scope := 0, red := 0, sfx := 3 }).wf = false := by decide +kernel
theorem test_wf_wait : (Instr.wait 4 0).wf = false := by decide +kernel
theorem test_wf_stream : (Instr.sspec true 0 0 0 0 257).wf = false ∧ (Instr.scond false 0 0 0 1).wf = false := by decide +kernel
theorem test_wf_exit : (Instr.exit 1 0 0).wf = false ∧ (Instr.exit 0 0 3).wf = false := by decide +kernel
theorem test_wf_li : (Instr.li 0 3 0).wf = false := by decide +kernel

/-! ## Words that the spec writes out -/

theorem test_decode_alu : decodeTableWord 32 0x0461_1000 = some (.add 3 1 2) ∧
    decodeTableWord 32 0x04E5_0018 = some (.msgrd 7 5) ∧ decodeTableWord 32 0x0940_0030 = some (.addi 10 0 0x30) ∧
    decodeTableWord 64 0x8000_0003_FAC1_0000 = some (.li 22 1 0x8000_0003) := by decide +kernel
theorem test_decode_control : decodeTableWord 32 0x28E1_1003 = some (.cmpLtN 7 1 2) ∧
    decodeTableWord 32 0x4100_4004 = some (.br 8 0 2 4) ∧ decodeTableWord 32 0x4C1F_0000 = some (.jr 0 31 0) ∧
    decodeTableWord 32 0x4BFF_FFF0 = some (.call 0x3FFFFF0) := by decide +kernel
theorem test_decode_float : decodeTableWord 32 0x5022_1840 = some (.fadd 1 2 3 1) ∧
    decodeTableWord 32 0x5422_1918 = some (.fma 1 2 3 4 3) ∧ decodeTableWord 32 0x5126_008D = some (.fcvtS32F32 9 6 2) ∧
    decodeTableWord 32 0x51C9_0012 = some (.fmvF 14 9) := by decide +kernel
theorem test_decode_memory : decodeTableWord 32 0x7461_FFF8 = some (.ldN32 3 1 0xFFF8) ∧
    decodeTableWord 32 0x8D22_0010 = some (.stB64 9 2 0x10) ∧ decodeTableWord 32 0x644D_0000 = some (.ldN8 2 13 0) ∧
    decodeTableWord 32 0x6D26_0000 = some (.ldN16 9 6 0) ∧ decodeTableWord 32 0x8ACB_7000 = some (.stB32 22 11 0x7000) ∧
    decodeTableWord 32 0x9461_1001 = some (.ldAcqB64 3 1 2) ∧ decodeTableWord 32 0x9400_00C4 = some (.fence 3) ∧
    decodeTableWord 32 0xA440_0000 = some (.wait 2 0) := by decide +kernel
theorem test_decode_engine : decodeTableWord 64 0x7480_0000_A14B_6360 =
      some (.copy true 10 11 12 13 { bar := 14, fe := true, scope := 1, red := 0, sfx := 0 }) ∧
    decodeTableWord 64 0xD080_0000_A014_5921 =
      some (.gather true 0 20 11 4 { bar := 26, fe := false, scope := 1, red := 0, sfx := 0 }) := by decide +kernel
theorem test_decode_config : decodeTableWord 32 0xACC0_3803 = some (.cfgDrain 6 7 0) ∧
    decodeTableWord 32 0xAF60_CA41 = some (.cfgArm 27 0 25 9) ∧ decodeTableWord 32 0xAD20_3A86 = some (.cfgQuery 9 7 10) := by decide +kernel
theorem test_decode_system : decodeTableWord 32 0xC000_48C0 = some (.trap 0x123) ∧ decodeTableWord 32 0xC000_0006 = some .nop ∧
    decodeTableWord 32 0xC01D_0503 = some (.syswr 29 0x014) := by decide +kernel
theorem test_decode_task : decodeTableWord 32 0xB401_0004 = some (.killpt 1) ∧
    decodeTableWord 32 0xB56C_0001 = some (.incRd 11 12) ∧ decodeTableWord 32 0xB5CF_6800 = some (.incInit 14 15 13 0) ∧
    decodeTableWord 32 0xB000_0843 = some (.exit 0 1 1) := by decide +kernel
theorem test_decode_barrier : decodeTableWord 32 0xB80D_A000 = some (.barInit 13 20) ∧
    decodeTableWord 32 0xBB7A_2802 = some (.barArrive 27 26 5) ∧ decodeTableWord 32 0xBBAE_0003 = some (.barTest 29 14) ∧
    decodeTableWord 32 0xB01A_4805 = some (.parkBar 26 9 0) := by decide +kernel

/-! ## States -/

/-- Reset with core 0 as `f` makes it. -/
def core0 (f : CoreSt → CoreSt) : State := State.reset.modCore 0 f

/-- Core 0 runs a handler at pc 0x100 with these s-registers. -/
def regs (l : List (Nat × Word)) : State := core0 fun k => { k with running := true, pc := 0x100, s := l }

/-- Core 0 runs a handler at pc 0x100 with these f-registers. -/
def fregs (l : List (Nat × Word)) : State := core0 fun k => { k with running := true, pc := 0x100, f := l }

/-- The state that a meaning leaves. -/
def after (i : Instr) (s : State) : State :=
  match exec i s with
  | .next t => t
  | _ => State.reset

/-- What register `d` of core 0 holds after an instruction. -/
def gives (i : Instr) (s : State) (d : Nat) : Word := ((after i s).core 0).rd d

/-- What f-register `d` of core 0 and its flags hold after an instruction. -/
def givesF (i : Instr) (s : State) (d : Nat) : Word × BitVec 6 := (((after i s).core 0).rdF d, ((after i s).core 0).fflags)

/-! ## Single steps: integers (R252 to R256) -/

theorem test_add_wraps : gives (.add 3 1 2) (regs [(1, 0xFFFFFFFFFFFFFFFF), (2, 2)]) 3 = 1 := by decide +kernel
theorem test_div_edges : gives (.divS 3 1 2) (regs [(1, 0x8000000000000000), (2, 0xFFFFFFFFFFFFFFFF)]) 3 = 0x8000000000000000 ∧
    gives (.divS 3 1 2) (regs [(1, BitVec.ofInt 64 (-7)), (2, 2)]) 3 = BitVec.ofInt 64 (-3) ∧
    gives (.divN 3 1 2) (regs [(1, 9)]) 3 = 0xFFFFFFFFFFFFFFFF := by decide +kernel
theorem test_rem_edges : gives (.remS 3 1 2) (regs [(1, 0x8000000000000000), (2, 0xFFFFFFFFFFFFFFFF)]) 3 = 0 ∧
    gives (.remS 3 1 2) (regs [(1, BitVec.ofInt 64 (-7)), (2, 2)]) 3 = BitVec.ofInt 64 (-1) ∧
    gives (.remN 3 1 2) (regs [(1, 9)]) 3 = 9 := by decide +kernel
theorem test_mulh : gives (.mulhS 3 1 2) (regs [(1, 0xFFFFFFFFFFFFFFFF), (2, 2)]) 3 = 0xFFFFFFFFFFFFFFFF ∧
    gives (.mulhN 3 1 2) (regs [(1, 0xFFFFFFFFFFFFFFFF), (2, 2)]) 3 = 1 := by decide +kernel
theorem test_sra : gives (.sra 3 1 2) (regs [(1, 0x8000000000000000), (2, 0x43)]) 3 = 0xF000000000000000 := by decide +kernel
theorem test_clz_of_zero : gives (.clz 3 1) (regs []) 3 = 64 ∧ gives (.ctz 3 1) (regs []) 3 = 64 := by decide +kernel
theorem test_s0_reads_zero : gives (.addi 0 1 1) (regs [(1, 5)]) 0 = 0 := by decide +kernel
theorem test_rori : gives (.rori 3 1 4) (regs [(1, 0x1F)]) 3 = 0xF000000000000001 := by decide +kernel
theorem test_ins16 : gives (.ins16 3 2 0xBEEF) (regs [(3, 0x1111222233334444)]) 3 = 0x1111BEEF33334444 := by decide +kernel
theorem test_lti : gives (.ltiS 3 1 0xFFFF) (regs [(1, 0)]) 3 = 0 ∧ gives (.ltiN 3 1 0xFFFF) (regs [(1, 0)]) 3 = 1 := by decide +kernel
theorem test_li_keeps_low_half : gives (.li 3 2 0xABCD) (regs [(3, 0x12345678)]) 3 = 0x0000ABCD12345678 := by decide +kernel
theorem test_br_back : ((after (.br 4 0 0 0x1FFD) (regs [])).core 0).pc = 0x100 - 12 := by decide +kernel
theorem test_jr_misaligned : ((after (.jr 3 1 1) (regs [(1, 0x200)])).core 0).tcause = BitVec.ofNat 7 tAlign ∧
    gives (.jr 3 1 1) (regs [(1, 0x200), (3, 9)]) 3 = 9 := by decide +kernel
theorem test_call_returns : gives (.call 4) (regs []) 31 = 0x104 := by decide +kernel

/-! ## Single steps: floating point (R257 to R261) -/

theorem test_fadd_cancels : givesF (.fadd 1 2 3 2) (fregs [(2, 0x3F800000), (3, 0xBF800000)]) 1 = (0x80000000, 0) := by decide +kernel
theorem test_fdiv_by_zero : givesF (.fdiv 1 2 3 0) (fregs [(2, 0xBF800000)]) 1 = (0xFF800000, 8) := by decide +kernel
theorem test_fsqrt_negative : givesF (.fsqrt 1 2 0) (fregs [(2, 0xBF800000)]) 1 = (0x7FC00000, 16) := by decide +kernel
theorem test_fmul_overflow : givesF (.fmul 1 2 3 1) (fregs [(2, 0x7F7FFFFF), (3, 0x40000000)]) 1 = (0x7F7FFFFF, 5) := by decide +kernel
theorem test_fma_single_rounding :
    givesF (.fma 1 2 3 4 0) (fregs [(2, 0x3F800001), (3, 0x3F800001), (4, 0xBF800002)]) 1 = (0x28800000, 0) := by decide +kernel
theorem test_fcvt_rounds : gives (.fcvtS32F32 3 2 0) (fregs [(2, 0xC0200000)]) 3 = BitVec.ofInt 64 (-2) ∧
    gives (.fcvtS32F32 3 2 2) (fregs [(2, 0xC0200000)]) 3 = BitVec.ofInt 64 (-3) := by decide +kernel
theorem test_fcvt_unsigned_negative : gives (.fcvtN32F32 3 2 0) (fregs [(2, 0xBF400000)]) 3 = 0 ∧
    ((after (.fcvtN32F32 3 2 0) (fregs [(2, 0xBF400000)])).core 0).fflags = 16 := by decide +kernel
theorem test_fkey : gives (.fkey 3 2) (fregs [(2, 0xBF800000)]) 3 = 0x407FFFFF := by decide +kernel
theorem test_fmin_zeros : givesF (.fmin 1 2 3) (fregs [(2, 0), (3, 0x80000000)]) 1 = (0x80000000, 0) := by decide +kernel
theorem test_fcmp_nan : gives (.fcmpLt 3 1 2) (fregs [(1, 0x7FC00001)]) 3 = 0 ∧
    ((after (.fcmpLt 3 1 2) (fregs [(1, 0x7FC00001)])).core 0).fflags = 16 := by decide +kernel
theorem test_fcvt_bf16 : givesF (.fcvtBf16F32 1 2 0) (fregs [(2, 0x3F808000)]) 1 = (0x3F80, 1) := by decide +kernel

/-! ## Hypotheses: decoding, steps, arithmetic -/

theorem test_meets_DecodeOfEncodeIsIdentity : (Instr.li 31 2 0xFFFFFFFF).isEvent = false ∧ (Instr.li 31 2 0xFFFFFFFF).wf = true := by
  decide +kernel
theorem test_meets_EncodeOfDecodeIsIdentity : decode [0x00, 0x10, 0x61, 0x04] = .ok (.add 3 1 2) 1 := by decide +kernel

/-- Core 0 at pc 0 of a context whose page 0 maps to 0, with these words there. -/
def atWords (ws : List (BitVec 32)) : State :=
  { core0 (fun k => { k with running := true, budget := 100 }) with
    mem := ws.zipIdx.foldl (fun m e => m.writeBytes (4 * e.2) (bytesLE 4 e.1.toNat)) []
    tlbs := [(0, [{ ctx := 0, vbase := 0, pbase := 0, lg := 16, leaf := 0x1E }])] }

/-- What a fetched word is, as a test compares it. -/
def fetched (f : Fetched) : Option (Nat × Nat) ⊕ (State × BitVec 32) :=
  match f with
  | .trap c v => .inl (some (c, v.toNat))
  | .word s w => .inr (s, w)

theorem test_meets_StepRunsTheDecodedInstruction :
    let s := atWords [0x04611000]
    let t := atWords [0xFAC10000, 0x80000003]
    s.agenda = [] ∧ (s.core s.cur).running = true ∧ (s.core s.cur).halted = false ∧ (s.core s.cur).dead = false ∧
      (s.core s.cur).overBudget = false ∧ s.stallHeld s.cur = false ∧
      fetched (s.fetchWord s.cur (s.core s.cur).pc) = .inr (s, 0x04611000) ∧
      fetched (t.fetchWord t.cur (t.core t.cur).pc) = .inr (t, 0xFAC10000) ∧
      fetched (t.fetchWord t.cur ((t.core t.cur).pc + 4)) = .inr (t, 0x80000003) ∧
      decodeTwo 0xFAC10000 0x80000003 = some (.li 22 1 0x80000003) := by decide +kernel

theorem test_step_runs_add : step (atWords [0x04611000]) = exec (.add 3 1 2) (atWords [0x04611000]) := rfl

theorem test_meets_StepKeepsMemoryCanonical : (atWords [0x04611000]).mem.wf = true ∧
    step (atWords [0x04611000]) = .next (after (.add 3 1 2) (atWords [0x04611000])) := ⟨by decide +kernel, rfl⟩

/-- Every register may be pending or counted but these: the boundary of readiness. -/
def busy : State := core0 fun k => { k with
  running := true, pendS := [4], pendF := [4], board := [(5, 1)], s := [(1, 7), (2, 9)] }

theorem test_meets_AluWritesItsResult : busy.me.waits [1, 2] [] [3] [] = none ∧ busy.me.waits [0, 0] [] [5] [] = none ∧
    (regs []).me.waits [31, 31] [] [31] [] = none := by decide +kernel
theorem test_meets_OneOperandAndImmediates : busy.me.waits [31] [] [0] [] = none ∧ busy.me.waits [1, 2, 0] [] [31] [] = none ∧
    busy.me.waits [] [] [31] [] = none ∧ busy.me.waits [31] [] [31] [] = none ∧ (1 : BitVec 5).toNat < 2 := by decide +kernel
theorem test_meets_BranchesAndCalls : busy.me.waits [31, 0] [] [] [] = none ∧ busy.me.waits [] [] [] [] = none ∧
    busy.me.waits [] [] [31] [] = none ∧ (5 : BitVec 3).toNat < 6 ∧
    ((busy.me.rd 1 + BitVec.ofInt 64 (1 : BitVec 16).toInt).toNat % 4 = 0) ∧
    ((busy.me.rd 2 + BitVec.ofInt 64 (1 : BitVec 16).toInt).toNat % 4 ≠ 0) := by decide +kernel
theorem test_meets_BranchesAndCalls_taken : taken 5 (1 : Word) 1 ∧ ¬ taken 5 (0 : Word) 1 ∧ taken 0 (1 : Word) 1 ∧
    ¬ taken 2 (1 : Word) 1 ∧ taken 3 (1 : Word) 1 ∧ ¬ taken 4 (1 : Word) 1 := by simp [taken]
theorem test_meets_BranchesAndCalls_fetch : let s := core0 fun k => { k with running := true, budget := 100, pc := 0x1000 }
    s.agenda = [] ∧ s.me.running = true ∧ s.me.halted = false ∧ s.me.dead = false ∧ s.me.overBudget = false ∧
      s.stallHeld s.cur = false ∧ fetched (s.fetchWord s.cur s.me.pc) = .inl (some (tPageFault, 0x1000)) ∧
      s.me.tvalid = false := by decide +kernel
theorem test_meets_UnreadyInstructionsStall : busy.me.waits [5, 1] [] [3] [] = some (.reg [5]) ∧
    busy.me.waits [1, 2] [] [4] [] = some (.pending []) := by decide +kernel
theorem test_meets_FloatArithmetic : busy.me.waits [] [15, 0] [] [15] = none ∧ busy.me.waits [] [1, 2, 3] [] [0] = none := by decide +kernel
theorem test_meets_FloatMoves : busy.me.waits [] [15] [] [0] = none ∧ busy.me.waits [] [15, 14] [] [1] = none ∧
    busy.me.waits [31] [] [] [15] = none ∧ busy.me.waits [] [15] [31] [] = none ∧ busy.me.waits [] [0, 15] [31] [] = none ∧
    (3 : BitVec 3).toNat < 4 := by decide +kernel
theorem test_meets_FloatMoves_values :
    IsNaN32 0x7F800001 ∧ ¬ IsNaN32 0x7F800000 ∧ (fregs [(1, 0x7F800001)]).fp32 1 = .nan ∧
      (fregs [(1, 0xFF800000)]).fp32 1 = .inf true ∧ (∃ m e, (fregs [(1, 0xCF000001)]).fp32 1 = .fin true m e ∧
        2 ^ 31 * (dyadic m e).2 < (dyadic m e).1) ∧
      ∃ m e, (fregs [(1, 0x4F7FFFFF)]).fp32 1 = .fin false m e ∧ (dyadic m e).1 ≤ (2 ^ 32 - 1) * (dyadic m e).2 := by
  unfold IsNaN32
  exact ⟨by decide +kernel, by decide +kernel, by decide +kernel, by decide +kernel, ⟨_, _, rfl, by decide +kernel⟩, ⟨_, _, rfl, by decide +kernel⟩⟩
theorem test_meets_RoundingIsCorrect : (3 : BitVec 3).toNat < 4 ∧
    (roundRat .f32 (.of 3) false false true 1 3).2 &&& fOF = 0 ∧ (roundRat .f32 (.of 0) false false false 5 1).2 &&& fOF = 0 := by
  decide +kernel
theorem test_meets_FloatSpecialValues : let s := fregs [(1, 0x7FC00000), (2, 0x7F800000), (3, 0xFF800000), (4, 0x3F800000), (5, 0x80000000)]
    s.me.waits [] [1, 2] [] [3] = none ∧ s.fp32 1 = .nan ∧ s.fp32 2 = .inf false ∧ s.fp32 3 = .inf true ∧
      (∃ p e, p ≠ 0 ∧ s.fp32 4 = .fin false p e) ∧ (∃ e, s.fp32 5 = .fin true 0 e) ∧
      (s.me.rdF 5).truncate 32 = (0x80000000 : BitVec 32) := by
  exact ⟨by decide +kernel, by decide +kernel, by decide +kernel, by decide +kernel, ⟨_, _, by decide +kernel, rfl⟩, ⟨_, rfl⟩, by decide +kernel⟩
theorem test_negative_root : ∃ p e, p ≠ 0 ∧ (fregs [(1, 0xBF800000)]).fp32 1 = .fin true p e := ⟨_, _, by decide +kernel, rfl⟩

/-! ## Memory accesses -/

/-- Page 0 of context 0 for cluster 0's agents: near memory, tile m0 of cluster 0 at 0x10000 and on. -/
def maps : List TlbEnt :=
  [{ ctx := 0, vbase := 0, pbase := 0, lg := 16, leaf := 0x1E },
   { ctx := 0, vbase := 0x10000, pbase := clusterBase 0, lg := 16, leaf := 0x1E },
   { ctx := 0, vbase := 0x20000, pbase := 0, lg := 16, leaf := 0x06 }]

/-- Core 0 as `f` makes it, running, with the pages of `maps` and these bytes of memory. -/
def mapped (m : Memory) (f : CoreSt → CoreSt) : State :=
  { core0 (fun k => f { k with running := true, pc := 0x100 }) with mem := m, tlbs := [(0, maps)] }

/-- A store of eight bytes, and a load over part of them. -/
def aStore : MemOp := { id := 0, kind := .store, va := 0x40, pa := 0x40, size := 8, data := 0x8877665544332211, cmp := 0,
                        dest := .nowhere, acq := false, rel := false, priv := true, ctx := 0 }
def aLoad : MemOp := { aStore with id := 1, kind := .load true, va := 0x46, pa := 0x46, size := 2, data := 0, dest := .s 3 }
def anAmo : MemOp := { aStore with id := 0, kind := .amo 9, data := 5, cmp := 0x11, dest := .s 3 }
def outst (ops : List MemOp) : State :=
  mapped [(0x40, 0x11)] fun k => { k with ops, nextOp := 2, pendS := [3], ocnt := [(0, 1), (1, 1)] }

theorem test_store_forwards_to_load : gives (.loadReturn 0 1) (outst [aStore, aLoad]) 3 = 0xFFFFFFFFFFFF8877 := by decide +kernel
theorem test_cas_hits : ((after (.loadReturn 0 0) (outst [anAmo])).mem.read 0x40 = 5) ∧
    gives (.loadReturn 0 0) (outst [anAmo]) 3 = 0x11 := by decide +kernel
theorem test_store_performed : (after (.storePerformed 0 0) (outst [aStore])).memNum 0x40 8 = 0x8877665544332211 := by decide +kernel
theorem test_load_misaligned : ((after (.ldN32 3 1 0) (mapped [] fun k => { k with s := [(1, 2)] })).core 0).tcause =
    BitVec.ofNat 7 tAlign := by decide +kernel

theorem test_meets_AccessesIssue :
    let s := mapped [] fun k => { k with s := [(1, 0x48), (2, 0x10008), (4, 63), (5, 64)], ocnt := [(0, 1022), (1, 1022)] }
    s.me.waits [1] [] [3] [] = none ∧ s.me.waits [1] [] [] [3] = none ∧ s.me.waits [1, 2] [] [3] [] = none ∧
      s.me.acqWait = false ∧ s.me.out 0 < 1023 ∧ s.me.out 1 < 1023 ∧ s.specOf s.cur = none ∧
      s.translate s.cur s.me.ctx 0x40 .load = .ok 0x40 ∧ (0x40 % 8 = 0) ∧ s.coreRead s.cur s.me.ctx s.me.priv 0x40 8 = .ok ∧
      s.poisoned 0x40 8 = false ∧ s.translate s.cur s.me.ctx 0x40 .store = .ok 0x40 ∧
      s.coreWrite s.cur s.me.ctx s.me.priv 0x40 8 = .ok ∧ s.translate s.cur s.me.ctx (s.me.rd 2).toNat .atomic = .ok (clusterBase 0 + 8) ∧
      (placeOf (clusterBase 0 + 8)).plain = true ∧ s.protectedBy (clusterBase 0 + 8) = none ∧
      s.coreWrite s.cur s.me.ctx s.me.priv (clusterBase 0 + 8) 8 true = .ok ∧ s.poisoned (clusterBase 0 + 8) 8 = false ∧
      (s.me.rd 4).toNat ≤ 63 ∧ 63 < (s.me.rd 5).toNat := by decide +kernel
/-- Core 0 runs a speculative task of kind 4, or an ordered one of kind 3, that has buffered byte 0x40. -/
def speculating (ordered : Bool) : State :=
  let bytes : List Byte := ((List.replicate 256 0).set 8 (if ordered then 3 else 4)).set 28 (if ordered then 1 else 0)
  let k : Task := { ctx := 0, job := 1, idx := 0, spawned := false, recAddr := 0x1000, bytes := bytes, serial := 9, phase := .running,
                    core := some 0, wbuf := [(0x40, 7)] }
  (mapped [] fun u => { u with task := some (0, 1), s := [(1, 0x40), (2, 0x1234)] }).setTask (0, 1) k
theorem test_meets_AccessesIssue_speculative : ∀ o : Bool, let s := speculating o
    (s.specOf s.cur).map (fun e => (e.1, e.2.ordered, e.2.holdsAll 0x40 8, s.bufferRoom e.1 e.2)) = some ((0, 1), o, false, true) ∧
      s.me.waits [1] [] [3] [] = none ∧ s.me.acqWait = false ∧ s.me.out 0 < 1023 ∧ s.me.out 1 < 1023 ∧
      s.translate s.cur s.me.ctx 0x40 .load = .ok 0x40 ∧ s.coreRead s.cur s.me.ctx s.me.priv 0x40 8 = .ok ∧ s.poisoned 0x40 8 = false ∧
      s.translate s.cur s.me.ctx 0x40 .store = .ok 0x40 ∧ s.coreWrite s.cur s.me.ctx s.me.priv 0x40 2 = .ok ∧
      ((after (.stB16 2 1 0) s).task? (0, 1)).map (·.wbuf) = some [(0x40, 0x34), (0x41, 0x12)] ∧
      (after (.stB16 2 1 0) s).mem = [] := by decide +kernel
theorem test_meets_AddressChecksTrap :
    let s := mapped [] fun k => { k with s := [(1, 0x0100000000000000), (2, 0x30000), (3, 1)] }
    s.me.acqWait = false ∧ s.specOf s.cur = none ∧ s.me.waits [1] [] [3] [] = none ∧ s.me.waits [1, 2] [] [] [] = none ∧
      2 ^ 56 ≤ (s.me.rd 1).toNat ∧ s.translate s.cur s.me.ctx (s.me.rd 2).toNat .load = .fault 0 ∧
      (match s.leafFor s.cur s.me.ctx (s.me.rd 2).toNat with | .shut _ => false | _ => true) = true ∧ s.translate s.cur s.me.ctx 0x20000 .store = .fault 1 ∧ s.translate s.cur s.me.ctx (s.me.rd 3).toNat .atomic = .ok 1 ∧
      (s.me.rd 3).toNat % 2 ≠ 0 := by decide +kernel
theorem test_meets_LoadReturnWritesTheValue : let s := outst [aStore, aLoad]
    (s.core 0).ops = [aStore] ++ aLoad :: [] ∧ (∀ e ∈ [aStore], e.id ≠ aLoad.id) ∧ aLoad.kind = .load true ∧
      s.mayPerform [aStore] aLoad = true ∧ (placeOf aLoad.pa).plain = true ∧ s.specOf 0 = none ∧ aLoad.size ∈ [1, 2, 4, 8] ∧
      LatestStore [aStore] 0x47 aStore :=
  ⟨rfl, by decide +kernel, rfl, by decide +kernel, by decide +kernel, by decide +kernel, by decide +kernel, [], [], rfl, by decide +kernel, by decide +kernel, by decide +kernel, by decide +kernel⟩
theorem test_meets_AtomicsAndStores_unjudged : Unjudged (outst [anAmo]) anAmo ∧ Unjudged (outst [aStore]) aStore :=
  ⟨fun _ _ h _ => by simp [anAmo, aStore] at h, fun _ _ h _ => by simp [aStore] at h⟩
theorem test_meets_AtomicsAndStoresWriteMemory : (outst [anAmo]).mayPerform [] anAmo = true ∧ anAmo.size = 8 ∧
    ((outst [anAmo]).core 0).ops = [] ++ anAmo :: [] ∧ (outst [{ anAmo with size := 4 }]).mayPerform [] { anAmo with size := 4 } = true ∧
    (outst [aStore]).mayPerform [] aStore = true ∧ (placeOf aStore.pa).plain = true := by decide +kernel

/-! ## Commands, traps and system registers -/

/-- A region of one quad at the origin of die 0, with slot 0 of the given state, and core 0 running with these registers. -/
def withRegion (r : Region) (f : CoreSt → CoreSt) : State := (mapped [] f).setRegion 0 r
def oneQuad : Region := { desc := 0, wq := 1, hq := 1, nd := 0, group := some (0, 1, 0) }

/-- Core 0's handler runs on channel 1, to which group 0 of task 1 of die 0 is bound. -/
def bound (f : CoreSt → CoreSt) : CoreSt → CoreSt :=
  fun k => f { k with chan := 1, chans := [(1, { en := true, group := some (0, 1, 0) })] }

theorem test_meets_CommandsIssueOrStall :
    let s := withRegion oneQuad (bound fun k => { k with
      s := [(1, 0x10000), (2, 0x1000), (3, 0xFFFFFFFC), (4, 128), (5, 3), (6, 0x100000)], ocnt := [(2, 1022), (3, 1022)],
      board := [(7, 14), (8, 15)] })
    s.me.waits [1, 2, 3, 0] [] [7] [] = none ∧ s.me.acqWait = false ∧ s.specOf s.cur = none ∧ s.me.count 7 < 15 ∧
      s.me.out 2 < 1023 ∧ s.me.out 3 < 1023 ∧ 15 ≤ s.me.count 8 ∧ (s.me.rd 3).toNat < 2 ^ 32 ∧
      IntoWindow s (s.me.rd 1) = true ∧ IntoWindow s (s.me.rd 2) = false ∧ (s.me.rd 4).toNat % 128 = 0 ∧
      (s.me.rd 5).toNat < 4 ∧ descOk (s.me.rd 0) = true ∧ s.descMine s.cur (s.me.rd 0) = true ∧
      s.intoExiting s.cur s.me.ctx 0 (s.me.rd 1) = false ∧ 1023 ≤ ({ s.me with ocnt := [(2, 1023)] } : CoreSt).out 2 := by decide +kernel
theorem test_meets_CommandsIssueOrStall_tile : let s := withRegion oneQuad (bound fun k => { k with s := [(1, 0x10000)] })
    (s.placeAt s.cur s.me.ctx (s.me.rd 1)).map (·.isTileData) = some true ∧
      s.intoExiting s.cur s.me.ctx 0 (s.me.rd 1) = false := by decide +kernel
theorem test_meets_CommandChecksTrap :
    let s := withRegion oneQuad (bound fun k => { k with
      s := [(1, 0x10000), (3, 0x100000000), (4, 127), (5, 4), (6, 0x8000000000000000), (7, 0x40)] })
    s.specOf s.cur = none ∧ s.me.priv = true ∧ s.me.waits [1, 2, 3, 0] [] [7] [] = none ∧
      ¬ (s.me.rd 3).toNat < 2 ^ 32 ∧ (s.me.rd 4).toNat % 128 ≠ 0 ∧ descOk (s.me.rd 6) = false ∧ 16 ≤ (s.me.rd 7).toNat ∧
      descOk (s.me.rd 0) = true ∧ ({ s with regions := [] } : State).descMine s.cur (s.me.rd 0) = false ∧
      s.descMine s.cur (s.me.rd 0) = true ∧ s.intoExiting s.cur s.me.ctx 0 (s.me.rd 1) = false := by decide +kernel
theorem test_meets_ConfigQueryAnswers :
    let s := withRegion oneQuad (bound fun k => { k with s := [(1, 0x63), (2, 0x50), (3, 0x10)] })
    s.me.waits [0, 1] [] [4] [] = none ∧ (s.me.rd 1).toNat / 4 % 4 = 0 ∧ (s.me.rd 1).toNat / 16 ≤ 6 ∧
      (s.me.rd 2).toNat / 16 = 5 ∧ (s.me.rd 3).toNat / 16 = 1 ∧ descOk (s.me.rd 0) = true ∧ s.descMine s.cur (s.me.rd 0) = true ∧
      fld (s.me.rd 1) 63 8 = 0 ∧ fld (s.me.rd 1) 3 2 = 0 ∧ fld (s.me.rd 1) 7 4 = 6 ∧ fld (s.me.rd 2) 7 4 = 5 ∧
      ({ s with regions := [] } : State).descMine s.cur (s.me.rd 0) = false := by decide +kernel
theorem test_fill_issues : let s := withRegion oneQuad fun k => { k with s := [(1, 0x10000), (3, 64)] }
    let t := after (.fill false 7 1 2 3 .zero) s
    (t.core 0).count 7 = 1 ∧ (t.core 0).out 3 = 1 ∧ (t.core 0).pc = 0x104 ∧ t.cmds.length = 1 := by decide +kernel

/-- Core 0 has a trap frame of a handler of channel 1 in context `x`. -/
def framed (x : Nat) (f : CoreSt → CoreSt) : State :=
  (core0 fun k => f { k with running := true, tvalid := true, tpc := 0x200, tctx := x, tchan := 1, tissued := 7 }).setCtx x
    { phase := .opened }

theorem test_trap_fills_frame : let k := (after (.trap 0x123) (regs [])).core 0
    k.tpc = 0x100 ∧ k.tval = 0x123 ∧ k.tcause = BitVec.ofNat 7 tTrap ∧ k.running = false ∧ (k.channel 0).queue.length = 1 := by decide +kernel
theorem test_double_trap_stops : ((after (.trap 1) (framed 0 id)).core 0).dead = true ∧
    ((after (.trap 1) (framed 0 id)).core 0).tpc = 0x200 := by decide +kernel
theorem test_tret_resumes : ((after .tret (framed 0 id)).core 0).pc = 0x200 ∧ ((after .tret (framed 0 id)).core 0).tvalid = false ∧
    ((after .tret (framed 0 id)).core 0).priv = false := by decide +kernel
theorem test_halt : ((after .halt (regs [])).core 0).halted = true ∧ ((after .halt (regs [])).core 0).running = false := by decide +kernel
theorem test_sysrd_tstat : gives (.sysrd 3 0x0B) (framed 2 id) 3 = 0x10102 := by decide +kernel
theorem test_syswr_fflags : ((after (.syswr 1 2) (core0 fun k => { k with running := true, s := [(1, 5)], fflags := 7 })).core 0).fflags = 2 := by
  decide +kernel
theorem test_meets_Traps : ((regs []).core 0).tvalid = false ∧ 127 < 128 ∧ ((framed 0 id).core 0).tvalid = true := by decide +kernel
theorem test_meets_TrapBreakHaltAndNop : bit ((regs []).reg (iodN + 0x20800)) 61 = false ∧
    bit (((regs []).setDreg (iodN + 0x20800) 0x2000000000000000).reg (iodN + 0x20800)) 61 = true ∧ (regs []).me.priv = true ∧
    (core0 fun k => { k with priv := false }).me.priv = false := by decide +kernel
theorem test_meets_TrapReturn : (framed 0 fun k => { k with priv := false }).me.priv = false ∧ (regs []).me.tvalid = false ∧
    ((regs []).ctx 0).phase ≠ .opened ∧ (framed 0 id).me.priv = true ∧ (framed 0 id).me.tctx = (framed 0 id).me.ctx ∧
    ((framed 0 id).ctx 0).phase = .opened ∧ (framed 63 id).me.tctx ≠ (framed 63 id).me.ctx ∧
    ((framed 63 id).ctx 63).phase = .opened := by decide +kernel
theorem test_meets_SystemRegisters : sysAssigned 7 = false ∧ sysAssigned 0x9F = true ∧ sysAssigned 0x140 = true ∧
    sysAssigned 0x150 = true ∧ sysAssigned 0x151 = false ∧ sysAssigned 0x0C = true ∧ sysAssigned 0x10 = true ∧ sysAssigned 0x4F = true ∧
    sysAssigned 0x5F = true ∧ (regs []).me.waits [] [] [3] [] = none ∧ (regs []).me.waits [1] [] [] [] = none ∧
    (core0 fun k => { k with priv := false }).me.priv = false ∧ (framed 0 id).me.tvalid = true := by decide +kernel

/-! ## Queue, tasks, incumbents -/

/-- A task record of kind `k`: its bytes are zero but for the kind and, where it is set, ordered. -/
def record (k : Nat) (ordered : Bool) : List Byte :=
  ((List.replicate 256 (0 : Byte)).set 8 (BitVec.ofNat 8 k)).set 28 (if ordered then 1 else 0)
def aTask (k : Nat) : Task :=
  { ctx := 0, job := 1, idx := 0, spawned := false, recAddr := 0x1000, bytes := record k false, serial := 9, phase := .running, core := some 0 }

/-- Core 0 runs task 1 of die 0. -/
def tasked (t : Task) (f : CoreSt → CoreSt) : State := (mapped [] fun k => f { k with task := some (0, 1) }).setTask (0, 1) t

theorem test_exit_completes_task : ((after (.exit 1 2 1) (tasked (aTask 3) fun k => { k with s := [(1, 5), (2, 9)] })).task? (0, 1)).map
    (fun t => (t.phase, t.failed, t.cause)) = some (.finished, true, 5) := by decide +kernel
theorem test_launch_queues : let s := regs [(1, 0x1100)]
    ((after (.launch 3 1) s).die 0).launches = [(0x1100, 0)] ∧ gives (.launch 3 1) s 3 = 0 := by decide +kernel
theorem test_msg_send_closed : let s := (regs [(1, 0x100)]).modCore 0 fun k => { k with chans := [(1, { en := true })] }
    gives (.msgSend 3 1 0) s 3 = 0 ∧ gives (.msgSend 3 1 0) (s.setCtx 0 { phase := .quiesced }) 3 = 3 ∧
      gives (.msgSend 3 1 0) (regs [(1, 0x100)]) 3 = 2 := by decide +kernel

theorem test_meets_LaunchesAndMessages :
    let full : State := (regs [(1, 0xFFFFFFFFFFFF00)]).modDie 0 fun d => { d with launches := List.replicate 512 (0x100, 0) }
    let m : Msg := { words := [0] }
    let s := (regs [(1, 0x7200), (2, 0xFF), (4, 0x8000)]).setCore 0 { (regs [(1, 0x7200), (2, 0xFF), (4, 0x8000)]).me with
      chans := [(2, { en := true })] }
    let t := s.setCore 0 { s.me with chans := [(2, { en := true, queue := List.replicate 8 m })] }
    full.me.waits [1] [] [3] [] = none ∧ full.specOf full.cur = none ∧ (full.me.rd 1).toNat % 256 = 0 ∧
      (full.me.rd 1).toNat < 2 ^ 56 ∧ 512 ≤ (full.die 0).launches.length ∧ (s.die 0).launches.length < 512 ∧ (s.me.rd 2).toNat % 256 ≠ 0 ∧
      (s.me.rd 1).toNat < 2 ^ 15 ∧ (s.me.rd 1).toNat / 128 % 2 = 0 ∧ (s.me.rd 1).toNat / 2 ^ 12 % 8 + 1 = 8 ∧
      s.me.waits ((List.range 8).map (24 + ·)) [] [] [] = none ∧ ((s.core 0).channel 2).actEn = true ∧ ((s.core 0).channel 2).actCtx = s.me.ctx ∧
      (s.ctx 0).phase = .free ∧ ((s.core 0).channel 2).room = true ∧ ((t.core 0).channel 2).room = false ∧
      ((s.setCtx 0 { phase := .quiescing }).ctx 0).phase = .quiescing ∧ ((s.core 0).channel 3).actEn = false := by decide +kernel
theorem test_written_channel_acts_at_next_start : let s := after (.syswr 1 0x52) (core0 fun k => { k with
      running := true, s := [(1, 2 ^ 63)] })
    ((s.core 0).channel 2).en = true ∧ ((s.core 0).channel 2).actEn = false ∧
      (((after (.handlerStart 0) (s.modCore 0 fun k => { k with
        running := false, chans := Table.put k.chans 2 { k.channel 2 with queue := [{ words := [1] }] } })).core 0).channel 2).actEn = true := by
  decide +kernel

/-- A kernel task of one group, which is bound to core 0's channel 1. -/
def kernel (p : GroupPhase) : Task :=
  { aTask 0 with bytes := (record 0 false).set 24 1, groups := [(0, { phase := p, region := some 0 })] }
def grouped (p : GroupPhase) : State := (withRegion oneQuad (bound id)).setTask (0, 1) (kernel p)

theorem test_trig_releases : ((after .trig (grouped .running)).task? (0, 1)).map (·.released) = some true := by decide +kernel
theorem test_meets_TriggersAndExits : (regs []).boundGroup 0 = none ∧ (grouped .running).boundGroup 0 = some (0, 1, 0) ∧
    ((grouped .running).task? (0, 1)) = some (kernel .running) ∧ ((kernel .running).group 0).phase = .running ∧
    (grouped .running).specOf 0 = none ∧ (grouped .running).me.waits [1, 2] [] [] [] = none := by decide +kernel
theorem test_meets_TriggersAndExits_handle : let s := tasked (aTask 4) fun k => { k with s := [(1, 0), (2, 9), (3, 8)] }
    s.handle? (s.me.rd 2) s.me.ctx = some ((0, 1), aTask 4) ∧ s.handle? (s.me.rd 3) s.me.ctx = none ∧
      s.specOf s.cur = some ((0, 1), aTask 4) ∧ s.me.rd 2 = handleWord 0 9 ∧ (aTask 4).kind = 4 ∧ (aTask 4).spec = true ∧
      (aTask 4).phase = .running ∧ (tasked (aTask 1) id).handle? 9 0 = some ((0, 1), aTask 1) ∧ (aTask 1).kind ≠ 3 ∧ (aTask 1).kind ≠ 4 ∧
      (tasked (aTask 3) id).specOf 0 = none ∧ (aTask 3).spec = false ∧
      (let e := tasked { aTask 3 with phase := .done } id
       e.handle? 9 0 = some ((0, 1), { aTask 3 with phase := .done }) ∧ e.specOf 0 = none) := by decide +kernel

/-- Slot 2 of die 0 is owned by context 0 with key 50. -/
def incumbent : Inc := { key := 50, payload := 77, count := 3, valid := true, owner := 0 }
def withInc (s : State) : State :=
  { s.modDie 0 fun d => { d with incs := [(2, { inc := incumbent })] } with incs := [(2, incumbent)] }

theorem test_inc_rd : gives (.incRd 3 1) (withInc (regs [(1, 2)])) 3 = 0x300000032 ∧
    gives (.incRd 3 1) (withInc (regs [(1, 0x202)])) 3 = 0x200000000 := by decide +kernel
theorem test_meets_IncumbentInstructions : let s := withInc (regs [(1, 0x202), (2, 1023), (4, 1024), (5, 2), (6, 0xFFFFFFFF), (7, 0x100000000)])
    s.me.waits [1] [] [3] [] = none ∧ s.me.waits [1, 2, 4] [] [3] [] = none ∧ (s.me.rd 1).toNat < 1024 ∧ (s.me.rd 1).toNat / 256 % 4 = 2 ∧
      (s.me.rd 2).toNat / 256 % 4 = 3 ∧ 1024 ≤ (s.me.rd 4).toNat ∧ s.me.out 0 < 1023 ∧ (s.incCopy 0 2).inc.valid = true ∧
      (s.incCopy 0 2).withdrawn = false ∧ (s.incCopy 0 2).inc.owner = s.me.ctx ∧ s.ownInc 0 2 0 = some incumbent ∧ s.ownInc 0 3 0 = none ∧
      s.me.req = none ∧ Table.has s.inits 2 = false ∧ (s.me.rd 6).toNat < 2 ^ 32 ∧ 2 ^ 32 ≤ (s.me.rd 7).toNat ∧ s.me.task = none ∧
      ({ s.me with req := some (.answered 1) } : CoreSt).req = some (.answered 1) ∧ (s.me.rd 5).toNat < 256 := by decide +kernel
theorem test_meets_IncumbentInstructions_offer : let v := { aTask 4 with offer := some (2, 60, 0) }
    let s := withInc (tasked v fun k => { k with s := [(1, 2), (2, 40), (3, 3)] })
    s.me.task = some (0, 1) ∧ s.task? (0, 1) = some v ∧ v.spec = true ∧ v.phase = .running ∧ s.ownInc 0 2 0 = some incumbent ∧
      incumbent.dir = false ∧ (BitVec.ofNat 32 40).toNat < (60 : BitVec 32).toNat ∧ (aTask 4).offer = none ∧
      ¬ (BitVec.ofNat 32 61).toNat < (60 : BitVec 32).toNat := by decide +kernel
theorem test_inc_offer_keeps_better : ((after (.incOffer 1 2 3) (withInc (tasked { aTask 4 with offer := some (2, 60, 0) }
    fun k => { k with s := [(1, 2), (2, 40), (3, 3)] }))).task? (0, 1)).map (·.offer) = some (some (2, 40, 3)) := by decide +kernel

/-- A bound word on slot 2 with a key. -/
def boundWord (key : Nat) : Word := BitVec.ofNat 64 (2 ^ 40 + 2 * 2 ^ 32 + key)

theorem test_killpt_kills : ((after (.killpt 1) (withInc (tasked { aTask 3 with bound := boundWord 50 } fun k => { k with s := [(1, 9)] }))).task?
    (0, 1)).map (fun t => (t.killed, t.phase)) = some (true, .finished) := by decide +kernel
theorem test_meets_KillPoints : let v := { aTask 3 with bound := boundWord 50 }
    let s := withInc (tasked v fun k => { k with s := [(1, 9), (2, boundWord 7), (3, 0x8000000000000000), (4, 0xFFFFFFFFFFFFC0)] })
    s.me.waits [1] [] [] [] = none ∧ s.me.waits [1, 2] [] [] [] = none ∧ s.me.waits [4, 2, 1] [] [3] [] = none ∧
      s.handle? (s.me.rd 1) s.me.ctx = some ((0, 1), v) ∧ s.handle? 8 s.me.ctx = none ∧ s.killable 0 v = true ∧ v.killed = false ∧
      v.kind ≠ 0 ∧ s.me.task = some (0, 1) ∧ s.killable 0 { v with bound := boundWord 49 } = false ∧ bOk (s.me.rd 2) = true ∧
      bBounded (s.me.rd 2) = true ∧ (s.ownInc 0 (bSlot (s.me.rd 2)) s.me.ctx).isSome = true ∧ bOk (s.me.rd 3) = false ∧
      bBounded 0 = false ∧ bOk 0 = true ∧ ({ s with dies := [] } : State).ownInc 0 2 0 = none ∧ (s.me.rd 4).toNat % 64 = 0 ∧
      (s.me.rd 4).toNat < 2 ^ 56 ∧ s.me.out 0 < 1023 ∧ s.poolUse 0 < 4096 ∧ v.kids.length < 64 ∧ ¬ (v.spec = true ∧ v.irrev = false) ∧
      s.bufferRoom (0, 1) (aTask 4) = true ∧ 64 ≤ ({ v with kids := List.replicate 64 (0, 0) } : Task).kids.length ∧
      (aTask 4).spec = true ∧ (aTask 4).irrev = false ∧ s.specOf s.cur = none := by decide +kernel

/-! ## Barriers, parks, zones, probes -/

/-- A barrier at word 0 of tile m0 of cluster 0: bytes, rem, init, count. -/
def barrier (b r i n : Nat) : Memory :=
  Memory.writeBytes [] (clusterBase 0) (bytesLE 4 b ++ bytesLE 4 r ++ bytesLE 4 i ++ bytesLE 4 n)
def atBarrier (b r i n : Nat) (f : CoreSt → CoreSt) : State := mapped (barrier b r i n) fun k => f { k with s := [(1, 0x10000)] }

theorem test_bar_arrive : let t := after (.barArrive 3 1 2) (atBarrier 0xFFFFF000 1 1 7 fun k => { k with s := [(1, 0x10000), (2, 4096)] })
    t.barCount (clusterBase 0) = 8 ∧ (t.core 0).rd 3 = 0x10008 ∧ (t.core 0).arrival = some (clusterBase 0, 7) := by decide +kernel
theorem test_bar_early_bytes : let t := after (.barArrive 3 1 2) (atBarrier 0xFFFFF000 1 1 0 fun k => { k with s := [(1, 0x10000), (2, 8192)] })
    t.barCount (clusterBase 0) = 0 ∧ (t.core 0).rd 3 = 0x0000100000000000 := by decide +kernel
theorem test_park_bar_woken : let s := atBarrier 0 1 1 0 fun k => { k with s := [(1, 0x10000), (2, 1)], chans := [(1, { en := true })] }
    ((after (.parkBar 1 2 3) s).core 0).parks.map (fun e => (e.2.count, e.2.fired)) = [(0, none)] := by decide +kernel

theorem test_meets_BarrierStepRule : let s := atBarrier 5 3 4 0 id
    clusterBase 0 % 16 = 0 ∧ (s.barRem (clusterBase 0)).toNat < 4 ∧ 3 ≤ (s.barRem (clusterBase 0)).toNat ∧
      3 = (s.barRem (clusterBase 0)).toNat ∧ s.barBytes (clusterBase 0) + 0 - 5 = 0 ∧
      ¬ (2 = (s.barRem (clusterBase 0)).toNat ∧ s.barBytes (clusterBase 0) + 0 - 5 = 0) := by decide +kernel
/-- Slot 0 of tile m0 of cluster 0 watches the barrier at word 0, and slot `n` of the quad is current. -/
def watched (n : Nat) : State :=
  let watch : Cfg := { elem := BitVec.ofNat 256 (2 * 2 ^ 252 + 0x0A * 2 ^ 247 + 2 ^ 224 + 3 * 2 ^ 190) }
  ((atBarrier 0 1 1 6 id).setRegion 0 { oneQuad with cur := some n }).setSite (tileSite 0 0) { cfg := [(0, watch)], phase := .wait }
theorem test_meets_BarrierStepRule_watcher : tileOf (clusterBase 0) = some (tileSite 0 0, 0) ∧
    isWatcher (((watched 0).site (tileSite 0 0)).slot 0) 0 = true ∧ (watched 0).curSlot (tileSite 0 0) = some 0 ∧
    (∀ j, j < 4 → j ≠ 0 → isWatcher (((watched 0).site (tileSite 0 0)).slot j) 0 = false) ∧
    (watched 1).curSlot (tileSite 0 0) ≠ some 0 ∧
    (((watched 1).barStep (clusterBase 0) 0 0 1).map fun t => ((t.site (tileSite 0 0)).slot 0).missed) = some [7] ∧
    (((watched 0).barStep (clusterBase 0) 0 0 1).map fun t => (t.site (tileSite 0 0)).pipe.map (·.pkt.elems)) = some [[7]] := by
  decide +kernel

theorem test_meets_BarrierInstructions : let s := atBarrier 0 1 1 0 fun k => { k with s := [(1, 0x10000), (2, 65535), (3, 65536)] }
    s.me.waits [1, 2] [] [] [] = none ∧ s.me.waits [1, 2] [] [3] [] = none ∧ s.me.waits [1] [] [3] [] = none ∧ s.specOf s.cur = none ∧
      s.me.acqWait = false ∧ s.me.out 1 < 1023 ∧ s.me.out 0 < 1023 ∧ s.me.ops = [] ∧ 1 ≤ (s.me.rd 2).toNat ∧
      (s.me.rd 2).toNat ≤ 65535 ∧ (s.me.rd 2).toNat < 2 ^ 32 ∧ 65535 < (s.me.rd 3).toNat ∧
      s.tileFree (tileSite 0 0) (barWords (clusterBase 0)) true = true ∧ s.tileFree (tileSite 0 0) (barWords (clusterBase 0)) false = true ∧
      1 ≤ (s.barRem (clusterBase 0)).toNat ∧ ((atBarrier 0 0 1 0 id).barRem (clusterBase 0)).toNat = 0 ∧
      ((after (.barArrive 3 1 2) (atBarrier 0 0 1 0 id)).core 0).tcause = BitVec.ofNat 7 tBarOver := by decide +kernel
theorem test_meets_BarrierAt : let s := atBarrier 0 1 1 0 id
    BarrierAt s 0x10000 .atomic (clusterBase 0) (tileSite 0 0) ∧ BarrierAt s 0x10000 .load (clusterBase 0) (tileSite 0 0) :=
  ⟨⟨by decide +kernel, by decide +kernel, 0, 0, by decide +kernel, rfl, by decide +kernel⟩, ⟨by decide +kernel, by decide +kernel, 0, 0, by decide +kernel, rfl, by decide +kernel⟩⟩
theorem test_meets_BarrierInstructions_performed :
    let o (kind : OpKind) : MemOp := { aStore with kind, pa := clusterBase 0, size := 16, data := 65535 }
    let s (kind : OpKind) : State := atBarrier 0 1 1 0 fun k => { k with ops := [o kind] }
    ((s .barInit).core 0).ops = [] ++ o .barInit :: [] ∧ (s .barInit).mayPerform [] (o .barInit) = true ∧
      (s .barExpect).mayPerform [] (o .barExpect) = true ∧ (o .barInit).pa % 16 = 0 := by decide +kernel

theorem test_meets_Parks : let s := atBarrier 0 1 1 0 fun k => { k with
      s := [(1, 0x10000), (2, 15), (3, 16), (4, 14)], chans := [(15, { en := true })], arrival := some (clusterBase 0, 0) }
    let full := s.setCore 0 { s.me with parks := (List.range 32).map fun i =>
      (i, { form := 6, target := 0, chan := 1, tag := 0, ctx := 0, count := 0, fired := none }) }
    s.me.waits [1, 2, 3] [] [] [] = none ∧ s.specOf s.cur = none ∧ 16 ≤ (s.me.rd 3).toNat ∧ (s.me.rd 2).toNat < 16 ∧
      (s.me.channel 15).actEn = true ∧ (s.me.channel 15).actCtx = s.me.ctx ∧ (s.me.channel 14).actEn = false ∧
      (∀ i, i < 32 → Table.has full.me.parks i = true) ∧
      ((after (.parkWord 1 4 3) s).core 0).tcause = BitVec.ofNat 7 tParkArg ∧
      ((after (.parkWord 1 2 3) full).core 0).tcause = BitVec.ofNat 7 tParkFull ∧
      ((after (.parkWord 1 2 3) s).core 0).parks.map (fun e => (e.1, e.2.form, e.2.fired)) = [(0, 4, none)] ∧ Table.has s.me.parks 31 = false ∧
      s.translate s.cur s.me.ctx (s.me.rd 1).toNat .load = .ok (clusterBase 0) ∧ placeOf (clusterBase 0) = .tile 0 0 ∧
      (s.me.rd 1).toNat % 16 = 0 ∧ s.me.pendingAt (clusterBase 0) 16 = false ∧
      s.me.pendingAt (clusterBase 0) 4 = false ∧ s.tileFree (tileSite 0 0) [clusterBase 0 % 0x80000 / 4] false = true ∧
      s.tileFree (tileSite 0 0) (barWords (clusterBase 0)) false = true ∧ s.me.arrival = some (clusterBase 0, 0) := by decide +kernel

/-- Zone 0 of die 0 is FLOWING. -/
def flowing (s : State) : State := s.setRegFld (dieBase 0 + 0x20000) 63 61 4
theorem test_meets_ZoneRequests : let s := flowing (grouped .running)
    let t := s.setCore 0 { s.me with s := [(1, 128), (2, 127)] }
    t.me.waits [1] [] [3] [] = none ∧ t.specOf t.cur = none ∧ 128 ≤ (t.me.rd 1).toNat ∧ (t.me.rd 2).toNat < 128 ∧ t.me.out 0 < 1023 ∧
      (regs []).boundGroup 0 = none ∧ s.boundGroup s.cur = some (0, 1, 0) ∧ s.task? (0, 1) = some (kernel .running) ∧
      ((kernel .running).group 0).region = some 0 ∧ (s.region 0).inCluster 0 = true ∧ (s.region 0).inCluster 1 = false ∧
      s.zState 0 = zFlowing ∧ (s.die (dieOf 0)).pressHeld = false ∧ (grouped .running).zState 0 = zDry ∧
      (let r := s.reserve 0 (0, 1) 0 ((kernel .running).group 0) (some 2)
       r.sumMins 0 ≤ s.zbudget 0 ∧ (s.setRegFld (zbudgetPa 0) 13 0 0).zbudget 0 < r.sumMins 0) := by decide +kernel
theorem test_zreq_full : gives (.zreqRaise 3 0 2) ((flowing (grouped .running)).setRegFld (zbudgetPa 0) 13 0 0) 3 / 2 ^ 62 = 1 ∧
    gives (.zreqRaise 3 0 2) (grouped .running) 3 / 2 ^ 62 = 2 := by decide +kernel
theorem test_zreq_raise : gives (.zreqRaise 3 0 2) (flowing (grouped .running)) 3 / 2 ^ 62 = 0 := by decide +kernel

theorem test_meets_FenceWaitAndProbe : (outst [aStore]).me.ops ≠ [] ∧ (regs []).me.ops = [] ∧ (outst [aStore]).me.out 1 ≤ 1 ∧
    0 < (outst [aStore]).me.out 1 ∧ 1023 ≤ (1023 : BitVec 16).toNat ∧ (regs []).me.waits [1] [] [3] [] = none ∧
    (regs []).me.acqWait = false ∧ (regs []).me.out 0 < 1023 ∧ (mapped [] id).translate 0 0 0x1FFFF .load = .ok (clusterBase 0 + 0xFFFF) ∧
    (mapped [] id).translate 0 0 0x30000 .load = .fault 0 := by decide +kernel
theorem test_xprobe_refusal : gives (.xprobe 3 1) (mapped [] fun k => { k with s := [(1, 0x30000)] }) 3 / 2 ^ 61 = 4 := by decide +kernel

/-! ## Handlers and contexts -/

/-- Core 0 rests with two messages on channel 1 of prio 2, and one on channel 3 of prio 1, in context `x`. -/
def waiting (x : Nat) : State := core0 fun k => { k with
  chans := [(1, { en := true, prio := 2, queue := [{ words := [1] }, { words := [2] }] }),
            (3, { entry := 0x400, en := true, prio := 1, ctx := x, budget := 9, queue := [{ words := [3, 4] }] })] }

theorem test_handler_start : let k := (after (.handlerStart 0) (waiting 0)).core 0
    k.running = true ∧ k.chan = 3 ∧ k.pc = 0x400 ∧ k.rdM 0 = 3 ∧ k.rdM 1 = 4 ∧ k.rdM 2 = 0 ∧ k.priv = false := by decide +kernel
theorem test_meets_HandlerStart : ((waiting 0).core 0).later = [] ∧ (waiting 0).mayStart 0 = true ∧ 3 < 16 ∧ 3 ∈ ((waiting 0).core 0).startable ∧
    (∀ j ∈ ((waiting 0).core 0).startable, 1 < (((waiting 0).core 0).channel j).prio ∨ (1 = (((waiting 0).core 0).channel j).prio ∧ 3 ≤ j)) ∧
    (((waiting 0).core 0).channel 3).queue = { words := [3, 4] } :: [] ∧ (((waiting 0).core 0).channel 3).ctx = ((waiting 0).core 0).ctx ∧
    (((waiting 63).core 0).channel 3).ctx ≠ ((waiting 63).core 0).ctx ∧ (waiting 63).mayStart 0 = true := by decide +kernel

/-- Core 0 waits for a switch to context 1; contexts 0 and 1 have their save areas at 0 and 0x1000. -/
def switching : State :=
  let st : Start := { ctx := 1, chan := 1, m := [], pc := 0x300, issued := 0, budget := 0, priv := false, task := none }
  let s := mapped [] fun k => { k with running := false, s := [(1, 0xAB)], next := some st }
  let e : TlbEnt := { ctx := 1, vbase := 0, pbase := 0, lg := 16, leaf := 0x1E }
  { s.setCtx 1 { phase := .opened, csave := 0x1000 } with tlbs := [(0, e :: maps)] }

theorem test_meets_CoreSwitch : (switching.core 0).next.map (·.ctx) = some 1 ∧ (switching.core 0).running = false ∧
    (switching.core 0).nextHeld = false ∧ (switching.core 0).quiet = true ∧
    (switching.vaddrs 0 (switching.core 0).ctx .store (switching.recordVa (switching.core 0).ctx 0) 512).2 = none ∧
    (switching.vaddrs 0 1 .load (switching.recordVa 1 0) 512).2 = none ∧
    (let ps := (switching.vaddrs 0 (switching.core 0).ctx .store (switching.recordVa (switching.core 0).ctx 0) 512).1
     let qs := (switching.vaddrs 0 1 .load (switching.recordVa 1 0) 512).1
     switching.liveAt ps = false ∧ (ps ++ qs).all isRam = true ∧ (ps ++ qs).all (fun p => (switching.protectedBy p).isNone) = true ∧ ps = (List.range 512).map (0 + ·) ∧ (qs.map switching.mem.read).getD 400 0 = 0) := by decide +kernel
theorem test_core_switch_reads : let t := after (.coreSwitch 0) { switching with mem := [(0x1000, 0x5C), (0x1190, 1)] }
    (t.core 0).rd 1 = 0x5C ∧ (t.core 0).rd 2 = 0 := by decide +kernel
theorem test_core_switch : let t := after (.coreSwitch 0) switching
    (t.core 0).ctx = 1 ∧ (t.core 0).running = true ∧ (t.core 0).rd 1 = 0 ∧ t.mem.read 0 = 0xAB ∧ t.mem.read 400 = 1 := by decide +kernel
theorem test_meets_CoreSwitch_fault : let s := { switching with tlbs := [] }
    (s.vaddrs 0 (s.core 0).ctx .store (s.recordVa (s.core 0).ctx 0) 512) = ([], some (0, 0)) := by decide +kernel

theorem test_meets_CoreEvents : let s := core0 fun k => { k with running := true, budget := 1, issued := 1, stall := some (.reg [5]) }
    let m : Cmd := { core := 0, ctx := 0, op := 3, tok := 5, a := 0, b := 0, c := 0, bar := none, fe := false, scope := 0, red := 0,
                     sfx := 0, ahead := none, seq := 1, cls := 2, held := some 1 }
    let p : Park := { form := 6, target := 0, chan := 1, tag := 9, ctx := 0, count := 0, fired := some 4 }
    let t := (core0 fun k => { k with parks := [(31, p)], chans := [(1, { en := true })] }).setCtx 0 { phase := .opened }
    (s.core 0).running = true ∧ (s.core 0).budget ≠ 0 ∧ (s.core 0).budget ≤ (s.core 0).issued ∧ (s.core 0).stall = some (.reg [5]) ∧
      (5 : Nat) ∈ [5] ∧ m.tok = 5 ∧ (3, m) ∈ ({ s with cmds := [(3, m)] } : State).cmds ∧ m.held = some 1 ∧ m.task = none ∧
      (m.cls = 2) ∧ 0 + 1 ≤ [(3, m)].length ∧ [(3, m)].Sublist ({ s with cmds := [(3, m)] } : State).cmds ∧
      (∀ e ∈ (t.core 0).parks, p.turn < e.2.turn ∨ (p.turn = e.2.turn ∧ 31 ≤ e.1)) ∧
      ((t.core 0).parks.find? fun e => e.1 = 31) = some (31, p) ∧ p.fired = some 4 ∧ ((t.core 0).channel 1).takes = true ∧
      (t.ctx 0).phase = .opened := by decide +kernel
theorem test_park_post : let p : Park := { form := 6, target := 0, chan := 1, tag := 9, ctx := 0, count := 0, fired := some 4 }
    (((after (.parkPost 0 31) ((core0 fun k => { k with parks := [(31, p)], chans := [(1, { en := true })] }).setCtx 0 { phase := .opened })).core 0).channel 1).queue =
      [{ words := [0x0200000000000006, 9, 4] }] := by decide +kernel

/-- Master 2 owns the device. -/
def owned (s : State) : State := s.setRegFld ownPa 7 6 2
theorem test_park_posts_in_order : let p (turn : Nat) : Park :=
      { form := 6, target := 0, chan := 1, tag := 9, ctx := 0, count := 0, fired := some 4, turn }
    let s := (core0 fun k => { k with parks := [(3, p 2), (31, p 1)], chans := [(1, { en := true })] }).setCtx 0 { phase := .opened }
    ((after (.parkPost 0 3) s).core 0).parks.length = 2 ∧ ((after (.parkPost 0 31) s).core 0).parks.map (·.1) = [3] := by decide +kernel
theorem test_meets_ContextLifeCycle : (owned State.reset).owner = 2 ∧ (owned State.reset).waiting 2 = [] ∧ ((regs []).core 0).running = true ∧ ((regs []).core 0).priv = true ∧
    ((regs []).ctx 63).phase = .free ∧ (((regs []).setCtx 63 { phase := .opened }).ctx 63).phase = .opened ∧
    (((regs []).setCtx 63 { phase := .quiescing }).ctx 63).phase = .quiescing ∧
    (((regs []).setCtx 63 { phase := .quiesced }).ctx 63).phase = .quiesced ∧ ((regs []).core 0).busyWith 0 = true := by decide +kernel
theorem test_meets_ContextLifeCycle_saves :
    let s := { switching.setCtx 0 { phase := .quiescing } with
               cores := (List.range 128).map fun c => (c, if c = 0 then { switching.core 0 with next := none } else { CoreSt.reset with ctx := 5 }) }
    (s.saveAll 0 (List.range 128)).isSome = true ∧ (∀ c, c < 128 → (s.core c).busyWith 0 = false) ∧
      (after (.ctxQuiesced 0) s).mem.read 0 = 0xAB ∧ ((after (.ctxQuiesced 0) s).ctx 0).phase = .quiesced := by decide +kernel
theorem test_meets_ContextLifeCycle_quiet : ∀ c, c < 128 → ((regs []).core c).busyWith 63 = false ∧ ((regs []).core c).ctx ≠ 63 := by
  decide +kernel

/-! ## Fabric -/

/-- Frames by their fields (R62 to R66): a compute element, a memory tile, a switch whose destination `j` takes source `r`. -/
def ce (op sfx a b c om sub : Nat) : BitVec 256 :=
  BitVec.ofNat 256 (2 ^ 252 + op * 2 ^ 246 + sfx * 2 ^ 242 + a * 2 ^ 230 + b * 2 ^ 226 + c * 2 ^ 222 + om * 2 ^ 218 + sub * 2 ^ 210)
def mt (op sfx a b om base len : Nat) : BitVec 256 :=
  BitVec.ofNat 256 (2 * 2 ^ 252 + op * 2 ^ 247 + sfx * 2 ^ 243 + a * 2 ^ 232 + b * 2 ^ 228 + om * 2 ^ 224 + base * 2 ^ 207 + len * 2 ^ 190)
def sw (js : List (Nat × Nat)) : BitVec 256 := BitVec.ofNat 256 (js.foldl (fun a e => a + (e.2 + 1) * 2 ^ (247 - 5 * e.1)) 0)

/-- A DATA packet of slot 0. -/
def pk (ord : Nat) (es : List (BitVec 32)) : Pkt := { kind := 0, elems := es, last := false, aux := 0, ord := BitVec.ofNat 48 ord, slot := 0 }
def eos (level ord : Nat) : Pkt := { pk ord [0] with kind := 1, aux := BitVec.ofNat 8 level }

/-- Site `p` of the quad at the origin of die 0, whose slot 0 is current, in WAIT with configuration `c`. -/
def one (p : Nat) (c : Cfg) (f : Site → Site) : State :=
  (State.reset.setRegion 0 { oneQuad with cur := some 0 }).setSite p (f { cfg := [(0, c)], phase := .wait })

/-- The compute element at (1, 0). -/
def el : Nat := 32
/-- The elements of the packets in its pipeline, by port. -/
def sent (s : State) (p : Nat) : List (Nat × Nat × List (BitVec 32)) := (s.site p).pipe.map fun r => (r.port, r.pkt.kind, r.pkt.elems)

/-! A packet's way. -/

def forwarding : State := one el { sw := sw [(4, 16), (17, 0)], elem := ce 1 9 0 1 0 1 0 } fun t => { t with outb := [(0, [pk 0 [5]])] }
theorem test_meets_PacketsTravel_forward : let s := forwarding
    (s.active el).map (·.1) = some 0 ∧ headOf ((s.site el).source 16) 0 = some (pk 0 [5]) ∧ (s.site el).dests 0 16 = [4] ∧
      (s.site el).damaged (pk 0 [5]) [4] = none ∧ (s.site el).struck 16 (pk 0 [5]) = [] ∧ s.roomAt el 0 4 = true ∧ (s.site el).antiFor 4 (pk 0 [5]) = false ∧
      s.metered el 16 (pk 0 [5]) = false ∧ s.breakHit el ([srcPort 16] ++ [4]) (pk 0 [5]) = none := by decide +kernel
theorem test_switch_forwards : ((after (.switchForward el 16) forwarding).site el).wireAt 4 = [pk 0 [5]] ∧
    ((after (.switchForward el 16) forwarding).site el).source 16 = [] := by decide +kernel

def onWire : State := one el { sw := sw [(4, 16)] } fun t => { t with wire := [(4, [pk 0 [5]])] }
theorem test_meets_PacketsTravel_hop : (onWire.site el).phase ≠ .fault ∧ (onWire.site el).wireAt 4 = pk 0 [5] :: [] ∧ (pk 0 [5]).kind ≠ mkKill ∧
    onWire.hopTo el 0 4 = some (64, farLane 4) ∧ (Table.get [] (onWire.site 64).lane (farLane 4)).length < 4 := by decide +kernel
theorem test_packet_hops : Table.get [] ((after (.packetHop el 4 true) onWire).site 64).lane (farLane 4) = [pk 0 [5]] := by decide +kernel

/-- A packet of ordinal `n` at in0 of an adder that expects 7. -/
def arriving (c : Cfg) (k : Pkt) : State := one el { c with inp := [(0, { exp := 0x10007 })] } fun t => { t with wire := [(16, [k])] }
theorem test_meets_PacketsTravel_accept : let c : Cfg := { elem := ce 1 9 0 1 0 1 0 }
    let s := arriving c (pk 7 [1])
    (s.site el).phase ≠ .fault ∧ (s.site el).wireAt (16 + 0) = pk 7 [1] :: [] ∧ (pk 7 [1]).lenOk = true ∧ (pk 7 []).lenOk = false ∧
      (pk 7 [1]).marker = false ∧ (s.site el).antiFor (16 + 0) (pk 7 [1]) = false ∧ 0 ∈ readPorts ((s.site el).slot 0) ∧
      2 ∉ readPorts ((s.site el).slot 0) ∧ ((s.site el).slot 0).killing = false ∧ (((s.site el).slot 0).inPort 0).marks = [] ∧
      (pk 7 [1]).ord.truncate 16 = ((((s.site el).slot 0).inPort 0).exp.truncate 16 : BitVec 16) ∧
      (pk 8 [1]).ord.truncate 16 ≠ ((((s.site el).slot 0).inPort 0).exp.truncate 16 : BitVec 16) := by decide +kernel
theorem test_accept_counts : let t := after (.packetAccept el 0) (arriving { elem := ce 1 9 0 1 0 1 0 } (pk 7 [1]))
    Table.get [] (t.site el).inb 0 = [pk 7 [1]] ∧ (((t.site el).slot 0).inPort 0).exp = 0x10008 := by decide +kernel
theorem test_accept_window : ((after (.packetAccept el 0) (arriving { elem := ce 1 9 0 1 0 1 0 } (pk 8 [1]))).site el).phase = .fault ∧
    ((after (.packetAccept el 0) (arriving { elem := ce 1 9 0 1 0 1 0 } { pk 7 [1] with bad := true })).site el).phase = .fault := by decide +kernel
theorem test_meets_PacketsTravel_done : let d : Pkt := { pk 7 [0] with kind := 3 }
    d.lenOk = true ∧ 0 ∈ readPorts { elem := mt 0x0B 9 0 1 1 0 7 } ∧ doneAt (mt 0x0B 9 0 1 1 0 7) 0 = true ∧
      doneAt (ce 1 9 0 1 0 1 0) 0 = false := by decide +kernel

/-! Anti-tokens. -/

def anti : Anti := { ord := 3, slot := 0 }
def antiAt (key : Nat) (c : Cfg) (f : Site → Site) : State := one el c fun t => f { t with rev := [(key, [anti])] }
theorem test_meets_AntiTokens_hop : let s := antiAt 1 { sw := sw [(4, 12)] } id
    (s.site el).phase ≠ .fault ∧ (s.site el).antiAt 4 = some (1, anti, []) ∧ swSelect ((s.site el).slot 0).sw 4 = 12 + 1 ∧
      meets ((s.site el).wireAt 4) anti = .nothing ∧ (s.site el).antiKind 4 anti = .hop ∧ meets ((s.site el).source 12) anti = .nothing ∧
      s.hopFrom el 0 12 = some (0, farLane 12) ∧ meets ((s.site 0).wireAt (farLane 12)) anti = .nothing ∧
      ((s.site 0).revAt ((s.site 0).revKey 0 (farLane 12))).length < 4 := by decide +kernel
theorem test_meets_AntiTokens_packet : let s := antiAt 1 { sw := sw [(4, 12)] } fun t => { t with lane := [(12, [pk 3 [1]])] }
    meets ((s.site el).source 12) anti = .packet (pk 3 [1]) ∧
      ((after (.antiTokenHop el 4 true) s).site el).source 12 = [] := by decide +kernel
theorem test_meets_AntiTokens_producer : let c : Cfg := { sw := sw [(4, 16)], elem := ce 1 9 0 1 0 1 0 }
    let s := antiAt 1 c id
    (s.site el).antiKind 4 anti = .producer ∧ meets ((s.site el).source 16) anti = .nothing ∧
      meets (Table.get [] (s.site el).outb 0) anti = .nothing ∧ c.killing = false ∧ (s.site el).phase ≠ .idle ∧ (s.site el).pipe = [] ∧
      (s.site el).mtq = [] ∧ (fullOrd 0 3 - 0 : BitVec 48).toNat < 2 ^ 15 ∧ isCommitted c.elem = false ∧ (c.outPort 0).pend.length < 8 ∧
      (((after (.antiTokenProducer el 4) s).site el).slot 0 |>.outPort 0).pend = [3] := by decide +kernel
theorem test_meets_AntiTokens_store : let c : Cfg := { sw := sw [(4, 16)], elem := mt 2 9 0 1 1 0 7 + BitVec.ofNat 256 (2 ^ 242) }
    let s := antiAt 1 c id
    (s.site el).antiKind 4 anti = .store ∧ (c.outPort 0).held.length < 8 ∧
      (((after (.committedStoreAnti el 4) s).site el).slot 0 |>.outPort 0).held = [3] := by decide +kernel
theorem test_meets_AntiTokens_fork : let s := antiAt 1 { sw := sw [(4, 12), (5, 12)] } id
    (s.site el).antiKind 4 anti = .fork ∧ (s.site el).forks = [] ∧ meets ((s.site el).source 12) anti = .nothing ∧
      (((after (.forkAntiToken el 4) s).site el).forks.map (·.off)) = [[4]] := by decide +kernel

/-! Firings. -/

def adder : Cfg := { elem := ce 1 9 0 1 0 1 0 }
def addition : State := one el adder fun t => { t with inb := [(0, [pk 0 [0xFFFFFFFF, 1]]), (1, [pk 0 [2, 3]])] }
theorem test_meets_ComputeElements_fire : let t := addition.site el
    (addition.active el).map (·.1) = some 0 ∧ frKind adder.elem = 1 ∧ t.mayFire = true ∧ adder.killing = false ∧
      ceWise (ceOp adder.elem) = true ∧ t.eosView 0 (readPorts adder) = none ∧ t.room (drivenPorts adder.elem) = true ∧
      t.earlyReady 0 = false ∧ adder.plain (drivenPorts adder.elem) = true ∧ adder.due = [] ∧
      adder.inj = none ∧ (pk 0 [2, 3]).kind < 6 ∧ t.ceOperands 0 [] = some [pk 0 [0xFFFFFFFF, 1], pk 0 [2, 3]] ∧ ceOp adder.elem = 0x01 ∧ ceSfx adder.elem = 9 := by decide +kernel
theorem test_add_fires : sent (after (.ceFire el) addition) el = [(0, 0, [1, 4])] ∧
    ((after (.ceFire el) addition).site el).inb = [(0, []), (1, [])] := by decide +kernel
theorem test_err_passes : let e : Pkt := { pk 0 [9] with kind := 2, aux := 5 }
    let s := one el adder fun t => { t with inb := [(0, [e]), (1, [pk 0 [2]])] }
    firstErr (ceCounted adder.elem [e, pk 0 [2]]) = some e ∧ sent (after (.ceFire el) s) el = [(0, 2, [9])] := by decide +kernel
theorem test_meets_ComputeElements_result : let r : Result := { port := 0, ord := 2, pkt := pk 2 [6] }
    let s := one el adder fun t => { t with pipe := [r] }
    let c := one el { adder with outp := [(0, { pend := [2] })] } fun t => { t with pipe := [r] }
    (s.site el).phase ≠ .fault ∧ (s.site el).nextResult = some 0 ∧ (s.site el).pipe[0]? = some r ∧
      (((s.site el).slot 0).outPort 0).pend.contains 2 = false ∧ (c.site el).nextResult = some 0 ∧
      (((c.site el).slot 0).outPort 0).pend.contains 2 = true ∧
      ((after (.firingResult el) s).site el).outb = [(0, [pk 2 [6]])] ∧ ((after (.firingResult el) c).site el).outb = [] := by decide +kernel
theorem test_meets_ComputeElements_eos : let s := one el { adder with outp := [(0, { ord := 5 })] } fun t =>
      { t with inb := [(0, [eos 2 4]), (1, [eos 2 6])] }
    let t := s.site el
    t.eosView 0 (readPorts adder) = some { level := 2, ended := [0, 1], surplus := [], missing := false } ∧
      t.room (drivenPorts adder.elem) = true ∧ t.earlyReady 0 = false ∧ t.skipHere 0 (drivenPorts adder.elem) = none ∧
      sent (after (.eosForward el) s) el = [(0, 1, [5])] := by decide +kernel
theorem test_meets_ComputeElements_early : let c : Cfg := { elem := ce 0x0C 9 0 1 0 1 0 + BitVec.ofNat 256 (2 ^ 238) }
    let s := one el c fun t => { t with inb := [(0, [pk 0 [0, 0]])] }
    let t := s.site el
    ceOp c.elem = 0x0C ∧ ceJoin c.elem = true ∧ ceA c.elem = 0 ∧ ceB c.elem = 1 ∧ t.inData 0 0 = some (pk 0 [0, 0]) ∧
      earlySettles c.elem (pk 0 [0, 0]) = true ∧ t.inData 0 1 = none ∧ (c.inPort 1).marks = [] ∧ t.room (drivenPorts c.elem) = true ∧
      c.plain (drivenPorts c.elem) = true ∧ sent (after (.earlyJoinFire el) s) el = [(0, 0, [0, 0])] ∧
      ((after (.earlyJoinFire el) s).site el).revAt 17 = [{ ord := 0, slot := 0 }] := by decide +kernel
theorem test_meets_ComputeElements_steer : let c : Cfg := { elem := ce 0x1B 9 0 15 2 3 0 }
    let s := one el c fun t => { t with inb := [(0, [pk 0 [8]]), (2, [pk 0 [1]])] }
    let t := s.site el
    ceOp c.elem = 0x1B ∧ c.skew = false ∧ ceA c.elem = 0 ∧ ceC c.elem = 2 ∧ t.inData 0 2 = some (pk 0 [1]) ∧ t.inData 0 0 = some (pk 0 [8]) ∧
      t.room [1] = true ∧ c.cancelledNext [1] = false ∧ sent (after (.steerFire el) s) el = [(1, 0, [8])] := by decide +kernel
theorem test_odd_b64_is_length_skew : let c : Cfg := { elem := ce 0x1B 10 0 15 2 3 0 }
    let s := one el c fun t => { t with inb := [(0, [pk 0 [8]]), (2, [pk 0 [1]])] }
    (pk 0 [8]).odd (ceSfx c.elem) = true ∧ (pk 0 [8, 9]).odd (ceSfx c.elem) = false ∧
      ((after (.steerFire el) s).site el).pipe.map (fun r => (r.port, r.pkt.kind, r.pkt.aux.toNat)) = [(1, 2, clsLengthSkew)] := by decide +kernel
theorem test_meets_ComputeElements_lcmerge : let c : Cfg := { elem := ce 0x1D 9 0 1 2 1 0 }
    let s := one el c fun t => { t with inb := [(0, [pk 0 [8]])] }
    let t := s.site el
    ceOp c.elem = 0x1D ∧ c.qAt 0 = 0 ∧ t.inData 0 0 = some (pk 0 [8]) ∧ t.room (drivenPorts c.elem) = true ∧
      c.cancelledNext (drivenPorts c.elem) = false ∧ sent (after (.lcmergeStep el) s) el = [(0, 0, [8])] ∧
      (((after (.lcmergeStep el) s).site el).slot 0).qAt 0 = 1 := by decide +kernel

/-! Sources and runs. -/

theorem test_meets_Sources_cnt : let c : Cfg := { elem := ce 0x1F 9 0 0 0 1 0, k := [(0, 0x70), (1, 3), (5, 10), (6, 2)] }
    let s := one el c id
    ceOp c.elem = 0x1F ∧ c.inj = none ∧ c.gate = false ∧ c.cntDone = false ∧ c.todo = [] ∧ (s.site el).room [0] = true ∧
      sent (after (.cntEmit el) s) el = [(0, 4, [10, 12, 14])] ∧
      ((after (.cntEmit el) s).site el).pipe.map (·.pkt.last) = [true] := by decide +kernel
theorem test_meets_Sources_rng : let c : Cfg := { elem := ce 0x22 9 0 0 0 1 0, k := [(0, 0)], q := [(0, 1), (1, 2), (2, 3), (3, 4)] }
    let s := one el c id
    ceOp c.elem = 0x22 ∧ c.inj = none ∧ c.rngDone = false ∧ c.todo = [] ∧ (s.site el).room (drivenPorts c.elem) = true ∧
      sent (after (.rngEmit el) s) el = [(0, 0, [11520])] := by decide +kernel
theorem test_rng_words : let c : Cfg := { elem := ce 0x22 9 0 0 0 1 0, k := [(0, 1)], q := [(0, 1), (1, 2), (2, 3), (3, 4)] }
    sent (after (.rngEmit el) (one el c id)) el = [(0, 0, [11520, 0])] ∧
      (rngState (1, 2, 3, 4) 1) = (7, 0, 1026, 12288) := by decide +kernel
theorem test_bcvt_ends_early : let c : Cfg := { elem := ce 0x16 0 0 0 0 3 4 }
    let s := one el c fun t => { t with inb := [(0, [{ pk 0 [0x3F800000, 0] with last := true }])] }
    let t := after (.bcvtBlock el) s
    (t.site el).pipe.map (fun r => (r.port, r.pkt.elems.length, r.pkt.last)) = [(0, 2, true), (1, 1, true)] ∧
      ((t.site el).slot 0).carry = [] ∧ ((t.site el).slot 0).due = [] := by decide +kernel
theorem test_meets_Sources_bcvt : let c : Cfg := { elem := ce 0x16 0 0 0 0 3 4, carry := List.replicate 248 0x3F800000 }
    let k := pk 0 (List.replicate 8 0x3F800000)
    let s := one el c fun t => { t with inb := [(0, [k])] }
    ceOp c.elem = 0x16 ∧ (s.site el).room [0, 1] = true ∧ (s.site el).inData 0 0 = some k ∧
      c.carry.length < 256 ∧ k.elems.length ≤ 8 ∧ 256 ≤ (c.carry ++ k.elems).length ∧ (fmtOf (ceSfx c.elem)).isSome = true ∧ (fmtOf (ceSub c.elem % 16)).isSome = true ∧
      ((after (.bcvtBlock el) s).site el).pipe.length + (((after (.bcvtBlock el) s).site el).slot 0).due.length = 33 := by decide +kernel
theorem test_meets_Sources_red : let c : Cfg := { elem := ce 0x17 9 0 0 0 1 0 }
    let k : Pkt := { pk 0 [3, 4, 0xFFFFFFFF] with last := true }
    let s := one el c fun t => { t with inb := [(0, [k])] }
    ceOp c.elem = 0x17 ∧ ceSfx c.elem = 9 ∧ ceSub c.elem = 0 ∧ c.run = false ∧ c.runErr = none ∧ (s.site el).inData 0 0 = some k ∧
      (s.site el).room (drivenPorts c.elem) = true ∧ sent (after (.redResult el) s) el = [(0, 0, [6])] := by decide +kernel
theorem test_meets_Sources_lut : let c : Cfg := { elem := ce 0x21 0 0 0 0 1 0 }
    let s := one el c fun t => { t with inb := [(0, [pk 0 [0]])] }
    ceOp c.elem = 0x21 ∧ (s.site el).inData 0 0 = some (pk 0 [0]) ∧ (s.site el).room (drivenPorts c.elem) = true ∧
      c.plain (drivenPorts c.elem) = true ∧ (sent (after (.lutFire el) s) el).length = 1 := by decide +kernel

/-! Markers and cuts. -/

def mark (kind : Nat) : Pkt := { pk 0 [7] with kind }
theorem test_meets_Markers_arrive : let s := one el adder fun t => { t with inb := [(0, [mark mkOwl])] }
    let u := one el adder fun t => { t with inb := [(0, [pk 0 [1], mark mkKill])] }
    s.curSlot el = some 0 ∧ isLcmerge adder.elem = false ∧ markPorts adder ≠ [] ∧ (s.site el).phase = .wait ∧
      (s.site el).atMarker 0 0 = true ∧ (Table.get [] (s.site el).inb 0).any (fun k => k.slot == 0 && k.kind == mkKill) = false ∧
      (Table.get [] (u.site el).inb 0).any (fun k => k.slot == 0 && k.kind == mkKill) = true ∧
      ((after (.markerArrive el 0) s).site el).phase = .hold ∧
      (((after (.markerArrive el 0) u).site el).slot 0).killing = true ∧ (u.site el).phase ≠ .loading ∧
      Table.get [] (u.site el).inb 0 = [pk 0 [1]] ++ mark mkKill :: [] ∧
      Table.get [] ((after (.markerArrive el 0) u).site el).inb 0 = [mark mkKill] := by decide +kernel
theorem test_meets_Markers_complete : let s := one el adder fun t => { t with inb := [(0, [mark mkOwl]), (1, [mark mkOwl])], phase := .hold }
    let t := s.site el
    s.regionOf el = some 0 ∧ (s.region 0).cur = some 0 ∧ t.marker? 0 = some (mark mkOwl, [0, 1]) ∧ t.phase ≠ .fault ∧
      t.quietInside 0 = true ∧ (t.slot 0).killing = (mkOwl == mkKill) ∧
      ((after (.markerComplete el) s).site el).phase = .stopped ∧ (sent (after (.markerComplete el) s) el).map (·.2.1) = [mkOwl] := by
  decide +kernel
theorem test_meets_Markers_kill : let s := one el { adder with killing := true, discard := 4 } fun t =>
      { t with inb := [(0, [mark mkKill]), (1, [mark mkKill])], phase := .hold }
    (s.site el).marker? 0 = some (mark mkKill, [0, 1]) ∧ ((s.site el).slot 0).killing = (mkKill == mkKill) ∧
      ((after (.markerComplete el) s).site el).phase = .idle ∧ (((after (.markerComplete el) s).site el).slot 0).discard = 0 := by
  decide +kernel
theorem test_meets_Cuts : let s := owned (one el adder id)
    s.mayWrite (.master 2) (cutstPa 0) = true ∧ s.cutSt 0 = 0 ∧ s.regionAt (fld (s.reg (cutPa 0)) 12 0) = some 0 ∧
      ((s.site el).slot 0).inj = none ∧ (s.region 0).cur = some 0 ∧ (after (.cutStart (.master 2) 0) s).cutSt 0 = 1 ∧ s.cutSt 0 ≠ 2 := by decide +kernel
theorem test_meets_Cuts_complete : let s := after (.cutStart (.master 2) 0) (owned (one el adder fun t => { t with phase := .stopped }))
    (s.die 0).cutRegion = some 0 ∧ s.cutSt 0 = 1 ∧ (s.workers (s.region 0) (s.die 0).cutSlot).all
      (fun p => (s.site p).phase == .stopped || (s.site p).phase == .idle) = true ∧
      s.noAnti 0 (s.die 0).cutSlot = true ∧ (after (.cutComplete 0) s).cutSt 0 = 2 ∧
      ((after (.cutRelease (.master 2) 0) (after (.cutComplete 0) s)).site el).phase = .wait := by decide +kernel

/-! ## The matrix node and memory tiles -/

/-- A TILE packet: a block of tile m0 of cluster 0 from word `first`, with the end bit `kend`. -/
def tilePk (first : Nat) (kend : Bool) : Pkt :=
  { pk 0 [BitVec.ofNat 32 (tileSite 0 0 * 2 ^ 19 + (if kend then 2 ^ 18 else 0) + first), BitVec.ofNat 32 (8 * 2 ^ 22)] with kind := 5 }
def mma : Cfg := { elem := ce 0x30 6 0 1 0 1 (1 * 32 + 6) }
def mmaEntry (kend : Bool) : MatEntry :=
  { slot := 0, frame := mma.elem, k0 := 0, a := some (tilePk 0 kend), b := some (tilePk 1024 false), err := none, eos := none }

theorem test_meets_Matrix_place : let s := one el mma fun t => { t with inb := [(0, [tilePk 0 true]), (1, [tilePk 1024 false])] }
    let t := s.site el
    ceOp mma.elem = 0x30 ∧ t.matq.length < 4 ∧ t.eosView 0 (readPorts mma) = none ∧ t.inData 0 (ceA mma.elem) = some (tilePk 0 true) ∧
      t.inData 0 (ceB mma.elem) = some (tilePk 1024 false) ∧ (tilePk 0 true).kind = 5 ∧ (tilePk 0 true).desc.kend = true ∧
      s.tcWaits el 0 = false ∧ t.matRoom (drivenPorts mma.elem) = true ∧ s.regionOf el = some 0 ∧
      ((after (.matrixEntryPlace el) s).site el).matq = [mmaEntry true] := by decide +kernel
theorem test_meets_Matrix_mma : let s := one el mma fun t => { t with matq := [mmaEntry true] }
    let f := one el mma fun t => { t with matq := [mmaEntry false] }
    (s.site el).live = true ∧ (s.site el).binStops (mmaEntry true) = false ∧ ceOp (mmaEntry true).frame = 0x30 ∧
      s.matPoison el (mmaEntry true) = false ∧ (s.site el).bin = none ∧ (mmaEntry true).kend = true ∧ (mmaEntry false).kend = false ∧
      matW mma.elem ≠ 5 ∧ (f.site el).binStops (mmaEntry false) = false := by decide +kernel
theorem test_mma_error_keeps_words : let e : MatEntry := { mmaEntry true with err := some (2, 9) }
    let s := one el mma fun t => { t with matq := [e], acc := [(1, { opened := true })] }
    let t := after (.mmaExecute el) s
    ((t.site el).accTile 1).opened = false ∧ ((t.site el).accTile 1).err = some (2, 9) ∧ t.accWords = [] ∧
      (sent t el).map (·.2.1) = [(doneToken 1 ((t.site el).accTile 1)).kind] := by decide +kernel
theorem test_meets_Matrix_bin : let s := one el mma fun t =>
      { t with matq := [mmaEntry true], bin := some { tile := 1, slot := 0, bins := [], nans := [], sa := [], sw := [] } }
    (s.site el).live = true ∧ (s.site el).binStops (mmaEntry true) = true ∧ s.matPoison el (mmaEntry true) = false ∧
      ((after (.mmaExecute el) s).site el).phase = .fault := by decide +kernel
theorem test_meets_Matrix_eos : let e : MatEntry := { mmaEntry true with eos := some 2, a := none, b := none }
    let s := one el mma fun t => { t with matq := [e], acc := [(1, { opened := true })] }
    (s.site el).binStops e = false ∧ e.eos = some 2 ∧ (((after (.matrixEosExecute el) s).site el).accTile 1).opened = false ∧
      (sent (after (.matrixEosExecute el) s) el).map (·.2.1) = [1] := by decide +kernel
theorem test_meets_Matrix_read : let f := ce 0x31 1 0 0 0 1 (1 * 32)
    let e : MatEntry := { mmaEntry true with frame := f, a := none, b := none }
    let s := one el { elem := f } fun t => { t with matq := [e] }
    (s.site el).live = true ∧ (s.site el).binStops e = false ∧ ceOp e.frame = 0x31 ∧ drivenPorts e.frame = [0] ∧
      ((s.site el).accTile (matTile e.frame)).err = none ∧ s.accPoison el (matTile e.frame) (s.accRows el e) = false ∧
      ((after (.accReadExecute el) { s with poison := [accAddr el 1 2047] }).site el).phase = .fault := by decide +kernel
theorem test_meets_Matrix_read_ends : let f := ce 0x31 1 0 0 0 1 (1 * 32)
    let e : MatEntry := { mmaEntry true with frame := f, a := none, b := none, left := some [([0], { kind := 1 })] }
    let s := one el { elem := f } fun t => { t with matq := [e] }
    (s.site el).live = true ∧ (s.site el).binStops e = false ∧ (s.site el).room [0] = true ∧
      ((after (.accReadExecute el) s).site el).matq = [] ∧ (sent (after (.accReadExecute el) s) el).map (·.2.1) = [1] ∧
      ((after (.accReadExecute el) (one el { elem := f } fun t => { t with matq := [{ e with left := none }] })).site el).matq.length = 1 := by
  decide +kernel
theorem test_meets_Matrix_writeback : let f := ce 0x33 1 0 0 0 1 (1 * 32)
    let a : Pkt := pk 0 [0x80000001, 0]
    let e : MatEntry := { mmaEntry true with frame := f, a := some a, b := none }
    let s := one el { elem := f } fun t => { t with matq := [e] }
    (s.site el).live = true ∧ (s.site el).binStops e = false ∧ ceOp e.frame = 0x33 ∧ a.kind ≠ 2 ∧
      ((s.site el).accTile (matTile e.frame)).err = none ∧ (liveRows e.frame a).isSome = true ∧ drivenPorts e.frame = [0] ∧
      s.accPoison el (matTile e.frame) ((liveRows e.frame a).getD []) = false := by decide +kernel
theorem test_meets_Matrix_clear : let e : MatEntry := { mmaEntry true with frame := ce 0x32 1 0 0 0 1 (7 * 32), a := some (pk 0 [0]) }
    let s := one el mma fun t => { t with matq := [e], acc := [(7, { opened := true, err := some (1, 1) })] }
    (s.site el).live = true ∧ (s.site el).binStops e = false ∧ ceOp e.frame = 0x32 ∧
      ((after (.accClrExecute el) s).site el).accTile 7 = { opened := false, owner := 0, err := none } := by decide +kernel
theorem test_meets_Matrix_codebook : let a := pk 0 [0x00020001, 0, 0, 0, 0, 0, 0, 0xFFFF0000]
    let e : MatEntry := { mmaEntry true with frame := ce 0x34 1 0 0 0 1 0, k0 := 3, a := some a }
    let s := one el mma fun t => { t with matq := [e] }
    let c := ((after (.cbkLdExecute el) s).site el).slot 3
    (s.site el).live = true ∧ (s.site el).binStops e = false ∧ ceOp e.frame = 0x34 ∧ Table.get 0 c.cbk 1 = 2 ∧
      Table.get 0 c.cbk 15 = 0xFFFF ∧ Table.get 0 c.cbk 14 = 0 := by decide +kernel

/-- The memory tile m0 of cluster 0, at (1, 1). -/
def tile : Nat := tileSite 0 0
/-- The configuration of the memory tile may place an entry of `op`. -/
def mayPlace (s : State) (c : Cfg) (op : Nat) : Bool :=
  (s.active tile).map (·.1) == some 0 && frKind c.elem == 2 && mtOp c.elem == op && (s.site tile).mayFire && !c.killing &&
    decide ((s.site tile).mtq.length < 64) && (op == 8 || (s.site tile).noEos 0 (readPorts c)) && c.inj.isNone &&
    c.plain (cancelPorts c.elem) && (s.site tile).room (drivenPorts c.elem)
theorem test_meets_Tile_load : let c : Cfg := { elem := mt 1 9 0 4 1 16 7 }
    let s := one tile c fun t => { t with inb := [(0, [pk 0 [7]])] }
    let bad := one tile c fun t => { t with inb := [(0, [pk 0 [8]])] }
    mayPlace s c 1 = true ∧ tileMode c.elem = false ∧ (s.site tile).mtIndex 0 (mtA c.elem) = some (pk 0 [7]) ∧
      (mtSelectors c.elem).contains (mtB c.elem) = false ∧ mtPlan c (pk 0 [7]) emptyPkt = some ([23], []) ∧
      mtPlan c (pk 0 [8]) emptyPkt = none ∧ (((after (.mtRequest tile) s).site tile).mtq.map (·.words)) = [[23]] ∧
      sent (after (.mtRequest tile) bad) tile = [(0, 2, [BitVec.ofNat 32 tile])] := by decide +kernel
theorem test_meets_Tile_scatter : let c : Cfg := { elem := mt 6 9 0 1 0 16 7 }
    let s := one tile c fun t => { t with inb := [(0, [pk 0 [0, 7]]), (1, [pk 0 [5, 6]])] }
    mayPlace s c 6 = true ∧ (mtSelectors c.elem).contains (mtB c.elem) = true ∧ (s.site tile).mtOperand 0 (mtB c.elem) = some (pk 0 [5, 6]) ∧
      mtPlan c (pk 0 [0, 7]) (pk 0 [5, 6]) = some ([16, 23], [5, 6]) ∧ mtPlan c (pk 0 [0, 7]) (pk 0 [5]) = none := by decide +kernel
theorem test_meets_Tile_amo : let c : Cfg := { elem := mt 7 9 0 1 1 16 7 }
    let s := one tile c fun t => { t with inb := [(0, [pk 0 [7]]), (1, [pk 0 [3]])] }
    mayPlace s c 7 = true ∧ (s.site tile).mtIndex 0 (mtA c.elem) = some (pk 0 [7]) ∧ (s.site tile).mtOperand 0 (mtB c.elem) = some (pk 0 [3]) ∧
      mtAmo c.elem ≠ 9 ∧ 1 * mtW c.elem ≤ 8 ∧ mtData c (pk 0 [3]) 1 = some [3] ∧ mtWords c.elem [7] = some [23] ∧
      (((after (.amoFire tile) s).site tile).mtq.map fun e => (e.words, e.data)) = [([23], [3])] := by decide +kernel
theorem test_meets_Tile_ring : let c : Cfg := { elem := mt 8 9 4 1 0 16 9 }
    let d : Cfg := { elem := mt 9 9 4 4 1 16 9 }
    let s := one tile c fun t => { t with inb := [(1, [pk 0 [7, 8]])] }
    let u := one tile d id
    mayPlace s c 8 = true ∧ (s.site tile).mtOperand 0 (mtB c.elem) = some (pk 0 [7, 8]) ∧ mayPlace u d 9 = true ∧
      ((after (.qpush tile) s).site tile).mtq.length = 1 ∧ ((after (.qpop tile) u).site tile).mtq.length = 1 := by decide +kernel

/-- A tile whose queue holds one entry of an operation over `ws`, and its memory. -/
def entry (op : Nat) (ws : List Nat) (d : List (BitVec 32)) (outs : List (Nat × BitVec 48)) : MtEntry :=
  { id := 4, slot := 0, frame := mt op 9 0 1 1 16 9, src := pk 0 [7], words := ws, data := d, cmp := [], last := true, outs, done := none,
    aside := false }
def queued (e : MtEntry) (ws : List (Nat × BitVec 32)) : State :=
  ws.foldl (fun s x => s.setWord (wordAddr tile x.1) x.2) (one tile { elem := e.frame } fun t => { t with mtq := [e] })
def mayRetire (s : State) (e : MtEntry) : Bool :=
  (splitEntries e.id (s.site tile).mtq == some ([], e)) && (s.site tile).live && s.entryReady tile [] e && !s.readsPoison tile e
theorem test_meets_Tile_retire_load : let e := entry 1 [16, 17] [] [(0, 5)]
    let s := queued e [(16, 0xAA), (17, 0xBB)]
    mayRetire s e = true ∧ mtOp e.frame = 1 ∧ sent (after (.mtEntryRetire tile 4) s) tile = [(0, 0, [0xAA, 0xBB])] ∧
      ((after (.mtEntryRetire tile 4) s).site tile).mtq = [] := by decide +kernel
theorem test_meets_Tile_retire_ldfe : let e := entry 3 [16] [] [(0, 5)]
    let s := queued e [(16, 0xAA)]
    let w := { queued { e with aside := true } [(16, 0xAA)] with fullBits := [(wordAddr tile 16, true)] }
    mayRetire s e = true ∧ mtOp e.frame = 3 ∧ s.isFull (wordAddr tile 16) = false ∧
      ((after (.mtEntryRetire tile 4) s).site tile).mtq.map (·.aside) = [true] ∧ mayRetire w { e with aside := true } = true ∧
      sent (after (.ldfeWake tile 4) w) tile = [(0, 0, [0xAA])] := by decide +kernel
theorem test_meets_Tile_retire_store : let e := entry 4 [16, 25] [1, 2] []
    let s := queued e []
    let t := after (.mtEntryRetire tile 4) s
    mayRetire s e = true ∧ mtOp e.frame = 4 ∧ t.word (wordAddr tile 25) = 2 ∧ t.isFull (wordAddr tile 25) = true ∧
      t.isFull (wordAddr tile 17) = false := by decide +kernel
theorem test_meets_Tile_retire_amo : let e := entry 7 [16] [3] [(0, 5)]
    let s := queued e [(16, 0xFFFFFFFF)]
    let t := after (.mtEntryRetire tile 4) s
    mayRetire s e = true ∧ mtOp e.frame = 7 ∧ mtW e.frame = 1 ∧ t.word (wordAddr tile 16) = 2 ∧ sent t tile = [(0, 0, [0xFFFFFFFF])] := by
  decide +kernel
theorem test_meets_Tile_retire_push : let e := entry 8 [] [] []
    let s := queued e [(17, 7)]
    let t := after (.mtEntryRetire tile 4) s
    mayRetire s e = true ∧ mtOp e.frame = 8 ∧ s.ringWords tile e = [25, 18] ∧ t.word (wordAddr tile 17) = 1 ∧
      t.isFull (wordAddr tile 25) = true ∧ t.word (wordAddr tile 18) = 7 := by decide +kernel
theorem test_meets_Tile_retire_pop : let e := entry 9 [] [] [(0, 5)]
    let s := { queued e [(18, 0), (19, 0x55)] with fullBits := [(wordAddr tile 18, true), (wordAddr tile 19, true)] }
    let t := after (.mtEntryRetire tile 4) s
    mayRetire s e = true ∧ mtOp e.frame = 9 ∧ s.ringWords tile e = [18, 19] ∧ (e.outs.map (·.1)).Nodup ∧ sent t tile = [(0, 0, [0x55])] ∧
      t.word (wordAddr tile 16) = 2 ∧ t.isFull (wordAddr tile 18) = false := by decide +kernel

theorem test_meets_Tile_done : let c : Cfg := { elem := mt 0x0B 9 0 1 1 0 7 }
    let d : Pkt := { pk 0 [3] with kind := 3 }
    let s := one tile c fun t => { t with inb := [(0, [d]), (1, [d])] }
    mayPlace s c 0x0B = true ∧ (readPorts c).filterMap ((s.site tile).inData 0) = [d, d] ∧ (readPorts c).length = 2 ∧
      sent (after (.doneFire tile) s) tile = [(0, 3, [0])] := by decide +kernel
theorem test_meets_Tile_block : let c : Cfg := { elem := mt 1 6 0 4 1 0 1023, k := [(0, 8), (1, 2)] }
    let s := one tile c fun t => { t with inb := [(0, [pk 0 [0, 600]])] }
    let u := one tile c fun t => { t with freed := [(tile, 0)], blocks := [{ id := 0, slot := 0, first := 0, size := 512, left := 1 }] }
    mayPlace s c 1 = true ∧ tileMode c.elem = true ∧ (s.site tile).mtIndex 0 (mtA c.elem) = some (pk 0 [0, 600]) ∧
      (s.site tile).blocks.length < 16 ∧ (s.site tile).mtq.any (fun q => s.blockedBy tile q [600]) = false ∧
      (s.tilePlan tile c (pk 0 [0, 600])).map (·.2) = some (0, 512) ∧ s.poison = [] ∧
      ((after (.tileLd tile) s).site tile).blocks = [{ id := 0, slot := 0, first := 0, size := 512, left := 2 }] ∧
      (u.site tile).freed[0]? = some (tile, 0) ∧ ((after (.blockRelease tile 0) u).site tile).blocks = [] := by decide +kernel
theorem test_meets_Tile_barrier : let c : Cfg := { elem := mt 0x0A 9 0 0 1 0 3 }
    let s := one tile c fun t => { t with inb := [(0, [pk 0 [0xFFFF, 64]])] }
    mayPlace s c 0x0A = true ∧ (s.site tile).mtIndex 0 (mtA c.elem) = some (pk 0 [0xFFFF, 64]) ∧ fld (0xFFFF : BitVec 32) 31 16 = 0 ∧
      (((after (.barArrFire tile) s).site tile).mtq.map fun e => (e.words, e.data)) = [([0, 1, 2, 3], [0xFFFF, 64])] ∧
      tileOf (clusterBase 0) = some (tile, 0) ∧ clusterBase 0 % 16 = 0 ∧ (atBarrier 0 1 1 0 id).tileFree tile [0, 1, 2, 3] true = true ∧
      1 ≤ ((atBarrier 0 1 1 0 id).barRem (clusterBase 0)).toNat := by decide +kernel
theorem test_meets_Tile_dry : let e := entry 9 [] [] [(0, 5)]
    let s := ((queued e []).setTask (0, 1) (kernel .running)).modCore 0 fun k => k.setChannel 0 { en := true }
    s.regionOf tile = some 0 ∧ (List.range 4).find? (fun m => s.popWaits tile m && !Table.has (s.site tile).dry m) = some 0 ∧
      s.groupOf 0 = some ((0, 1), 0, kernel .running) ∧ bit ((kernel .running).bytes.getD 29 0) 2 = false ∧
      ((s.core (s.region 0).lead).channel (kernel .running).gch).takes = true ∧
      (((after (.queueDry tile) s).core 0).channel 0).queue =
        [{ group := some (0, 1, 0), words := [0x0500000000000000, BitVec.ofNat 64 tile, 0, 0xFF] }] := by decide +kernel

/-! ## Streams -/

/-- An address-generator frame: op, direction, format, first count and stride, base and window; the one at (0, 0). -/
def ag (op : Nat) (dir : Bool) (sfx n stride base win : Nat) : BitVec 256 :=
  BitVec.ofNat 256 (4 * 2 ^ 252 + op * 2 ^ 249 + sfx * 2 ^ 245 + (if dir then 2 ^ 242 else 0) + n * 2 ^ 226 + stride * 2 ^ 202 +
    base * 2 ^ 26 + win * 2 ^ 18)
def gen : Nat := 0
/-- The stream at (0, 0) of window 3 over [0x100, 0x200) of page 0. -/
def streaming (c : Cfg) (w : Win) (f : Site → Site) : State :=
  { one gen c f with clusters := [(0, { wins := [(3, w)] })], tlbs := [(0, maps)] }
def readWin : Win := { bound := true, base := 0x100, stop := 0x200, head := 0x100, tail := 0x100, cap := 0x80 }
def reader : Cfg := { elem := ag 1 false 9 8 1 0x100 3 }
theorem test_meets_Streams_fill : let s := { streaming reader readWin id with mem := [(0x17F, 9)] }
    let u := streaming reader { readWin with write := true, cbuf := [(0x140, 5)] } id
    (s.win 0 3).bound = true ∧ (s.win 0 3).write = false ∧ (s.win 0 3).cbuf = [] ∧ s.missingElem 0 3 = none ∧ (s.win 0 3).head = 0x100 ∧
      (0x100 < (s.win 0 3).stop) ∧ 0x100 - (s.win 0 3).tail < (s.win 0 3).cap ∧ (s.range 0 0 .load 0x100 128).isSome = true ∧
      Table.get 0 ((after (.streamFill 0 3) s).win 0 3).fill 0x17F = 9 ∧ (u.win 0 3).cbuf ≠ [] ∧
      (u.win 0 3).cbuf.all (fun e => u.accessFree e.1 (unitAt e.1) true) = true ∧ unitAt 0x140 = 1 ∧ (after (.streamFill 0 3) u).mem.read 0x140 = 5 := by decide +kernel
theorem test_meets_Streams_missing : let s := streaming { reader with reqs := [{ addrs := [0x180] }] } readWin id
    s.missingElem 0 3 = some [0x180, 0x181, 0x182, 0x183] ∧ wideKey [0x180, 0x181, 0x182, 0x183] = none ∧
      wideKey [0x17E, 0x17F, 0x180, 0x181] = some (16 * 0x17E + 4) ∧
      (streaming { reader with reqs := [{ addrs := [0x200] }] } readWin id).missingElem 0 3 = none := by decide +kernel

/-- What makes a step of `op` at the generator possible. -/
def mayStream (s : State) (c : Cfg) (op : Nat) : Bool :=
  (s.active gen).map (·.1) == some 0 && frKind c.elem == 4 && agOp c.elem == op && (s.site gen).mayFire && !c.killing &&
    c.stopAt.isNone && c.inj.isNone
/-- The answer to an access as a test compares it. -/
def answer (a : AgAns) : Nat × Nat :=
  match a with
  | .ok ps => (0, ps.length)
  | .absent va => (1, va)
  | .err c => (2, c)
  | .poisoned => (3, 0)
theorem test_meets_Streams_request : let s := streaming reader readWin id
    let u := s.win 0 3
    let r := agRequest reader.elem 0
    mayStream s reader 1 = true ∧ agDir reader.elem = false ∧ reader.readDone = false ∧ reader.gateShut = false ∧
      reader.reqs.length < min 256 u.ahead ∧ answer (s.agAccess 0 u reader.elem r.2.addrs false) = (0, 32) ∧
      answer (({ s with tlbs := [] }).agAccess 0 u reader.elem r.2.addrs false) = (1, 0x100) ∧
      answer (s.agAccess 0 { u with stop := 0x110 } reader.elem r.2.addrs false) = (2, clsIndexRange) ∧
      (((after (.streamRequest gen) s).site gen).slot 0).reqs.map (·.addrs) = [[0x100, 0x104, 0x108, 0x10C, 0x110, 0x114, 0x118, 0x11C]] := by
  decide +kernel
theorem test_meets_Streams_response : let c : Cfg := { reader with reqs := [{ addrs := [0x104], last := true }] }
    let s := streaming c { readWin with fill := [(0x104, 1), (0x105, 2), (0x106, 3), (0x107, 4)] } id
    mayStream s c 1 = true ∧ (s.site gen).room [0] = true ∧
      [0x104].all (fun a => (s.win 0 3).has (elemBytes c.elem a)) = true ∧
      ([0x104].flatMap (elemBytes c.elem)).all (fun a => decide (a < (s.win 0 3).stop)) = true ∧
      ([0x200].flatMap (elemBytes c.elem)).all (fun a => decide (a < (s.win 0 3).stop)) = false ∧
      sent (after (.streamResponse gen) s) gen = [(0, 0, [0x04030201])] := by decide +kernel
theorem test_meets_Streams_write : let c : Cfg := { elem := ag 1 true 9 8 1 0x100 3 }
    let s := streaming c { readWin with write := true } fun t => { t with inb := [(0, [pk 0 [0x0A0B0C0D]])] }
    let e := streaming { c with pos := 8 } { readWin with write := true } fun t => { t with inb := [(0, [eos 0 8])] }
    mayStream s c 1 = true ∧ agDir c.elem = true ∧ (s.site gen).roomOut 2 0 = true ∧ c.gateShut = false ∧
      (s.site gen).inData 0 0 = some (pk 0 [0x0A0B0C0D]) ∧ 8 ≤ sfxBits (agSfx c.elem) ∧
      answer (s.agAccess 0 (s.win 0 3) c.elem [agAddr c.elem 0] true) = (0, 4) ∧
      Table.get 0 ((after (.streamWrite gen) s).win 0 3).cbuf 0x103 = 0x0A ∧ (((after (.streamWrite gen) s).site gen).slot 0).pos = 1 ∧
      agElems c.elem = 8 ∧ (e.site gen).inData 0 0 = some (eos 0 8) ∧ (((after (.streamWrite gen) e).site gen).slot 0).pos = 0 ∧
      (sent (after (.streamWrite gen) e) gen).map (·.2.1) = [1] := by decide +kernel
theorem test_meets_Streams_feedback : let c : Cfg := { elem := ag 5 false 9 2 0 0 0, emitted := 1 }
    let s := one gen c id
    mayStream s c 5 = true ∧ (s.site gen).inData 0 0 = none ∧ (s.site gen).room [0] = true ∧ c.todo = [] ∧ c.stopped = false ∧
      c.gate = false ∧ c.emitted < c.decided + agCount c.elem 0 ∧ sent (after (.feedbackEmit gen) s) gen = [(0, 4, [1])] := by decide +kernel
theorem test_meets_Streams_xlt : let c : Cfg := { elem := ag 3 false 9 0 0 0 0 }
    let s := streaming c readWin fun t => { t with inb := [(0, [pk 0 [0x10004, 0]])] }
    mayStream s c 3 = true ∧ (s.site gen).inData 0 0 = some (pk 0 [0x10004, 0]) ∧ (s.site gen).room [0] = true ∧
      c.plain [0] = true ∧ pairUp [0x10004, 0] = some [0x10004] ∧ s.translate 0 (s.siteCtx gen) 0x10004 .load = .ok (clusterBase 0 + 4) ∧
      sent (after (.xltFire gen) s) gen = [(0, 0, [4, 0xF0000])] := by decide +kernel
theorem test_meets_Streams_own : let c : Cfg := { elem := ag 4 false 9 0 0 0 3 }
    let s := streaming c { readWin with write := true, cbuf := [(0x140, 5)], owner := some gen } fun t => { t with inb := [(0, [pk 0 [1]])] }
    mayStream s c 4 = true ∧ (s.site gen).inData 0 0 = some (pk 0 [1]) ∧ (s.site gen).room [0] = true ∧
      (s.writeBack 0 (agWin c.elem)).isSome = true ∧ (after (.ownHandover gen) s).mem.read 0x140 = 5 ∧
      ((after (.ownHandover gen) s).win 0 3).owner = none := by decide +kernel

/-! ## Completions -/

/-- A fresh command of core 0. -/
def cmd (op : Nat) (a b c : Word) : Cmd :=
  { core := 0, ctx := 0, op, tok := 5, a, b, c, bar := none, fe := false, scope := 0, red := 0, sfx := 0, ahead := none, seq := 6, cls := 3 }
def commanded (m : Memory) (k : Cmd) : State := { mapped m (fun k => { k with ocnt := [(3, 1)], board := [(5, 2)] }) with cmds := [(0, k)], nextCmd := 1 }
/-- What the handler reads of the command's token when it is done. -/
def token (t : State) : Word × Nat := ((t.core 0).rd 5, (t.core 0).count 5)

theorem test_meets_CommandsComplete_fill : let m := cmd 3 0x100 0x0B0A 3
    let s := commanded [] m
    Fresh s 0 3 m ∧ m.bar = none ∧ m.fe = false ∧ (∀ i, i < 3 → ∀ j, j < 3 → 0x100 + i = 0x100 + j → i = j) ∧
      (∀ i, i < 3 → s.translate 0 0 (0x100 + i) .store = .ok (0x100 + i) ∧ placeOf (0x100 + i) = .ram ∧
        s.protectedBy (0x100 + i) = none ∧ (s.cached 0 0 (0x100 + i)).isSome) ∧
      (after (.engineComplete 0) s).mem = [(0x100, 0x0A), (0x101, 0x0B)] ∧ token (after (.engineComplete 0) s) = (6, 1) := by
  unfold Fresh; decide +kernel
theorem test_meets_CommandsComplete_copy : let m := cmd 0 0x200 0x100 2
    let s := commanded [(0x100, 7), (0x101, 8)] m
    Fresh s 0 0 m ∧ (∀ i, i < 2 → s.translate 0 0 (0x100 + i) .load = .ok (0x100 + i) ∧ placeOf (0x100 + i) = .ram ∧
        s.protectedBy (0x100 + i) = none ∧ s.poisoned (0x100 + i) 1 = false) ∧ (∀ i, i < 2 → ∀ j, j < 2 → 0x200 + i ≠ 0x100 + j) ∧
      (after (.engineComplete 0) s).mem = [(0x100, 7), (0x101, 8), (0x200, 7), (0x201, 8)] := by unfold Fresh; decide +kernel
theorem test_meets_CommandsComplete_fault : let m := cmd 3 0x90000 0 8
    let s := commanded [] m
    Fresh s 0 3 m ∧ m.c ≠ 0 ∧ s.translate 0 0 0x90000 .store = .fault 0 ∧ (s.cluster 0).queue.length < 16 ∧ (s.cluster 0).owed = [] := by
  unfold Fresh; decide +kernel
theorem test_meets_CommandsComplete_gather : let m := cmd 1 0x10000 0x100 0x300
    let s := commanded [(0x108, 9), (0x300, 1), (0x304, 2)] m
    s.cmd? 0 = some m ∧ s.inTile m = some (tileSite 0 0) ∧ s.listCount m = (1, none) ∧ s.readNum m 0x304 4 = (2, none) ∧
      s.reach m false (span 0x108 4) = ([0x108, 0x109, 0x10A, 0x10B], none) ∧
      s.reach m true (span 0x10000 4) = (span (clusterBase 0) 4, none) ∧ 
      (∀ q ∈ span (clusterBase 0) 4 ++ span 0x108 4, (placeOf q).grain = 1) ∧ (span (clusterBase 0) 4).Nodup ∧
      (after (.tileGatherElement 0) s).mem.read (clusterBase 0) = 9 := by decide +kernel

/-- sspec of window 3, slice 1, two units, for writing. -/
def bind3 : Cmd := cmd 0x20 0x1000 0x100 (3 + 1 * 32 + 1 * 256 + 2 ^ 15)
theorem test_meets_CommandsComplete_sspec : let s := commanded [] bind3
    let n := { s with regions := [(0, { oneQuad with slots := [(0, { phase := .armed })] })],
                      sites := [(0, { cfg := [(0, { elem := ag 1 false 9 8 1 0x1000 3 })] })] }
    let f := s.modCluster 0 fun u => { u with wins := [(9, { bound := true, slice := 1, cap := 127 * 4096 })] }
    s.cmd? 0 = some bind3 ∧ fld bind3.c 4 0 = 3 ∧ fld bind3.c 7 5 = 1 ∧ fld bind3.c 14 8 + 1 = 2 ∧ s.windowNamed 0 3 = false ∧
      s.sliceUnits 0 1 3 + 2 ≤ 128 ∧ (s.win 0 3).write = false ∧ n.windowNamed 0 3 = true ∧ f.windowNamed 0 3 = false ∧
      128 < f.sliceUnits 0 1 3 + 2 ∧ ((after (.streamCmdComplete 0) s).win 0 3).cap = 8192 := by decide +kernel
theorem test_meets_CommandsComplete_sbar_scond :
    let s := (commanded [] (cmd 0x21 3 4 0)).modCluster 0 fun u => { u with
      wins := [(3, { bound := true, write := true, cbuf := [(0x140, 5)] }), (4, { bound := true, base := 0x100, stop := 0x200, tail := 0x180 })] }
    let c := { s with cmds := [(0, cmd 0x22 4 0x300 0)] }
    let e := { s with cmds := [(0, cmd 0x22 4 0x7F 0)] }
    (s.win 0 3).bound = true ∧ (s.win 0 3).write = true ∧ (s.win 0 4).bound = true ∧ (s.win 0 4).write = false ∧
      (s.win 0 3).cbuf.all (fun e => s.accessFree e.1 (unitAt e.1) true) = true ∧ (c.win 0 4).tail ≤ (c.win 0 4).base + 0x300 ∧
      (e.win 0 4).base + 0x7F < (e.win 0 4).tail ∧ (after (.streamCmdComplete 0) s).mem.read 0x140 = 5 ∧
      ((after (.streamCmdComplete 0) c).win 0 4).stop = 0x400 ∧ (token (after (.streamCmdComplete 0) e)).1.msb = true := by decide +kernel

/-- Context 0 with a page table: 0x40000 is mapped at 0x60000. -/
def paged (s : State) : State :=
  let e (a v : Nat) (m : Memory) : Memory := m.writeBytes a (bytesLE 8 v)
  { s.setCtx 0 { phase := .opened, ptroot := 0x8001 } with
    mem := e 0x8000 0x20001 (e 0x20000 0x40001 (e 0x40000 0x50001 (e 0x50020 0x6000F (e 0x600 0x70000 s.mem)))) }
theorem test_meets_CommandsComplete_xlate : let m := cmd 0x31 0x40000 0x10000 0x600
    let s := paged (commanded [] m)
    let i := commanded [] (cmd 0x33 0x10000 0x100 0)
    Fresh s 0 0x31 m ∧ s.vaddrs 0 0 .atomic 0x600 8 = (span 0x600 8, none) ∧ (span 0x600 8).all (fun p => (placeOf p).plain) = true ∧
      natLE ((span 0x600 8).map s.byteAt) = 0x70000 ∧ isRam 0x70000 = true ∧
      s.walk 0 0x40000 = .leaf { ctx := 0, vbase := 0x40000, pbase := 0x60000, lg := 16, leaf := 0x6000F } ∧
      s.shut 0 .load [0x60000] = false ∧ s.shut 0 .store [0x70000] = false ∧ s.shut 0 .atomic (span 0x600 8) = false ∧
      s.entryAt 0 0x40000 = some 0x50020 ∧ bit (0x6000F : BitVec 64) 5 = false ∧ s.oldAccess (some 0) 0x40000 0x10000 = false ∧
      (span 0x600 8).Nodup ∧ s.liveAt (span 0x600 8) = false ∧ (∀ p ∈ span 0x600 8, p < 0x50020 ∨ 0x50020 + 8 ≤ p) ∧
      i.oldAccess (some 0) 0x10000 0x100 = false ∧ (Table.get [] (after (.xlateCmdComplete 0) i).tlbs 0).length = 2 ∧
      token (after (.xlateCmdComplete 0) (commanded [] (cmd 0x32 0x10000 0x10000 0))) = (6, 1) := by unfold Fresh; decide +kernel

/-! ## Slots -/

/-- A CFG command of the group of region 0, for its slot `n`. -/
def cfg (op n : Nat) (a : Word) : Cmd := { cmd op a 0 (BitVec.ofNat 64 n) with bound := some (0, 1, 0) }
/-- A one-quad region with these slots and current slot, in which command `k` is to act. -/
def slotted (sl : List (Nat × SlotSt)) (cur : Option Nat) (k : Cmd) : State :=
  { (commanded [] k).setRegion 0 { oneQuad with slots := sl, cur } with tlbs := [(0, maps), (128, maps)] }
def opened0 (s : State) : State := s.setCtx 0 { phase := .opened, ccrc := 0x2000 }
def phaseOf (t : State) (n : Nat) : SlotPhase := ((t.region 0).slot n).phase

/-- An image of one quad: a header with id 0x77, one unbound pattern, the end frame with the CRC of both, in a container at
0x1000; the pattern's CRC entry stands at 0x2000. -/
def header : Nat := 2 ^ 248 + 3 * 2 ^ 232 + 2 ^ 226 + 2 ^ 222 + 0x77 * 2 ^ 152
def image (crc : Nat) : Memory :=
  let m : Memory := Memory.writeBytes [] 0x1000 (bytesLE 4 0x00474D49)
  let m := (m.writeBytes 0x100C (bytesLE 4 3)).writeBytes 0x1014 (bytesLE 4 0xFFFFFFFF)
  let m := (m.writeBytes 0x1020 (bytesLE 32 header)).writeBytes 0x1040 (bytesLE 32 (2 ^ 252))
  (m.writeBytes 0x1060 (bytesLE 32 (0xA * 2 ^ 252 + crc))).writeBytes 0x2000 (bytesLE 8 (0x9ACFF1C5 * 2 ^ 32))
/-- The answer of an operation that may fail. -/
def causeOf (r : Except Nat State) : Option Nat := match r with | .ok _ => none | .error c => some c

theorem test_crc : crc32c ([0x31, 0x32, 0x33, 0x34, 0x35, 0x36, 0x37, 0x38, 0x39] : List Byte) = 0xE3069283 := by decide +kernel
theorem test_meets_Slots_load : let m := cfg 0x40 0 0x1000
    let s := { opened0 (slotted [] none m) with mem := image 0x25F16ADB }
    let f := { opened0 (slotted [] none m) with mem := image 0x25F16ADA }
    CfgTurn s 0 0x40 m ∧ CfgTurn f 0 0x40 m ∧ causeOf (s.loadSlot 0 0 0 0x1000 (s.quadMine 0 m.bound)) = none ∧
      causeOf (f.loadSlot 0 0 0 0x1000 (f.quadMine 0 m.bound)) = some tCfgCrc ∧
      phaseOf (after (.cfgComplete 0) s) 0 = .loaded ∧ (((after (.cfgComplete 0) s).region 0).slot 0).image = 0x77 ∧
      phaseOf (after (.cfgComplete 0) f) 0 = .empty := by unfold CfgTurn; decide +kernel
theorem test_meets_Slots_arm : let m := cfg 0x41 2 7
    let s := slotted [(2, { phase := .loaded })] none m
    CfgTurn s 0 0x41 m ∧ s.regionNamed 0 = some 0 ∧ phaseOf s 2 = .loaded ∧ fld m.a 63 32 = 0 ∧
      (s.region 0).sites.any (fun p => s.streamOut p 2) = false ∧
      ((after (.cfgComplete 0) s).region 0).slot 2 = { phase := .armed, tc := 7, limited := true } := by unfold CfgTurn; decide +kernel
theorem test_meets_Slots_swap : let m := cfg 0x42 2 0
    let s := slotted [(1, { phase := .active }), (2, { phase := .armed })] (some 1) m
    let n := slotted [(2, { phase := .loaded })] none m
    CfgTurn s 0 0x42 m ∧ CfgTurn n 0 0x42 m ∧ s.regionNamed 0 = some 0 ∧ n.regionNamed 0 = some 0 ∧ (s.region 0).swappable 2 = true ∧
      (n.region 0).swappable 2 = false ∧ ((after (.cfgComplete 0) s).region 0).swap = some 0 := by unfold CfgTurn; decide +kernel
theorem test_meets_Slots_swap_takes : let m := { cfg 0x42 2 0 with stage := 1 }
    let s := (slotted [] none m).setRegion 0
      { oneQuad with slots := [(1, { phase := .active }), (2, { phase := .armed })], cur := some 1, swap := some 0 }
    let t := after (.swapTakesEffect 0) s
    (s.region 0).swap = some 0 ∧ s.cmd? 0 = some m ∧ (s.region 0).swappable 2 = true ∧ s.cutting 0 = false ∧ (s.region 0).cur = some 1 ∧
      s.quiescent 0 1 = true ∧ (t.region 0).cur = some 2 ∧ phaseOf t 1 = .suspended ∧ phaseOf t 2 = .active ∧
      (after (.cfgComplete 0) t).cmd? 0 = none := by decide +kernel
theorem test_meets_Slots_ends : let m := { cfg 0x43 2 0 with stage := 2, cause := tCfgState }
    let s := slotted [] none m
    s.cmd? 0 = some m ∧ 0x40 ≤ m.op ∧ m.task = none ∧ m.cls ≠ 9 ∧ (token (after (.cfgComplete 0) s)).1.msb = true := by decide +kernel
theorem test_meets_Slots_drained : let s := slotted [(1, { phase := .active })] (some 1) (cfg 0x43 1 0)
    (s.region 0).cur = some 1 ∧ phaseOf s 1 = .active ∧ s.drained 0 1 = true ∧ phaseOf (after (.slotDrained 0) s) 1 = .drained := by
  decide +kernel
theorem test_meets_Slots_drain : let m := cfg 0x43 1 0
    let s := slotted [(1, { phase := .drained })] (some 1) m
    CfgTurn s 0 0x43 m ∧ s.regionNamed 0 = some 0 ∧ fld m.c 3 2 ≤ 1 ∧ (s.region 0).cur = some 1 ∧ phaseOf s 1 = .drained ∧
      token (after (.cfgComplete 0) s) = (6, 1) := by unfold CfgTurn; decide +kernel

/-! A save area's bodies have lengths that the model leaves open, so these witnesses are proved for every length. -/

/-- The pages of `maps`, and for the loader of die 0 a gigabyte of near memory in which every area fits. -/
def giga : TlbEnt := { ctx := 0, vbase := 0, pbase := 2 ^ 30, lg := 30, leaf := 0x1E }

theorem giga_translates (s : State) (need : Need) (hn : giga.allows need = true) (h : Table.get [] s.tlbs 128 = [giga]) (va : Nat)
    (hv : va < 2 ^ 30) : s.translate 128 0 va need = .ok (2 ^ 30 + va) := by
  have hc : s.cached 128 0 va = some giga := by
    have h0 : va / 1073741824 = 0 := by omega
    simp [State.cached, h, giga, h0]
  have h2 : ¬ va ≥ 2 ^ 56 := by omega
  have hm : giga.pa va = 2 ^ 30 + va := by simp only [TlbEnt.pa, giga]; omega
  have hr : isRam (2 ^ 30 + va) = true := by simp [isRam]; omega
  have ho : giga.isOutside va = false := by
    have hb : placeOf giga.pbase = .ram := by decide +kernel
    have hv' : placeOf (giga.pa va) = .ram := by rw [hm]; simp only [placeOf, hr, if_true]
    simp [TlbEnt.isOutside, hb, hv']
  simp only [State.translate, State.leafFor, h2, if_false, hc, ho, hn, hm, if_true, Bool.false_eq_true]

theorem giga_range (s : State) (need : Need) (hn : giga.allows need = true) (h : Table.get [] s.tlbs 128 = [giga]) (va n : Nat)
    (hv : va + n ≤ 2 ^ 30) : ∃ ps, s.openAddrs 128 0 need va n = .ok ps := by
  have key (n va : Nat) (hv : va + n ≤ 2 ^ 30) :
      ∃ ps, s.vaddrs 128 0 need va n = (ps, none) ∧ ∀ p ∈ ps, 2 ^ 30 ≤ p ∧ p < 2 ^ 31 := by
    induction n generalizing va with
    | zero => exact ⟨[], rfl, by simp⟩
    | succ n ih =>
      obtain ⟨ps, hp, hq⟩ := ih (va + 1) (by omega)
      refine ⟨(2 ^ 30 + va) :: ps, by simp only [State.vaddrs, giga_translates s need hn h va (by omega), hp], ?_⟩
      simp only [List.mem_cons, forall_eq_or_imp]
      exact ⟨by omega, hq⟩
  obtain ⟨ps, hp, hq⟩ := key n va hv
  have near (p : Nat) (h : p ∈ ps) : s.protectedBy p = none ∧ placeOf p = .ram := by
    have hb := hq p h
    have hc : controllerOf p < 4 := by simp only [controllerOf, if_pos (show p < 0x4000000000 by omega)]; omega
    have hr : isRam p = true := by simp only [isRam, decide_eq_true (show p < 0x4000000000 by omega), Bool.true_or]
    exact ⟨by simp [State.protectedBy, hc], by simp only [placeOf, hr, if_true]⟩
  have h1 : ps.findIdx? (fun p => s.shut 0 need [p] || !(placeOf p).plain) = none := by
    simp only [List.findIdx?_eq_none_iff]
    intro p h
    simp [State.shut, (near p h).1, (near p h).2, Place.plain]
  exact ⟨ps, by simp only [State.openAddrs, hp, h1]⟩

theorem area_fits (r : Region) (n fresh : Nat) (hr : r.records.length = 32) : (r.area n fresh).length ≤ 2 ^ 30 := by
  have key (l : List ((Nat × Nat) × Nat)) (f : (Nat × Nat) × Nat → List Byte) (hf : ∀ e, (f e).length ≤ 16777247) :
      (l.flatMap f).length ≤ l.length * 16777247 := by
    induction l with
    | nil => simp
    | cons e l ih => have := hf e; simp only [List.flatMap_cons, List.length_append, List.length_cons]; omega
  have hb := key r.records.zipIdx (fun e =>
    let len := (Config.saveLen e.1.2).toNat
    bytesLE 2 e.1.1 ++ bytesLE 2 e.1.2 ++ bytesLE 4 len ++ bytesLE 8 0
      ++ (List.range (round16 len)).map fun i => if i < len then Config.saveByte (fresh + 2 ^ 32 * e.2 + i) else 0) (fun e => by
    have := (Config.saveLen e.1.2).isLt
    simp only [bytesLE, List.length_append, List.length_map, List.length_range, round16]
    omega)
  simp only [List.length_zipIdx, hr] at hb
  simp only [Region.area, List.length_append]
  simp only [bytesLE, List.length_map, List.length_range] at hb ⊢
  omega

theorem giga_saves (s : State) (g n : Nat) (h : Table.get [] ((s.settleBlocks g).letGo g n).tlbs 128 = [giga])
    (hr : (((s.settleBlocks g).letGo g n).region g).records.length = 32)
    (hd : loaderDie (((s.settleBlocks g).letGo g n).region g).desc = 0) : ∃ u, s.saveSlot 0 g n 0 = some u := by
  have hl := area_fits (((s.settleBlocks g).letGo g n).region g) n ((s.settleBlocks g).letGo g n).fresh hr
  obtain ⟨ps, hp⟩ := giga_range ((s.settleBlocks g).letGo g n) .store (by decide) h 0 _ (by simpa using hl)
  exact ⟨_, by simp only [State.saveSlot, State.seqWrite, State.saveRecord, hd, seqPlace, Nat.add_zero, hp, Except.toOption]; rfl⟩

def saving : State := { slotted [(1, { phase := .drained })] (some 1) (cfg 0x44 1 0) with tlbs := [(128, [giga])] }
theorem test_meets_Slots_save : CfgTurn saving 0 0x44 (cfg 0x44 1 0) ∧ saving.regionNamed 0 = some 0 ∧
    (saving.region 0).cur = some 1 ∧ phaseOf saving 1 = .drained ∧ saving.cutting 0 = false ∧
    ∃ u, saving.saveSlot 0 0 1 0 = some u ∧ saving.harms u = false :=
  ⟨by unfold CfgTurn; decide +kernel, by decide +kernel, by decide +kernel, by decide +kernel, by decide +kernel,
   (giga_saves saving 0 1 (by decide +kernel) (by decide +kernel) (by decide +kernel)).imp fun _ h => ⟨h, rfl⟩⟩

/-- A save area of a one-quad region whose bodies are empty, written by stepping B or A. -/
def emptyArea (b : Bool) : List Byte :=
  bytesLE 4 0x00564153 ++ bytesLE 7 0x77 ++ [if b then 0x0B else 0x0A] ++ bytesLE 4 32 ++ bytesLE 8 576 ++ bytesLE 8 0 ++ bytesLE 8 9
    ++ bytesLE 24 0 ++ oneQuad.records.flatMap fun e => bytesLE 2 e.1 ++ bytesLE 2 e.2 ++ bytesLE 12 0
def restoring (b : Bool) : State :=
  { slotted [(1, { phase := .loaded, image := 0x77 })] none (cfg 0x45 1 0x100) with mem := Memory.writeBytes [] 0x100 (emptyArea b) }

theorem fetched_ok (x : Except Nat (List Byte)) (y : List Byte) (h : x.toOption = some y) : x = .ok y := by
  cases x <;> simp_all [Except.toOption]

theorem area_restores (s : State) (g n va : Nat) (bs : List Byte) (hd : loaderDie (s.region g).desc = 0)
    (h1 : s.seqFetch 0 0 va 64 = .ok (bs.take 64)) (h2 : s.seqFetch 0 0 va (max 64 (slice (bs.take 64) 16 8)) = .ok bs)
    (hp : ((s.region g).slot n).phase = .loaded) (hm : slice bs 0 4 = 0x00564153) (hi : slice bs 4 7 = ((s.region g).slot n).image)
    (hr : slice bs 24 8 = (s.region g).desc.toNat) (hs : slice bs 11 1 = stepping) (hn : slice bs 12 4 = (s.region g).records.length)
    (ha : areaRecords (s.region g).records.length (bs.drop 64) = (s.region g).records) : ∃ u, s.restSlot 0 g n va = .ok u := by
  refine ⟨s.installSaved g n (s.savedOf bs (s.region g)), ?_⟩
  simp only [State.restSlot, hd, h1, h2, State.restore, hp, hm, hi, hr, hs, hn, ha, ne_eq, not_true_eq_false, or_self, if_false]

theorem test_meets_Slots_restore : CfgTurn (restoring Config.steppingB) 0 0x45 (cfg 0x45 1 0x100) ∧
    (restoring Config.steppingB).regionNamed 0 = some 0 ∧ ∃ u, (restoring Config.steppingB).restSlot 0 0 1 0x100 = .ok u := by
  have h1 : ∀ b, ((restoring b).seqFetch 0 0 0x100 64).toOption = some ((emptyArea b).take 64) := by decide +kernel
  have h2 : ∀ b, ((restoring b).seqFetch 0 0 0x100 (max 64 (slice ((emptyArea b).take 64) 16 8))).toOption = some (emptyArea b) := by
    decide +kernel
  have hs : ∀ b, slice (emptyArea b) 11 1 = if b then 0x0B else 0x0A := by decide +kernel
  have hm : ∀ b, slice (emptyArea b) 0 4 = 0x00564153 ∧ slice (emptyArea b) 4 7 = 0x77 ∧ slice (emptyArea b) 24 8 = 0 ∧
      slice (emptyArea b) 12 4 = 32 ∧ areaRecords 32 ((emptyArea b).drop 64) = oneQuad.records := by decide +kernel
  have hk : oneQuad.records.length = 32 := by decide +kernel
  obtain ⟨a, b, c, d, e⟩ := hm Config.steppingB
  refine ⟨⟨rfl, rfl, by decide, rfl, by decide, rfl⟩, rfl, area_restores _ 0 1 0x100 _ rfl (fetched_ok _ _ (h1 _)) (fetched_ok _ _ (h2 _)) rfl a b c (hs _) ?_ ?_⟩
  · exact d.trans hk.symm
  · exact (congrArg (fun n => areaRecords n _) hk).trans e


theorem test_meets_Slots_tile_count : let s := ((grouped .running).setRegion 0 { oneQuad with slots := [(2, { crossed := 2 })] }).modCore 0 fun k => k.setChannel 0 { en := true }
    0 < ((s.region 0).slot 2).crossed ∧ s.groupOf 0 = some ((0, 1), 0, kernel .running) ∧
      ((s.core (s.region 0).lead).channel (kernel .running).gch).takes = true ∧
      (((after (.tileCountReached 0 2) s).region 0).slot 2).crossed = 1 := by decide +kernel

/-! ## Jobs and tasks -/

/-- Die 0 with queue 0 enabled for context 0, 16 slots at 0x1000; master 0 owns the device; the sequencer holds the pages of `maps`. -/
def jobQueue : State :=
  let s := { (mapped [] id).setRegFld ownPa 7 6 0 with tlbs := [(0, maps), (128, maps)] }
  after (.qctlWrite (.master 0) 0 0 (2 ^ 63 + 4 * 2 ^ 36)) (s.setRegFld (queuePa 0 0) 55 12 1)
theorem test_meets_Sequencer_queue : jobQueue.acct 0 0 = 2 ∧ jobQueue.qEn 0 0 = true ∧ jobQueue.qCtx 0 0 = 0 ∧ jobQueue.qLg 0 0 = 4 ∧
    jobQueue.slotFull 0 0 0 = false ∧ jobQueue.range (seqPlace 0) 0 .store (jobQueue.qBase 0 0 + 255) 1 = some [0x10FF] ∧
    isRam 0x10FF = true ∧ jobQueue.protectedBy 0x10FF = none ∧
    (after (.hostSlotWrite 0 0 0 0 255 [7]) jobQueue).slotFull 0 0 0 = true ∧
    (let t := after (.hostSlotWrite 0 0 0 0 255 [7]) jobQueue
     bit ((after (.hostSlotWrite 0 0 0 0 255 [8]) t).reg (queuePa 0 0 + 16)) 33 = true) := by decide +kernel
theorem test_meets_Sequencer_queue_waits : let s := { jobQueue with hostWait := [(0, [{ ctx := 0, va := 0, bytes := [1] }])] }
    let t := after (.hostSlotWrite 0 0 0 0 255 [7]) s
    s.waiting 0 ≠ [] ∧ t.slotFull 0 0 0 = false ∧ (t.waiting 0).map (fun w => (w.va, w.port)) = [(0, .aperture), (255, .slots 0 0)] := by
  decide +kernel
theorem test_meets_Sequencer_qctl : let s := (mapped [] id).setRegFld ownPa 7 6 0
    s.mayWrite (.master 0) (queuePa 0 0 + 8) = true ∧ s.qEn 0 0 = false ∧ bit (2 ^ 63 + 4 * 2 ^ 36 : Word) 63 = true ∧
      fld (2 ^ 63 + 4 * 2 ^ 36 : Word) 39 36 = 4 := by decide +kernel

/-- A job of one control task whose descriptor is in the queue's first slot and whose record stands at 0x2000. -/
def jobDesc : List Byte := bytesLE 8 0x2000 ++ bytesLE 8 0x3000 ++ bytesLE 8 0 ++ bytesLE 8 0x4000 ++ bytesLE 2 1 ++ bytesLE 222 0
def jobMem : Memory := (Memory.writeBytes [] 0x1000 jobDesc).writeBytes 0x2000 (record 3 false)
theorem test_meets_Sequencer_intake : let s := { jobQueue with mem := jobMem }.modDie 0 fun u => { u with full := [slotKey 0 0] }
    let l := { jobQueue with mem := jobMem }.modDie 0 fun u => { u with launches := [(0x1000, 0)] }
    let t := after (.jobIntake 0) s
    (s.die 0).jobs.length < 256 ∧ pickSource (s.die 0).rr (s.jobSources 0) = some (0, 0) ∧
      pickSource (l.die 0).rr (l.jobSources 0) = some (64, 0) ∧ s.harms (s.takeSource 0 0) = false ∧ l.harms (l.takeSource 0 64) = false ∧ (s.seqGet 0 0 0x1000 256).toOption = some jobDesc ∧
      (t.job? 0 1).map (fun j => (j.taken, j.left)) = some (true, 1) ∧ (t.task? (0, 0)).map (·.phase) = some .ready ∧
      ((after (.jobIntake 0) l).job? 0 1).isSome := by decide +kernel

/-- Job 1 of die 0 with these tasks. -/
def working (j : Job) (ts : Table Task) (f : CoreSt → CoreSt) : State :=
  (({ mapped [] f with tlbs := [(0, maps), (128, maps)] }.setCtx 0 { phase := .opened }).setJob 0 1 j).modDie 0 fun u => { u with tasks := ts }
def aJob : Job := { ctx := 0, desc := jobDesc, taken := true, ntask := 1, left := 1 }
def readyTask : Task := { aTask 3 with core := none, phase := .ready }
theorem test_meets_Sequencer_ready : let s := working aJob [(0, readyTask)] id
    s.task? (0, 0) = some readyTask ∧ s.job? 0 1 = some aJob ∧ s.poolUse 0 < 4096 ∧ s.readyBefore 0 1 0 = false ∧
      (working aJob [(0, readyTask), (1, { readyTask with idx := 1 })] id).readyBefore 0 1 1 = true ∧
      ((after (.taskReady 0 0) s).task? (0, 0)).map (fun t => (t.phase, t.id)) = some (.pooled, 1) := by decide +kernel

/-- Two pooled tasks; the second has the smaller priority number. -/
def pool : Table Task :=
  [(0, { readyTask with phase := .pooled, bytes := (record 3 false).set 10 1 }), (1, { readyTask with phase := .pooled, age := 1 })]
theorem test_meets_Sequencer_dispatch : let s := working aJob pool fun k => { k with running := false, chans := [(0, { en := true })] }
    leastTask (((s.die 0).dispatches + 1) % 64 == 0) ((s.die 0).tasks.filter fun e => (s.dispatch (0, e.1) e.2).isSome) =
        some (1, { readyTask with phase := .pooled, age := 1 }) ∧
      s.gridNow 0 = none ∧ s.killable 0 { readyTask with phase := .pooled, age := 1 } = false ∧ readyTask.kind = 3 ∧ readyTask.bad = false ∧
      s.leastLoaded 0 (s.freeCores 0 0 0) = some 0 ∧
      ((after (.taskDispatch 0) s).task? (0, 1)).map (fun t => (t.phase, t.core)) = some (.running, some 0) := by decide +kernel

theorem test_meets_Sequencer_release :
    let k := { readyTask with phase := .finished, released := true, bytes := ((record 3 false).set 14 1).set 17 0x50 }
    let w := { readyTask with phase := .waiting, idx := 1 }
    let j := { aJob with desc := jobDesc.set 32 2, ntask := 2 }
    let s := { working j [(0, k), (1, w)] id with mem := [(0x4002, 1), (0x5000, 1)] }
    s.task? (0, 0) = some k ∧ s.job? 0 1 = some j ∧ s.walkWaits 0 1 = false ∧ k.walk = 0 ∧
      (s.successors 0 k).toOption = some [1] ∧ 1 < j.count ∧
      (s.seqGet 0 0 (j.work + 2) 2).toOption = some [1, 0] ∧ s.graphTask 0 1 1 = some (1, w) ∧
      ((after (.taskRelease 0 0) s).task? (0, 1)).map (·.phase) = some .ready ∧
      ((after (.taskRelease 0 0) s).mem.read 0x4002) = 0 := by decide +kernel
theorem test_meets_Sequencer_release_put : let s := working aJob [] id
    (match s.seqPut 0 0 0x4002 (bytesLE 2 0) with | .ok u => !s.harms u | .error _ => false) = true := by decide +kernel

theorem test_meets_Sequencer_complete : let k := { readyTask with phase := .finished, released := true, walked := true }
    let j := { aJob with left := 0, desc := (jobDesc.set 16 0x34).set 35 2 }
    let s := working j [(0, k)] id
    s.job? 0 1 = some j ∧ (s.die 0).tasks.all (fun e => e.2.isOver j.broken) = true ∧ s.jobWritten 0 1 0 = true ∧ j.cpl % 8 = 0 ∧
      s.translate (seqPlace 0) 0 j.cpl .store = .ok 0x3000 ∧ s.shut 0 .store [0x3000] = false ∧ s.accessFree 0x3000 8 true = true ∧ (after (.jobComplete 0 1) s).memNum 0x3000 8 = 0x34 ∧
      (after (.jobComplete 0 1) s).interrupts = [(0, 0)] ∧ (after (.jobComplete 0 1) s).job? 0 1 = none := by decide +kernel

/-- The ready pool counts a kernel task with a group that may yet return to it, and not one whose groups all exit (R296, R313). -/
theorem test_pool_counts_kernels : (grouped .running).poolUse 0 = 1 ∧ (grouped .exiting).poolUse 0 = 0 := by decide +kernel

/-! ## Groups -/

/-- What a kernel of one quad without images asks; its live map names a quiet counter at (1, 0). -/
def shape0 : Shape := { wq := 1, hq := 1, nd := 0, heat := 0, edges := [], images := [], live := [2 ^ 63 + 2 ^ 54] }
/-- Task 1 of die 0: a kernel whose group 0 is `v`, with save areas of `n` times 2^8 bytes at 0x1000. -/
def gTask (v : Group) (n : Nat) : Task :=
  { kernel .running with groups := [(0, { v with region := some 0 })], shape := some shape0,
                         bytes := (((record 0 false).set 24 1).take 37 ++ bytesLE 3 n ++ bytesLE 8 0x1000).append (List.replicate 208 0) }
/-- That group in region 0, whose slots and current slot are these, with a counter at (1, 0). -/
def gState (v : Group) (n : Nat) (sl : List (Nat × SlotSt)) (cur : Option Nat) (c : Cfg) (ph : ElemPhase) : State :=
  ((working aJob [(1, gTask v n)] (bound id)).setRegion 0 { oneQuad with slots := sl, cur }).setSite el { cfg := [(1, c)], phase := ph }
def counter : Cfg := { elem := ce 0x1F 9 0 0 0 1 0 }
def groupOf0 (t : State) : Option Group := groupAt t (0, 1) 0

/-- GPREQ's register, and a state in which the owner may ask for the group of task 1, whose save field is 1. -/
def gpreq : Nat := dieBase 0 + 0x1008
def asking (v : Group) (n : Nat) : State :=
  (owned (gState v n [] none {} .idle)).setDreg (dieBase 0 + 0x1000) 9
def askFor (s : State) (v : Word) : State := after (.registerWrite (.master 2) gpreq v) s
/-- GPSTAT's state and cause. -/
def gpIs (s : State) : Nat × Nat := (fld (s.reg (gpstat 0)) 31 30, fld (s.reg (gpstat 0)) 22 16)
theorem test_meets_Groups_request : let s := asking { phase := .running } 1
    let m : Word := 0x40000
    s.mayWrite (.master 2) gpreq = true ∧ ((s.die 0).tasks.find? fun e =>
        e.2.serial == fld (s.reg (dieBase 0 + 0x1000)) 47 0 && e.2.kind == 0 && e.2.phase == .running) = some (1, gTask { phase := .running } 1) ∧
      fld m 19 18 = 1 ∧ (gTask { phase := .running } 1).fieldAt 40 8 ≠ 0 ∧ gpIs (askFor s m) = (1, 0) ∧
      (groupOf0 (askFor s m)).map (fun g => (g.phase, g.mode, g.req)) = some (.preempting, 1, 1) ∧
      gpIs (askFor s 0xC0000) = (3, tUndefOp) ∧ gpIs (askFor s (m + 1)) = (3, tTaskState) ∧
      gpIs (askFor s 0x80000) = (3, tCfgState) ∧ gpIs (askFor (s.setDreg (dieBase 0 + 0x1000) 8) m) = (3, tTaskState) ∧
      gpIs (askFor (askFor s m) 0xC0000) = (1, 0) := by decide +kernel
theorem test_meets_Groups_dispatch : let v : Group := { phase := .loading }
    let s := gState v 1 [] none {} .idle
    let u := (s.bindChans (s.region 0) 0 (some (0, 1, 0))).prepare (s.region 0) 0
    s.groupIn (0, 1) 0 .loading = some (gTask v 1, { v with region := some 0 }, 0, shape0) ∧ (gTask v 1).gch = 0 ∧
      causeOf (u.loadImages 0 0 (some 0) []) = none ∧ causeOf (u.loadImages 0 0 (some 0) [(0, 1)]) = some tCfgKind ∧
      (groupOf0 (after (.groupDispatch 0 1 0) s)).map (·.ready) = some true := by decide +kernel
theorem test_meets_Groups_running : let v : Group := { phase := .loading, ready := true }
    let s := (gState v 1 [(0, { phase := .armed })] none {} .idle).modCore 0 fun k => k.setChannel 0 { en := true }
    s.groupIn (0, 1) 0 .loading = some (gTask v 1, { v with region := some 0 }, 0, shape0) ∧ s.job? 0 1 = some aJob ∧ (gTask v 1).kind = 0 ∧
      (s.region 0).group = some (0, 1, 0) ∧ ((s.core (s.region 0).lead).channel (gTask v 1).gch).takes = true ∧
      (s.region 0).swappable 0 = true ∧ phaseOf (after (.groupRunning 0 1 0) s) 0 = .active ∧ (gTask v 1).bound = 0 ∧
      (groupOf0 (after (.groupRunning 0 1 0) s)).map (·.phase) = some .running := by decide +kernel

/-- A group that is being pre-empted. -/
def pre (mode : Nat) (started : Bool) : Group := { phase := .preempting, mode, started, savedCur := 1 }
theorem test_meets_Groups_marker_begins : let s := gState (pre 1 false) 1 [] none {} .idle
    let f := (gState (pre 1 false) 0 [] none {} .idle).setRegFld (gpstat 0) 31 30 1
    (s.groupIn (0, 1) 0 .preempting).isSome ∧ s.cutting 0 = false ∧ f.cutting 0 = false ∧
      areaSize shape0 (s.region 0) (s.region 0).savable.length ≤ (gTask (pre 1 false) 1).sstride ∧
      ¬ areaSize shape0 (f.region 0) (f.region 0).savable.length ≤ (gTask (pre 1 false) 0).sstride ∧ f.gpPending 0 (pre 1 false).req = true ∧
      fld ((after (.gpreqMarker 0 1 0) f).reg (gpstat 0)) 22 16 = tSaveSpace := by decide +kernel
theorem test_meets_Groups_marker_goes : let s := gState (pre 1 true) 1 [(1, { phase := .active })] (some 1) counter .wait
    let m := gState { pre 1 true with marked := true } 1 [(1, { phase := .active })] (some 1) counter .saved
    (s.region 0).cur = some 1 ∧ phaseOf s 1 = .active ∧ s.cutting 0 = false ∧ s.workers (s.region 0) 1 = [el] ∧
      markPorts counter = [] ∧ counter.inj = none ∧ ((((after (.gpreqMarker 0 1 0) s).site el).slot 1).inj).map (·.kind) = some mkDormouse ∧
      m.allSaved 0 1 = true := by decide +kernel
theorem test_meets_Groups_quiet : let s := gState (pre 2 true) 1 [(1, { phase := .active })] (some 1) { counter with gate := true } .wait
    s.quietSites (s.region 0) shape0 1 = [el] ∧ s.quietPoint 0 1 [el] = true ∧ s.cutting 0 = false ∧ Table.has (pre 2 true).areas 1 = false ∧
      (groupOf0 (after (.stepDeadline 0 1 0) s)).map (fun v => (v.mode, v.fell)) = some (1, true) := by decide +kernel
theorem test_meets_Groups_saved : let s := (gState (pre 1 true) 1 [] none {} .idle).setRegFld (gpstat 0) 31 30 1
    (s.region 0).cur = none ∧ (s.region 0).savable = [] ∧
      (s.seqPut (loaderDie 0) 0 ((gTask (pre 1 true) 1).saveAt 0) (s.groupArea (s.region 0) shape0 0 { pre 1 true with region := some 0 })).toOption.map s.harms = some false ∧
      s.gpPending 0 (pre 1 true).req = true ∧ (∀ e ∈ (gTask (pre 1 true) 1).groups, e.1 = 0 ∨ e.2.phase ≠ .preempting) ∧
      (groupOf0 (after (.preemptSaved 0 1 0) s)).map (·.phase) = some .preempted ∧
      (after (.preemptSaved 0 1 0) s).memNum 0x1000 4 = 0x00505247 := by decide +kernel

/-- A group that is being pre-empted at a step boundary, its slot 1 current, with the largest save area there is. -/
def stepping1 (gpdl : Nat) (c : Cfg) : State :=
  (gState (pre 2 false) 0xFFFFFF [(1, { phase := .active })] (some 1) c .wait).setRegFld (dieBase 0 + 0x1018) 19 0 gpdl

theorem saveBytes_le (r : Region) : r.saveBytes ≤ 64 + r.sites.length * 33554492 := by
  have key (l : List Nat) (a : Nat) : l.foldl (fun a p =>
      a + 32 + round16 (Config.saveLen (siteKind p).record).toNat + round16 (Config.saveLen 3).toNat) a ≤ a + l.length * 33554492 := by
    induction l generalizing a with
    | nil => simp
    | cons p l ih =>
      have h1 := (Config.saveLen (siteKind p).record).isLt
      have h2 := (Config.saveLen 3).isLt
      refine Nat.le_trans (ih _) ?_
      simp only [round16, List.length_cons]; omega
  exact key r.sites 64

theorem one_area_fits (r : Region) (sh : Shape) (hs : r.sites.length = 16) (ha : sh.arrays = []) : areaSize sh r 1 ≤ 0xFFFFFF00 := by
  have h := saveBytes_le r
  simp [areaSize, ha, round256]; omega

theorem test_meets_Groups_step : let s := stepping1 5 counter
    let z := stepping1 0 counter
    (s.groupIn (0, 1) 0 .preempting).isSome ∧ areaSize shape0 (s.region 0) (s.region 0).savable.length ≤ (gTask (pre 2 false) 0xFFFFFF).sstride ∧
      (s.region 0).cur = some 1 ∧ s.quietSites (s.region 0) shape0 1 = [el] ∧ s.gpdl 0 = 5 ∧ z.gpdl 0 = 0 ∧ s.cutting 0 = false ∧ z.cutting 0 = false := by
  have h : areaSize shape0 ((stepping1 5 counter).region 0) 1 ≤ 0xFFFFFF00 := one_area_fits _ _ (by decide +kernel) (by decide +kernel)
  have hl : ((stepping1 5 counter).region 0).savable.length = 1 := by decide +kernel
  have hs : (gTask (pre 2 false) 0xFFFFFF).sstride = 0xFFFFFF00 := by decide +kernel
  refine ⟨by decide +kernel, ?_, by decide +kernel, by decide +kernel, by decide +kernel, by decide +kernel, by decide +kernel, by decide +kernel⟩
  simp only [hl, hs]; exact h

theorem test_meets_Groups_restore : let v : Group := { phase := .restoring }
    let s := { gState v 1 [] none {} .idle with mem := Memory.writeBytes [] 0x1000 (bytesLE 4 0x00505247) }
    (s.groupIn (0, 1) 0 .restoring).isSome ∧
      causeOf (((s.bindChans (s.region 0) 0 (some (0, 1, 0))).prepare (s.region 0) 0).restoreGroup (gTask v 1) 0 { v with region := some 0 } 0 shape0) = none ∧
      (groupOf0 (after (.groupRestore 0 1 0) s)).map (·.ready) = some true := by decide +kernel
theorem test_meets_Groups_free : let v : Group := { phase := .exiting }
    let s := gState v 1 [] none {} .idle
    s.task? (0, 1) = some (gTask v 1) ∧ ((gTask v 1).group 0).region = some 0 ∧ (gTask v 1).killed = false ∧ 
      s.cmds.any (fun e => decide (e.2.no < ((gTask v 1).group 0).mark) && s.writesInto (s.region 0) 0 e.2) = false ∧
      (groupOf0 (after (.groupFree 0 1 0) s)).map (·.phase) = some .free ∧ (after (.groupFree 0 1 0) s).regions.length = 0 := by decide +kernel

/-! ## Speculation and incumbents -/

/-- A task of kind 4 that has buffered two bytes; its children and its offer wait for its commit. -/
def specTask (ph : TaskPhase) : Task :=
  { aTask 4 with phase := ph, wbuf := [(0x140, 5), (0x141, 6)], kids := [(0x2100, 0)], offer := some (2, 40, 9) }
/-- An ordered task of kind 3, the oldest of its job. -/
def orderedTask (ph : TaskPhase) : Task := { specTask ph with bytes := record 3 true }
theorem test_meets_Speculation_commit : ∀ k ∈ [specTask .done, orderedTask .done], let s := working aJob [(0, k)] id
    s.task? (0, 0) = some k ∧ k.spec = true ∧ k.phase = .done ∧ s.oldest (0, 0) k = true ∧
      s.writing (0, 0) k = false ∧ s.bufferFree k = true ∧ (∀ e ∈ k.wbuf, (placeOf e.1).plain = true) ∧ (k.wbuf.map (·.1)).Nodup ∧
      (after (.specCommit 0 0) s).memNum 0x140 2 = 0x0605 ∧ (after (.specCommit 0 0) s).offers.length = 1 ∧
      ((after (.specCommit 0 0) s).task? (0, 0)).map (·.phase) = some .finished := by decide +kernel
theorem test_ordered_task_waits : let s := working aJob [(0, orderedTask .done), (1, { orderedTask .running with bytes := (record 3 true) })] id
    (after (.specCommit 0 1) s).mem = [] ∧ (s.oldest (0, 0) (orderedTask .done)) = true := by decide +kernel
theorem test_meets_Speculation_irrevocable : ∀ k ∈ [specTask .running, orderedTask .running],
    let s := working aJob [(0, k)] fun u => { u with stall := some (.commit (0, 0)), task := some (0, 0) }
    s.task? (0, 0) = some k ∧ k.spec = true ∧ k.irrev = false ∧ k.core = some 0 ∧ (s.core 0).running = true ∧
      (s.core 0).stall = some (.commit (0, 0)) ∧ s.oldest (0, 0) k = true ∧ s.bufferFree k = true ∧
      ((after (.specIrrevocable 0 0) s).task? (0, 0)).map (·.irrev) = some true ∧
      (after (.specIrrevocable 0 0) s).memNum 0x140 2 = 0x0605 := by decide +kernel

def anOffer (key : BitVec 32) : Offer := { slot := 2, key, payload := 1, ctx := 0, die := 0, cluster := 0, reply := true }
theorem test_meets_Speculation_offer : let s := { withInc (regs []) with offers := [{ anOffer 9 with slot := 3 }, anOffer 49, anOffer 7] }
    let w := { s with offers := [anOffer 50] }
    Table.has s.inits 2 = false ∧ (s.homeInc 2).valid = true ∧ (s.homeInc 2).owner = 0 ∧ better (s.homeInc 2).dir 49 (s.homeInc 2).key = true ∧
      better (w.homeInc 2).dir 50 (w.homeInc 2).key = false ∧
      (after (.offerArrive 2) s).offers = [{ anOffer 9 with slot := 3 }, anOffer 7] ∧ ((after (.offerArrive 2) s).homeInc 2).key = 49 ∧
      (after (.offerArrive 2) s).updates.length = 4 ∧ (after (.offerArrive 2) w).incs = w.incs ∧
      (let r := core0 fun k => { k with req := some .offer }
       ((after (.offerArrive 2) { withInc r with offers := [anOffer 49] }).core 0).req = some (.answered 0x8000000000000031)) := by decide +kernel
theorem test_meets_Speculation_copy : let s := { State.reset with updates := [(2, 1, incumbent, false), (2, 0, incumbent, false)] }
    let t := after (.incUpdateCopy 2 0) s
    (∀ e ∈ [(2, 1, incumbent, false)], ¬ (e.1 = 2 ∧ e.2.1 = 0)) ∧ (t.incCopy 0 2).inc = incumbent ∧ t.updates = [(2, 1, incumbent, false)] ∧
      (t.die 0).sweeps = [2] := by decide +kernel
theorem test_meets_Speculation_withdraw : let i : IncInit := { core := 0, next := incumbent, acks := [0, 1, 3], done := [] }
    let s := { State.reset with inits := [(2, i)] }
    let e := { State.reset with inits := [(2, { i with acks := [] })] }
    s.inits.find? (fun e => e.1 = 2) = some (2, i) ∧ 2 ∉ i.acks ∧ s.updates = [] ∧ (after (.incWithdrawCopy 2 2) s).homeInc 2 = incumbent ∧
      ((after (.incWithdrawCopy 2 2) e).incCopy 2 2).withdrawn = true ∧ (after (.incWithdrawCopy 2 2) e).updates = [] := by decide +kernel
theorem test_meets_Speculation_sweep : let k := { readyTask with phase := .pooled, bound := boundWord 50 }
    let s := (withInc (working aJob [(0, k)] id)).modDie 0 fun u => { u with sweeps := [2] }
    s.task? (0, 0) = some k ∧ k.killed = false ∧ k.kind ≠ 0 ∧ bBounded k.bound = true ∧ bSlot k.bound = 2 ∧ s.killable 0 k = true ∧
      ((after (.lynxSweep 0) s).task? (0, 0)).map (·.phase) = some .finished := by decide +kernel
theorem test_meets_Speculation_kill : let v : Group := { phase := .exiting }
    let k := { gTask v 1 with killed := true, id := 77 }
    let s := ((gState v 1 [(1, { phase := .active })] (some 1) counter .wait).setTask (0, 1) k)
    s.task? (0, 1) = some k ∧ k.kind = 0 ∧ (0, { v with region := some 0 }) ∈ k.groups ∧ v.killSent = false ∧ (s.region 0).cur = some 1 ∧
      s.workers (s.region 0) 1 = [el] ∧ markPorts ((s.site el).slot 1) = [] ∧
      (((after (.kernelKill 0 1) s).site el).slot 1).inj.map (fun q => (q.kind, q.elems)) = some (mkKill, [77]) := by decide +kernel

/-! ## Zones -/

/-- Zone 31 of die 1 in a state, with its counters. -/
def zoned (st : Nat) (f : Zone → Zone) : State :=
  (State.reset.setRegFld (zallocPa 63) 63 61 st).modCluster 63 fun u => { u with zone := f {} }
def dried (s : State) : State := s.setRegFld (zsensPa 63) 44 44 1
/-- The state, the valve and the attempts of the zone. -/
def zoneIs (t : State) : Nat × Nat × Nat := (t.zState 63, t.zValve 63, t.zAttempts 63)

theorem test_meets_Zones_timeouts : let p := zoned zPriming fun z => { z with time := 25000 }
    let a := zoned zAllocated fun z => { z with time := 2000 }
    let l := zoned zAlarm fun z => { z with time := 50000 }
    zoneIs (after (.primeTimeout 1 31) p) = (zDry, 0, 1) ∧
      zoneIs (after (.primeTimeout 1 31) (p.setZAttempts 63 2)) = (zLocked, 0, 3) ∧
      zoneIs (after (.allocTimeout 1 31) a) = (zAlarm, 15, 0) ∧ zoneIs (after (.alarmLockTimeout 1 31) l) = (zLocked, 0, 0) := by decide +kernel
theorem test_meets_Zones_recover : let r := zoned zAlarm fun z => { z with good := 5000 }
    let f := r.setRegFld (zallocPa 63) 34 26 5
    r.zState 63 = zAlarm ∧ (r.zoneOf 63).good = 5000 ∧ r.zMin 63 = 0 ∧ f.zMin 63 = 5 ∧
      (after (.alarmRecover 1 31) r).zState 63 = zWetIdle ∧ (after (.alarmRecover 1 31) f).zState 63 = zFlowing := by decide +kernel
theorem test_meets_Zones_dry : let s := dried (zoned zFlowing id)
    zWet (s.zState 63) = true ∧ s.zDryBit 63 = true ∧ (s.die 1).pressHeld = false ∧
      zoneIs (after (.dryDetect 1 31) s) = (zEvac, 0, 1) ∧ ((after (.dryDetect 1 31) s).zoneOf 63).step = 1 := by decide +kernel
theorem test_meets_Zones_evacuation : let e (n t : Nat) := zoned zEvac fun z => { z with step := n, time := t }
    let good := ((e 5 5000).setRegFld (zsensPa 63) 53 45 100)
    (∀ n ∈ [(1, 1), (2, 2000), (3, 3000), (4, 0)], ((after (.evacStepEnd 1 31) (e n.1 n.2)).zoneOf 63).step = n.1 + 1) ∧
      (e 4 0).zDryBit 63 = false ∧ (dried (e 4 20000)).zDryBit 63 = true ∧ (e 5 0).evacGood 63 = false ∧
      zoneIs (after (.evacStepEnd 1 31) (dried (e 4 20000))) = (zEvac, 0, 1) ∧
      ((after (.evacStepEnd 1 31) ((e 5 0).setZAttempts 63 3)).zState 63) = zLocked ∧
      good.evacGood 63 = true ∧ (after (.evacStepEnd 1 31) good).zState 63 = zWetIdle := by decide +kernel
theorem test_meets_Zones_pressure : let s := State.reset.setRegFld (dieBase 1 + 0x20228) 53 44 700
    s.pressOut 1 = true ∧ bit (s.reg (dieBase 1 + 0x20230)) 10 = false ∧ ((after (.pressureExcursion 1) s).die 1).pressHeld = true := by decide +kernel
theorem test_meets_Zones_commands : let m := Agent.master 2
    (∀ st ∈ [zDry, zFlowing, zLocked], (owned (zoned st id)).mayWrite m (zcmdPa 1) = true) ∧
      zoneIs (after (.zcmdPrime m 1 31) (owned (zoned zDry id))) = (zPriming, 8, 0) ∧
      zoneIs (after (.zcmdEvacuate m 1 31) (owned (zoned zFlowing id))) = (zEvac, 0, 1) ∧
      zoneIs (after (.zcmdLock m 1 31) (owned (zoned zFlowing id))) = (zLocked, 0, 0) ∧
      zoneIs (after (.zcmdUnlock m 1 31) (owned (zoned zLocked id))) = (zDry, 0, 0) ∧
      bit ((after (.zcmdUnlock m 1 31) (owned (zoned zDry id))).reg (dieBase 1 + 0x20230)) 12 = true := by decide +kernel
theorem test_meets_Zones_budget : let s := owned State.reset
    s.mayWrite (.master 2) (zbudgetPa 1) = true ∧ (after (.zbudgetWrite (.master 2) 1 0) s).zbudget 1 = 0 ∧
      bit ((after (.zbudgetWrite (.master 2) 1 16383) s).reg (dieBase 1 + 0x20230)) 11 = true := by decide +kernel
/-! ## Power -/

theorem test_meets_Power_step : let s := State.reset.modDie 0 fun u => { u with curCeil := 100 }
    let b := s.modDie 0 fun u => { u with stepDue := true }
    (s.die 0).stepDue = false ∧ (b.die 0).stepDue = true ∧ (b.die 0).prof = none ∧ (b.die 0).overWin = false ∧
      (b.die 0).curCeil = 100 := by decide +kernel
theorem test_meets_Power_window : let t := after (.currentWindow 0 ((State.reset.die 0).ilim + 1)) State.reset
    (t.die 0).curCeil = 128 ∧ (t.die 0).overWin = true ∧ ((after (.currentWindow 0 0) State.reset).die 0).overWin = false ∧
      ((after (.currentWindow 0 0) State.reset).die 0).curCeil = 256 := by decide +kernel
theorem test_meets_Power_meter : let s := { State.reset with sites := [(tileSite 0 0, { admitted := 3 }), (0, { admitted := 3 })] }
    siteDie 0 = 0 ∧ s.spineOf 0 < 8 ∧ siteKind 0 = .ag ∧ ((after (.meterWindow (s.spineOf 0)) s).site 0).admitted = 0 ∧
      ((after (.meterWindow (s.spineOf 0 + 1)) s).site 0).admitted = 3 ∧
      ((after (.meterWindow (s.spineOf 0)) s).site (tileSite 0 0)).admitted = 3 := by decide +kernel
theorem test_meets_Power_caps : let s := owned State.reset
    s.mayWrite (.master 2) (pcapPa 1) = true ∧ s.mayWrite (.master 2) (profPa 1) = true ∧
      fld ((after (.pcapWrite (.master 2) 1 9000) s).reg (pcapPa 1)) 15 0 = 9000 ∧
      ((after (.pcapWrite (.master 2) 1 9000) s).die 1).cap = 7200 - 3 * (s.die 0).cap ∧
      ((after (.profWrite (.master 2) 1 (2 ^ 62)) s).die 1).prof.isSome := by decide +kernel

/-! ## Faults, gating, page requests -/

theorem test_meets_Faults_post : let s := (core0 fun k => { k with chans := [(0, { en := true })] }).modCluster 0 fun u => { u with
      queue := [{ words := [1] }, { words := [2] }] }
    (s.cluster 0).queue = [{ words := [1] }, { words := [2] }] ∧ ((s.core 0).channel 0).actEn = true ∧ ((s.core 0).channel 0).room = true ∧
      (s.cluster 0).owed = [] ∧ (((after (.faultPost 0) s).core 0).channel 0).queue = [{ words := [1] }] ∧
      ((after (.faultPost 0) s).cluster 0).queue = [{ words := [2] }] := by decide +kernel

/-- Core 0 runs a privileged handler, and cluster 0 holds fault 9 with this holder. -/
def holding (cause : Nat) (h : Holder) (k : Cmd) : State :=
  (({ (commanded [] k) with sites := [(el, { phase := .fault, faults := [9], before := .wait })] }).modCore 0 fun u =>
    { u with running := true, priv := true }).modCluster 0 fun u => { u with held := [(9, { cause, holder := h, val := 0 })] }
theorem test_meets_Faults_resume : let s := holding tIndexRange (.site el 0) (cmd 3 0 0 0)
    (s.heldAt 0 9).map (·.holder) = some (.site el 0) ∧ tIndexRange ≠ tStrayToken ∧ (s.core 0).running = true ∧ (s.core 0).priv = true ∧
      (s.site el).phase = .fault ∧ (s.site el).owed = 0 ∧ (s.heldAt 0 9).map (·.admitsEnd) = some false ∧ s.heldAt 0 8 = none ∧
      ((after (.fltresResume 0 9) s).site el).phase = .wait ∧ ((after (.fltresResume 0 8) s).core 0).fltErr = true := by decide +kernel
theorem test_meets_Faults_end : let s := holding tPageFault (.cmd 0) (cmd 3 0x100 0 8)
    s.cmd? 0 = some (cmd 3 0x100 0 8) ∧ (after (.fltresEnd 0 9) s).cmd? 0 = none ∧ ((after (.fltresEnd 0 9) s).cluster 0).held = [] := by
  decide +kernel
theorem test_meets_Faults_scrub : let t := after (.eccScrubError 1 true 0x1003) State.reset
    t.poison = [0x1000] ∧ (t.core 32).eccUnc = 1 ∧ ((after (.eccScrubError 1 false 0x1003) State.reset).core 32).eccCorr = 1 := by decide +kernel

/-- Cluster 5 in a phase of gating, master 2 the owner. -/
def gatedAs (g : GatePhase) (f : Cluster → Cluster) : State := (owned State.reset).modCluster 5 fun u => f { u with gate := g }
def aRec : TraceRec := { time := 1, kind := 2, ctx := 0, data := 3 }
theorem test_meets_Gates : let w := Agent.master 2
    let s := gatedAs .on id
    let q := s.modCluster 5 fun u => { u with queue := [{ words := [1] }] }
    s.mayWrite w (pgatePa 5) = true ∧ s.mayGate 5 = true ∧ q.mayGate 5 = false ∧ ((after (.pgateGate w 5) s).cluster 5).gate = .pending ∧
      bit ((after (.pgateGate w 5) q).reg (pgatePa 5)) 2 = true ∧ ((after (.pgateUngate w 5) (gatedAs .off id)).cluster 5).gate = .on ∧
      bit ((after (.pgateUngate w 5) s).reg (pgatePa 5)) 2 = true := by decide +kernel
theorem test_meets_Gates_drain : let p := gatedAs .pending id
    let d := gatedAs .draining id
    let r := gatedAs .draining fun u => { u with trace := [aRec] }
    (∀ t ∈ clusterTiles 5, (p.site t).mtq = []) ∧ p.engineInto 5 = false ∧ p.admittedInto 5 = false ∧ ((after (.gateDraining 5) p).cluster 5).gate = .draining ∧
      (d.cluster 5).trace = [] ∧ ((after (.gateOff 5) d).cluster 5).gate = .off ∧ ((after (.gateTimeout 5) r).cluster 5).gate = .off ∧
      fld ((after (.gateTimeout 5) r).reg (pgatePa 5)) 63 32 = 1 := by decide +kernel

/-- A write of master 0 through context 0's window waits for the answer to its page request. -/
def waitingHost (l : List TlbEnt) : State :=
  { (mapped [] id).setRegFld ownPa 7 6 0 with tlbs := [(hostPlace 0, l)], hostWait := [(0, [{ ctx := 0, va := 0x40, bytes := [7] }])] }
theorem test_meets_PageRequests : let s := waitingHost maps
    let n := waitingHost []
    s.waiting 0 = [{ ctx := 0, va := 0x40, bytes := [7] }] ∧ (s.hostPerform 0 0 0x40 [7]).isSome ∧ n.hostPerform 0 0 0x40 [7] = none ∧
      (after (.pageRequestResponse 0 false) s).waiting 0 = [] ∧ (after (.pageRequestResponse 0 true) s).mem = [(0x40, 7)] ∧
      ((after (.pageRequestResponse 0 true) n).waiting 0).length = 1 := by decide +kernel

theorem test_meets_PageRequests_reads : let r (l : List TlbEnt) : State :=
      { waitingHost l with hostWait := [], hostReads := [(0, [.aperture 0 0x40 2])], mem := [(0x41, 9)] }
    (r maps).waiting 0 = [] ∧ 1 ≤ (r maps).acct 0 0 ∧ (r maps).vaddrs (hostPlace 0) 0 .load 0x40 2 = ([0x40, 0x41], none) ∧
      (∀ p ∈ [0x40, 0x41], placeOf p = .ram ∧ (r maps).protectedBy p = none) ∧
      (r []).vaddrs (hostPlace 0) 0 .load 0x40 2 = ([], some (0x40, 0)) ∧
      (after (.pageRequestResponse 0 true) (r maps)).hostAns = [(0, [0, 9])] ∧
      (after (.pageRequestResponse 0 false) (r [])).hostAns = [(0, [0xFF, 0xFF])] ∧
      (Table.get [] (after (.pageRequestResponse 0 true) (r [])).hostReads 0).length = 1 := by decide +kernel

/-! ## The owner's registers, the host, trace -/

theorem test_meets_Boot : let s := State.reset.setRegFld (zallocPa 63) 63 61 zFlowing
    s.bootCause = none ∧ s.regBytes (mrPa 0) 8 = List.replicate 64 0 ∧ s.zState 0 = zDry ∧ s.zState 63 ≠ zDry := by decide +kernel
theorem test_reset_keeps_ram : let s := { State.reset with mem := [(0x100, 7), (clusterBase 0, 8)], nextRegion := 3 }
    (after .reset s).mem = [(0x100, 7)] ∧ (after .reset s).regions = [] := by decide +kernel
theorem test_meets_HostWrite : let s := { waitingHost maps with hostWait := [] }
    let w := waitingHost maps
    s.acct 0 0 = 2 ∧ s.waiting 0 = [] ∧ s.vaddrs (hostPlace 0) 0 .store 0x40 2 = ([0x40, 0x41], none) ∧ placeOf 0x40 = .ram ∧
      placeOf 0x41 = .ram ∧ s.protectedBy 0x40 = none ∧ s.protectedBy 0x41 = none ∧ [0x40, 0x41].Nodup ∧ w.waiting 0 ≠ [] ∧ s.acct 1 0 < 2 ∧
      (after (.hostWrite 0 0 0x40 [1, 2]) s).mem = [(0x40, 1), (0x41, 2)] ∧
      ((after (.hostWrite 0 0 0x40 [1, 2]) w).waiting 0).length = 2 := by decide +kernel
theorem test_meets_HostWrite_refused : let s := (mapped [] id).setRegFld ownPa 7 6 2
    let f := s.setDreg (iodN + 0x20020) 256
    s.acct 0 0 = 1 ∧ s.acct 2 0 = 2 ∧ fld (s.dreg (iodN + 0x20020)) 31 0 - fld (s.dreg (iodN + 0x20018)) 31 0 < 256 ∧
      (fld (f.dreg (iodN + 0x20020)) 31 0 + 2 ^ 32 - fld (f.dreg (iodN + 0x20018)) 31 0) % 2 ^ 32 = 256 ∧
      fld ((after (.hostWrite 0 0 0x40 [1]) s).dreg (iodN + 0x20020)) 31 0 = 1 ∧
      ((after (.hostWrite 0 0 0x40 [1]) f).core 0).fltDrop = 1 ∧
      fld ((after (.accessRefused 0 0 0x40 true) s).dreg (iodN + 0x20020)) 31 0 = 1 := by decide +kernel

/-- Master 0 owns the device and offers it to master 1. -/
def offering : State := ((owned State.reset).setRegFld ownPa 7 6 0).setRegFld ownPa 5 4 1
theorem test_meets_Ownership : State.reset.owner = 3 ∧ offering.owner = 0 ∧ offering.offer = 1 ∧ (owned State.reset).offer ≠ 0 ∧
    (after (.ownClaim 1) offering).owner = 1 ∧ (after (.ownClaim 2) offering).owner = 0 ∧
    (after (.hostLinkDown 0) offering).owner = 2 ∧ (after (.ownOffer 0 3) offering).offer = 3 ∧
    ((after (.runResume 0 5) (offering.modCore 5 fun k => { k with halted := true })).core 5).halted = false := by decide +kernel
theorem test_meets_Evqhead : let s := offering.setDreg (iodN + 0x20020) 5
    fld (s.reg (iodN + 0x20018)) 31 0 = 0 ∧ fld (s.reg (iodN + 0x20020)) 31 0 = 5 ∧
      fld ((after (.evqheadWrite 0 5) s).reg (iodN + 0x20018)) 31 0 = 5 ∧
      fld ((after (.evqheadWrite 0 6) s).reg (iodN + 0x20018)) 31 0 = 0 := by decide +kernel
theorem test_meets_RegisterWrite_acts : let s := offering
    let w := { s with hostWait := [(0, [{ ctx := 0, va := 0, bytes := [1] }])] }
    s.isPlain (debugBase 3 + 0x4000) = true ∧ s.isPlain (queuePa 0 3 + 8) = false ∧ s.isPlain (dieBase 0 + 0x1000) = true ∧
      s.isPlain (pcapPa 1) = false ∧ s.isPlain (iodN + 0x20018) = false ∧ (regInfo (dieBase 0 + 0x1000)).isSome ∧
      (s.cluster 5).gate = .on ∧ s.mayGate 5 = true ∧ s.mayWrite (.master 0) (pgatePa 5) = true ∧
      ((after (.registerWrite (.master 0) (pgatePa 5) 1) s).cluster 5).gate = .pending ∧ w.waiting 0 ≠ [] ∧
      ((after (.registerWrite (.master 0) (pcapPa 1) 5) w).waiting 0).length = 2 ∧ ownerSys 0x42 = true ∧
      (((after (.registerWrite (.master 0) (sysPa 3 0x42) 0x1000) s).core 3).channel 2).entry = 0x1000 := by decide +kernel
theorem test_meets_RegisterWrite_operations :
    OpWrite (.master 0) (2 * 2 ^ 5 + 9) 1 5 (zcmdPa 1) (.zcmdEvacuate (.master 0) 1 9) ∧
      OpWrite (.master 0) 7 1 5 (queuePa 1 5 + 8) (.qctlWrite (.master 0) 1 5 7) ∧
      OwnerWrite 0 1 0 7 (iodN + 0x20C00 + 56) (.runResume 0 7) :=
  ⟨by right; right; right; right; right; right; left; exact ⟨rfl, .inr (.inl ⟨by decide, rfl⟩)⟩, .inl ⟨rfl, rfl⟩,
   .inr (.inr (.inr ⟨rfl, rfl, rfl⟩))⟩
theorem test_meets_RegisterWrite : let s := offering
    let pa := debugBase 3 + 0x4000
    s.mayWrite (.master 0) pa = true ∧ pa < 2 ^ 52 ∧ pa % 8 = 0 ∧ pa ≠ ownPa ∧ placeOf pa = .debug 3 0x4000 ∧ (debugReg 0x4000).isSome ∧
      (after (.registerWrite (.master 0) pa 0xFFFFFFFFFFFFFFFF) s).reg pa = 0xC0000000001F1FFF := by decide +kernel
theorem test_meets_Formats : let pa := dieBase 1 + 0x10020
    let s := ((offering.setDreg (pa + 8) (BitVec.ofNat 64 (5 * 2 ^ 16))).setDreg (pa + 16) (BitVec.ofNat 64 (2 ^ 52))).setDreg (pa + 24) 4
    let e := after (.frbaseWrite (.master 0) (dieBase 1 + 0x10020) (BitVec.ofNat 64 (5 * 2 ^ 16 + 1))) s
    s.mayWrite (.master 0) pa = true ∧ bit (s.reg pa) 0 = false ∧ bit (e.reg pa) 0 = true ∧ e.mayWrite (.master 0) pa = true ∧
      fld (e.reg pa) 51 16 ≠ 4 ∧ bit ((after (.frbaseWrite (.master 0) (dieBase 1 + 0x10020) (BitVec.ofNat 64 (6 * 2 ^ 16 + 1))) s).reg pa) 0 = false := by
  decide +kernel
theorem test_meets_Trace : let s := offering.modCluster 5 fun u => { u with trace := List.replicate 128 aRec }
    (s.cluster 5).trace.length = 128 ∧ fld (s.reg (trctlPa 5)) 39 16 * 0x10000 < 0x4000000000 ∧ s.mayWrite (.master 0) (trctlPa 5) = true ∧
      fld ((after (.traceDrain 5) s).reg (trptrPa 5)) 11 0 = 128 ∧
      fld ((after (.trctlWrite (.master 0) 5 (BitVec.ofNat 64 (2 ^ 63 + 7))) s).reg (trctlPa 5)) 39 0 = 7 := by decide +kernel
theorem test_trace_wraps : let s := gatedAs .draining fun u => { u with trace := [aRec, aRec] }
    let u := after (.traceDrain 5) ((s.setRegFld (trctlPa 5) 39 16 2).setRegFld (trptrPa 5) 11 0 4095)
    fld (u.reg (trptrPa 5)) 11 0 = 1 ∧ bit (u.reg (trptrPa 5)) 63 = true ∧ u.mem.read 0x20000 = 1 ∧ u.mem.read 0x2FFF8 = 2 := by decide +kernel

/-! ## Security -/

/-- R434, R435: RDST, MANST and the frame as BAR4 reads; a frame read waits while the unit is busy; R426: a register that only the
owner reads. -/
theorem test_bar_reads : let s := offering.setMark 0 9 { refused := true, cur := 5, frame := [0xA7], manifest := [9], digests := 3 }
    let rd (s : State) (o n : Nat) : Option (List Byte) := (s.bar4Read 0 9 o n).map (·.2)
    rd s 0x18 8 = some [5, 0, 0, 0, 0, 0, 0, 0x40] ∧ rd s 0x1008 8 = some [3, 0, 0, 0, 0, 0, 0, 0x80] ∧
      rd s 0x10000000 2 = some [0xA7, 0] ∧ rd s 0 1 = some [0] ∧
      rd (s.setMark 0 9 { busy := true }) 0x10000000 1 = none ∧ rd (s.setMark 0 9 { busy := true }) 0x18000000 1 = some [0] ∧
      (s.bar0Read 1 0x4020000).2 = s.reg ownPa ∧ (s.bar0Read 1 0x4020020).2 = BitVec.allOnes 64 ∧ (s.bar0Read 0 0x4020020).2 = 0 := by decide +kernel
theorem test_meets_Attestation : let s := offering
    let b := after (.attestStart 0 0x1122) s
    s.owner = 0 ∧ s.attest = none ∧ b.attest ≠ none ∧ b.reg attsPa = 2 ∧ (b.attest.map (·.length)) = some 32 := by decide +kernel
/-- Window 2 of IOD-N as it may be enabled over one page of far memory of its channels. -/
def farPage : Nat := ((List.range 64).find? fun i => controllerOf (0x10000000000 + i * 0x10000) == 4).getD 0 + 0x1000000
def windowed : State := (offering.setRegFld (pwPa 4 2 + 8) 51 16 farPage).setRegFld (pwPa 4 2 + 16) 5 0 9
theorem test_meets_Windows : let v : Word := BitVec.ofNat 64 (farPage * 2 ^ 16 + 1)
    let e := after (.pwbaseWrite (.master 0) 0 2 v) windowed
    windowed.owner = 0 ∧ bit (windowed.reg (pwPa 4 2)) 0 = false ∧ windowed.pwGood 4 2 (fld v 51 16) = true ∧ bit (e.reg (pwPa 4 2)) 0 = true ∧
      bit ((after (.pwbaseWrite (.core 0) 0 2 v) windowed).reg (pwPa 4 2)) 0 = false := by decide +kernel
/-- R431: a sequencer reads no protected window, and writes only one of its own context. -/
theorem test_protected_from_sequencer : let w := pwPa 4 0
    let b := farPage * 0x10000
    let e : TlbEnt := { ctx := 9, vbase := 0, pbase := b, lg := 16, leaf := 0x1E }
    let s := { ((offering.setDreg w (BitVec.ofNat 64 (b + 1))).setDreg (w + 8) (BitVec.ofNat 64 b)).setDreg (w + 16) 9 with
      tlbs := [(128, [e, { e with ctx := 8 }])] }
    controllerOf b = 4 ∧ (s.seqRead 0 9 0 4).isNone ∧ (s.seqWrite 0 9 0 [1]).isSome ∧ (s.seqWrite 0 8 0 [1]).isNone := by decide +kernel
/-- Context 9's readout through master 0 of a buffer of 4,096 bytes that begins the window. -/
def readable : State :=
  let s := windowed.setDreg (pwPa 4 2) (BitVec.ofNat 64 (farPage * 2 ^ 16 + 1))
  s.setMark 0 9 { off := BitVec.ofNat 64 (2 * 2 ^ 48), luma := 4096 }
theorem test_meets_Readout : let s := readable
    s.acct 0 9 = 2 ∧ s.readoutBad 0 9 4096 = false ∧ s.readoutBad 0 9 4095 = true ∧
      ((after (.readoutRequest 0 9 4096) s).mark 0 9).busy = true ∧ ((after (.readoutRequest 0 9 4096) s).mark 0 9).pending.length < 63 ∧
      ((after (.readoutRequest 0 9 4095) s).mark 0 9).refused = true := by decide +kernel
theorem test_meets_Readout_window : let s := readable
    let bar := 2 ^ 52 + 2 ^ 29 * 9
    s.waiting 0 = [] ∧ fld ((after (.registerWrite (.master 0) (bar + 8) 5) s).mark 0 9).luma 31 0 = 5 ∧
      ((after (.registerWrite (.master 0) (bar + 0x10) 4096) s).mark 0 9).busy = true := by decide +kernel
theorem marks_end (out : Nat → Byte) (n i : Nat) (os : List Nat) (h : os = [] ∨ os = [0]) : (markOffsets out 1 n i os).length ≤ 1 := by
  induction n generalizing i os with
  | zero => rcases h with h | h <;> simp [markOffsets, h]
  | succ n ih => rcases h with h | h <;> simp [markOffsets, h, Nat.mod_one, ih]
theorem marks_full (out : Nat → Byte) (y n i : Nat) (os : List Nat) (h : 256 ≤ os.length) : 256 ≤ (markOffsets out y (n + 1) i os).length := by
  simp [markOffsets, h]
theorem test_meets_Readout_done :
    let s := offering.setMark 0 9 { busy := true, y := 4096, offs := List.range 256 }
    let u := offering.setMark 0 9 { busy := true, y := 1 }
    (s.mark 0 9).busy = true ∧ (s.mark 0 9).pending.length < 63 ∧
      (∀ out, 256 ≤ (markOffsets out (s.mark 0 9).y 0x10000 0 (s.mark 0 9).offs).length) ∧
      (u.mark 0 9).busy = true ∧ ∀ out, (markOffsets out (u.mark 0 9).y 0x10000 0 (u.mark 0 9).offs).length < 256 := by
  intro s u
  refine ⟨by decide +kernel, by decide +kernel, fun out => ?_, by decide +kernel, fun out => ?_⟩
  · have h : 256 ≤ (s.mark 0 9).offs.length := by decide +kernel
    exact marks_full out _ 0xFFFF 0 _ h
  · exact Nat.lt_of_le_of_lt (marks_end out 0x10000 0 [] (.inl rfl)) (by decide)
theorem test_meets_Manifest : let s := offering.setMark 0 9 { pending := [List.replicate 64 1] }
    s.acct 0 9 = 2 ∧ (s.mark 0 9).pending ≠ [] := by decide +kernel

end Sys2Proof.Tests
end

section
/-! PROOFS. What an instruction that completes in place and writes one s-register does, said once for every meaning that
ends in `wr` and `issue`; with it the register, immediate and compare instructions (R252 to R255). -/

namespace Sys2Proof.Machine

/-! ## In-place instructions that write one s-register -/

theorem State.onlyCore_setCore (s : State) (c : Nat) (k : CoreSt) : s.OnlyCore (s.setCore c k) c :=
  ⟨by rw [State.core_setCore_same], fun _ => rfl⟩

/-- `t` is `s` after an instruction of `len` bytes that completes in place and gives `v` to s-register `d`: no f-register and no
flag differs. -/
structure State.SetsS (s t : State) (len d : Nat) (v : Word) : Prop where
  inPlace : s.InPlace t len
  writes : s.WritesS t s.cur d v
  keepsF : s.KeepsF t s.cur
  fflags : (t.core s.cur).fflags = s.me.fflags

theorem CoreSt.rd_wr (k : CoreSt) (d : Nat) (v : Word) : (k.wr d v).rd d = if d = 0 then 0 else v := by
  split
  · next h => simp [CoreSt.rd, h]
  · next h => exact CoreSt.rd_wr_same k v h

/-- Of the fields that `State.InPlace` fixes, writing an s-register and issuing change none. -/
theorem CoreSt.wr_issue_rest (k : CoreSt) (len d : Nat) (v : Word) :
    { (k.wr d v).issue len with s := k.s, f := k.f, fflags := k.fflags, pc := k.pc, issued := k.issued, stall := k.stall,
                                req := k.req } = k := by
  unfold CoreSt.wr
  split <;> rfl

theorem State.setsS_wr_issue (s : State) (len d : Nat) (v : Word) :
    s.SetsS (s.setCore s.cur ((s.me.wr d v).issue len)) len d v where
  inPlace :=
    { only := s.onlyCore_setCore _ _
      pc := by simp [CoreSt.issue]
      issued := by simp [CoreSt.issue]
      stall := by simp [CoreSt.issue]
      req := by simp [CoreSt.issue]
      rest := by rw [State.core_setCore_same]; exact s.me.wr_issue_rest len d v }
  writes :=
    { value := by rw [State.core_setCore_same, CoreSt.rd_issue, CoreSt.rd_wr]
      others := fun r hr => by rw [State.core_setCore_same, CoreSt.rd_issue]; exact s.me.rd_wr_other v hr }
  keepsF := fun r => by rw [State.core_setCore_same]; exact s.me.rdF_wr d r v
  fflags := by simp [State.me]

/-- Where its registers are ready, an in-place meaning that ends in `wr` and `issue` sets one s-register. -/
theorem State.setsS_inPlace (s : State) {rs rf ws wf : List Nat} {f : CoreSt → CoreSt} {len d : Nat} {v : Word}
    (hr : s.Ready rs rf ws wf) (hf : f s.me = (s.me.wr d v).issue len) : s.SetsS (s.inPlace rs rf ws wf f) len d v := by
  have e : s.inPlace rs rf ws wf f = s.setCore s.cur (f s.me) := s.inPlace_ready f hr
  rw [e, hf]
  exact s.setsS_wr_issue len d v

theorem State.setsS_alu2 (s : State) {d a b : BitVec 5} (f : Word → Word → Word)
    (h : s.Ready [a.toNat, b.toNat] [] [d.toNat] []) :
    s.SetsS (s.alu2 d a b f) 4 d.toNat (f (s.me.rd a.toNat) (s.me.rd b.toNat)) :=
  s.setsS_inPlace h rfl

theorem State.setsS_alu1 (s : State) {d a : BitVec 5} (f : Word → Word) (h : s.Ready [a.toNat] [] [d.toNat] []) :
    s.SetsS (s.alu1 d a f) 4 d.toNat (f (s.me.rd a.toNat)) :=
  s.setsS_inPlace h rfl

/-! ## The model's word functions are those of R252, R253 and R255 -/

theorem ofInt_neg_one : BitVec.ofInt 64 (-1) = BitVec.allOnes 64 := by decide

theorem add_eq_ofNat (x y : Word) : x + y = BitVec.ofNat 64 (x.toNat + y.toNat) := by
  rw [BitVec.ofNat_add, BitVec.ofNat_toNat, BitVec.ofNat_toNat, BitVec.setWidth_eq, BitVec.setWidth_eq]

theorem sub_eq_ofInt (x y : Word) : x - y = BitVec.ofInt 64 (x.toInt - y.toInt) := by
  rw [Int.sub_eq_add_neg, BitVec.ofInt_add, BitVec.ofInt_neg, BitVec.ofInt_toInt, BitVec.ofInt_toInt, BitVec.sub_eq_add_neg]

theorem mul_eq_ofNat (x y : Word) : x * y = BitVec.ofNat 64 (x.toNat * y.toNat) := by
  rw [BitVec.ofNat_mul, BitVec.ofNat_toNat, BitVec.ofNat_toNat, BitVec.setWidth_eq, BitVec.setWidth_eq]

/-- The low six bits of a shift amount. -/
theorem fld_low6 (y : Word) : fld y 5 0 = y.toNat % 64 := by simp [fld]

theorem minSigned_eq (x y : Word) : minSigned x y = if x.toInt ≤ y.toInt then x else y := by
  simp only [minSigned, BitVec.slt_eq_decide, decide_eq_true_eq, ← Int.not_le, ite_not]

theorem minUnsigned_eq (x y : Word) : minUnsigned x y = if x.toNat ≤ y.toNat then x else y := by
  simp only [minUnsigned, BitVec.ult_eq_decide, decide_eq_true_eq, ← Nat.not_le, ite_not]

/-- Of equal numbers either one is the larger: they are the same word. -/
theorem maxSigned_eq (x y : Word) : maxSigned x y = if x.toInt ≤ y.toInt then y else x := by
  simp only [maxSigned, BitVec.slt_eq_decide, decide_eq_true_eq]
  rcases Int.lt_trichotomy x.toInt y.toInt with h | h | h
  · rw [if_pos h, if_pos (Int.le_of_lt h)]
  · rw [BitVec.toInt_inj.1 h, ite_self, ite_self]
  · rw [if_neg (Int.not_lt.2 (Int.le_of_lt h)), if_neg (Int.not_le.2 h)]

theorem maxUnsigned_eq (x y : Word) : maxUnsigned x y = if x.toNat ≤ y.toNat then y else x := by
  simp only [maxUnsigned, BitVec.ult_eq_decide, decide_eq_true_eq]
  rcases Nat.lt_trichotomy x.toNat y.toNat with h | h | h
  · rw [if_pos h, if_pos (Nat.le_of_lt h)]
  · rw [BitVec.eq_of_toNat_eq h, ite_self, ite_self]
  · rw [if_neg (Nat.not_lt.2 (Nat.le_of_lt h)), if_neg (Nat.not_le.2 h)]

theorem toInt_eq_zero_iff (y : Word) : y.toInt = 0 ↔ y = 0 := by
  rw [← BitVec.toInt_inj]; rfl

theorem toNat_cast_eq_zero_iff (y : Word) : (y.toNat : Int) = 0 ↔ y = 0 := by
  rw [Int.natCast_eq_zero, ← BitVec.toNat_inj]; rfl

theorem divSigned_eq (x y : Word) : divSigned x y = BitVec.ofInt 64 (quotient x.toInt y.toInt) := by
  simp only [divSigned, quotient, toInt_eq_zero_iff]
  split
  · exact ofInt_neg_one.symm
  · rfl

theorem divUnsigned_eq (x y : Word) : divUnsigned x y = BitVec.ofInt 64 (quotient x.toNat y.toNat) := by
  simp only [divUnsigned, quotient, toNat_cast_eq_zero_iff]
  split
  · exact ofInt_neg_one.symm
  · rw [← Int.ofNat_tdiv, BitVec.ofInt_natCast]

/-- A division by zero leaves the dividend as the remainder (R253), and the formula with quotient -1 and divisor 0 does. -/
theorem remSigned_eq (x y : Word) : remSigned x y = BitVec.ofInt 64 (x.toInt - y.toInt * quotient x.toInt y.toInt) := by
  simp only [remSigned, quotient, toInt_eq_zero_iff]
  split
  · next h => simp [h]
  · rw [Int.tmod_def]

theorem remUnsigned_eq (x y : Word) : remUnsigned x y = BitVec.ofInt 64 (x.toNat - y.toNat * quotient x.toNat y.toNat) := by
  simp only [remUnsigned, quotient, toNat_cast_eq_zero_iff]
  split
  · next h => simp [h]
  · rw [← Int.tmod_def, ← Int.ofNat_tmod, BitVec.ofInt_natCast]

theorem flag1_of_true {b : Bool} (h : b = true) : flag1 b = 1 := by rw [h]; rfl
theorem flag1_of_false {b : Bool} (h : ¬ b = true) : flag1 b = 0 := by rw [Bool.of_not_eq_true h]; rfl

/-! ## The tables are what `exec` runs -/

theorem next_alu2_congr (s : State) (d a b : BitVec 5) {f g : Word → Word → Word} (h : ∀ x y, f x y = g x y) :
    (.next (s.alu2 d a b f) : Res) = .next (s.alu2 d a b g) := by
  rw [funext fun x => funext (h x)]

theorem exec_of_mem_aluTable (s : State) (d a b : BitVec 5) :
    ∀ p ∈ aluTable d a b, exec p.1 s = .next (s.alu2 d a b p.2) := by
  have shift (op : Word → Nat → Word) (x y : Word) : op x (y.toNat % 64) = op x (fld y 5 0) := by rw [fld_low6]
  simp only [aluTable, List.forall_mem_cons]
  exact ⟨next_alu2_congr s d a b add_eq_ofNat, next_alu2_congr s d a b sub_eq_ofInt, rfl, rfl, rfl, rfl,
    next_alu2_congr s d a b (shift (· <<< ·)), next_alu2_congr s d a b (shift (· >>> ·)),
    next_alu2_congr s d a b (shift BitVec.sshiftRight),
    next_alu2_congr s d a b minSigned_eq, next_alu2_congr s d a b minUnsigned_eq,
    next_alu2_congr s d a b maxSigned_eq, next_alu2_congr s d a b maxUnsigned_eq,
    next_alu2_congr s d a b mul_eq_ofNat, rfl, rfl,
    next_alu2_congr s d a b divSigned_eq, next_alu2_congr s d a b divUnsigned_eq,
    next_alu2_congr s d a b remSigned_eq, next_alu2_congr s d a b remUnsigned_eq, List.forall_mem_nil _⟩

/-- A compare runs as a test whose outcome is its relation. -/
theorem exec_of_mem_cmpTable (s : State) (d a b : BitVec 5) :
    ∀ p ∈ cmpTable d a b, ∃ t : Word → Word → Bool,
      exec p.1 s = .next (s.alu2 d a b fun x y => flag1 (t x y)) ∧ ∀ x y, t x y = true ↔ p.2 x y := by
  simp only [cmpTable, List.forall_mem_cons]
  exact ⟨⟨(· == ·), rfl, fun _ _ => beq_iff_eq⟩, ⟨(· != ·), rfl, fun _ _ => bne_iff_ne⟩,
    ⟨BitVec.slt, rfl, fun _ _ => by simp [BitVec.slt_eq_decide]⟩, ⟨BitVec.ult, rfl, fun _ _ => by simp [BitVec.ult_eq_decide]⟩,
    ⟨fun x y => !y.slt x, rfl, fun _ _ => by simp [BitVec.slt_eq_decide]⟩,
    ⟨fun x y => !y.ult x, rfl, fun _ _ => by simp [BitVec.ult_eq_decide]⟩, List.forall_mem_nil _⟩

/-- Settles O8: the tables are what `exec` runs, and an in-place instruction sets one s-register. -/
theorem aluWritesItsResult : Obligations.AluWritesItsResult := by
  unfold Obligations.AluWritesItsResult
  intro s d a b h
  constructor
  · intro i f hm
    have w := s.setsS_alu2 f h
    exact ⟨_, exec_of_mem_aluTable s d a b _ hm, w.inPlace, w.writes, w.keepsF, w.fflags⟩
  · intro i R hm
    obtain ⟨t, he, ht⟩ := exec_of_mem_cmpTable s d a b _ hm
    have w := s.setsS_alu2 (fun x y => flag1 (t x y)) h
    exact ⟨_, _, he, w.inPlace, w.writes, fun hR => flag1_of_true ((ht _ _).2 hR),
      fun hR => flag1_of_false (mt (ht _ _).1 hR), w.keepsF, w.fflags⟩

end Sys2Proof.Machine
end

section
/-! PROOFS. The one-operand and immediate instructions (R252, R254): the counts of bits, the extended immediates, and the two
instructions that replace a field of d. -/

namespace Sys2Proof.Machine

/-! ## Counts of bits -/

/-- The first index below `n` that `p` accepts, or `n`: every index below it is refused, and it is accepted where it is below `n`. -/
theorem firstAccepted_spec (n : Nat) (p : Nat → Bool) :
    let m := ((List.range n).find? p).getD n
    m ≤ n ∧ (∀ i, i < m → p i = false) ∧ (m < n → p m = true) := by
  intro m
  cases h : (List.range n).find? p with
  | none =>
    have hm : m = n := by simp [m, h]
    rw [List.find?_range_eq_none] at h
    refine ⟨Nat.le_of_eq hm, fun i hi => by simpa using h i (by omega), fun hlt => absurd hlt (by omega)⟩
  | some k =>
    have hm : m = k := by simp [m, h]
    rw [List.find?_range_eq_some, List.mem_range] at h
    obtain ⟨hp, hk, hbelow⟩ := h
    refine ⟨by omega, fun i hi => by simpa using hbelow i (by omega), fun _ => hm ▸ hp⟩

theorem leadingZeros_countLead (x : Word) : LeadingZeros x (countLead x) :=
  firstAccepted_spec 64 fun i => x.getLsbD (63 - i)

theorem trailingZeros_countTrail (x : Word) : TrailingZeros x (countTrail x) :=
  firstAccepted_spec 64 fun i => x.getLsbD i

theorem length_filter_eq_foldl (p : Nat → Bool) (l : List Nat) (n : Nat) :
    n + (l.filter p).length = l.foldl (fun n i => n + (p i).toNat) n := by
  induction l generalizing n with
  | nil => rfl
  | cons i l ih =>
    rw [List.foldl_cons, ← ih, List.filter_cons]
    cases p i <;> simp +arith

theorem countOnes_eq_foldl (x : Word) : countOnes x = (List.range 64).foldl (fun n i => n + (x.getLsbD i).toNat) 0 :=
  (Nat.zero_add _).symm.trans (length_filter_eq_foldl _ _ _)

/-! ## Immediates -/

theorem toInt_sext16 (imm : BitVec 16) : (sext16 imm).toInt = imm.toInt := BitVec.toInt_signExtend_of_le (by omega)

theorem sext16_eq_ofInt (imm : BitVec 16) : sext16 imm = BitVec.ofInt 64 imm.toInt := by
  rw [← toInt_sext16, BitVec.ofInt_toInt]

theorem zext16_eq_ofNat (imm : BitVec 16) : zext16 imm = BitVec.ofNat 64 imm.toNat := (BitVec.ofNat_toNat 64 imm).symm

theorem add_sext16 (x : Word) (imm : BitVec 16) : x + sext16 imm = BitVec.ofInt 64 (x.toInt + imm.toInt) := by
  rw [BitVec.ofInt_add, BitVec.ofInt_toInt, sext16_eq_ofInt]

theorem rotateRight_eq (x : Word) (sh : BitVec 6) : x.rotateRight sh.toNat = x >>> sh.toNat ||| x <<< (64 - sh.toNat) := by
  rw [BitVec.rotateRight_def, Nat.mod_eq_of_lt sh.isLt]

theorem flag1_eq_ite {b : Bool} {p : Prop} [Decidable p] (h : b = true ↔ p) : flag1 b = if p then 1 else 0 := by
  by_cases hp : p
  · rw [if_pos hp, flag1_of_true (h.2 hp)]
  · rw [if_neg hp, flag1_of_false (mt h.1 hp)]

theorem next_alu1_congr (s : State) (d a : BitVec 5) {f g : Word → Word} (h : ∀ x, f x = g x) :
    (.next (s.alu1 d a f) : Res) = .next (s.alu1 d a g) := by
  rw [funext h]

theorem exec_of_mem_immTable (s : State) (d a : BitVec 5) (imm : BitVec 16) (sh : BitVec 6) :
    ∀ p ∈ immTable d a imm sh, exec p.1 s = .next (s.alu1 d a p.2) := by
  have logic (op : Word → Word → Word) (x : Word) : op x (zext16 imm) = op x (BitVec.ofNat 64 imm.toNat) := by
    rw [zext16_eq_ofNat]
  have ltS (x : Word) : flag1 (x.slt (sext16 imm)) = if x.toInt < imm.toInt then 1 else 0 :=
    flag1_eq_ite (by rw [BitVec.slt_eq_decide, decide_eq_true_eq, toInt_sext16])
  have ltN (x : Word) : flag1 (x.ult (sext16 imm)) = if x.toNat < (imm.signExtend 64).toNat then 1 else 0 :=
    flag1_eq_ite (by rw [BitVec.ult_eq_decide, decide_eq_true_eq]; rfl)
  simp only [immTable, List.forall_mem_cons]
  exact ⟨next_alu1_congr s d a fun x => add_sext16 x imm, next_alu1_congr s d a (logic (· &&& ·)),
    next_alu1_congr s d a (logic (· ||| ·)), next_alu1_congr s d a (logic (· ^^^ ·)), rfl, rfl, rfl,
    next_alu1_congr s d a fun x => rotateRight_eq x sh, next_alu1_congr s d a ltS, next_alu1_congr s d a ltN, List.forall_mem_nil _⟩

/-! ## Replacing a field -/

/-- The bits of a word after its bits [hi:lo] are replaced: those of `v` inside the field, its own outside it. -/
theorem getLsbD_setFld (x : Word) {hi lo : Nat} (v : Nat) (h : lo ≤ hi) {j : Nat} (hj : j < 64) :
    (setFld x hi lo v).getLsbD j = if lo ≤ j ∧ j ≤ hi then v.testBit (j - lo) else x.getLsbD j := by
  have split2 : 2 ^ (hi + 1) = 2 ^ lo * 2 ^ (hi + 1 - lo) := by rw [← Nat.pow_add]; congr 1; omega
  have hlow : x.toNat % 2 ^ lo < 2 ^ lo := Nat.mod_lt _ (Nat.two_pow_pos lo)
  have hmid : 2 ^ lo * (v % 2 ^ (hi + 1 - lo)) + x.toNat % 2 ^ lo < 2 ^ (hi + 1) := by
    have hv : v % 2 ^ (hi + 1 - lo) + 1 ≤ 2 ^ (hi + 1 - lo) := Nat.mod_lt _ (Nat.two_pow_pos _)
    have hle := Nat.mul_le_mul_left (2 ^ lo) hv
    rw [Nat.mul_add, Nat.mul_one] at hle
    rw [split2]
    exact Nat.lt_of_lt_of_le (Nat.add_lt_add_left hlow _) hle
  have e : x.toNat % 2 ^ lo + v % 2 ^ (hi + 1 - lo) * 2 ^ lo + x.toNat / 2 ^ (hi + 1) * 2 ^ (hi + 1) =
      2 ^ (hi + 1) * (x.toNat / 2 ^ (hi + 1)) + (2 ^ lo * (v % 2 ^ (hi + 1 - lo)) + x.toNat % 2 ^ lo) := by
    rw [Nat.add_comm, Nat.add_comm (x.toNat % _), Nat.mul_comm (v % _), Nat.mul_comm (x.toNat / _)]
  rw [setFld, e, BitVec.getLsbD_ofNat, Nat.testBit_two_pow_mul_add _ hmid, Nat.testBit_two_pow_mul_add _ hlow,
    Nat.testBit_mod_two_pow, Nat.testBit_mod_two_pow, Nat.testBit_div_two_pow]
  by_cases h1 : j < lo
  · simp [hj, h1, show j < hi + 1 by omega, show ¬ lo ≤ j by omega, BitVec.getLsbD]
  · by_cases h2 : j ≤ hi
    · simp [hj, h1, h2, show j < hi + 1 by omega, show lo ≤ j by omega, show j - lo < hi + 1 - lo by omega]
    · simp [hj, h2, show ¬ j < hi + 1 by omega, BitVec.getLsbD, Nat.sub_add_cancel (show hi + 1 ≤ j by omega)]

/-- ins16 replaces one of the four halfwords. -/
theorem getLsbD_setHalf (x : Word) (h : BitVec 2) (imm : BitVec 16) {j : Nat} (hj : j < 64) :
    (setFld x (16 * h.toNat + 15) (16 * h.toNat) imm.toNat).getLsbD j =
      if j / 16 = h.toNat then imm.getLsbD (j % 16) else x.getLsbD j := by
  rw [getLsbD_setFld x imm.toNat (by omega) hj]
  by_cases hq : j / 16 = h.toNat
  · rw [if_pos (by omega), if_pos hq, show j - 16 * h.toNat = j % 16 by omega]; rfl
  · rw [if_neg (by omega), if_neg hq]

/-- Mode 2 of li replaces the high word. -/
theorem getLsbD_setHigh (x : Word) (ext : BitVec 32) {j : Nat} (hj : j < 64) :
    (setFld x 63 32 ext.toNat).getLsbD j = if 32 ≤ j then ext.getLsbD (j - 32) else x.getLsbD j := by
  rw [getLsbD_setFld x ext.toNat (by omega) hj]
  by_cases h : 32 ≤ j
  · rw [if_pos (by omega), if_pos h]; rfl
  · rw [if_neg (by omega), if_neg h]

/-! ## li -/

theorem signExtend_eq_ofInt (ext : BitVec 32) : ext.signExtend 64 = BitVec.ofInt 64 ext.toInt := by
  rw [← BitVec.toInt_signExtend_of_le (show 32 ≤ 64 by omega), BitVec.ofInt_toInt]

/-- Modes 0 and 1 of li read nothing and give d the extended immediate. -/
theorem State.setsS_li_extend (s : State) {d mode : BitVec 5} (ext : BitVec 32) (hm : mode.toNat < 2) (h : s.Ready [] [] [d.toNat] []) :
    ∃ t, exec (.li d mode ext) s = .next t ∧
      s.SetsS t 8 d.toNat (if mode = 0 then BitVec.ofInt 64 ext.toInt else BitVec.ofNat 64 ext.toNat) := by
  obtain rfl | rfl : mode = 0 ∨ mode = 1 := by
    rcases (show mode.toNat = 0 ∨ mode.toNat = 1 by omega) with e | e
    · exact .inl (BitVec.eq_of_toNat_eq e)
    · exact .inr (BitVec.eq_of_toNat_eq e)
  · exact ⟨_, rfl, s.setsS_inPlace h (by rw [if_pos rfl, ← signExtend_eq_ofInt]; rfl)⟩
  · exact ⟨_, rfl, s.setsS_inPlace h (by rw [if_neg (by decide), BitVec.ofNat_toNat]; rfl)⟩

theorem State.setsS_li_high (s : State) {d : BitVec 5} (ext : BitVec 32) (h : s.Ready [d.toNat] [] [d.toNat] []) :
    ∃ t, exec (.li d 2 ext) s = .next t ∧ s.SetsS t 8 d.toNat (setFld (s.me.rd d.toNat) 63 32 ext.toNat) :=
  ⟨_, rfl, s.setsS_inPlace h rfl⟩

/-- Settles O9: each instruction sets one s-register, to the value that the lemmas above give. -/
theorem oneOperandAndImmediates : Obligations.OneOperandAndImmediates := by
  unfold Obligations.OneOperandAndImmediates
  refine ⟨fun s d a h => ⟨?clz, ?ctz, ?popc⟩, fun s d a b c h => ?sel, fun s d a h => ?msgrd,
    fun s d a imm sh h i f hi => ?imm, fun s d h imm hr => ?ins16, fun s d mode ext hm h => ?li, fun s d ext h => ?liHigh⟩
  case clz =>
    have w := s.setsS_alu1 (fun x => BitVec.ofNat 64 (countLead x)) h
    exact ⟨_, _, rfl, w.inPlace, leadingZeros_countLead _, w.writes, w.keepsF, w.fflags⟩
  case ctz =>
    have w := s.setsS_alu1 (fun x => BitVec.ofNat 64 (countTrail x)) h
    exact ⟨_, _, rfl, w.inPlace, trailingZeros_countTrail _, w.writes, w.keepsF, w.fflags⟩
  case popc =>
    have w := s.setsS_alu1 (fun x => BitVec.ofNat 64 (countOnes x)) h
    exact ⟨_, rfl, w.inPlace, countOnes_eq_foldl _ ▸ w.writes, w.keepsF, w.fflags⟩
  case sel =>
    have w := s.setsS_inPlace h (len := 4) (f := fun k =>
      (k.wr d.toNat (if k.rd c.toNat ≠ 0 then k.rd a.toNat else k.rd b.toNat)).issue 4) rfl
    exact ⟨_, rfl, w.inPlace, ite_not (s.me.rd c.toNat = 0) _ _ ▸ w.writes, w.keepsF, w.fflags⟩
  case msgrd =>
    have w := s.setsS_inPlace h (f := fun k => (k.wr d.toNat (k.rdM a.toNat)).issue 4) rfl
    exact ⟨_, rfl, w.inPlace, w.writes, w.keepsF, w.fflags⟩
  case imm =>
    have w := s.setsS_alu1 f h
    exact ⟨_, exec_of_mem_immTable s d a imm sh _ hi, w.inPlace, w.writes, w.keepsF, w.fflags⟩
  case ins16 =>
    have w := s.setsS_inPlace hr (f := fun k =>
      (k.wr d.toNat (setFld (k.rd d.toNat) (16 * h.toNat + 15) (16 * h.toNat) imm.toNat)).issue 4) rfl
    exact ⟨_, _, rfl, w.inPlace, w.writes, fun j hj => getLsbD_setHalf _ h imm hj, w.keepsF, w.fflags⟩
  case li =>
    obtain ⟨t, he, w⟩ := s.setsS_li_extend ext hm h
    exact ⟨t, he, w.inPlace, w.writes, w.keepsF, w.fflags⟩
  case liHigh =>
    obtain ⟨t, he, w⟩ := s.setsS_li_high ext h
    exact ⟨t, _, he, w.inPlace, w.writes, fun j hj => getLsbD_setHigh _ ext hj, w.keepsF, w.fflags⟩

end Sys2Proof.Machine
end

section
/-! PROOFS. Control transfers (R256). The clause about fetch faults leaves out the rest that R333 gives a speculative task which
has found no commit-buffer entry: its core fetches nothing, so a page fault at its pc is not raised. -/

namespace Sys2Proof.Machine

/-- A core whose speculative task waits for a commit-buffer entry rests, whatever stands at its pc (R333). -/
theorem State.coreTurn_rest_of_commit (s : State) (c : Nat) {h : Nat × Nat} {t : (Nat × Nat) × Task}
    (hrun : (s.core c).running = true) (hhalt : (s.core c).halted = false) (hdead : (s.core c).dead = false)
    (hb : (s.core c).overBudget = false) (hst : (s.core c).stall = some (.commit h)) (hsp : s.specOf c = some t) :
    s.coreTurn c = .rest := by
  have hheld : s.stallHeld c = false := by simp [State.stallHeld, hst]
  simp [State.coreTurn, hrun, hhalt, hdead, hb, hheld, hst, hsp]

/-- The step of a core that rests changes nothing. -/
theorem step_of_rest {s : State} (ha : s.agenda = []) (hr : s.coreTurn s.cur = .rest) : step s = .next s := by
  have e : stepCore s.cur s = .next s := by
    simp only [stepCore, hr]
  rw [step, ha]
  exact e

/-- The record of an ordered control task: kind 3, tflags 1 (R293, R326). -/
def orderedRecord : List Byte := List.replicate 8 0 ++ [3] ++ List.replicate 19 0 ++ [1]

/-- Core 0 runs the ordered task 0 of die 0, which waits for a commit-buffer entry; its pc is in no page. -/
def commitWaiter : State :=
  { cores := [(0, { running := true, pc := 0x1000, task := some (0, 0), stall := some (.commit (0, 0)) })],
    dies := [(0, { tasks := [(0, { emptyTask with phase := .running, core := some 0, bytes := orderedRecord })] })] }

theorem translate_commitWaiter : commitWaiter.translate 0 0 0x1000 .fetch = .fault 0 := by decide +kernel

theorem fetchWord_commitWaiter : commitWaiter.fetchWord 0 0x1000 = .trap tPageFault 0x1000 := by
  have e : commitWaiter.translate 0 (commitWaiter.core 0).ctx (0x1000 : Word).toNat .fetch = .fault 0 := translate_commitWaiter
  simp only [State.fetchWord, e]

theorem step_commitWaiter : step commitWaiter = .next commitWaiter :=
  step_of_rest rfl (commitWaiter.coreTurn_rest_of_commit 0 rfl rfl rfl rfl rfl
    (t := ((0, 0), { emptyTask with phase := .running, core := some 0, bytes := orderedRecord })) (by decide +kernel))

/-- Refutes O10: `commitWaiter` satisfies the hypotheses of the clause about fetch faults, but its step takes no trap. The clause
does not exclude the stall of R333, in which a core rests and fetches nothing. -/
theorem not_branchesAndCalls : ¬ Obligations.BranchesAndCalls := by
  unfold Obligations.BranchesAndCalls
  rintro ⟨-, -, -, -, hfetch, -⟩
  obtain ⟨t, ht, -, -, -, hvalid⟩ := hfetch commitWaiter tPageFault 0x1000 rfl rfl rfl rfl rfl rfl fetchWord_commitWaiter rfl
  obtain rfl : commitWaiter = t := Host.Outcome.next.inj (step_commitWaiter.symm.trans ht)
  exact absurd hvalid (by decide +kernel)

end Sys2Proof.Machine
end

section
/-! PROOFS. The return from a trap (R286). -/

namespace Sys2Proof.Machine

/-- No entry lies on both sides of `k`. -/
theorem Table.filter_both_sides {α : Type} (t : Table α) (k : Nat) :
    t.filter (fun e => decide (e.1 < k) && decide (k < e.1)) = [] ∧
      t.filter (fun e => decide (k < e.1) && decide (e.1 < k)) = [] := by
  constructor <;> (rw [List.filter_eq_nil_iff]; intro e _; rw [Bool.and_eq_true, decide_eq_true_eq, decide_eq_true_eq]; omega)

/-- Of two puts of one entry the second is what stands. -/
theorem Table.put_put {α : Type} (t : Table α) (k : Nat) (v w : α) : Table.put (Table.put t k v) k w = Table.put t k w := by
  simp [Table.put, List.filter_filter, Table.filter_both_sides]

theorem State.setCore_setCore (s : State) (c : Nat) (k l : CoreSt) : (s.setCore c k).setCore c l = s.setCore c l := by
  simp only [State.setCore, Table.put_put]

/-- The handler that a return from core `k`'s frame resumes: at %tpc, with the trapped handler's message and budget count and its
channel's privilege and budget. -/
def CoreSt.trapStart (k : CoreSt) : Start :=
  { ctx := k.tctx, chan := k.tchan, m := k.tm, pc := k.tpc, issued := k.tissued, budget := (k.channel k.tchan).budget,
    priv := (k.channel k.tchan).priv, task := k.ttask, group := k.tgroup, resumed := true }

/-- Core `k` once the returning handler has ended and the frame is released. -/
def CoreSt.released (k : CoreSt) : CoreSt := { k.endHandler with tvalid := false }

/-- A core that puts off the handler waiting for a core switch, if any, and waits to switch for `st` instead (R245). -/
def CoreSt.awaitSwitch (k : CoreSt) (st : Start) : CoreSt :=
  { k with next := some st, nextHeld := false,
           later := k.later ++ match k.next with | some old => [(old, k.nextHeld)] | none => [] }

/-- A return to a resident context: the handler goes on at once, and being no start it is not traced. -/
theorem State.trapReturn_resident (s : State) (c : Nat) (h : (s.core c).tctx = (s.core c).ctx) :
    s.trapReturn c = s.setCore c ((s.core c).released.begin (s.core c).trapStart) := by
  have e : s.trapReturn c = (s.setCore c (s.core c).released).startOn c (s.core c).trapStart := rfl
  have hx : (s.core c).trapStart.ctx = ((s.setCore c (s.core c).released).core c).ctx := by rw [State.core_setCore_same]; exact h
  rw [e, State.startOn, if_pos hx, State.modCore_eq, State.core_setCore_same, State.setCore_setCore]
  rfl

/-- A return to another context: the handler waits for a core switch. -/
theorem State.trapReturn_switch (s : State) (c : Nat) (h : (s.core c).tctx ≠ (s.core c).ctx) :
    s.trapReturn c = s.setCore c ((s.core c).released.awaitSwitch (s.core c).trapStart) := by
  have e : s.trapReturn c = (s.setCore c (s.core c).released).startOn c (s.core c).trapStart := rfl
  have hx : (s.core c).trapStart.ctx ≠ ((s.setCore c (s.core c).released).core c).ctx := by rw [State.core_setCore_same]; exact h
  rw [e, State.startOn, if_neg hx, State.modCore_eq, State.core_setCore_same, State.setCore_setCore]
  rfl

/-- The checks of tret, in their order (R286). -/
theorem exec_tret (s : State) : exec .tret s = .next (if ¬ s.me.priv then s.trap s.cur tPriv 0
    else if ¬ s.me.tvalid then s.trap s.cur tTretState 0
    else if (s.ctx s.me.tctx).phase ≠ .opened then s.trap s.cur tCtxState 0
    else s.trapReturn s.cur) := rfl

theorem exec_tret_returns {s : State} (hp : s.me.priv = true) (hv : s.me.tvalid = true) (ho : (s.ctx s.me.tctx).phase = .opened) :
    exec .tret s = .next (s.trapReturn s.cur) := by
  simp [exec_tret, hp, hv, ho]

/-- Settles O26: the checks are those of `exec_tret`, and what a return leaves is read off the core that it sets. -/
theorem trapReturn : Obligations.TrapReturn := by
  unfold Obligations.TrapReturn
  intro s
  refine ⟨fun hp => ?priv, fun hp hv => ?tretState, fun hp hv ho => ?ctxState, fun hp hv ho hx => ?resident, fun hp hv ho hx => ?switch⟩
  case priv => simp [exec_tret, hp]
  case tretState => simp [exec_tret, hp, hv]
  case ctxState => simp [exec_tret, hp, hv, ho]
  case resident =>
    refine ⟨_, exec_tret_returns hp hv ho, ?_⟩
    rw [s.trapReturn_resident s.cur hx]
    refine ⟨fun _ => rfl, fun j hj => s.core_setCore_other _ _ _ hj, ?_⟩
    simp only [State.KeepsS, State.KeepsF, State.core_setCore_same]
    exact ⟨rfl, rfl, rfl, rfl, rfl, rfl, rfl, rfl, rfl, fun _ => rfl, fun _ => rfl, rfl⟩
  case switch =>
    refine ⟨_, s.me.trapStart, exec_tret_returns hp hv ho, ?_⟩
    rw [s.trapReturn_switch s.cur hx]
    refine ⟨s.onlyCore_setCore _ _, ?_⟩
    simp only [State.KeepsS, State.core_setCore_same]
    exact ⟨rfl, rfl, rfl, rfl, rfl, rfl, rfl, rfl, rfl, fun _ => rfl⟩

end Sys2Proof.Machine
end

section
/-! PROOFS. The order of fkey's keys (R259). An FP32 pattern other than a NaN stands for a magnitude in units of 2^-149, with
its sign; the magnitude grows with the low 31 bits of the pattern, and so does the key, upwards or downwards by the sign. -/

namespace Sys2Proof.Machine

/-! ## The magnitude of an FP32 pattern -/

/-- The magnitude that the low 31 bits `g` of an FP32 pattern stand for (R26), in units of 2^-149; an infinity is given what its
exponent would stand for, which is above every finite one. -/
def units32 (g : Nat) : Nat := if g / 2 ^ 23 = 0 then g % 2 ^ 23 else (2 ^ 23 + g % 2 ^ 23) * 2 ^ (g / 2 ^ 23 - 1)

/-- The low 31 bits of the infinities. -/
def inf32 : Nat := 255 * 2 ^ 23

theorem units32_mul_add (q : Nat) {r : Nat} (hr : r < 2 ^ 23) :
    units32 (2 ^ 23 * q + r) = if q = 0 then r else (2 ^ 23 + r) * 2 ^ (q - 1) := by
  rw [units32, Nat.mul_add_div (Nat.two_pow_pos 23), Nat.div_eq_of_lt hr, Nat.mul_add_mod, Nat.mod_eq_of_lt hr, Nat.add_zero]

/-- One more in the pattern is one more unit in the last place, across a change of exponent too. -/
theorem units32_lt_succ (g : Nat) : units32 g < units32 (g + 1) := by
  have hr : g % 2 ^ 23 < 2 ^ 23 := Nat.mod_lt _ (Nat.two_pow_pos 23)
  rw [← Nat.div_add_mod g (2 ^ 23), Nat.add_assoc, units32_mul_add _ hr]
  generalize g / 2 ^ 23 = q, g % 2 ^ 23 = r at hr
  rcases Nat.lt_or_ge (r + 1) (2 ^ 23) with h | h
  · rw [units32_mul_add _ h]
    split
    · exact Nat.lt_succ_self r
    · exact Nat.mul_lt_mul_of_pos_right (by omega) (Nat.two_pow_pos _)
  · rw [show 2 ^ 23 * q + (r + 1) = 2 ^ 23 * (q + 1) + 0 by omega, units32_mul_add _ (Nat.two_pow_pos 23), if_neg (Nat.succ_ne_zero q)]
    cases q with
    | zero => simpa using hr
    | succ p =>
      rw [if_neg (Nat.succ_ne_zero p), Nat.add_sub_cancel, Nat.add_sub_cancel]
      calc (2 ^ 23 + r) * 2 ^ p < (2 ^ 23 + 2 ^ 23) * 2 ^ p := Nat.mul_lt_mul_of_pos_right (by omega) (Nat.two_pow_pos _)
        _ = (2 ^ 23 + 0) * 2 ^ (p + 1) := by
          have hp : 2 ^ (p + 1) = 2 ^ p * 2 := Nat.pow_succ 2 p
          omega

theorem units32_lt_of_lt {g h : Nat} (hgh : g < h) : units32 g < units32 h := by
  induction h with
  | zero => exact absurd hgh (Nat.not_lt_zero g)
  | succ h ih =>
    rcases Nat.lt_or_eq_of_le (Nat.le_of_lt_succ hgh) with hlt | rfl
    · exact Nat.lt_trans (ih hlt) (units32_lt_succ h)
    · exact units32_lt_succ g

theorem units32_lt_iff {g h : Nat} : units32 g < units32 h ↔ g < h := by
  refine ⟨fun hu => Nat.lt_of_not_le fun hle => ?_, units32_lt_of_lt⟩
  rcases Nat.lt_or_eq_of_le hle with hlt | rfl
  · exact Nat.lt_asymm hu (units32_lt_of_lt hlt)
  · exact Nat.lt_irrefl _ hu

/-! ## The value of an FP32 pattern -/

/-- The low 31 bits of a pattern. -/
def mag32 (x : BitVec 32) : Nat := x.toNat % 2 ^ 31

/-- `u` with a sign. -/
def signed (neg : Bool) (u : Nat) : Int := if neg then -(u : Int) else u

/-- The value `v` has the sign `neg` and the magnitude `u` in units of 2^-149, or is that infinity. -/
inductive FVal.Measures : FVal → Bool → Nat → Prop
  | inf (neg : Bool) : Measures (.inf neg) neg (units32 inf32)
  | fin (neg : Bool) (m : Nat) (e : Int) (he : -149 ≤ e) (hlt : m * 2 ^ (e + 149).toNat < units32 inf32) :
    Measures (.fin neg m e) neg (m * 2 ^ (e + 149).toNat)

theorem isNaN32_iff (x : BitVec 32) : IsNaN32 x ↔ inf32 < mag32 x := by
  simp only [IsNaN32, fld, mag32, inf32]
  omega

theorem msb_iff (x : BitVec 32) : x.msb = true ↔ x.toNat / 2 ^ 31 % 2 = 1 := by
  rw [BitVec.msb_eq_decide, decide_eq_true_eq]
  omega

/-- The three cases of R26 for FP32. -/
theorem decode_f32 (x : BitVec 32) : FVal.decode .f32 x.toNat =
    if mag32 x / 2 ^ 23 = 255 then if mag32 x % 2 ^ 23 = 0 then .inf x.msb else .nan
    else if mag32 x / 2 ^ 23 = 0 then .fin x.msb (mag32 x % 2 ^ 23) (-149)
    else .fin x.msb (2 ^ 23 + mag32 x % 2 ^ 23) ((mag32 x / 2 ^ 23 : Nat) - 150) := by
  have hs : (x.toNat / 2 ^ 31 % 2 == 1) = x.msb := by rw [Bool.eq_iff_iff, beq_iff_eq, msb_iff]
  have hx : x.toNat / 2 ^ 23 % 2 ^ 8 = mag32 x / 2 ^ 23 := by simp only [mag32]; omega
  have hm : x.toNat % 2 ^ 23 = mag32 x % 2 ^ 23 := by simp only [mag32]; omega
  have he (n : Nat) : (n : Int) - 127 - 23 = n - 150 := by omega
  rw [← hs, ← hx, ← hm, ← he]
  simp only [FVal.decode, Fmt.f32, Bool.false_eq_true, if_false, beq_iff_eq]
  rfl

theorem decode_f32_eq_nan_iff (x : BitVec 32) : FVal.decode .f32 x.toNat = .nan ↔ IsNaN32 x := by
  have hg : mag32 x < 2 ^ 31 := Nat.mod_lt _ (Nat.two_pow_pos 31)
  rw [decode_f32, isNaN32_iff, inf32]
  split
  · split
    · simp only [reduceCtorEq, false_iff]; omega
    · simp only [true_iff]; omega
  · split <;> simp only [reduceCtorEq, false_iff] <;> omega

/-- A pattern that is no NaN has its own sign and the magnitude of its low 31 bits. -/
theorem decode_f32_measures {x : BitVec 32} (hx : ¬ IsNaN32 x) :
    (FVal.decode .f32 x.toNat).Measures x.msb (units32 (mag32 x)) := by
  rw [isNaN32_iff] at hx
  have below (h : mag32 x / 2 ^ 23 ≠ 255) : units32 (mag32 x) < units32 inf32 :=
    units32_lt_of_lt (by simp only [inf32] at hx ⊢; omega)
  rw [decode_f32]
  split
  · next h =>
    have hm : mag32 x = inf32 := by simp only [inf32] at hx ⊢; omega
    rw [if_pos (by rw [hm]; decide), hm]
    exact .inf _
  · next h =>
    split
    · next h0 =>
      have e : units32 (mag32 x) = mag32 x % 2 ^ 23 * 2 ^ ((-149 : Int) + 149).toNat := by
        rw [units32, if_pos h0]; simp
      rw [e] at below ⊢
      exact .fin _ _ _ (by omega) (below h)
    · next h0 =>
      have e : units32 (mag32 x) =
          (2 ^ 23 + mag32 x % 2 ^ 23) * 2 ^ (((mag32 x / 2 ^ 23 : Nat) : Int) - 150 + 149).toNat := by
        rw [units32, if_neg h0]
        congr 2
        omega
      rw [e] at below ⊢
      exact .fin _ _ _ (by omega) (below h)

/-! ## Comparing values is comparing their signed magnitudes -/

theorem scaled_eq_signed (neg : Bool) (m : Nat) (e e0 : Int) : scaled neg m e e0 = signed neg (m * 2 ^ (e - e0).toNat) := by
  simp only [scaled, signed]
  push_cast
  rfl

theorem signed_mul (neg : Bool) (u k : Nat) : signed neg u * (k : Int) = signed neg (u * k) := by
  cases neg with
  | false => exact (Int.natCast_mul u k).symm
  | true => exact (Int.neg_mul _ _).trans (congrArg _ (Int.natCast_mul u k).symm)

/-- A scaled mantissa, brought to units of 2^-149. -/
theorem scaled_mul_pow (neg : Bool) (m : Nat) {e e0 : Int} (h0 : -149 ≤ e0) (he : e0 ≤ e) :
    scaled neg m e e0 * ((2 ^ (e0 + 149).toNat : Nat) : Int) = signed neg (m * 2 ^ (e + 149).toNat) := by
  have hsum : (e - e0).toNat + (e0 + 149).toNat = (e + 149).toNat := by omega
  rw [scaled_eq_signed, signed_mul, Nat.mul_assoc, ← Nat.pow_add, hsum]

theorem sign_eq_neg_one_iff (v : Int) : (some (if v = 0 then 0 else if v < 0 then -1 else 1) : Option Int) = some (-1) ↔ v < 0 := by
  rw [Option.some.injEq]
  split
  · omega
  · split <;> omega

theorem cmp_fin_eq_neg_one_iff (n1 n2 : Bool) (m1 m2 : Nat) {e1 e2 : Int} (h1 : -149 ≤ e1) (h2 : -149 ≤ e2) :
    (FVal.fin n1 m1 e1).cmp (.fin n2 m2 e2) = some (-1) ↔
      signed n1 (m1 * 2 ^ (e1 + 149).toNat) < signed n2 (m2 * 2 ^ (e2 + 149).toNat) := by
  obtain ⟨e0, he0, h0, hle1, hle2⟩ : ∃ e0, (if e1 ≤ e2 then e1 else e2) = e0 ∧ -149 ≤ e0 ∧ e0 ≤ e1 ∧ e0 ≤ e2 := by
    refine ⟨_, rfl, ?_⟩
    split <;> omega
  have hpos : (0 : Int) < ((2 ^ (e0 + 149).toNat : Nat) : Int) := Int.natCast_pos.2 (Nat.two_pow_pos _)
  have hsub (a b : Int) : a - b < 0 ↔ a < b := by omega
  rw [← scaled_mul_pow n1 m1 h0 hle1, ← scaled_mul_pow n2 m2 h0 hle2, Int.mul_lt_mul_right hpos, ← hsub]
  simp only [FVal.cmp, he0]
  exact sign_eq_neg_one_iff _

theorem signed_lt_same (n1 n2 : Bool) {u : Nat} (h : 0 < u) : signed n1 u < signed n2 u ↔ n1 = true ∧ n2 = false := by
  cases n1 <;> cases n2 <;> simp [signed]
  omega

theorem signed_lt_of_lt (n1 n2 : Bool) {u1 u2 : Nat} (h : u1 < u2) : signed n1 u1 < signed n2 u2 ↔ n2 = false := by
  cases n1 <;> cases n2 <;> simp [signed] <;> omega

theorem signed_lt_of_gt (n1 n2 : Bool) {u1 u2 : Nat} (h : u2 < u1) : signed n1 u1 < signed n2 u2 ↔ n1 = true := by
  cases n1 <;> cases n2 <;> simp [signed] <;> omega

theorem FVal.cmp_eq_neg_one_iff {v w : FVal} {n1 n2 : Bool} {u1 u2 : Nat} (hv : v.Measures n1 u1) (hw : w.Measures n2 u2) :
    v.cmp w = some (-1) ↔ signed n1 u1 < signed n2 u2 := by
  have hpos : 0 < units32 inf32 := units32_lt_of_lt (g := 0) (by decide)
  cases hv with
  | inf =>
    cases hw with
    | inf => rw [signed_lt_same _ _ hpos]; cases n1 <;> cases n2 <;> simp [FVal.cmp]
    | fin _ m e he hlt => rw [signed_lt_of_gt _ _ hlt]; cases n1 <;> simp [FVal.cmp]
  | fin _ m e he hlt =>
    cases hw with
    | inf => rw [signed_lt_of_lt _ _ hlt]; cases n2 <;> simp [FVal.cmp]
    | fin _ m' e' he' hlt' => exact cmp_fin_eq_neg_one_iff _ _ _ _ he he'

/-! ## The key -/

theorem fkeyOf_nan {x : BitVec 32} (h : IsNaN32 x) : fkeyOf x = 0xFFFFFFFF := if_pos ((decode_f32_eq_nan_iff x).2 h)

theorem fkeyOf_of_not_nan {x : BitVec 32} (h : ¬ IsNaN32 x) : fkeyOf x = if x.msb then ~~~x else x ^^^ 0x80000000 :=
  if_neg (mt (decode_f32_eq_nan_iff x).1 h)

theorem toNat_xor_signBit {x : BitVec 32} (h : x.msb = false) : (x ^^^ 0x80000000).toNat = 2 ^ 31 + x.toNat := by
  rw [BitVec.msb_eq_decide, decide_eq_false_iff_not, Nat.not_le] at h
  rw [BitVec.toNat_xor, show (0x80000000 : BitVec 32).toNat = 2 ^ 31 from rfl]
  refine Nat.eq_of_testBit_eq fun i => ?_
  have e := Nat.testBit_two_pow_mul_add 1 h i
  rw [Nat.mul_one] at e
  rw [e, Nat.testBit_xor, Nat.testBit_two_pow]
  have hhigh (hi : 31 ≤ i) : x.toNat.testBit i = false :=
    Nat.testBit_lt_two_pow (Nat.lt_of_lt_of_le h (Nat.pow_le_pow_right Nat.two_pos hi))
  rcases Nat.lt_trichotomy i 31 with hi | rfl | hi
  · simp [hi, Nat.ne_of_gt hi]
  · simp [hhigh]
  · rw [hhigh (Nat.le_of_lt hi), if_neg (by omega), show (1 : Nat) = 2 ^ 0 from rfl, Nat.testBit_two_pow]
    rw [decide_eq_false (Nat.ne_of_lt hi), decide_eq_false (by omega)]; rfl

/-- The key counts downwards below 2^31 for a negative pattern and upwards from it for another. -/
theorem toNat_fkeyOf {x : BitVec 32} (h : ¬ IsNaN32 x) :
    (fkeyOf x).toNat = if x.msb then 2 ^ 31 - 1 - mag32 x else 2 ^ 31 + mag32 x := by
  rw [fkeyOf_of_not_nan h]
  have hx := x.isLt
  cases hs : x.msb with
  | true =>
    rw [BitVec.msb_eq_decide, decide_eq_true_eq] at hs
    simp only [if_true, BitVec.toNat_not, mag32]
    omega
  | false =>
    rw [if_neg (by decide), if_neg (by decide), toNat_xor_signBit hs, mag32]
    rw [BitVec.msb_eq_decide, decide_eq_false_iff_not] at hs
    omega

theorem eq_negZero_iff (x : BitVec 32) : x = 0x80000000 ↔ x.msb = true ∧ mag32 x = 0 := by
  rw [← BitVec.toNat_inj, BitVec.msb_eq_decide, decide_eq_true_eq, mag32]
  have := x.isLt
  rw [show (0x80000000 : BitVec 32).toNat = 2 ^ 31 from rfl]
  omega

theorem eq_zero_iff (x : BitVec 32) : x = 0 ↔ x.msb = false ∧ mag32 x = 0 := by
  rw [← BitVec.toNat_inj, BitVec.msb_eq_decide, decide_eq_false_iff_not, mag32]
  have := x.isLt
  rw [show (0 : BitVec 32).toNat = 0 from rfl]
  omega

/-- The keys order as the signed magnitudes do, but that -0 stands below +0. -/
theorem fkeyOf_lt_iff {x y : BitVec 32} (hx : ¬ IsNaN32 x) (hy : ¬ IsNaN32 y) : (fkeyOf x).toNat < (fkeyOf y).toNat ↔
    signed x.msb (units32 (mag32 x)) < signed y.msb (units32 (mag32 y)) ∨ (x = 0x80000000 ∧ y = 0) := by
  have hz := units32_lt_iff (g := 0) (h := mag32 x)
  have hz' := units32_lt_iff (g := 0) (h := mag32 y)
  have hlt := units32_lt_iff (g := mag32 x) (h := mag32 y)
  have hgt := units32_lt_iff (g := mag32 y) (h := mag32 x)
  have h0 : units32 0 = 0 := rfl
  rw [toNat_fkeyOf hx, toNat_fkeyOf hy, eq_negZero_iff, eq_zero_iff]
  have hgx : mag32 x < 2 ^ 31 := Nat.mod_lt _ (Nat.two_pow_pos 31)
  have hgy : mag32 y < 2 ^ 31 := Nat.mod_lt _ (Nat.two_pow_pos 31)
  -- in each of the four sign cases both sides are linear in the two low parts and their magnitudes
  cases x.msb <;> cases y.msb <;> simp [signed] <;> omega

theorem CoreSt.ofNat_rdFn (k : CoreSt) (a : BitVec 5) : BitVec.ofNat 32 (k.rdFn a 32) = (k.rdF a.toNat).truncate 32 := by
  apply BitVec.eq_of_toNat_eq
  simp [CoreSt.rdFn]

theorem CoreSt.raise_zero (k : CoreSt) : k.raise 0 = k := by
  have h : k.fflags ||| 0 = k.fflags := BitVec.or_zero
  rw [CoreSt.raise, h]

theorem State.setsS_fkey (s : State) {d a : BitVec 5} (h : s.Ready [] [a.toNat] [d.toNat] []) : ∃ t, exec (.fkey d a) s = .next t ∧
    s.SetsS t 4 d.toNat ((fkeyOf ((s.me.rdF a.toNat).truncate 32)).zeroExtend 64) := by
  rw [← CoreSt.ofNat_rdFn]
  exact ⟨_, rfl, s.setsS_inPlace h (congrArg (·.issue 4) (CoreSt.raise_zero _))⟩

/-- Settles O14: the key is that of R259's formula, and it and `FVal.cmp` follow the signed magnitude of a pattern. -/
theorem fkeyOrdersAsTheValues : Obligations.FkeyOrdersAsTheValues := by
  unfold Obligations.FkeyOrdersAsTheValues
  refine ⟨fun s d a h => ?_, fun x y hx hy => ?_, fun x => fkeyOf_nan, fun x hx => ?_, by decide +kernel, by decide +kernel,
    by decide +kernel, by decide +kernel, by decide +kernel, by decide +kernel⟩
  · obtain ⟨t, he, w⟩ := s.setsS_fkey h
    exact ⟨t, _, he, w.inPlace, w.writes, w.keepsF, w.fflags, fkeyOf_nan, fun hn hs => by rw [fkeyOf_of_not_nan hn, hs]; rfl,
      fun hn hs => by rw [fkeyOf_of_not_nan hn, hs]; rfl⟩
  · rw [fkeyOf_lt_iff hx hy, FVal.cmp_eq_neg_one_iff (decode_f32_measures hx) (decode_f32_measures hy)]
  · rw [isNaN32_iff, inf32] at hx
    rw [toNat_fkeyOf (mt (isNaN32_iff x).1 hx)]
    split <;> omega

end Sys2Proof.Machine
end

section
/-! PROOFS. The barrier step (R353): its four words, the parks that it wakes (R359) and the watchers that it notifies (R357). -/

namespace Sys2Proof.Machine

/-! ## Words of memory -/

theorem State.read_setWord_other (s : State) {pa a : Nat} (v : BitVec 32) (h : a < pa ∨ pa + 4 ≤ a) :
    (s.setWord pa v).mem.read a = s.mem.read a :=
  s.read_storeBytes_other _ (by rwa [bytesLE_length])

/-! ## Park slots whose events happen (R248) -/

/-- The larger of `n` and the turn of a slot whose event has happened. -/
def maxTurn (n : Nat) (e : Nat × Park) : Nat := if e.2.fired.isSome then max n e.2.turn else n

/-- The turn that `CoreSt.firePark` gives to the slots whose events happen now. -/
def CoreSt.nextTurn (k : CoreSt) : Nat := 1 + k.parks.foldl maxTurn 0

theorem CoreSt.firePark_parks (k : CoreSt) (hit : Park → Option Word) :
    (k.firePark hit).parks = k.parks.map fun (i, p) => (i,
      if p.fired.isSome then p
      else match hit p with
        | some v => { p with fired := some v, turn := k.nextTurn }
        | none => p) := rfl

theorem le_foldl_turn (l : Table Park) (n : Nat) : n ≤ l.foldl maxTurn n := by
  induction l generalizing n with
  | nil => exact Nat.le_refl n
  | cons e l ih =>
    refine Nat.le_trans ?_ (ih (maxTurn n e))
    unfold maxTurn
    split <;> omega

theorem turn_le_foldl_turn {l : Table Park} {e : Nat × Park} (he : e ∈ l) (hf : e.2.fired.isSome = true) (n : Nat) :
    e.2.turn ≤ l.foldl maxTurn n := by
  induction l generalizing n with
  | nil => exact absurd he List.not_mem_nil
  | cons d l ih =>
    rcases List.mem_cons.1 he with rfl | he
    · rw [List.foldl_cons, maxTurn, if_pos hf]
      exact Nat.le_trans (Nat.le_max_right ..) (le_foldl_turn l _)
    · exact ih he _

theorem CoreSt.turn_lt_nextTurn {k : CoreSt} {e : Nat × Park} (he : e ∈ k.parks) (hf : e.2.fired.isSome = true) :
    e.2.turn < k.nextTurn := by
  have := turn_le_foldl_turn he hf 0
  rw [CoreSt.nextTurn]
  omega

theorem Table.get_map {α : Type} (f : α → α) (dflt : α) (t : Table α) (j : Nat) :
    Table.get (f dflt) (t.map fun (k, v) => (k, f v)) j = f (Table.get dflt t j) := by
  induction t with
  | nil => rfl
  | cons e t ih =>
    simp only [List.map_cons, Table.get, ih]
    split <;> rfl

/-- Each core fires its own parks; one that the table does not hold has none. -/
theorem State.core_firePark (s : State) (hit : Park → Option Word) (c : Nat) :
    (s.firePark hit).core c = (s.core c).firePark hit :=
  Table.get_map (fun k : CoreSt => k.firePark hit) CoreSt.reset s.cores c

/-- A park.bar on the barrier whose recorded count differs from the barrier's takes its value and the next turn (R359). -/
theorem State.parks_wakeBar (s : State) (pa c : Nat) :
    ((s.wakeBar pa).core c).parks = (s.core c).parks.map fun (i, p) => (i,
      if p.fired = none ∧ p.form = 5 ∧ p.target = pa ∧ p.count ≠ (s.barCount pa).toNat then
        { p with fired := some (BitVec.ofNat 64 (p.count % 2)), turn := (s.core c).nextTurn }
      else p) := by
  rw [State.wakeBar, State.core_firePark, CoreSt.firePark_parks]
  refine List.map_congr_left fun ⟨i, p⟩ _ => congrArg (Prod.mk i) ?_
  cases hf : p.fired with
  | some v => simp
  | none =>
    by_cases hw : p.form = 5 ∧ p.target = pa ∧ p.count ≠ (s.barCount pa).toNat
    · simp [hw]
    · simp [hw]

/-! ## What a slot emits leaves the other slots alone (R229) -/

@[simp] theorem Site.slot_setSlot_same (t : Site) (n : Nat) (c : Cfg) : (t.setSlot n c).slot n = c := Table.get_put_same _ _ _ _

theorem Site.slot_setSlot_other (t : Site) {n m : Nat} (c : Cfg) (h : m ≠ n) : (t.setSlot n c).slot m = t.slot m :=
  Table.get_put_other _ _ _ h

/-- The packet that slot `n` with context `c` sends on port `j`, as it stands in the pipeline. -/
def Cfg.result (c : Cfg) (n j : Nat) (o : Out) : Result :=
  let q := c.outPort j
  { port := j, ord := q.ord,
    pkt := { kind := o.kind, elems := if o.kind = 1 then [BitVec.ofNat 32 (q.eosCount o.aux.toNat)] else o.elems, last := o.last,
             aux := o.aux, ord := q.ord, slot := n, tag := o.tag } }

/-- A context once port `j` has given the packet `o` its ordinal. -/
def Cfg.sent (c : Cfg) (j : Nat) (o : Out) : Cfg :=
  let q := { c.outPort j with ord := (c.outPort j).ord + 1 }
  c.setOut j (if o.kind = 1 then { q with eosAt := Table.put q.eosAt o.aux.toNat q.ord } else q)

theorem Site.emit_eq (t : Site) (n j : Nat) (o : Out) : t.emit n j o =
    if ((t.slot n).result n j o).pkt.counts then
      { t.setSlot n ((t.slot n).sent j o) with pipe := t.pipe ++ [(t.slot n).result n j o] }
    else { t with pipe := t.pipe ++ [(t.slot n).result n j o] } := rfl

theorem Site.pipe_emit (t : Site) (n j : Nat) (o : Out) : (t.emit n j o).pipe = t.pipe ++ [(t.slot n).result n j o] := by
  rw [Site.emit_eq]
  split <;> rfl

theorem Site.slot_emit_same (t : Site) (n j : Nat) (o : Out) : (t.emit n j o).slot n =
    if ((t.slot n).result n j o).pkt.counts then (t.slot n).sent j o else t.slot n := by
  rw [Site.emit_eq]
  split
  · exact t.slot_setSlot_same n _
  · rfl

theorem Site.slot_emit_other (t : Site) {n m : Nat} (j : Nat) (o : Out) (h : m ≠ n) : (t.emit n j o).slot m = t.slot m := by
  rw [Site.emit_eq]
  split
  · exact t.slot_setSlot_other _ h
  · rfl

theorem Site.slot_emitAll_other (t : Site) {n m : Nat} (js : List Nat) (o : Out) (h : m ≠ n) :
    (t.emitAll n js o).slot m = t.slot m := by
  induction js generalizing t with
  | nil => rfl
  | cons j js ih => exact (ih (t.emit n j o)).trans (t.slot_emit_other j o h)

/-- `t` and `u` have the same slot `n` and the same pipeline. -/
def Site.SameOut (n : Nat) (t u : Site) : Prop := t.slot n = u.slot n ∧ t.pipe = u.pipe

/-- What slot `n` sends depends on no other slot. -/
theorem Site.SameOut.emit {n : Nat} {t u : Site} (h : Site.SameOut n t u) (j : Nat) (o : Out) :
    Site.SameOut n (t.emit n j o) (u.emit n j o) := by
  obtain ⟨hs, hp⟩ := h
  simp only [Site.SameOut, Site.slot_emit_same, Site.pipe_emit, hs, hp, and_self]

theorem Site.SameOut.emitAll {n : Nat} {t u : Site} (h : Site.SameOut n t u) (js : List Nat) (o : Out) :
    Site.SameOut n (t.emitAll n js o) (u.emitAll n js o) := by
  induction js generalizing t u with
  | nil => exact h
  | cons j js ih => exact ih (h.emit j o)

/-! ## The watchers of a barrier (R357) -/

/-- What a completed phase of the barrier at word `x` does to slot `n` of its site, where `cur` is the current slot. -/
def Site.notifySlot (cur : Option Nat) (x : Nat) (count : BitVec 32) (t : Site) (n : Nat) : Site :=
  if ¬ isWatcher (t.slot n) x then t
  else if cur = some n then t.emitAll n (mtDataPorts (t.slot n).elem) { elems := [count] }
  else t.setSlot n { t.slot n with missed := (t.slot n).missed ++ [count] }

section
variable {cur : Option Nat} {x : Nat} {count : BitVec 32} {t : Site} {n m : Nat}

theorem Site.notifySlot_current (hw : isWatcher (t.slot n) x = true) :
    t.notifySlot (some n) x count n = t.emitAll n (mtDataPorts (t.slot n).elem) { elems := [count] } := by
  simp [Site.notifySlot, hw]

theorem Site.notifySlot_missed (hw : isWatcher (t.slot n) x = true) (hc : cur ≠ some n) :
    t.notifySlot cur x count n = t.setSlot n { t.slot n with missed := (t.slot n).missed ++ [count] } := by
  simp [Site.notifySlot, hw, hc]

theorem Site.slot_notifySlot_other (h : m ≠ n) : (t.notifySlot cur x count n).slot m = t.slot m := by
  unfold Site.notifySlot
  split
  · rfl
  · split
    · exact t.slot_emitAll_other _ _ h
    · exact t.slot_setSlot_other _ h

theorem Site.pipe_notifySlot_other (h : cur ≠ some n) : (t.notifySlot cur x count n).pipe = t.pipe := by
  by_cases hw : isWatcher (t.slot n) x = true
  · rw [Site.notifySlot_missed hw h]
    rfl
  · rw [Site.notifySlot, if_pos hw]

theorem Site.slot_foldl_notifySlot_other {l : List Nat} (h : m ∉ l) :
    (l.foldl (Site.notifySlot cur x count) t).slot m = t.slot m := by
  induction l generalizing t with
  | nil => rfl
  | cons n l ih =>
    obtain ⟨hn, hl⟩ := List.ne_and_not_mem_of_not_mem_cons h
    exact (ih hl).trans (Site.slot_notifySlot_other hn)

theorem Site.pipe_foldl_notifySlot_other {l : List Nat} (h : m ∉ l) :
    (l.foldl (Site.notifySlot (some m) x count) t).pipe = t.pipe := by
  induction l generalizing t with
  | nil => rfl
  | cons n l ih =>
    obtain ⟨hn, hl⟩ := List.ne_and_not_mem_of_not_mem_cons h
    exact (ih hl).trans (Site.pipe_notifySlot_other fun e => hn (Option.some.inj e))

end

/-- The four slots are distinct: those before slot `m` and those after it are others. -/
theorem range_four_split {m : Nat} (h : m < 4) : ∃ l r, List.range 4 = l ++ m :: r ∧ m ∉ l ∧ m ∉ r := by
  obtain ⟨l, r, e⟩ := List.append_of_mem (List.mem_range.2 h)
  have hn : (l ++ m :: r).Nodup := e ▸ List.nodup_range
  obtain ⟨-, hmr, hne⟩ := List.nodup_append.1 hn
  exact ⟨l, r, e, fun hl => hne m hl m List.mem_cons_self rfl, (List.nodup_cons.1 hmr).1⟩

/-- What notifying the four slots of a site leaves at it. -/
def Site.notify (cur : Option Nat) (x : Nat) (count : BitVec 32) (t : Site) : Site :=
  (List.range 4).foldl (Site.notifySlot cur x count) t

/-- A watcher of a slot that is not current keeps the count. -/
theorem Site.missed_notify {cur : Option Nat} {x m : Nat} {t : Site} (count : BitVec 32) (hm : m < 4)
    (hw : isWatcher (t.slot m) x = true) (hc : cur ≠ some m) :
    ((t.notify cur x count).slot m).missed = (t.slot m).missed ++ [count] := by
  obtain ⟨l, r, e, hl, hr⟩ := range_four_split hm
  have hs : (l.foldl (Site.notifySlot cur x count) t).slot m = t.slot m := Site.slot_foldl_notifySlot_other hl
  rw [Site.notify, e, List.foldl_append, List.foldl_cons, Site.slot_foldl_notifySlot_other hr,
    Site.notifySlot_missed (hs ▸ hw) hc, Site.slot_setSlot_same, hs]

/-- A current watcher emits one packet of the count, and no other slot sends anything. -/
theorem Site.sameOut_notify {x m : Nat} {t : Site} (count : BitVec 32) (hm : m < 4) (hw : isWatcher (t.slot m) x = true) :
    Site.SameOut m (t.notify (some m) x count) (t.emitAll m (mtDataPorts (t.slot m).elem) { elems := [count] }) := by
  obtain ⟨l, r, e, hl, hr⟩ := range_four_split hm
  have hs : Site.SameOut m (l.foldl (Site.notifySlot (some m) x count) t) t :=
    ⟨Site.slot_foldl_notifySlot_other hl, Site.pipe_foldl_notifySlot_other hl⟩
  have he := hs.emitAll (mtDataPorts (t.slot m).elem) { elems := [count] }
  rw [Site.notify, e, List.foldl_append, List.foldl_cons, Site.notifySlot_current (hs.1 ▸ hw), hs.1]
  exact ⟨(Site.slot_foldl_notifySlot_other hr).trans he.1, (Site.pipe_foldl_notifySlot_other hr).trans he.2⟩

/-- One slot's part of `State.notifyWatchers`. -/
def State.notifySlot (cur : Option Nat) (p x : Nat) (count : BitVec 32) (s : State) (n : Nat) : State :=
  let t := s.site p
  let c := t.slot n
  if ¬ isWatcher c x then s
  else if cur = some n then s.setSite p (t.emitAll n (mtDataPorts c.elem) { elems := [count] })
  else s.setSite p (t.setSlot n { c with missed := c.missed ++ [count] })

theorem State.notifyWatchers_eq (s : State) (p x : Nat) (count : BitVec 32) :
    s.notifyWatchers p x count = (List.range 4).foldl (State.notifySlot (s.curSlot p) p x count) s := rfl

theorem State.site_notifySlot (cur : Option Nat) (p x : Nat) (count : BitVec 32) (s : State) (n : Nat) :
    (s.notifySlot cur p x count n).site p = (s.site p).notifySlot cur x count n := by
  simp only [State.notifySlot, Site.notifySlot]
  split
  · rfl
  · split <;> exact s.site_setSite_same p _

theorem State.notifySlot_frame (cur : Option Nat) (p x : Nat) (count : BitVec 32) (s : State) (n : Nat) :
    s.notifySlot cur p x count n = { s with sites := (s.notifySlot cur p x count n).sites } := by
  simp only [State.notifySlot]
  split
  · rfl
  · split <;> rfl

theorem State.site_notifyWatchers (s : State) (p x : Nat) (count : BitVec 32) :
    (s.notifyWatchers p x count).site p = (s.site p).notify (s.curSlot p) x count := by
  rw [State.notifyWatchers_eq, Site.notify]
  exact (List.foldl_hom (·.site p) fun s n => (State.site_notifySlot _ p x count s n).symm).symm

/-- Notifying watchers changes nothing but sites. -/
theorem State.notifyWatchers_frame (s : State) (p x : Nat) (count : BitVec 32) :
    s.notifyWatchers p x count = { s with sites := (s.notifyWatchers p x count).sites } := by
  rw [State.notifyWatchers_eq]
  generalize s.curSlot p = cur
  induction List.range 4 generalizing s with
  | nil => rfl
  | cons n l ih =>
    rw [List.foldl_cons, ih (s.notifySlot cur p x count n), State.notifySlot_frame]

/-! ## The step (R353) -/

/-- The barrier at `pa` once the step's bytes and arrivals are counted: `bytes` outstanding and `rem` arrivals remaining. -/
def State.barAdvance (s : State) (pa : Nat) (bytes : BitVec 32) (rem : Nat) : State :=
  (s.setWord pa bytes).setWord (pa + 4) (BitVec.ofNat 32 rem)

/-- The barrier at `pa` once its phase has completed and the next has begun. -/
def State.barRestart (s : State) (pa : Nat) : State :=
  (s.setWord (pa + 12) (s.barCount pa + 1)).setWord (pa + 4) (s.barInitW pa)

/-- The barrier's completed phase becomes known: it wakes parks and, in a tile's data window, notifies watchers. -/
def State.barAnnounce (s : State) (pa : Nat) : State :=
  let w := s.wakeBar pa
  match tileOf pa with
  | some (p, x) => w.notifyWatchers p x (w.barCount pa)
  | none => w

theorem State.barAnnounce_frame (s : State) (pa : Nat) :
    s.barAnnounce pa = { s.wakeBar pa with sites := (s.barAnnounce pa).sites } := by
  unfold State.barAnnounce
  split
  · exact State.notifyWatchers_frame ..
  · rfl

theorem State.site_barAnnounce (s : State) {pa p x : Nat} (h : tileOf pa = some (p, x)) :
    (s.barAnnounce pa).site p = (s.site p).notify (s.curSlot p) x (s.barCount pa) := by
  rw [State.barAnnounce, h]
  exact State.site_notifyWatchers (s.wakeBar pa) p x _

section
variable (s : State) (pa : Nat)

@[simp] theorem State.mem_barAnnounce : (s.barAnnounce pa).mem = s.mem := by
  rw [State.barAnnounce_frame]; rfl

@[simp] theorem State.fullBits_barAnnounce : (s.barAnnounce pa).fullBits = s.fullBits := by
  rw [State.barAnnounce_frame]; rfl

@[simp] theorem State.core_barAnnounce (c : Nat) : (s.barAnnounce pa).core c = (s.wakeBar pa).core c := by
  rw [State.barAnnounce_frame]; rfl

@[simp] theorem State.word_barAnnounce (a : Nat) : (s.barAnnounce pa).word a = s.word a := by
  rw [State.word, State.memNum, State.mem_barAnnounce]; rfl

@[simp] theorem State.barBytes_barAnnounce : (s.barAnnounce pa).barBytes pa = s.barBytes pa := State.word_barAnnounce ..
@[simp] theorem State.barRem_barAnnounce : (s.barAnnounce pa).barRem pa = s.barRem pa := State.word_barAnnounce ..
@[simp] theorem State.barInitW_barAnnounce : (s.barAnnounce pa).barInitW pa = s.barInitW pa := State.word_barAnnounce ..
@[simp] theorem State.barCount_barAnnounce : (s.barAnnounce pa).barCount pa = s.barCount pa := State.word_barAnnounce ..

end

section
variable {s : State} {pa n : Nat} {e y : BitVec 32}

theorem State.barStep_refused (h : (s.barRem pa).toNat < n) : s.barStep pa e y n = none := by
  simp [State.barStep, h]

theorem State.barStep_open (hn : n ≤ (s.barRem pa).toNat) (ho : ¬ (n = (s.barRem pa).toNat ∧ s.barBytes pa + e - y = 0)) :
    s.barStep pa e y n = some (s.barAdvance pa (s.barBytes pa + e - y) ((s.barRem pa).toNat - n)) := by
  have ho' : ¬ ((s.barRem pa).toNat - n = 0 ∧ s.barBytes pa + e - y = 0) := fun ⟨h0, hb⟩ => ho ⟨by omega, hb⟩
  rw [State.barStep, if_neg (Nat.not_lt.2 hn)]
  exact if_neg ho'

theorem State.barStep_completes (hn : n = (s.barRem pa).toNat) (hb : s.barBytes pa + e - y = 0) :
    s.barStep pa e y n =
      some (((s.barAdvance pa (s.barBytes pa + e - y) ((s.barRem pa).toNat - n)).barRestart pa).barAnnounce pa) := by
  have h0 : (s.barRem pa).toNat - n = 0 := by omega
  rw [State.barStep, if_neg (Nat.not_lt.2 (Nat.le_of_eq hn))]
  exact if_pos ⟨h0, hb⟩

end

section
variable (s : State) (pa rem : Nat) (bytes : BitVec 32)

theorem State.barAdvance_keepsMemory : KeepsMemory s (s.barAdvance pa bytes rem) pa 16 := fun a ha => by
  rw [State.barAdvance, State.read_setWord_other _ _ (by omega), State.read_setWord_other _ _ (by omega)]

theorem State.word_barAdvance_other {a : Nat} (h : a + 4 ≤ pa ∨ pa + 8 ≤ a) :
    (s.barAdvance pa bytes rem).word a = s.word a := by
  rw [State.barAdvance, State.word_setWord_other _ _ (by omega), State.word_setWord_other _ _ (by omega)]

@[simp] theorem State.barBytes_barAdvance : (s.barAdvance pa bytes rem).barBytes pa = bytes := by
  rw [State.barAdvance, State.barBytes, State.word_setWord_other _ _ (by omega), State.word_setWord]

@[simp] theorem State.barRem_barAdvance : (s.barAdvance pa bytes rem).barRem pa = BitVec.ofNat 32 rem := State.word_setWord ..

@[simp] theorem State.barInitW_barAdvance : (s.barAdvance pa bytes rem).barInitW pa = s.barInitW pa :=
  s.word_barAdvance_other pa rem bytes (by omega)

@[simp] theorem State.barCount_barAdvance : (s.barAdvance pa bytes rem).barCount pa = s.barCount pa :=
  s.word_barAdvance_other pa rem bytes (by omega)

theorem State.barRestart_keepsMemory : KeepsMemory s (s.barRestart pa) pa 16 := fun a ha => by
  rw [State.barRestart, State.read_setWord_other _ _ (by omega), State.read_setWord_other _ _ (by omega)]

theorem State.word_barRestart_other {a : Nat} (hrem : a ≤ pa ∨ pa + 8 ≤ a) (hcount : a + 4 ≤ pa + 12 ∨ pa + 16 ≤ a) :
    (s.barRestart pa).word a = s.word a := by
  rw [State.barRestart, State.word_setWord_other _ _ (by omega), State.word_setWord_other _ _ (by omega)]

@[simp] theorem State.barBytes_barRestart : (s.barRestart pa).barBytes pa = s.barBytes pa :=
  s.word_barRestart_other pa (by omega) (by omega)

@[simp] theorem State.barRem_barRestart : (s.barRestart pa).barRem pa = s.barInitW pa := State.word_setWord ..

@[simp] theorem State.barInitW_barRestart : (s.barRestart pa).barInitW pa = s.barInitW pa :=
  s.word_barRestart_other pa (by omega) (by omega)

@[simp] theorem State.barCount_barRestart : (s.barRestart pa).barCount pa = s.barCount pa + 1 := by
  rw [State.barRestart, State.barCount, State.word_setWord_other _ _ (by omega), State.word_setWord]

end

/-- Settles O33: by whether the step completes the phase, from the words of `State.barAdvance` and `State.barRestart`, the parks
of `State.wakeBar` and the site that `Site.notify` leaves. -/
theorem barrierStepRule : Obligations.BarrierStepRule := by
  unfold Obligations.BarrierStepRule
  intro s pa e y n _
  refine ⟨State.barStep_refused, fun hn => ?_⟩
  by_cases hc : n = (s.barRem pa).toNat ∧ s.barBytes pa + e - y = 0
  case neg =>
    refine ⟨_, State.barStep_open hn hc, s.barAdvance_keepsMemory _ _ _, rfl, s.barInitW_barAdvance ..,
      s.barBytes_barAdvance .., fun h => absurd h hc, fun _ => ⟨s.barCount_barAdvance .., ?rem, rfl, rfl⟩⟩
    rw [State.barRem_barAdvance, BitVec.toNat_ofNat, Nat.mod_eq_of_lt]
    have := (s.barRem pa).isLt
    omega
  case pos =>
    obtain ⟨hrem, hbytes⟩ := hc
    refine ⟨_, State.barStep_completes hrem hbytes, ?memory, State.fullBits_barAnnounce .., by simp, by simp, fun _ =>
      ⟨by simp, by simp, fun c => ⟨(s.core c).nextTurn, fun _ he hf => CoreSt.turn_lt_nextTurn he hf, ?parks⟩, ?watchers⟩,
      fun h => absurd ⟨hrem, hbytes⟩ h⟩
    case memory =>
      intro a ha
      rw [State.mem_barAnnounce, State.barRestart_keepsMemory _ _ a ha, State.barAdvance_keepsMemory _ _ _ _ a ha]
    case parks =>
      rw [State.core_barAnnounce, State.parks_wakeBar, State.barCount_barRestart, State.barCount_barAdvance]
      rfl
    case watchers =>
      intro p x m hp hm hw
      rw [State.site_barAnnounce _ hp, State.barCount_barRestart, State.barCount_barAdvance]
      refine ⟨fun hcur => Site.missed_notify _ hm hw hcur, fun hcur => ?_⟩
      obtain ⟨hslot, hpipe⟩ := Site.sameOut_notify (s.barCount pa + 1) hm hw
      rw [← hcur] at hslot hpipe
      exact ⟨hpipe, hslot⟩

end Sys2Proof.Machine
end
